-- ==== Sys2Proof/Word.lean ====
section
/-! DEFINITION. The 16-bit word, the four channels and the three motor axes, and the
records that hold one value per channel or per axis (00_scope.md R6, R8; 10_state.md R30). -/

namespace Sys2Proof

/-- An atom, a timer register or a laser operand: an unsigned 16-bit value (R8, R100). -/
abbrev Word := BitVec 16

/-- The four channels (R6): three stepper axes and the laser-pulse generator. -/
inductive Channel
  | x | y | z | l
  deriving DecidableEq, Repr, Inhabited

/-- The three motor channels (R14 "Motor channel"). -/
inductive Axis
  | x | y | z
  deriving DecidableEq, Repr, Inhabited

/-- The channels in the order of R6 (92_eei_decisions.md D3). -/
def Channel.all : List Channel := [.x, .y, .z, .l]

/-- The channel index of R6: `X`=0, `Y`=1, `Z`=2, `L`=3. -/
def Channel.index : Channel → Nat
  | .x => 0
  | .y => 1
  | .z => 2
  | .l => 3

/-- The motor channels in channel order. -/
def Axis.all : List Axis := [.x, .y, .z]

/-- The channel of a motor axis. -/
def Axis.channel : Axis → Channel
  | .x => .x
  | .y => .y
  | .z => .z

/-- The motor axis of a channel; the laser channel has none (R43). -/
def Channel.axis? : Channel → Option Axis
  | .x => some .x
  | .y => some .y
  | .z => some .z
  | .l => none

/-- One value for each of the four channels. -/
structure PerChan (α : Type) where
  x : α
  y : α
  z : α
  l : α
  deriving DecidableEq, Repr, Inhabited

/-- One value for each of the three motor channels. -/
structure PerAxis (α : Type) where
  x : α
  y : α
  z : α
  deriving DecidableEq, Repr, Inhabited

def PerChan.get {α : Type} (p : PerChan α) : Channel → α
  | .x => p.x
  | .y => p.y
  | .z => p.z
  | .l => p.l

def PerChan.set {α : Type} (p : PerChan α) (c : Channel) (v : α) : PerChan α :=
  match c with
  | .x => { p with x := v }
  | .y => { p with y := v }
  | .z => { p with z := v }
  | .l => { p with l := v }

/-- The record whose entry at `c` is `f c`. -/
def PerChan.ofFn {α : Type} (f : Channel → α) : PerChan α :=
  { x := f .x, y := f .y, z := f .z, l := f .l }

def PerAxis.get {α : Type} (p : PerAxis α) : Axis → α
  | .x => p.x
  | .y => p.y
  | .z => p.z

def PerAxis.set {α : Type} (p : PerAxis α) (a : Axis) (v : α) : PerAxis α :=
  match a with
  | .x => { p with x := v }
  | .y => { p with y := v }
  | .z => { p with z := v }

/-- The record whose entry at `a` is `f a`. -/
def PerAxis.ofFn {α : Type} (f : Axis → α) : PerAxis α :=
  { x := f .x, y := f .y, z := f .z }

end Sys2Proof
end

