-- ==== Sys2Proof/Config.lean ====
section
/-! DEFINITION. What is fixed for one machine: the parameters of 00_scope.md R6 and
93_implementation_defined.md section 1, the constraints on them, the reference values of
95_test_vectors.md section 0, and the free values the spec leaves undrawn. -/

namespace Sys2Proof

/-- The 18 opcode names of 30_encoding.md R104, in the order the spec lists them. -/
inductive Opcode
  | stop
  | dirPositive | dirNegative
  | loopUntilMin | loopWhileMin | loopUntilMax | loopWhileMax
  | enablePin | disablePin
  | setMainModeOff | setMainModePulsed | setMainModeContinuous
  | setVisibleModeOff | setVisibleModePulsed | setVisibleModeContinuous
  | setMainPulseDuration | setVisiblePulseDuration | setMainPowerLevel
  deriving DecidableEq, Repr, Inhabited

/-- All opcode names in the order of R104. -/
def Opcode.all : List Opcode :=
  [.stop, .dirPositive, .dirNegative,
   .loopUntilMin, .loopWhileMin, .loopUntilMax, .loopWhileMax,
   .enablePin, .disablePin,
   .setMainModeOff, .setMainModePulsed, .setMainModeContinuous,
   .setVisibleModeOff, .setVisibleModePulsed, .setVisibleModeContinuous,
   .setMainPulseDuration, .setVisiblePulseDuration, .setMainPowerLevel]

/-- The place of an opcode name in the listing of R104. -/
def Opcode.index : Opcode → Fin 18
  | .stop => 0
  | .dirPositive => 1
  | .dirNegative => 2
  | .loopUntilMin => 3
  | .loopWhileMin => 4
  | .loopUntilMax => 5
  | .loopWhileMax => 6
  | .enablePin => 7
  | .disablePin => 8
  | .setMainModeOff => 9
  | .setMainModePulsed => 10
  | .setMainModeContinuous => 11
  | .setVisibleModeOff => 12
  | .setVisibleModePulsed => 13
  | .setVisibleModeContinuous => 14
  | .setMainPulseDuration => 15
  | .setVisiblePulseDuration => 16
  | .setMainPowerLevel => 17

/-- The twelve implemented fault kinds of 60_exceptions.md R301. -/
inductive FaultKind
  | estop | lidOpen | lidClosed
  | waterFlow | waterTemp
  | serialFrame | serialOverrun | serialParity
  | swLexical | swSyntax | swUnderflow | swMissedInt
  deriving DecidableEq, Repr, Inhabited

/-- The fault kinds in the order of their indices (R301). -/
def FaultKind.all : List FaultKind :=
  [.estop, .lidOpen, .lidClosed, .waterFlow, .waterTemp,
   .serialFrame, .serialOverrun, .serialParity,
   .swLexical, .swSyntax, .swUnderflow, .swMissedInt]

/-- The fault index of R301. -/
def FaultKind.index : FaultKind → Fin 16
  | .estop => 0
  | .lidOpen => 1
  | .lidClosed => 2
  | .waterFlow => 3
  | .waterTemp => 4
  | .serialFrame => 5
  | .serialOverrun => 6
  | .serialParity => 7
  | .swLexical => 8
  | .swSyntax => 9
  | .swUnderflow => 10
  | .swMissedInt => 11

/-- The host's laser-select variable (10_state.md R50). -/
inductive LaserSel
  | none | main | visible
  deriving DecidableEq, Repr, Inhabited

/-- The derived engine state (10_state.md R36). -/
inductive EngineState
  | stopped | running | stopping
  deriving DecidableEq, Repr, Inhabited

/-- Which of the two override flags `set_override` writes (45_safety_fault_ops.md R263). -/
inductive Override
  | lidOpen | lidClosed
  deriving DecidableEq, Repr, Inhabited

/-- One operation of the block that a handler may run (93_implementation_defined.md section 1: "a
terminating procedure over the block's operations"): the operations of 00_scope.md R12 that act
and do not wait, and the block's own `set_gates` (R242) and `Fatal` (60_exceptions.md R305; D33: a
table entry that halts). -/
inductive HandlerAction
  | stopEngineImmediately
  | setGates
  | updateSafety
  | raiseFault (k : FaultKind)
  | lowerFault (k : FaultKind)
  | fatal (k : FaultKind)
  | enqueue (c : Channel) (a : Word)
  | startEngine
  | maybeStartEngine
  | setLaserSelect (v : LaserSel)
  | setOverride (which : Override) (b : Bool)
  | reset
  deriving DecidableEq, Repr

/-- What a handler may ask before it goes on: the reads of 00_scope.md R12. -/
inductive HandlerCond
  | faultIsSet (k : FaultKind)
  | faultOverridden (k : FaultKind)
  | engineIs (e : EngineState)
  | queueIsFull (c : Channel)
  | queueIsEmpty (c : Channel)
  | queueIsRunning (c : Channel)
  | moveOk
  | mainOk
  | visOk
  deriving DecidableEq, Repr

/-- The procedure of a handler: operations one after the other, with branches on reads. A procedure
that ends has no more than finitely many of them on each way through it. -/
inductive HandlerProg
  | done
  | act (a : HandlerAction) (next : HandlerProg)
  | branch (c : HandlerCond) (yes no : HandlerProg)
  deriving DecidableEq, Repr

/-- One row of the parameter `HANDLER` (45_safety_fault_ops.md R252): what runs when the fault goes
from clear to set, and what runs when it goes from set to clear. -/
structure HandlerRow where
  raised  : HandlerProg
  lowered : HandlerProg
  deriving DecidableEq, Repr

/-- The parameters of the block (R6). They are fixed for one machine; no step changes them. -/
structure Config where
  /-- `F_CLK_MHZ`, the clock in MHz. -/
  fClkMHz : Nat
  /-- `OPMAP`: the number of each opcode, in the order of `Opcode.index` (R104). -/
  opmap : Vector Word 18
  /-- `IVL_BOOT`, the bootstrap interval (R215). -/
  ivlBoot : Word
  /-- `START_SKEW`, the largest counter after a start (R222). -/
  startSkew : Nat
  /-- `DEBOUNCE_TICKS` (R257). -/
  debounceTicks : Nat
  /-- `HAS_MIN[c]` (R105). -/
  hasMin : PerAxis Bool
  /-- `HAS_MAX[c]` (R105). -/
  hasMax : PerAxis Bool
  /-- `HANDLER[i]`, by fault index (R252). -/
  handler : Vector HandlerRow 16
  deriving DecidableEq, Repr

namespace Config

/-- `ATOM_MAX = 2 * F_CLK_MHZ`, the smallest literal (R6, R101). -/
def atomMax (cfg : Config) : Nat := 2 * cfg.fClkMHz

/-- The row of `HANDLER` of a fault kind. -/
def handlerOf (cfg : Config) (k : FaultKind) : HandlerRow := cfg.handler[k.index]

/-- `OPMAP` is an injective map into `0 .. ATOM_MAX-1` (93_implementation_defined.md section 1). -/
def opmapOk (cfg : Config) : Bool :=
  cfg.opmap.toList.all (fun a => decide (a.toNat < cfg.atomMax)) && decide cfg.opmap.toList.Nodup

/-- The constraints of R6, R7 and 93_implementation_defined.md section 1 that a look at the
parameters can check. A configuration that breaks one is refused: "A configuration that breaks a
constraint ... is refused". That the procedures of `HANDLER` end is checked as they run (log 6). -/
def ok (cfg : Config) : Bool :=
  decide (9 ≤ cfg.fClkMHz) && cfg.opmapOk &&
  decide (1 ≤ cfg.ivlBoot.toNat) && decide (1 ≤ cfg.debounceTicks)

/-- The default of `OPMAP`: 0 to 17 in the order of R104 (D2). -/
def referenceOpmap : Vector Word 18 :=
  #v[0x0000, 0x0001, 0x0002, 0x0003, 0x0004, 0x0005, 0x0006, 0x0007, 0x0008,
     0x0009, 0x000A, 0x000B, 0x000C, 0x000D, 0x000E, 0x000F, 0x0010, 0x0011]

/-- A handler that does nothing. -/
def noHandler : HandlerRow := { raised := .done, lowered := .done }

/-- The default of `HANDLER`: the table of R252. -/
def referenceHandler : Vector HandlerRow 16 :=
  #v[{ raised := .act .stopEngineImmediately (.act .setGates .done),
       lowered := .act .updateSafety .done },
     { raised := .act .stopEngineImmediately .done, lowered := .done },
     { raised := .act .stopEngineImmediately .done, lowered := .done },
     noHandler, noHandler, noHandler, noHandler, noHandler, noHandler, noHandler, noHandler,
     noHandler, noHandler, noHandler, noHandler, noHandler]

/-- The reference configuration of 95_test_vectors.md section 0. -/
def reference : Config where
  fClkMHz := 16
  opmap := referenceOpmap
  ivlBoot := 512
  startSkew := 0
  debounceTicks := 1000
  hasMin := { x := true, y := true, z := true }
  hasMax := { x := true, y := true, z := true }
  handler := referenceHandler

/-- FREE VALUE: the word drawn at draw `n` for place `p`, for a register the spec leaves
unspecified after reset (93_implementation_defined.md section 2; log 2). -/
opaque freeWord : Nat → Nat → Word

/-- FREE VALUE: the natural drawn at draw `n` for place `p` (start skew, R222; `db_cnt` after
reset, R51; log 2 and log 8). -/
opaque freeNat : Nat → Nat → Nat

/-- FREE VALUE: whether the direction drawn at draw `n` for place `p` is positive (R41; log 2). -/
opaque freeBit : Nat → Nat → Bool

/-- FREE VALUE: the order in which the channels of a tick fire, where no event says it
(R213, "A model admits every order"; log 5). -/
opaque freeOrder : Nat → List Channel

end Config

end Sys2Proof
end

