-- ==== Sys2Proof/Syntax.lean ====
section
/-! DEFINITION. The instruction set: one constructor for each row of spec/opcode_table.json. -/

namespace Sys2Proof

/-- The atoms an interpreter executes (30_encoding.md R104): the 18 opcodes, three of them with
an operand atom (format `A2`, R103), and the literal (format `AL`, R106). -/
inductive Instr
  | stop
  | dirPositive
  | dirNegative
  | loopUntilMin
  | loopWhileMin
  | loopUntilMax
  | loopWhileMax
  | enablePin
  | disablePin
  | setMainModeOff
  | setMainModePulsed
  | setMainModeContinuous
  | setVisibleModeOff
  | setVisibleModePulsed
  | setVisibleModeContinuous
  | setMainPulseDuration (n : Word)
  | setVisiblePulseDuration (n : Word)
  | setMainPowerLevel (n : Word)
  | ivl (v : Word)
  deriving DecidableEq, Repr, Inhabited

end Sys2Proof
end

