-- ==== Sys2Proof/WellFormed.lean ====
section
/-! DEFINITION. Which instruction terms are atoms of the block under a configuration. -/

namespace Sys2Proof

/-- A literal is a value from `ATOM_MAX` up (R106, R114: a written `IVL v` with `v < ATOM_MAX`
"is an error of the writer"); every other term is well formed, an operand being any 16-bit
value (R107). -/
def Instr.wellFormed (cfg : Config) : Instr → Bool
  | .ivl v => decide (cfg.atomMax ≤ v.toNat)
  | .stop | .dirPositive | .dirNegative
  | .loopUntilMin | .loopWhileMin | .loopUntilMax | .loopWhileMax
  | .enablePin | .disablePin
  | .setMainModeOff | .setMainModePulsed | .setMainModeContinuous
  | .setVisibleModeOff | .setVisibleModePulsed | .setVisibleModeContinuous
  | .setMainPulseDuration _ | .setVisiblePulseDuration _ | .setMainPowerLevel _ => true

end Sys2Proof
end

