-- ==== Sys2Proof/Decode.lean ====
section
/-! DEFINITION. Decoding atoms and encoding instructions (30_encoding.md). The decoder is total,
on any list of atoms; what it does not accept it rejects by name. -/

namespace Sys2Proof

/-- Why a list of atoms is no instruction. -/
inductive Reject
  /-- there is no atom to decode -/
  | noAtom
  /-- the first atom is below `ATOM_MAX` and no opcode's number (R110 (a)) -/
  | unassigned (a : Word)
  /-- the first atom is an opcode of format `A2` and nothing follows it (R103, R179) -/
  | missingOperand (o : Opcode)
  deriving DecidableEq, Repr

/-- The class of one atom at the top of the interpreter's loop (R101, R104). -/
inductive AtomClass
  | literal (v : Word)
  | opcode (o : Opcode)
  | unassigned
  deriving DecidableEq, Repr

/-- The result of the decode function of R108 on one channel. -/
inductive Decoded
  | literal (v : Word)
  | op (o : Opcode)
  | illegal
  deriving DecidableEq, Repr

/-- The number `OPMAP` gives an opcode (R104). -/
def opnum (cfg : Config) (o : Opcode) : Word := cfg.opmap[o.index]

/-- `OPMAP^-1`: the opcode whose number is `a`, if there is one (R108). -/
def opcodeOf (cfg : Config) (a : Word) : Option Opcode :=
  Opcode.all.find? (fun o => opnum cfg o == a)

/-- R101 and R104: literal from `ATOM_MAX` up, below it the opcode with that number. -/
def classify (cfg : Config) (a : Word) : AtomClass :=
  if cfg.atomMax ≤ a.toNat then .literal a
  else match opcodeOf cfg a with
    | some o => .opcode o
    | none => .unassigned

/-- R105: which channels take which opcodes. -/
def takes (cfg : Config) (c : Channel) : Opcode → Bool
  | .stop => true
  | .dirPositive | .dirNegative | .enablePin | .disablePin => c.axis?.isSome
  | .loopUntilMin | .loopWhileMin =>
    match c.axis? with
    | some ax => cfg.hasMin.get ax
    | none => false
  | .loopUntilMax | .loopWhileMax =>
    match c.axis? with
    | some ax => cfg.hasMax.get ax
    | none => false
  | .setMainModeOff | .setMainModePulsed | .setMainModeContinuous
  | .setVisibleModeOff | .setVisibleModePulsed | .setVisibleModeContinuous
  | .setMainPulseDuration | .setVisiblePulseDuration | .setMainPowerLevel => c.axis?.isNone

/-- The decode function of R108: channel `c`'s firing dequeued `a` at the top of its loop. -/
def decodeAt (cfg : Config) (c : Channel) (a : Word) : Decoded :=
  match classify cfg a with
  | .literal v => .literal v
  | .opcode o => if takes cfg c o then .op o else .illegal
  | .unassigned => .illegal

/-- The three opcodes of format `A2` (R103). -/
def hasOperand : Opcode → Bool
  | .setMainPulseDuration | .setVisiblePulseDuration | .setMainPowerLevel => true
  | .stop | .dirPositive | .dirNegative
  | .loopUntilMin | .loopWhileMin | .loopUntilMax | .loopWhileMax
  | .enablePin | .disablePin
  | .setMainModeOff | .setMainModePulsed | .setMainModeContinuous
  | .setVisibleModeOff | .setVisibleModePulsed | .setVisibleModeContinuous => false

/-- The instruction of an opcode with operand atom `n` (`n` is not looked at in format `A1`). -/
def instrOf (n : Word) : Opcode → Instr
  | .stop => .stop
  | .dirPositive => .dirPositive
  | .dirNegative => .dirNegative
  | .loopUntilMin => .loopUntilMin
  | .loopWhileMin => .loopWhileMin
  | .loopUntilMax => .loopUntilMax
  | .loopWhileMax => .loopWhileMax
  | .enablePin => .enablePin
  | .disablePin => .disablePin
  | .setMainModeOff => .setMainModeOff
  | .setMainModePulsed => .setMainModePulsed
  | .setMainModeContinuous => .setMainModeContinuous
  | .setVisibleModeOff => .setVisibleModeOff
  | .setVisibleModePulsed => .setVisibleModePulsed
  | .setVisibleModeContinuous => .setVisibleModeContinuous
  | .setMainPulseDuration => .setMainPulseDuration n
  | .setVisiblePulseDuration => .setVisiblePulseDuration n
  | .setMainPowerLevel => .setMainPowerLevel n

/-- The opcode of an instruction; the literal has none. -/
def opcodeOfInstr : Instr → Option Opcode
  | .stop => some .stop
  | .dirPositive => some .dirPositive
  | .dirNegative => some .dirNegative
  | .loopUntilMin => some .loopUntilMin
  | .loopWhileMin => some .loopWhileMin
  | .loopUntilMax => some .loopUntilMax
  | .loopWhileMax => some .loopWhileMax
  | .enablePin => some .enablePin
  | .disablePin => some .disablePin
  | .setMainModeOff => some .setMainModeOff
  | .setMainModePulsed => some .setMainModePulsed
  | .setMainModeContinuous => some .setMainModeContinuous
  | .setVisibleModeOff => some .setVisibleModeOff
  | .setVisibleModePulsed => some .setVisibleModePulsed
  | .setVisibleModeContinuous => some .setVisibleModeContinuous
  | .setMainPulseDuration _ => some .setMainPulseDuration
  | .setVisiblePulseDuration _ => some .setVisiblePulseDuration
  | .setMainPowerLevel _ => some .setMainPowerLevel
  | .ivl _ => none

/-- R105 on instructions: the literal and `STOP` are taken on all four channels. -/
def takesInstr (cfg : Config) (c : Channel) (i : Instr) : Bool :=
  match opcodeOfInstr i with
  | some o => takes cfg c o
  | none => true

/-- One instruction from the front of a list of atoms, with the atoms left over (R109). It does
not look at the channel. -/
def decode (cfg : Config) : List Word → Except Reject (Instr × List Word)
  | [] => .error .noAtom
  | a :: rest =>
    match classify cfg a with
    | .literal v => .ok (.ivl v, rest)
    | .unassigned => .error (.unassigned a)
    | .opcode o =>
      if hasOperand o then
        match rest with
        | [] => .error (.missingOperand o)
        | n :: rest' => .ok (instrOf n o, rest')
      else .ok (instrOf 0 o, rest)

/-- The atoms of an instruction, in queue order (R102, R103, R106). -/
def encode (cfg : Config) : Instr → List Word
  | .stop => [opnum cfg .stop]
  | .dirPositive => [opnum cfg .dirPositive]
  | .dirNegative => [opnum cfg .dirNegative]
  | .loopUntilMin => [opnum cfg .loopUntilMin]
  | .loopWhileMin => [opnum cfg .loopWhileMin]
  | .loopUntilMax => [opnum cfg .loopUntilMax]
  | .loopWhileMax => [opnum cfg .loopWhileMax]
  | .enablePin => [opnum cfg .enablePin]
  | .disablePin => [opnum cfg .disablePin]
  | .setMainModeOff => [opnum cfg .setMainModeOff]
  | .setMainModePulsed => [opnum cfg .setMainModePulsed]
  | .setMainModeContinuous => [opnum cfg .setMainModeContinuous]
  | .setVisibleModeOff => [opnum cfg .setVisibleModeOff]
  | .setVisibleModePulsed => [opnum cfg .setVisibleModePulsed]
  | .setVisibleModeContinuous => [opnum cfg .setVisibleModeContinuous]
  | .setMainPulseDuration n => [opnum cfg .setMainPulseDuration, n]
  | .setVisiblePulseDuration n => [opnum cfg .setVisiblePulseDuration, n]
  | .setMainPowerLevel n => [opnum cfg .setMainPowerLevel, n]
  | .ivl v => [v]

/-- The two atoms of a table word: bits 15:0 are the first, bits 31:16 the second; every bit from
`nbits` up is 0. -/
def tableAtoms (nbits w : Nat) : List Word :=
  [BitVec.ofNat 16 (w % 2 ^ nbits), BitVec.ofNat 16 (w % 2 ^ nbits / 65536)]

/-- What the decoder reads from a word of spec/opcode_table.json, at the reference
configuration. -/
def decodeTableWord (nbits w : Nat) : Option Instr :=
  match decode Config.reference (tableAtoms nbits w) with
  | .ok (i, _) => some i
  | .error _ => none

end Sys2Proof
end

