-- ==== Sys2Proof/Machine/State.lean ====
section
/-! DEFINITION. The state of the block (10_state.md), the events of its environment, the reasons a
step can stop, and the state after power-on. Everything here is plain data. -/

namespace Sys2Proof.Machine

/-- A motor's commanded direction (R41). -/
inductive Dir
  | pos | neg
  deriving DecidableEq, Repr, Inhabited

/-- A laser's commanded mode (R44). -/
inductive LaserMode
  | off | pulsed | continuous
  deriving DecidableEq, Repr, Inhabited

/-- One channel's queue (R31 to R35): 128 slots of one atom, the slot of the next atom to read,
the number of atoms held, the running flag. -/
structure Queue where
  buf     : Vector Word 128
  head    : Fin 128
  count   : Nat
  running : Bool
  deriving DecidableEq, Repr

/-- One channel's timer (R37 to R39). -/
structure Timer where
  on  : Bool
  cnt : Word
  ivl : Word
  deriving DecidableEq, Repr, Inhabited

/-- The present levels of the input signals (R60). -/
structure Inputs where
  stopRaw    : Bool
  lidRaw     : Bool
  minReached : PerAxis Bool
  maxReached : PerAxis Bool
  deriving DecidableEq, Repr, Inhabited

/-- The name of one input signal (R60). -/
inductive InputSignal
  | stopRaw
  | lidRaw
  | minReached (a : Axis)
  | maxReached (a : Axis)
  deriving DecidableEq, Repr, Inhabited

/-- The host operations of 00_scope.md R12. -/
inductive HostOp
  | enqueue (c : Channel) (a : Word)
  | queueIsFull (c : Channel)
  | queueIsEmpty (c : Channel)
  | queueIsRunning (c : Channel)
  | startEngine
  | maybeStartEngine
  | stopEngineImmediately
  | awaitEngineStopped
  | getEngineState
  | raiseFault (i : Nat)
  | lowerFault (i : Nat)
  | faultIsSet (i : Nat)
  | faultOverridden (i : Nat)
  | getFaultName (i : Nat)
  | setLaserSelect (v : LaserSel)
  | setOverride (which : Override) (b : Bool)
  | updateSafety
  | readGates
  | reset
  deriving DecidableEq, Repr, Inhabited

/-- What a host operation returns to its caller (R12). -/
inductive HostResult
  | bool (b : Bool)
  | engine (e : EngineState)
  | gates (moveOk mainOk visOk : Bool)
  | name (s : String)
  deriving DecidableEq, Repr

/-- One step of the environment (R10): a tick with the order its channels fire in, a host
operation of host agent `h` (D39), or an input signal that takes a new value. -/
inductive Event
  | tick (order : List Channel)
  | host (h : Nat) (op : HostOp)
  | input (sig : InputSignal) (v : Bool)
  deriving DecidableEq, Repr, Inhabited

/-- An output event (R62). -/
inductive OutEvent
  | step (a : Axis) (d : Dir)
  | mainPulse (dur : Word)
  | visPulse (dur : Word)
  deriving DecidableEq, Repr, Inhabited

/-- How far the tick in progress has come. The machine takes an event only when no tick is in
progress, so a tick is atomic for the environment (R10); log 4. -/
inductive Phase
  /-- no tick in progress -/
  | idle
  /-- a tick in progress, no channel's interpreter running -/
  | between
  /-- the interpreter of channel `cur` is at the top of its loop -/
  | firing
  deriving DecidableEq, Repr, Inhabited

/-- The state: the record of 10_state.md R30, then the configuration and the inputs it is run
with, then the model's own fields (log 3 to log 7). -/
structure State where
  /-- the parameters (R6); no step writes them -/
  cfg : Config
  /-- the queues (R31 to R35) -/
  q : PerChan Queue
  /-- the channel timers (R37 to R39) -/
  tmr : PerChan Timer
  /-- `dir[c]` (R41) -/
  dir : PerAxis Dir
  /-- `step_en[c]` (R42) -/
  stepEn : PerAxis Bool
  /-- `main_mode` (R44) -/
  mainMode : LaserMode
  /-- `vis_mode` (R44) -/
  visMode : LaserMode
  /-- `main_pulse_dur` (R45) -/
  mainPulseDur : Word
  /-- `vis_pulse_dur` (R45) -/
  visPulseDur : Word
  /-- `main_power` (R46) -/
  mainPower : Word
  /-- `sw.stop_down` (R48) -/
  stopDown : Bool
  /-- `sw.lid_open` (R48) -/
  lidOpen : Bool
  /-- the gate `move_ok` (R49) -/
  moveOk : Bool
  /-- the gate `main_ok` (R49) -/
  mainOk : Bool
  /-- the gate `vis_ok` (R49) -/
  visOk : Bool
  /-- `laser_sel` (R50) -/
  laserSel : LaserSel
  /-- `db_pending` (R51) -/
  dbPending : Bool
  /-- `db_cnt` (R51) -/
  dbCnt : Nat
  /-- `fault_set[0..15]` (R53) -/
  faultSet : Vector Bool 16
  /-- `fault_ovr[0..15]` (R54) -/
  faultOvr : Vector Bool 16
  /-- `alert` (R55) -/
  alert : Bool
  /-- `halted` (R56) -/
  halted : Bool
  /-- the present input levels (R60) -/
  inp : Inputs
  /-- the model's own: the environment's coming steps, oldest first -/
  script : List Event
  /-- the model's own: how far the tick in progress has come -/
  phase : Phase
  /-- the model's own: the channel whose interpreter runs, or ran last -/
  cur : Channel
  /-- the model's own: the channels that overflowed in this tick and have yet to fire -/
  pending : List Channel
  /-- the model's own: the output events emitted so far, oldest first (R62) -/
  events : List OutEvent
  /-- the model's own: what the last host operation returned -/
  hostResult : Option HostResult
  /-- the model's own: how many times free values were drawn -/
  draws : Nat
  deriving DecidableEq, Repr

/-- The machine stops with a fault. The block itself never does: its fatal faults are next states
with `halted` set (60_exceptions.md R305). -/
inductive Fault
  /-- Raised by the four loop atoms when they push back onto a queue that already holds 128
  atoms. R195: "it cannot overflow the queue ... a model may check both and need not handle the
  other cases". No step reaches it, a dequeue having made room; only a state no run reaches
  does. Safe: the model stops. -/
  | pushBackOverflow
  deriving DecidableEq, Repr, Inhabited

/-- The machine gives the step no meaning. -/
inductive Refusal
  /-- The instruction has no meaning in this model yet. Raised by no arm. Safe. -/
  | notModelled (mnemonic : String)
  /-- The configuration breaks a constraint: a clock below 9 MHz (R7, "A configuration that breaks
  this is refused by the model"), an opcode number used twice or not below `ATOM_MAX`, or a zero
  bootstrap interval or debounce interval (93_implementation_defined.md section 1, "A configuration
  that breaks a constraint ... is refused"). Raised by `step`. Safe. -/
  | badConfiguration
  /-- A handler calls into handlers without an end, so `HANDLER` is no "terminating procedure"
  (93_implementation_defined.md section 1, the same sentence). Raised by an operation that raises
  or lowers a fault, and only when its handlers never end, at whatever depth (log 6). Safe. -/
  | endlessHandler
  /-- A host operation names a fault index that is no fault (R255: "a model refuses a
  `raise_fault`, `lower_fault`, `fault_is_set` or `fault_overridden` step with such an index").
  Raised by `step`. Safe. -/
  | badFaultIndex (i : Nat)
  deriving DecidableEq, Repr, Inhabited

/-- A queue after power-on: empty and idle (R341). The slots' values are the model's (log 1). -/
def Queue.powerOn : Queue :=
  { buf := Vector.replicate 128 0, head := 0, count := 0, running := false }

/-- A timer after power-on: off (R341). Its counter and interval are the model's (log 1). -/
def Timer.powerOn : Timer := { on := false, cnt := 0, ivl := 0 }

/-- The state right after power-on at the reference configuration with every input 0: the state
`S0` of 95_test_vectors.md section 0 (70_reset_and_hazards.md R341, R342). The registers the
spec leaves unspecified (slots, `cnt`, `ivl`, `dir`, pulse durations, power, `db_cnt`) hold the
values log 1 names. -/
def State.reset : State where
  cfg := Config.reference
  q := { x := Queue.powerOn, y := Queue.powerOn, z := Queue.powerOn, l := Queue.powerOn }
  tmr := { x := Timer.powerOn, y := Timer.powerOn, z := Timer.powerOn, l := Timer.powerOn }
  dir := { x := .pos, y := .pos, z := .pos }
  stepEn := { x := false, y := false, z := false }
  mainMode := .off
  visMode := .off
  mainPulseDur := 0
  visPulseDur := 0
  mainPower := 0
  stopDown := false
  lidOpen := false
  moveOk := true
  mainOk := true
  visOk := false
  laserSel := .none
  dbPending := false
  dbCnt := 0
  faultSet := Vector.replicate 16 false
  faultOvr := Vector.replicate 16 false
  alert := false
  halted := false
  inp :=
    { stopRaw := false, lidRaw := false,
      minReached := { x := false, y := false, z := false },
      maxReached := { x := false, y := false, z := false } }
  script := []
  phase := .idle
  cur := .x
  pending := []
  events := []
  hostResult := none
  draws := 0

end Sys2Proof.Machine
end

