-- ==== Sys2Proof/Machine/Flags.lean ====
section
/-! DEFINITION. Every value the spec derives from the state: the engine state, the gate function,
the alert condition, the lid conflicts, the output levels and the output events. -/

namespace Sys2Proof.Machine

/-- `engine_mask` (R36): bit `k` is the running flag of channel `k`. -/
def engineMask (s : State) : BitVec 4 :=
  BitVec.ofBool s.q.l.running ++ BitVec.ofBool s.q.z.running ++
    BitVec.ofBool s.q.y.running ++ BitVec.ofBool s.q.x.running

/-- `engine_state` (R36, R214). -/
def engineState (s : State) : EngineState :=
  if engineMask s = 0b0000#4 then .stopped
  else if engineMask s = 0b1111#4 then .running
  else .stopping

/-- `fault_set[k]` (R53). -/
def faultIsSet (s : State) (k : FaultKind) : Bool := s.faultSet[k.index]

/-- `fault_ovr[k]` (R54). -/
def faultOverridden (s : State) (k : FaultKind) : Bool := s.faultOvr[k.index]

/-- Some fault is set: the condition of the alert indication (R55). -/
def anyFault (s : State) : Bool := s.faultSet.toList.any id

/-- Which faults have an override bit (R54, R301). -/
def hasOverride : FaultKind → Bool
  | .lidOpen | .lidClosed => true
  | .estop | .waterFlow | .waterTemp | .serialFrame | .serialOverrun | .serialParity
  | .swLexical | .swSyntax | .swUnderflow | .swMissedInt => false

/-- The two fatal faults, those `Fatal` raises (R302). -/
def isFatalKind : FaultKind → Bool
  | .swSyntax | .swUnderflow => true
  | .estop | .lidOpen | .lidClosed | .waterFlow | .waterTemp
  | .serialFrame | .serialOverrun | .serialParity | .swLexical | .swMissedInt => false

/-- `get_fault_name` (R301). -/
def faultName : FaultKind → String
  | .estop => "F_ESTOP"
  | .lidOpen => "F_LID_OPEN"
  | .lidClosed => "F_LID_CLOSED"
  | .waterFlow => "F_WATER_FLOW"
  | .waterTemp => "F_WATER_TEMP"
  | .serialFrame => "F_SERIAL_FRAME"
  | .serialOverrun => "F_SERIAL_OVERRUN"
  | .serialParity => "F_SERIAL_PARITY"
  | .swLexical => "F_SW_LEXICAL"
  | .swSyntax => "F_SW_SYNTAX"
  | .swUnderflow => "F_SW_UNDERFLOW"
  | .swMissedInt => "F_SW_MISSED_INT"

/-- The fault kind of a fault index; an index from `NFAULT` up names none (R255). -/
def faultOfIndex (i : Nat) : Option FaultKind := FaultKind.all[i]?

/-- The gate function of R242 for `move_ok`. -/
def gateMove (s : State) : Bool := !faultIsSet s .estop

/-- The gate function of R242 for `main_ok`. -/
def gateMain (s : State) : Bool :=
  !faultIsSet s .estop && (!s.lidOpen || faultOverridden s .lidOpen)

/-- The gate function of R242 for `vis_ok`. -/
def gateVis (s : State) : Bool :=
  !faultIsSet s .estop && (s.lidOpen || faultOverridden s .lidClosed)

/-- R245: the main laser is selected, the lid is open and `ovr_open` is 0. -/
def lidOpenConflict (s : State) : Bool :=
  decide (s.laserSel = .main) && s.lidOpen && !faultOverridden s .lidOpen

/-- R245: the visible laser is selected, the lid is closed and `ovr_closed` is 0. -/
def lidClosedConflict (s : State) : Bool :=
  decide (s.laserSel = .visible) && !s.lidOpen && !faultOverridden s .lidClosed

/-- `queue_is_full(c)` (R197). -/
def queueIsFull (s : State) (c : Channel) : Bool := decide ((s.q.get c).count = 128)

/-- `queue_is_empty(c)` (R197). -/
def queueIsEmpty (s : State) (c : Channel) : Bool := decide ((s.q.get c).count = 0)

/-- The output levels of R61. -/
structure Outputs where
  stepOutEn   : PerAxis Bool
  dirOut      : PerAxis Dir
  mainLaserOn : Bool
  visLaserOn  : Bool
  mainPower   : Word
  engine      : EngineState
  moveOk      : Bool
  mainOk      : Bool
  visOk       : Bool
  alert       : Bool
  halted      : Bool
  deriving DecidableEq, Repr

/-- R61: the outputs are functions of the state; the gates act here. -/
def outputLevels (s : State) : Outputs where
  stepOutEn := PerAxis.ofFn fun a => s.stepEn.get a && s.moveOk
  dirOut := s.dir
  mainLaserOn := decide (s.mainMode = .continuous) && s.mainOk
  visLaserOn := decide (s.visMode = .continuous) && s.visOk
  mainPower := s.mainPower
  engine := engineState s
  moveOk := s.moveOk
  mainOk := s.mainOk
  visOk := s.visOk
  alert := s.alert
  halted := s.halted

/-- `overflow_events(c)` (R62, R212): what channel `c` emits at an overflow, from the state before
its firing. DESIGN CHOICE (log 22), unsafe: where both lasers are pulsed with their gates 1, the main
pulse comes before the visible one; the spec lists both and states no order. -/
def overflowEvents (s : State) (c : Channel) : List OutEvent :=
  match c.axis? with
  | some a => if s.stepEn.get a && s.moveOk then [.step a (s.dir.get a)] else []
  | none =>
    (if decide (s.mainMode = .pulsed) && s.mainOk then [.mainPulse s.mainPulseDur] else []) ++
    (if decide (s.visMode = .pulsed) && s.visOk then [.visPulse s.visPulseDur] else [])

/-- The value channel `c`'s queue holds in slot `i` (R31): the model's read of one unit of
storage. -/
def slotRead (s : State) (c : Channel) (i : Fin 128) : Word := (s.q.get c).buf[i]

/-- The atoms of a queue in the order they will be dequeued (R34, R196). -/
def Queue.contents (u : Queue) : List Word :=
  (List.range u.count).map fun k => u.buf[u.head + Fin.ofNat 128 k]

end Sys2Proof.Machine
end

