-- ==== Sys2Proof/Machine/Ops.lean ====
section
/-! DEFINITION. The named operations of the block: field updates, the queue operations
(43_queue_ops.md), the immediate stop (R218), the fault set with its handlers
(45_safety_fault_ops.md), the block's one trap `Fatal` (60_exceptions.md R305) and `reset`, the
only way out of it (R340). -/

namespace Sys2Proof.Machine

/-! ### Field updates -/

def State.withQ (s : State) (v : PerChan Queue) : State := { s with q := v }
def State.withTmr (s : State) (v : PerChan Timer) : State := { s with tmr := v }
def State.withDir (s : State) (v : PerAxis Dir) : State := { s with dir := v }
def State.withStepEn (s : State) (v : PerAxis Bool) : State := { s with stepEn := v }
def State.withMainMode (s : State) (v : LaserMode) : State := { s with mainMode := v }
def State.withVisMode (s : State) (v : LaserMode) : State := { s with visMode := v }
def State.withMainPulseDur (s : State) (v : Word) : State := { s with mainPulseDur := v }
def State.withVisPulseDur (s : State) (v : Word) : State := { s with visPulseDur := v }
def State.withMainPower (s : State) (v : Word) : State := { s with mainPower := v }
def State.withStopDown (s : State) (v : Bool) : State := { s with stopDown := v }
def State.withLidOpen (s : State) (v : Bool) : State := { s with lidOpen := v }
def State.withMoveOk (s : State) (v : Bool) : State := { s with moveOk := v }
def State.withMainOk (s : State) (v : Bool) : State := { s with mainOk := v }
def State.withVisOk (s : State) (v : Bool) : State := { s with visOk := v }
def State.withLaserSel (s : State) (v : LaserSel) : State := { s with laserSel := v }
def State.withDbPending (s : State) (v : Bool) : State := { s with dbPending := v }
def State.withDbCnt (s : State) (v : Nat) : State := { s with dbCnt := v }
def State.withFaultSet (s : State) (v : Vector Bool 16) : State := { s with faultSet := v }
def State.withFaultOvr (s : State) (v : Vector Bool 16) : State := { s with faultOvr := v }
def State.withAlert (s : State) (v : Bool) : State := { s with alert := v }
def State.withHalted (s : State) (v : Bool) : State := { s with halted := v }
def State.withInp (s : State) (v : Inputs) : State := { s with inp := v }
def State.withScript (s : State) (v : List Event) : State := { s with script := v }
def State.withPhase (s : State) (v : Phase) : State := { s with phase := v }
def State.withCur (s : State) (v : Channel) : State := { s with cur := v }
def State.withPending (s : State) (v : List Channel) : State := { s with pending := v }
def State.withEvents (s : State) (v : List OutEvent) : State := { s with events := v }
def State.withHostResult (s : State) (v : Option HostResult) : State := { s with hostResult := v }
def State.withDraws (s : State) (v : Nat) : State := { s with draws := v }

/-! ### Queue operations -/

/-- The slot the next `Enqueue` writes: `tail` (R34). -/
def Queue.tail (u : Queue) : Fin 128 := u.head + Fin.ofNat 128 u.count

/-- `Enqueue` on a queue with room (R191). -/
def Queue.push (u : Queue) (a : Word) : Queue :=
  { u with buf := u.buf.set u.tail a, count := u.count + 1 }

/-- The atom `Dequeue` returns (R193). -/
def Queue.front (u : Queue) : Word := u.buf[u.head]

/-- `Dequeue` on a queue that is not empty (R193): the slot keeps its value. -/
def Queue.pop (u : Queue) : Queue :=
  { u with head := u.head + 1, count := u.count - 1 }

/-- The slot `UnDequeue` writes (R195). -/
def Queue.backSlot (u : Queue) : Fin 128 := u.head - 1

/-- `UnDequeue` (R195). -/
def Queue.unpop (u : Queue) (a : Word) : Queue :=
  { u with head := u.backSlot, buf := u.buf.set u.backSlot a, count := u.count + 1 }

/-- What an immediate stop does to one queue (R218): the atoms are discarded, the slots keep
their values. -/
def Queue.flush (u : Queue) : Queue :=
  { u with head := 0, count := 0, running := false }

/-- `Dequeue(c)` (R193): the atom and the state after, or `none` on an empty queue (R194). -/
def dequeue (c : Channel) (s : State) : Option (Word × State) :=
  if (s.q.get c).count = 0 then none
  else some ((s.q.get c).front, s.withQ (s.q.set c (s.q.get c).pop))

/-! ### The engine -/

/-- `stop_engine_immediately()` (R218). -/
def stopEngine (s : State) : State :=
  ((((s.withTmr (PerChan.ofFn fun c => { s.tmr.get c with on := false })).withQ
    (PerChan.ofFn fun c => (s.q.get c).flush)).withStepEn
    (PerAxis.ofFn fun _ => false)).withMainMode .off).withVisMode .off

/-- A channel falls to idle (R134): its timer stops and its running flag is cleared. -/
def stopChannel (c : Channel) (s : State) : State :=
  (s.withTmr (s.tmr.set c { s.tmr.get c with on := false })).withQ
    (s.q.set c { s.q.get c with running := false })

/-- The interpreter returns (R131): the firing of the running channel ends. -/
def endFiring (s : State) : State := s.withPhase .between

/-! ### The gates and the fault set -/

/-- `set_gates()` (R242). -/
def setGates (s : State) : State :=
  ((s.withMoveOk (gateMove s)).withMainOk (gateMain s)).withVisOk (gateVis s)

/-- Write one bit of `fault_set`. -/
def setFaultBit (k : FaultKind) (b : Bool) (s : State) : State :=
  s.withFaultSet (s.faultSet.set k.index b)

/-! ### How an operation ends -/

/-- How an operation of the block ends. `Fatal` abandons the rest of the step that executed it, "no
statement after it runs" (00_scope.md R9, 60_exceptions.md R305). -/
inductive Ran
  /-- the operation has run, and what follows it runs next -/
  | on (s : State)
  /-- `Fatal` has run; nothing follows in this step -/
  | abandoned (s : State)
  /-- a handler that never ends (log 6) -/
  | endless
  deriving DecidableEq, Repr

/-- What follows an operation. -/
def Ran.andThen (r : Ran) (f : State → Ran) : Ran :=
  match r with
  | .on s => f s
  | .abandoned s => .abandoned s
  | .endless => .endless

/-- What the machine writes at the end of a step, however the step has ended. -/
def Ran.atEnd (r : Ran) (f : State → State) : Ran :=
  match r with
  | .on s => .on (f s)
  | .abandoned s => .abandoned (f s)
  | .endless => .endless

/-- The outcome of a step that is this operation. -/
def Ran.outcome : Ran → Host.Outcome State Fault Refusal
  | .on s => .next s
  | .abandoned s => .next s
  | .endless => .refused .endlessHandler

/-! ### The operations, over what runs a handler

Raising and lowering a fault run its handler, and a handler may run any operation. Each operation
that may raise or lower a fault is therefore written over `run`, which runs a handler's procedure;
`runHandler` ties the knot. -/

/-- `raise_fault(k)` (R249): idempotent; on the transition the bit, the alert and the handler. -/
def raiseWith (run : HandlerProg → State → Ran) (k : FaultKind) (s : State) : Ran :=
  if faultIsSet s k then .on s
  else run (s.cfg.handlerOf k).raised ((setFaultBit k true s).withAlert true)

/-- The alert after a bit has been cleared (R250): it goes out only when no fault is left. -/
def settleAlert (s : State) : State := s.withAlert (s.alert && anyFault s)

/-- `lower_fault(k)` (R250): idempotent; on the transition the bit, the alert when the set becomes
empty, and the handler. -/
def lowerWith (run : HandlerProg → State → Ran) (k : FaultKind) (s : State) : Ran :=
  if faultIsSet s k then run (s.cfg.handlerOf k).lowered (settleAlert (setFaultBit k false s))
  else .on s

/-- `halted` is latched and the step in progress is over (R305). -/
def halt (s : State) : State := ((s.withHalted true).withPhase .idle).withPending []

/-- `Fatal(k)` (R305), the block's only trap: it raises the fault, latches `halted` and abandons
the rest of the step in progress. It stops no timer, clears no running flag, forces no output and
touches no queue. -/
def fatalWith (run : HandlerProg → State → Ran) (k : FaultKind) (s : State) : Ran :=
  (raiseWith run k s).andThen fun t => .abandoned (halt t)

/-- The lid fault `k` follows its condition in both directions (R245, R246). -/
def followWith (run : HandlerProg → State → Ran) (k : FaultKind) (condition : State → Bool)
    (s : State) : Ran :=
  if condition s then raiseWith run k s else lowerWith run k s

/-- `update_safety()` (R245). -/
def updateSafetyWith (run : HandlerProg → State → Ran) (s : State) : Ran :=
  (((if s.stopDown then raiseWith run .estop s else .on s).andThen
    (followWith run .lidOpen lidOpenConflict)).andThen
    (followWith run .lidClosed lidClosedConflict)).andThen fun t => .on (setGates t)

/-- `enqueue(c, a)` (R191, R192). -/
def enqueueWith (run : HandlerProg → State → Ran) (c : Channel) (a : Word) (s : State) : Ran :=
  if (s.q.get c).count = 128 then fatalWith run .swUnderflow s
  else .on (s.withQ (s.q.set c ((s.q.get c).push a)))

/-- The counter of channel `c` at a start (R215, R222): 0 without skew, else any value from 0 to
`START_SKEW` that the register can hold. -/
def startCnt (s : State) (c : Channel) : Word :=
  if s.cfg.startSkew = 0 then 0
  else BitVec.ofNat 16 (Config.freeNat s.draws c.index % (min s.cfg.startSkew 65535 + 1))

/-- `start_engine()` with the engine stopped (R215): all four channels in one step. -/
def startChannels (s : State) : State :=
  ((s.withQ (PerChan.ofFn fun c => { s.q.get c with running := true })).withTmr
    (PerChan.ofFn fun c => { on := true, cnt := startCnt s c, ivl := s.cfg.ivlBoot })).withDraws
    (s.draws + 1)

/-- `start_engine()` (R215, R216). -/
def startEngineWith (run : HandlerProg → State → Ran) (s : State) : Ran :=
  if engineState s = .stopped then .on (startChannels s) else fatalWith run .swUnderflow s

/-- At least one queue is full (R217). -/
def someQueueFull (s : State) : Bool :=
  queueIsFull s .x || queueIsFull s .y || queueIsFull s .z || queueIsFull s .l

/-- `maybe_start_engine()` (R217). -/
def maybeStartEngineWith (run : HandlerProg → State → Ran) (s : State) : Ran :=
  if decide (engineState s ≠ .running) && someQueueFull s then startEngineWith run s else .on s

/-- `set_laser_select(v)` (R262). -/
def setLaserSelectWith (run : HandlerProg → State → Ran) (v : LaserSel) (s : State) : Ran :=
  updateSafetyWith run (s.withLaserSel v)

/-- The fault whose override bit `set_override` writes (R52, R263). -/
def overrideFault : Override → FaultKind
  | .lidOpen => .lidOpen
  | .lidClosed => .lidClosed

/-- `set_override(which, b)` (R263). -/
def setOverrideWith (run : HandlerProg → State → Ran) (which : Override) (b : Bool) (s : State) :
    Ran :=
  updateSafetyWith run (s.withFaultOvr (s.faultOvr.set (overrideFault which).index b))

/-- The places of the free values `reset` draws (R341, "unspecified"). -/
def slotPlace (c : Channel) (i : Fin 128) : Nat := c.index * 128 + i.val

/-- A queue after `reset`: empty and idle, its slots drawn. -/
def resetQueue (n : Nat) (c : Channel) : Queue :=
  { buf := Vector.ofFn fun i => Config.freeWord n (slotPlace c i),
    head := 0, count := 0, running := false }

/-- A timer after `reset`: off, its counter and interval drawn. -/
def resetTimer (n : Nat) (c : Channel) : Timer :=
  { on := false, cnt := Config.freeWord n (512 + c.index), ivl := Config.freeWord n (516 + c.index) }

/-- A direction after `reset`: drawn. -/
def resetDir (n : Nat) (a : Axis) : Dir :=
  if Config.freeBit n a.channel.index then .pos else .neg

/-- `reset()` up to its last statement (R340): every register of R341 at its value, the
unspecified ones at free values, the snapshot at the raw inputs. -/
def clearBlock (s : State) : State :=
  { s with
    q := PerChan.ofFn (resetQueue s.draws)
    tmr := PerChan.ofFn (resetTimer s.draws)
    dir := PerAxis.ofFn (resetDir s.draws)
    stepEn := PerAxis.ofFn fun _ => false
    mainMode := .off
    visMode := .off
    mainPulseDur := Config.freeWord s.draws 520
    visPulseDur := Config.freeWord s.draws 521
    mainPower := Config.freeWord s.draws 522
    stopDown := s.inp.stopRaw
    lidOpen := s.inp.lidRaw
    laserSel := .none
    dbPending := false
    dbCnt := Config.freeNat s.draws 523 % (s.cfg.debounceTicks + 1)
    faultSet := Vector.replicate 16 false
    faultOvr := Vector.replicate 16 false
    alert := false
    halted := false
    phase := .idle
    pending := []
    draws := s.draws + 1 }

/-- `reset()` (R340): the only step that leaves the halted state. -/
def resetWith (run : HandlerProg → State → Ran) (s : State) : Ran :=
  updateSafetyWith run (clearBlock s)

/-! ### Handlers -/

/-- What a handler asks (R36, R49, R53, R54, R197). -/
def condHolds (s : State) : HandlerCond → Bool
  | .faultIsSet k => faultIsSet s k
  | .faultOverridden k => faultOverridden s k
  | .engineIs e => decide (engineState s = e)
  | .queueIsFull c => queueIsFull s c
  | .queueIsEmpty c => queueIsEmpty s c
  | .queueIsRunning c => (s.q.get c).running
  | .moveOk => s.moveOk
  | .mainOk => s.mainOk
  | .visOk => s.visOk

/-- One operation of a handler. -/
def actionWith (run : HandlerProg → State → Ran) : HandlerAction → State → Ran
  | .stopEngineImmediately, s => .on (stopEngine s)
  | .setGates, s => .on (setGates s)
  | .updateSafety, s => updateSafetyWith run s
  | .raiseFault k, s => raiseWith run k s
  | .lowerFault k, s => lowerWith run k s
  | .fatal k, s => fatalWith run k s
  | .enqueue c a, s => enqueueWith run c a s
  | .startEngine, s => startEngineWith run s
  | .maybeStartEngine, s => maybeStartEngineWith run s
  | .setLaserSelect v, s => setLaserSelectWith run v s
  | .setOverride which b, s => setOverrideWith run which b s
  | .reset, s => resetWith run s

/-- A handler's procedure, its operations run by `act`. -/
def runProg (act : HandlerAction → State → Ran) : HandlerProg → State → Ran
  | .done, s => .on s
  | .act a p, s => (act a s).andThen (runProg act p)
  | .branch c p p', s => if condHolds s c then runProg act p s else runProg act p' s

/-- A handler's procedure, with at most so many handlers run one inside the other. -/
def runHandler : Nat → HandlerProg → State → Ran
  | 0, _, _ => .endless
  | n + 1, p, s => runProg (actionWith (runHandler n)) p s

/-- More handlers one inside the other than there are calls that differ. What a handler does next
depends on 2^16 fault sets, 2^16 override sets, 2^4 sets of running channels, 130^4 counts, 2^7 gates,
switches and selections, and on which of 24 procedures is called: fewer than 2^76 calls. Of more
calls one inside the other two are alike, so they never end; every handler that ends at all ends
within this depth (DEDUCED, log 6; Laws/Endless.lean). -/
def handlerDepth : Nat := 2 ^ 80

/-- What runs the handler of a fault (R252). -/
def handle (p : HandlerProg) (s : State) : Ran := runHandler handlerDepth p s

/-! ### The operations of the block -/

/-- `raise_fault(k)` (R249). -/
def raiseFault (k : FaultKind) (s : State) : Ran := raiseWith handle k s

/-- `lower_fault(k)` (R250). -/
def lowerFault (k : FaultKind) (s : State) : Ran := lowerWith handle k s

/-- `Fatal(k)` (R305). -/
def fatal (k : FaultKind) (s : State) : Ran := fatalWith handle k s

/-- `update_safety()` (R245). -/
def updateSafety (s : State) : Ran := updateSafetyWith handle s

/-- `enqueue(c, a)` (R191, R192). -/
def enqueue (c : Channel) (a : Word) (s : State) : Ran := enqueueWith handle c a s

/-- `start_engine()` (R215, R216). -/
def startEngine (s : State) : Ran := startEngineWith handle s

/-- `maybe_start_engine()` (R217). -/
def maybeStartEngine (s : State) : Ran := maybeStartEngineWith handle s

/-- `set_laser_select(v)` (R262). -/
def setLaserSelect (v : LaserSel) (s : State) : Ran := setLaserSelectWith handle v s

/-- `set_override(which, b)` (R263). -/
def setOverride (which : Override) (b : Bool) (s : State) : Ran := setOverrideWith handle which b s

/-- `reset()` (R340). -/
def resetBlock (s : State) : Ran := resetWith handle s

/-- `UnDequeue(c, a)` and the end of the firing (R156, R195). -/
def pushBack (c : Channel) (a : Word) (s : State) : Host.Outcome State Fault Refusal :=
  if 128 ≤ (s.q.get c).count then .fault .pushBackOverflow
  else .next (endFiring (s.withQ (s.q.set c ((s.q.get c).unpop a))))

end Sys2Proof.Machine
end

