-- ==== Sys2Proof/Machine/Operands.lean ====
section
/-! DEFINITION. Fetching an instruction and its operand atom (R101, R109, R179), and the operand
forms of the atoms: which channel an atom acts on, and whether that channel takes it (R105, R110). -/

namespace Sys2Proof.Machine

/-- What one fetch of the interpreter gives. -/
inductive Fetched
  /-- the queue was empty, at the opcode or at the operand (R136, R179) -/
  | underRun (s : State)
  /-- the atom is illegal on this channel; it has been dequeued (R135) -/
  | illegal (s : State)
  /-- an instruction; its atoms have been dequeued -/
  | instr (i : Instr) (s : State)
  deriving DecidableEq, Repr

/-- The operand atom of an opcode of format `A2`: a second `Dequeue` in the same firing, never
classified (R107, R179). -/
def fetchOperand (c : Channel) (o : Opcode) (s : State) : Fetched :=
  if hasOperand o then
    match dequeue c s with
    | none => .underRun s
    | some (n, t) => .instr (instrOf n o) t
  else .instr (instrOf 0 o) s

/-- The top of the interpreter's loop (R131): dequeue an atom, decode it for the channel (R108),
fetch its operand. -/
def fetchInstr (c : Channel) (s : State) : Fetched :=
  match dequeue c s with
  | none => .underRun s
  | some (a, t) =>
    match decodeAt t.cfg c a with
    | .illegal => .illegal t
    | .literal v => .instr (.ivl v) t
    | .op o => fetchOperand c o t

/-- An atom that acts on a motor axis; on the laser channel it is illegal (R105, R110 (c)). -/
def onAxis (f : Axis → Host.Outcome State Fault Refusal) (s : State) :
    Host.Outcome State Fault Refusal :=
  match s.cur.axis? with
  | some a => f a
  | none => (fatal .swSyntax s).outcome

/-- An atom that acts on the laser channel; on a motor channel it is illegal (R105, R110 (b)). -/
def onLaser (f : State → State) (s : State) : Host.Outcome State Fault Refusal :=
  match s.cur.axis? with
  | some _ => (fatal .swSyntax s).outcome
  | none => .next (f s)

/-- A loop atom `o` that reads a switch some axes have (R156): illegal on a channel without it
(R110 (c), (d)); if the exit condition holds the interpreter goes on, else the atom is pushed
back and the firing ends. -/
def pollAtom (o : Opcode) (hasSwitch : PerAxis Bool) (exits : Axis → Bool) (s : State) :
    Host.Outcome State Fault Refusal :=
  onAxis (fun a =>
    if hasSwitch.get a then
      if exits a then .next s else pushBack s.cur (opnum s.cfg o) s
    else (fatal .swSyntax s).outcome) s

end Sys2Proof.Machine
end

