-- ==== Sys2Proof/Machine/Control.lean ====
section
/-! DEFINITION. The control atoms: `STOP` and the literal (40_atoms_control.md). -/

namespace Sys2Proof.Machine

/-- `STOP` (R134): the channel's timer stops, its running flag is cleared, the firing ends. -/
def execStop (s : State) : Host.Outcome State Fault Refusal :=
  .next (endFiring (stopChannel s.cur s))

/-- `IVL v` (R133): the value is the channel's next interval, unchanged; the firing ends. -/
def execIvl (v : Word) (s : State) : Host.Outcome State Fault Refusal :=
  .next (endFiring (s.withTmr (s.tmr.set s.cur { s.tmr.get s.cur with ivl := v })))

end Sys2Proof.Machine
end

