-- ==== Sys2Proof/Machine/Laser.lean ====
section
/-! DEFINITION. The laser atoms (42_atoms_laser.md): the two modes, the two pulse durations, the
main power. None of them consults a gate, `laser_sel` or a fault (R137, R180). -/

namespace Sys2Proof.Machine

/-- `SET_MAIN_MODE_OFF` (R170). -/
def execSetMainModeOff (s : State) : Host.Outcome State Fault Refusal :=
  onLaser (fun t => t.withMainMode .off) s

/-- `SET_MAIN_MODE_PULSED` (R171). -/
def execSetMainModePulsed (s : State) : Host.Outcome State Fault Refusal :=
  onLaser (fun t => t.withMainMode .pulsed) s

/-- `SET_MAIN_MODE_CONTINUOUS` (R172). -/
def execSetMainModeContinuous (s : State) : Host.Outcome State Fault Refusal :=
  onLaser (fun t => t.withMainMode .continuous) s

/-- `SET_VISIBLE_MODE_OFF` (R173). -/
def execSetVisibleModeOff (s : State) : Host.Outcome State Fault Refusal :=
  onLaser (fun t => t.withVisMode .off) s

/-- `SET_VISIBLE_MODE_PULSED` (R174). -/
def execSetVisibleModePulsed (s : State) : Host.Outcome State Fault Refusal :=
  onLaser (fun t => t.withVisMode .pulsed) s

/-- `SET_VISIBLE_MODE_CONTINUOUS` (R175). -/
def execSetVisibleModeContinuous (s : State) : Host.Outcome State Fault Refusal :=
  onLaser (fun t => t.withVisMode .continuous) s

/-- `SET_MAIN_PULSE_DURATION n` (R176), its operand fetched. -/
def execSetMainPulseDuration (n : Word) (s : State) : Host.Outcome State Fault Refusal :=
  onLaser (fun t => t.withMainPulseDur n) s

/-- `SET_VISIBLE_PULSE_DURATION n` (R177), its operand fetched. -/
def execSetVisiblePulseDuration (n : Word) (s : State) : Host.Outcome State Fault Refusal :=
  onLaser (fun t => t.withVisPulseDur n) s

/-- `SET_MAIN_POWER_LEVEL n` (R178), its operand fetched. -/
def execSetMainPowerLevel (n : Word) (s : State) : Host.Outcome State Fault Refusal :=
  onLaser (fun t => t.withMainPower n) s

end Sys2Proof.Machine
end

