-- ==== Sys2Proof/Machine/Motor.lean ====
section
/-! DEFINITION. The motor atoms (41_atoms_motor.md): direction, step enable, and the four loop
atoms that poll a limit switch. None of them consults a gate (R137). -/

namespace Sys2Proof.Machine

/-- `DIR_POSITIVE` (R150). -/
def execDirPositive (s : State) : Host.Outcome State Fault Refusal :=
  onAxis (fun a => .next (s.withDir (s.dir.set a .pos))) s

/-- `DIR_NEGATIVE` (R151). -/
def execDirNegative (s : State) : Host.Outcome State Fault Refusal :=
  onAxis (fun a => .next (s.withDir (s.dir.set a .neg))) s

/-- `ENABLE_PIN` (R152). -/
def execEnablePin (s : State) : Host.Outcome State Fault Refusal :=
  onAxis (fun a => .next (s.withStepEn (s.stepEn.set a true))) s

/-- `DISABLE_PIN` (R153). -/
def execDisablePin (s : State) : Host.Outcome State Fault Refusal :=
  onAxis (fun a => .next (s.withStepEn (s.stepEn.set a false))) s

/-- `LOOP_UNTIL_MIN` (R157): goes on when the minimum switch is reached. -/
def execLoopUntilMin (s : State) : Host.Outcome State Fault Refusal :=
  pollAtom .loopUntilMin s.cfg.hasMin (fun a => s.inp.minReached.get a) s

/-- `LOOP_WHILE_MIN` (R158): goes on when the minimum switch is not reached. -/
def execLoopWhileMin (s : State) : Host.Outcome State Fault Refusal :=
  pollAtom .loopWhileMin s.cfg.hasMin (fun a => !s.inp.minReached.get a) s

/-- `LOOP_UNTIL_MAX` (R159): goes on when the maximum switch is reached. -/
def execLoopUntilMax (s : State) : Host.Outcome State Fault Refusal :=
  pollAtom .loopUntilMax s.cfg.hasMax (fun a => s.inp.maxReached.get a) s

/-- `LOOP_WHILE_MAX` (R160): goes on when the maximum switch is not reached. -/
def execLoopWhileMax (s : State) : Host.Outcome State Fault Refusal :=
  pollAtom .loopWhileMax s.cfg.hasMax (fun a => !s.inp.maxReached.get a) s

end Sys2Proof.Machine
end

