-- ==== Sys2Proof/Machine/Dispatch.lean ====
section
/-! DEFINITION. The meaning of every instruction: one arm per constructor of Instr. -/

namespace Sys2Proof.Machine

/-- What an instruction does once it has been fetched, on the channel `cur` whose firing it is. -/
def exec (i : Instr) (s : State) : Host.Outcome State Fault Refusal :=
  match i with
  -- 40_atoms_control.md
  | .stop => Sys2Proof.Machine.execStop s
  -- 41_atoms_motor.md
  | .dirPositive => Sys2Proof.Machine.execDirPositive s
  | .dirNegative => Sys2Proof.Machine.execDirNegative s
  | .loopUntilMin => Sys2Proof.Machine.execLoopUntilMin s
  | .loopWhileMin => Sys2Proof.Machine.execLoopWhileMin s
  | .loopUntilMax => Sys2Proof.Machine.execLoopUntilMax s
  | .loopWhileMax => Sys2Proof.Machine.execLoopWhileMax s
  | .enablePin => Sys2Proof.Machine.execEnablePin s
  | .disablePin => Sys2Proof.Machine.execDisablePin s
  -- 42_atoms_laser.md
  | .setMainModeOff => Sys2Proof.Machine.execSetMainModeOff s
  | .setMainModePulsed => Sys2Proof.Machine.execSetMainModePulsed s
  | .setMainModeContinuous => Sys2Proof.Machine.execSetMainModeContinuous s
  | .setVisibleModeOff => Sys2Proof.Machine.execSetVisibleModeOff s
  | .setVisibleModePulsed => Sys2Proof.Machine.execSetVisibleModePulsed s
  | .setVisibleModeContinuous => Sys2Proof.Machine.execSetVisibleModeContinuous s
  | .setMainPulseDuration n => Sys2Proof.Machine.execSetMainPulseDuration n s
  | .setVisiblePulseDuration n => Sys2Proof.Machine.execSetVisiblePulseDuration n s
  | .setMainPowerLevel n => Sys2Proof.Machine.execSetMainPowerLevel n s
  -- 40_atoms_control.md
  | .ivl v => Sys2Proof.Machine.execIvl v s

end Sys2Proof.Machine
end

