-- ==== Sys2Proof/Machine/Fetch.lean ====
section
/-! DEFINITION. One pass of the interpreter's loop (40_atoms_control.md R131), and how an
instruction from outside is laid where the interpreter reads its next atom. -/

namespace Sys2Proof.Machine

/-- One pass of the loop of R131: fetch at the running channel's queue, then run what was fetched;
an under-run and an illegal atom are fatal (R135, R136). -/
def firingPass (s : State) : Host.Outcome State Fault Refusal :=
  match fetchInstr s.cur s with
  | .underRun t => (fatal .swUnderflow t).outcome
  | .illegal t => (fatal .swSyntax t).outcome
  | .instr i t => exec i t

/-- The channel an instruction from outside is laid on: the one that fires now if it takes it,
else the first that does. -/
def fetchChannel (s : State) (i : Option Instr) : Channel :=
  match i with
  | none => s.cur
  | some i =>
    if decide (s.phase = .firing) && takesInstr s.cfg s.cur i then s.cur
    else match Channel.all.find? (fun c => takesInstr s.cfg c i) with
      | some c => c
      | none => s.cur

/-- The slot after the head, where an operand atom stands (R103). -/
def Queue.second (u : Queue) : Fin 128 := u.head + 1

/-- Two atoms at the head of a queue, which is running. -/
def Queue.lay (u : Queue) (a b : Word) : Queue :=
  { buf := (u.buf.set u.head a).set u.second b,
    head := u.head, count := max u.count 2, running := true }

/-- A timer that has just overflowed; a stopped one is started first (R215). -/
def Timer.lay (t : Timer) (boot : Word) : Timer :=
  { on := true, cnt := 0, ivl := if t.on then t.ivl else boot }

/-- The instruction of the atoms `a`, `b` under the state's configuration, if there is one. -/
def decodedPair (s : State) (a b : Word) : Option Instr :=
  match decode s.cfg [a, b] with
  | .ok (i, _) => some i
  | .error _ => none

/-- The atoms `a`, `b` laid where channel `c`'s interpreter reads next, with `c` in a firing. -/
def layOn (c : Channel) (a b : Word) (s : State) : State :=
  (((((s.withQ (s.q.set c ((s.q.get c).lay a b))).withTmr
    (s.tmr.set c ((s.tmr.get c).lay s.cfg.ivlBoot))).withHalted false).withPending
    (s.pending.erase c)).withCur c).withPhase .firing

/-- The atoms of a table word laid where the machine's next step fetches. -/
def layAtoms (s : State) (nbits w : Nat) : State :=
  match tableAtoms nbits w with
  | a :: b :: _ => layOn (fetchChannel s (decodedPair s a b)) a b s
  | _ => s

end Sys2Proof.Machine
end

