-- ==== Sys2Proof/Machine/Tick.lean ====
section
/-! DEFINITION. Time: the three parts of the `Tick` step (44_engine_ops.md R211) and the debouncer
(45_safety_fault_ops.md R257). -/

namespace Sys2Proof.Machine

/-- A running timer reaches its interval in this tick (R211, part 1). -/
def overflows (t : Timer) : Bool := t.on && decide (t.cnt + 1 = t.ivl)

/-- One tick of one timer (R211, part 1): it counts, and goes back to 0 at an overflow. -/
def advanceTimer (t : Timer) : Timer :=
  if t.on then
    if t.cnt + 1 = t.ivl then { t with cnt := 0 } else { t with cnt := t.cnt + 1 }
  else t

/-- The set `F` of R211: the channels that overflow in this tick, in channel order. -/
def overflowed (s : State) : List Channel :=
  Channel.all.filter fun c => overflows (s.tmr.get c)

/-- Those of `rest` that `order` names, in its order, and then the others. -/
def pickOrder : List Channel → List Channel → List Channel
  | [], rest => rest
  | c :: order, rest =>
    if c ∈ rest then c :: pickOrder order (rest.erase c) else pickOrder order rest

/-- The order the channels of `F` fire in (R213: "A model admits every order"). Every list gives
an order, and every order is given by a list. -/
def arrange (order : List Channel) : List Channel → List Channel
  | [] => []
  | [c] => [c]
  | c :: d :: rest => pickOrder order (c :: d :: rest)

/-- Part 1 of `Tick` (R211): nothing when halted; else every running timer counts and the channels
that overflow wait to fire. -/
def beginTick (order : List Channel) (s : State) : State :=
  if s.halted then s
  else ((s.withTmr (PerChan.ofFn fun c => advanceTimer (s.tmr.get c))).withPending
    (arrange order (overflowed s))).withPhase .between

/-- A raw switch input differs from its snapshot bit (R257). -/
def switchDiffers (s : State) : Bool :=
  s.inp.stopRaw != s.stopDown || s.inp.lidRaw != s.lidOpen

/-- The freeze branch of R257. -/
def freezeSwitches (s : State) : State :=
  (s.withDbPending true).withDbCnt s.cfg.debounceTicks

/-- The commit of R257: the snapshot takes the raw values and the debouncer is armed again. -/
def commitSwitches (s : State) : State :=
  ((s.withStopDown s.inp.stopRaw).withLidOpen s.inp.lidRaw).withDbPending false

/-- `debounce_tick()` (R257). -/
def debounceTick (s : State) : Ran :=
  if s.dbPending then
    let t := s.withDbCnt (s.dbCnt - 1)
    if t.dbCnt = 0 then updateSafety (commitSwitches t) else .on t
  else if switchDiffers s then .on (freezeSwitches s)
  else .on s

/-- Part 3 of `Tick` (R211): the debouncer runs and the tick is over. -/
def endTick (s : State) : Host.Outcome State Fault Refusal :=
  ((debounceTick s).atEnd fun t => t.withPhase .idle).outcome

/-- A channel's timer overflow is served (R212): its output events, from the state before its
firing, and then its interpreter starts. -/
def enterFiring (c : Channel) (s : State) : State :=
  ((s.withEvents (s.events ++ overflowEvents s c)).withCur c).withPhase .firing

/-- Parts 2 and 3 of `Tick` (R211) between firings: the next channel that overflowed fires; when
none is left the debouncer runs and the tick is over. -/
def nextFiring (s : State) : Host.Outcome State Fault Refusal :=
  match s.pending with
  | [] => endTick s
  | c :: rest => .next (enterFiring c (s.withPending rest))

end Sys2Proof.Machine
end

