-- ==== Sys2Proof/Machine/HostOps.lean ====
section
/-! DEFINITION. The host's operations (00_scope.md R12), the input changes, and which step of the
environment comes next. -/

namespace Sys2Proof.Machine

/-- A host operation that acts: nothing on a halted block (R56, R306), else its effect; it
returns nothing. -/
def hostAct (f : State → Ran) (s : State) : Host.Outcome State Fault Refusal :=
  ((if s.halted then .on s else f s).atEnd fun t => t.withHostResult none).outcome

/-- A host operation that reads: no side effect; a halted block answers from its frozen state
(R77, R306). -/
def hostRead (r : State → HostResult) (s : State) : Host.Outcome State Fault Refusal :=
  .next (s.withHostResult (some (r s)))

/-- A host operation on a fault index; an index that names no fault is refused (R255). -/
def onFault (i : Nat) (f : FaultKind → Host.Outcome State Fault Refusal) :
    Host.Outcome State Fault Refusal :=
  match faultOfIndex i with
  | some k => f k
  | none => .refused (.badFaultIndex i)

/-- One host operation (R12). -/
def hostStep (op : HostOp) (s : State) : Host.Outcome State Fault Refusal :=
  match op with
  | .enqueue c a => hostAct (enqueue c a) s
  | .queueIsFull c => hostRead (fun t => .bool (queueIsFull t c)) s
  | .queueIsEmpty c => hostRead (fun t => .bool (queueIsEmpty t c)) s
  | .queueIsRunning c => hostRead (fun t => .bool (t.q.get c).running) s
  | .startEngine => hostAct startEngine s
  | .maybeStartEngine => hostAct maybeStartEngine s
  | .stopEngineImmediately => hostAct (fun t => .on (stopEngine t)) s
  | .awaitEngineStopped => hostAct .on s
  | .getEngineState => hostRead (fun t => .engine (engineState t)) s
  | .raiseFault i => onFault i fun k => hostAct (raiseFault k) s
  | .lowerFault i => onFault i fun k => hostAct (lowerFault k) s
  | .faultIsSet i => onFault i fun k => hostRead (fun t => .bool (faultIsSet t k)) s
  | .faultOverridden i => onFault i fun k => hostRead (fun t => .bool (faultOverridden t k)) s
  | .getFaultName i => onFault i fun k => hostRead (fun _ => .name (faultName k)) s
  | .setLaserSelect v => hostAct (setLaserSelect v) s
  | .setOverride which b => hostAct (setOverride which b) s
  | .updateSafety => hostAct updateSafety s
  | .readGates => hostRead (fun t => .gates t.moveOk t.mainOk t.visOk) s
  | .reset => ((resetBlock s).atEnd fun t => t.withHostResult none).outcome

/-- An input signal takes a new value (R60). -/
def Inputs.change (i : Inputs) (sig : InputSignal) (v : Bool) : Inputs :=
  match sig with
  | .stopRaw => { i with stopRaw := v }
  | .lidRaw => { i with lidRaw := v }
  | .minReached a => { i with minReached := i.minReached.set a v }
  | .maxReached a => { i with maxReached := i.maxReached.set a v }

/-- A host operation that is not enabled yet: `await_engine_stopped` while the engine is not
stopped, and every operation of a host that waits in one (R220). -/
def mustWait (stopped : Bool) (waiting : List Nat) : Event → Option Nat
  | .host h op =>
    if waiting.contains h || (decide (op = .awaitEngineStopped) && !stopped) then some h else none
  | .tick _ => none
  | .input _ _ => none

/-- The first event of the script that is enabled, and the script without it. A host that waits
holds back its own operations only: ticks, inputs and other hosts go on (R86, R220, D39). -/
def takeEvent (stopped : Bool) : List Nat → List Event → Option (Event × List Event)
  | _, [] => none
  | waiting, e :: es =>
    match mustWait stopped waiting e with
    | none => some (e, es)
    | some h =>
      match takeEvent stopped (h :: waiting) es with
      | some (e', es') => some (e', e :: es')
      | none => none

/-- The next step of the environment: an enabled event of the script, or, when there is none, a
tick whose order is a free value (log 5). -/
def nextEvent (s : State) : Event × State :=
  match takeEvent (decide (engineState s = .stopped)) [] s.script with
  | some (e, es) => (e, s.withScript es)
  | none => (.tick (Config.freeOrder s.draws), s.withDraws (s.draws + 1))

/-- One step of the environment (R10). -/
def runEvent (e : Event) (s : State) : Host.Outcome State Fault Refusal :=
  match e with
  | .tick order => .next (beginTick order s)
  | .host _ op => hostStep op s
  | .input sig v => .next (s.withInp (s.inp.change sig v))

/-- The next step of the environment is taken. -/
def stepEvent (s : State) : Host.Outcome State Fault Refusal :=
  runEvent (nextEvent s).1 (nextEvent s).2

end Sys2Proof.Machine
end

