-- ==== Sys2Proof/Machine/Step.lean ====
section
/-! DEFINITION. One step of the machine. -/

namespace Sys2Proof.Machine

/-- One step. A configuration that breaks a constraint is refused (R7). With no tick in progress
the next step of the environment is taken; during a tick the interpreter makes one pass, or the
tick goes on to its next firing or its end. -/
def step (s : State) : Host.Outcome State Fault Refusal :=
  if s.cfg.ok then
    match s.phase with
    | .idle => stepEvent s
    | .between => nextFiring s
    | .firing => firingPass s
  else .refused .badConfiguration

/-- The instruction of a table word stored where the next step fetches (log 9). -/
def State.withFetchWord (s : State) (nbits w : Nat) : State := layAtoms s nbits w

end Sys2Proof.Machine
end

