-- ==== Sys2Proof/Machine/Atomic.lean ====
section
/-! DEFINITION. The `Tick` step of 44_engine_ops.md R211 as ONE function, in the shape of the spec's
pseudocode: parts 1, 2 and 3 from the state before the tick to the state after it. The machine's
own step takes a tick in passes (log 4); a statement says the two agree. -/

namespace Sys2Proof.Machine

/-- `fire(c)` from the top of its loop (R131), for at most `n` passes. -/
def fireLoop : Nat → State → Host.Outcome State Fault Refusal
  | 0, s => .next s
  | n + 1, s =>
    match firingPass s with
    | .next t => if t.phase = .firing then fireLoop n t else .next t
    | .fault r => .fault r
    | .refused r => .refused r

/-- Part 2 of `Tick` (R211): the channels of the list fire in its order, each with its output
events first, until one of them halts the block. A firing makes at most 128 passes (R132), and
one more finds the queue empty. -/
def fireAll : List Channel → State → Host.Outcome State Fault Refusal
  | [], s => .next s
  | c :: rest, s =>
    match fireLoop 129 (enterFiring c (s.withPending rest)) with
    | .next t => if t.halted then .next t else fireAll rest t
    | .fault r => .fault r
    | .refused r => .refused r

/-- `Tick` (R211), its channels firing in the order `order` gives them (R213). -/
def tickAtomic (order : List Channel) (s : State) : Host.Outcome State Fault Refusal :=
  if s.halted then .next s
  else
    match fireAll (beginTick order s).pending (beginTick order s) with
    | .next t => if t.halted then .next t else endTick t
    | .fault r => .fault r
    | .refused r => .refused r

end Sys2Proof.Machine
end

