-- ==== Sys2Proof/Machine/Scheduler.lean ====
section
/-! DEFINITION. The reference host's interval splitting (46_host_scheduler_reference.md). It is host
software: no definition of the block depends on it (R280). -/

namespace Sys2Proof.Machine

/-- `next_ivl(now, end)` (R282) with the bounds `lo` = `MIN_IVL` and `hi` = `MAX_IVL`. -/
def nextIvl (lo hi now fin : Nat) : Nat :=
  if fin - now ≤ hi then fin - now
  else if fin - now < hi + lo then (fin - now) / 2
  else hi

/-- The chunks a host emits from `now` until `fin` (R283), at most `n` of them. -/
def chunks (lo hi fin : Nat) : Nat → Nat → List Nat
  | 0, _ => []
  | n + 1, now =>
    if fin ≤ now then []
    else nextIvl lo hi now fin :: chunks lo hi fin n (now + nextIvl lo hi now fin)

/-- The chunks of a dwell of `d` ticks. -/
def dwellChunks (lo hi d : Nat) : List Nat := chunks lo hi d d 0

/-- The constraints on the host's bounds (93_implementation_defined.md section 1): `MAX_IVL >=
2*MIN_IVL - 1` and `MIN_IVL >= ATOM_MAX`; a configuration that breaks one is refused. -/
def boundsOk (cfg : Config) (lo hi : Nat) : Bool :=
  decide (2 * lo ≤ hi + 1) && decide (cfg.atomMax ≤ lo)

/-- R286: a host refuses a dwell of zero, and one with a chunk that is no literal: below `ATOM_MAX`,
or wider than an atom. -/
def dwellAccepted (cfg : Config) (lo hi d : Nat) : Bool :=
  decide (0 < d) &&
    (dwellChunks lo hi d).all fun k => decide (cfg.atomMax ≤ k) && decide (k < 65536)

/-- The variables of the host that a dwell reads (R281, R289). -/
structure DwellVars where
  select       : LaserSel
  mode         : LaserMode
  power        : Word
  mainPulseDur : Word
  visPulseDur  : Word
  deriving DecidableEq, Repr

/-- The scheduler's shadow state (R281): what it commanded last; a value it never commanded is
`none`. -/
structure Shadow where
  stepEn       : PerAxis Bool
  mainMode     : LaserMode
  visMode      : LaserMode
  power        : Option Word
  mainPulseDur : Option Word
  visPulseDur  : Option Word
  deriving DecidableEq, Repr

/-- The mode a dwell wants of a laser: the mode variable for the selected one, off for the other
(R281; DEDUCED, log 19). -/
def wantedMode (v : DwellVars) (laser : LaserSel) : LaserMode :=
  if v.select = laser then v.mode else .off

/-- `SET_MAIN_MODE_*` of a mode. -/
def mainModeInstr : LaserMode → Instr
  | .off => .setMainModeOff
  | .pulsed => .setMainModePulsed
  | .continuous => .setMainModeContinuous

/-- `SET_VISIBLE_MODE_*` of a mode. -/
def visModeInstr : LaserMode → Instr
  | .off => .setVisibleModeOff
  | .pulsed => .setVisibleModePulsed
  | .continuous => .setVisibleModeContinuous

/-- An instruction where it is needed. -/
def needed (b : Bool) (i : Instr) : List Instr := if b then [i] else []

/-- The atom diffs of a motor channel for a dwell (R281): its steps off, if they are on. -/
def motorDiff (sh : Shadow) (a : Axis) : List Instr := needed (sh.stepEn.get a) .disablePin

/-- The atom diffs of the laser channel for a dwell (R281): the operands the wanted modes use and
the modes, each only where it differs from the shadow. -/
def laserDiff (v : DwellVars) (sh : Shadow) : List Instr :=
  needed (decide (wantedMode v .main ≠ .off ∧ sh.power ≠ some v.power))
    (.setMainPowerLevel v.power) ++
  needed (decide (wantedMode v .main = .pulsed ∧ sh.mainPulseDur ≠ some v.mainPulseDur))
    (.setMainPulseDuration v.mainPulseDur) ++
  needed (decide (wantedMode v .visible = .pulsed ∧ sh.visPulseDur ≠ some v.visPulseDur))
    (.setVisiblePulseDuration v.visPulseDur) ++
  needed (decide (sh.mainMode ≠ wantedMode v .main)) (mainModeInstr (wantedMode v .main)) ++
  needed (decide (sh.visMode ≠ wantedMode v .visible)) (visModeInstr (wantedMode v .visible))

/-- The atom diffs of a channel for a dwell. -/
def channelDiff (v : DwellVars) (sh : Shadow) (c : Channel) : List Instr :=
  match c.axis? with
  | some a => motorDiff sh a
  | none => laserDiff v sh

/-- One statement of the host's program. -/
inductive HostStmt
  /-- the atom `a` is appended to channel `c`'s queue, once there is room (R353) -/
  | append (c : Channel) (a : Word)
  /-- the engine is started if it is still idle (R284) -/
  | lazyStart
  deriving DecidableEq, Repr

/-- What the host has asked for the statement it is at. -/
inductive HostAsked
  | nothing
  | isFull
  | engine
  deriving DecidableEq, Repr

/-- A host at work: the statements it has yet to run, and what it has asked for the first. -/
structure HostRun where
  todo  : List HostStmt
  asked : HostAsked
  deriving DecidableEq, Repr

/-- The statements that append an instruction's atoms to a channel's queue. -/
def appendInstr (cfg : Config) (c : Channel) (i : Instr) : List HostStmt :=
  (encode cfg i).map (.append c)

/-- The statements that append one instruction to all four queues. -/
def appendAll (cfg : Config) (i : Instr) : List HostStmt :=
  Channel.all.flatMap fun c => appendInstr cfg c i

/-- A chunk (R284): its literal on all four queues, and then the lazy start. -/
def chunkStmts (cfg : Config) (k : Nat) : List HostStmt :=
  appendAll cfg (.ivl (BitVec.ofNat 16 k)) ++ [.lazyStart]

/-- `enqueue_dwell` (R281): the diffs, the chunks, then `STOP` on all four channels. -/
def dwellStmts (cfg : Config) (v : DwellVars) (sh : Shadow) (lo hi d : Nat) : List HostStmt :=
  (Channel.all.flatMap fun c => (channelDiff v sh c).flatMap (appendInstr cfg c)) ++
    (dwellChunks lo hi d).flatMap (chunkStmts cfg) ++ appendAll cfg .stop

/-- The call of `enqueue_dwell`: the program of the host, or `none` for what a reference host must
refuse (R286: a dwell of zero, a chunk that is no literal, a queue already full; the bounds) and for
the path the spec leaves undesigned (R287: a dwell in pulsed mode). DESIGN CHOICE (log 19): a queue is
already full when any of the four is full at the call; atoms that find no room later wait for it. -/
def enqueueDwell (v : DwellVars) (sh : Shadow) (lo hi d : Nat) (s : State) : Option HostRun :=
  if boundsOk s.cfg lo hi && dwellAccepted s.cfg lo hi d &&
      (decide (v.select = .none) || decide (v.mode ≠ .pulsed)) && !someQueueFull s then
    some { todo := dwellStmts s.cfg v sh lo hi d, asked := .nothing }
  else none

/-- The next operation of a host at work, from what its last one returned. It appends only after a
read that says there is room; a queue that has filled up since the call it waits for, starting an
engine that is idle (R353, "waits or rejects", "the host must start it"; the wait is the model's
choice, log 19). The lazy start reads the engine state after the appends of its chunk (R284). -/
def hostNext : List HostStmt → HostAsked → Option HostResult → Option (HostOp × HostRun)
  | [], _, _ => none
  | .append c a :: rest, asked, result =>
    match asked with
    | .nothing => some (.queueIsFull c, { todo := .append c a :: rest, asked := .isFull })
    | .isFull =>
      if result = some (.bool false) then
        some (.enqueue c a, { todo := rest, asked := .nothing })
      else some (.getEngineState, { todo := .append c a :: rest, asked := .engine })
    | .engine =>
      if result = some (.engine .stopped) then
        some (.maybeStartEngine, { todo := .append c a :: rest, asked := .nothing })
      else some (.queueIsFull c, { todo := .append c a :: rest, asked := .isFull })
  | .lazyStart :: rest, asked, result =>
    match asked with
    | .nothing => some (.getEngineState, { todo := .lazyStart :: rest, asked := .engine })
    | .isFull => some (.getEngineState, { todo := .lazyStart :: rest, asked := .engine })
    | .engine =>
      if result = some (.engine .stopped) then
        some (.startEngine, { todo := rest, asked := .nothing })
      else hostNext rest .nothing result

/-- What the scheduler remembers after a dwell (R281). -/
def Shadow.afterDwell (sh : Shadow) (v : DwellVars) : Shadow :=
  { stepEn := { x := false, y := false, z := false }
    mainMode := wantedMode v .main
    visMode := wantedMode v .visible
    power := if wantedMode v .main ≠ .off then some v.power else sh.power
    mainPulseDur :=
      if wantedMode v .main = .pulsed then some v.mainPulseDur else sh.mainPulseDur
    visPulseDur :=
      if wantedMode v .visible = .pulsed then some v.visPulseDur else sh.visPulseDur }

/-- The shadow after an immediate stop or a reset (R356): "`step_en = 0`, modes `OFF`". The atoms that
carried the operands may have been thrown away, so no operand counts as commanded (DEDUCED, log 19). -/
def Shadow.afterStop : Shadow :=
  { stepEn := PerAxis.ofFn fun _ => false
    mainMode := .off
    visMode := .off
    power := none
    mainPulseDur := none
    visPulseDur := none }

/-- The faults every raise of which is an immediate stop (R356, R252). -/
def stopFaults : List FaultKind := [.estop, .lidOpen, .lidClosed]

/-- Whether the event `e`, from `s` to `t`, made an immediate stop or a reset (R356): the two operations
themselves, a raise of one of the three faults, and a lowering of `F_ESTOP` that raised it again (R252).
A host tells it from the operations and from its reads of the faults before and after (log 19). -/
def stopHappened (e : Event) (s t : State) : Bool :=
  (match e with
    | .tick _ => false
    | .input _ _ => false
    | .host _ op =>
      decide (op = .reset) || (decide (op = .stopEngineImmediately) && !s.halted) ||
        (decide (op = .lowerFault FaultKind.estop.index.val) && !s.halted &&
          faultIsSet s .estop && faultIsSet t .estop)) ||
    stopFaults.any fun k => faultIsSet t k && !faultIsSet s k

/-- What the scheduler remembers after an event (R356): it starts again from `afterStop` where there
was an immediate stop or a reset. -/
def Shadow.follow (sh : Shadow) (e : Event) (s t : State) : Shadow :=
  if stopHappened e s t then .afterStop else sh

/-- The reference host: what it remembers, what it has yet to do, and what its own last operation
returned, which no operation of another host (D39) changes. -/
structure RefHost where
  shadow : Shadow
  run    : HostRun
  answer : Option HostResult
  deriving DecidableEq, Repr

/-- The reference host before its first dwell: the shadow of a block just reset (R356). -/
def RefHost.fresh : RefHost :=
  { shadow := .afterStop, run := { todo := [], asked := .nothing }, answer := none }

/-- The reference host calls `enqueue_dwell`, with its shadow (R281). DESIGN CHOICE (log 19): a dwell
called while statements of an earlier one are still to run comes after all of them, their `STOP`s too,
so that no atom the shadow counts as commanded is lost; the spec does not say. -/
def RefHost.dwell (r : RefHost) (v : DwellVars) (lo hi d : Nat) (s : State) : Option RefHost :=
  (enqueueDwell v r.shadow lo hi d s).map fun run =>
    { r with
      shadow := r.shadow.afterDwell v
      run := { todo := r.run.todo ++ run.todo, asked := r.run.asked } }

/-- What the reference host holds after an event (R356), one of its own or another's: its shadow follows
an immediate stop, and the program whose atoms the stop threw away is given up (DESIGN CHOICE, log 19). -/
def RefHost.observe (r : RefHost) (e : Event) (s t : State) : RefHost :=
  if stopHappened e s t then { RefHost.fresh with shadow := r.shadow.follow e s t }
  else { r with shadow := r.shadow.follow e s t }

/-- The reference host's next operation (R284, R353), from its own last answer. -/
def RefHost.next (r : RefHost) : Option (HostOp × HostRun) := hostNext r.run.todo r.run.asked r.answer

/-- One step of the reference host `n`: its next operation run on the block, what that returned, and what
the host holds then. -/
def RefHost.turn (r : RefHost) (n : Nat) (s : State) :
    Option (Host.Outcome (RefHost × State) Fault Refusal) :=
  r.next.map fun p =>
    match hostStep p.1 s with
    | .next t =>
      .next (RefHost.observe { r with run := p.2, answer := t.hostResult } (.host n p.1) s t, t)
    | .fault f => .fault f
    | .refused x => .refused x

end Sys2Proof.Machine
end

