-- ==== Sys2Proof/Safety.lean ====
section
/-! DEFINITION. What the claims are stated in: the invariants of 10_state.md R63, the fault states
of 60_exceptions.md R306, the permissions of 45_safety_fault_ops.md R241, and the runs of queue
operations of 43_queue_ops.md R196. -/

namespace Sys2Proof

/-- The procedure has operation `a` among those it runs before any branch. -/
def HandlerProg.has (a : HandlerAction) : HandlerProg → Bool
  | .done => false
  | .act b p => decide (b = a) || p.has a
  | .branch _ _ _ => false

/-- The procedure stops the engine and sets the gates, and does nothing else. -/
def HandlerProg.plain : HandlerProg → Bool
  | .done => true
  | .act .stopEngineImmediately p => p.plain
  | .act .setGates p => p.plain
  | .act _ _ => false
  | .branch _ _ _ => false

/-- The procedure is a plain one with `update_safety` as its last operation. -/
def HandlerProg.settles : HandlerProg → Bool
  | .done => false
  | .act .stopEngineImmediately p => p.settles
  | .act .setGates p => p.settles
  | .act .updateSafety p => decide (p = .done)
  | .act _ _ => false
  | .branch _ _ _ => false

/-- A row whose handlers touch no fault but through `update_safety` (R251, R253): a plain one on
`RAISED`; a plain one on `LOWERED`, which may end in `update_safety` unless the fault is one that
`update_safety` itself lowers. -/
def HandlerRow.regular (k : FaultKind) (row : HandlerRow) : Bool :=
  row.raised.plain &&
    (row.lowered.plain || (row.lowered.settles && decide (k ≠ .lidOpen) && decide (k ≠ .lidClosed)))

/-- The handlers that the rules derived from the default `HANDLER` count on. R251 and R253: every
row is regular. R244: "Every step that changes an input of the gate function ends with one of the
two", so the row of `F_ESTOP` sets the gates in both directions. The default (R252) is one; a
`HANDLER` need not be (93_implementation_defined.md section 1), and the machine runs it all the
same (log 6). -/
def Config.handlersRegular (cfg : Config) : Bool :=
  FaultKind.all.all (fun k => (cfg.handlerOf k).regular k) &&
    (cfg.handlerOf .estop).raised.has .setGates &&
    ((cfg.handlerOf .estop).lowered.has .setGates || (cfg.handlerOf .estop).lowered.settles)

end Sys2Proof

namespace Sys2Proof.Machine

/-- A halted state is a fault state, "never a final state of a run" (R306). -/
def safeState (s : State) : Bool := !s.halted

/-- The invariants: (a) to (g) of R63, the bound of R30 on `db_cnt`, and what the model's own
fields keep to. R63 (d) and (g) are derived for handlers as R244 and R305 take them, so the
handlers are regular; R63 (f) is derived for a start with a counter below `IVL_BOOT`, so it is asked
where `START_SKEW` is below it (log 6, log 14). -/
structure Inv (s : State) : Prop where
  /-- the configuration is one the model accepts (R7) -/
  config : s.cfg.ok = true
  /-- the handlers are those R63 is derived for (R244, R251) -/
  handlers : s.cfg.handlersRegular = true
  /-- R63 (a) -/
  countLe : ∀ c, (s.q.get c).count ≤ 128
  /-- R63 (b) -/
  onRunning : ∀ c, (s.tmr.get c).on = (s.q.get c).running
  /-- R63 (c) -/
  alertIff : s.alert = anyFault s
  /-- R63 (d) -/
  moveGate : s.moveOk = gateMove s
  /-- R63 (d) -/
  mainGate : s.mainOk = gateMain s
  /-- R63 (d) -/
  visGate : s.visOk = gateVis s
  /-- R63 (e) -/
  noHighFault : ∀ i : Fin 16, 12 ≤ i.val → s.faultSet[i] = false
  /-- R63 (e) -/
  noOtherOverride :
    ∀ i : Fin 16, i ≠ FaultKind.lidOpen.index → i ≠ FaultKind.lidClosed.index →
      s.faultOvr[i] = false
  /-- R63 (f), which holds of a halted block too -/
  cntBelow : s.cfg.startSkew < s.cfg.ivlBoot.toNat →
    ∀ c, (s.tmr.get c).on = true → (s.tmr.get c).cnt < (s.tmr.get c).ivl
  /-- R63 (g) -/
  haltedFatal : s.halted = true → faultIsSet s .swSyntax = true ∨ faultIsSet s .swUnderflow = true
  /-- R30: `db_cnt` is at most `DEBOUNCE_TICKS` -/
  dbBound : s.dbCnt ≤ s.cfg.debounceTicks
  /-- R51: a pending debounce has ticks left -/
  dbLeft : s.dbPending = true → 1 ≤ s.dbCnt
  /-- a halted block is in no tick (R305, "abandon the current step") -/
  haltedIdle : s.halted = true → s.phase = .idle
  /-- outside a tick no channel waits to fire -/
  idleDone : s.phase = .idle → s.pending = []
  /-- R130: a firing channel is running, and its counter has just gone back to 0 -/
  firingChannel :
    s.phase = .firing →
      (s.q.get s.cur).running = true ∧ (s.tmr.get s.cur).cnt = 0 ∧ s.cur ∉ s.pending
  /-- R130: so is a channel that waits to fire -/
  pendingChannels :
    ∀ c ∈ s.pending, (s.q.get c).running = true ∧ (s.tmr.get c).cnt = 0
  /-- a channel fires at most once in a tick (R211) -/
  pendingOnce : s.pending.Nodup

/-- R241: the main laser is permitted. -/
def mainPermitted (s : State) : Bool :=
  !faultIsSet s .estop && (!s.lidOpen || faultOverridden s .lidOpen)

/-- R241: the visible laser is permitted. -/
def visPermitted (s : State) : Bool :=
  !faultIsSet s .estop && (s.lidOpen || faultOverridden s .lidClosed)

/-- R241: movement is permitted. -/
def movePermitted (s : State) : Bool := !faultIsSet s .estop

/-- No slot of any queue reads differently: all of the block's storage is unchanged. -/
def SlotsKept (s t : State) : Prop := ∀ c i, slotRead t c i = slotRead s c i

/-- One operation on one queue: an atom appended or an atom taken. -/
inductive QueueMove
  | enq (a : Word)
  | deq
  deriving DecidableEq, Repr

/-- A run of queue operations that never takes the count below 0 or above 128: the atoms appended,
the atoms taken, and the queue at the end (R196 (d)). -/
def runMoves : List QueueMove → Queue → Option (List Word × List Word × Queue)
  | [], u => some ([], [], u)
  | .enq a :: ms, u =>
    if u.count < 128 then
      match runMoves ms (u.push a) with
      | some (es, ds, v) => some (a :: es, ds, v)
      | none => none
    else none
  | .deq :: ms, u =>
    if 0 < u.count then
      match runMoves ms u.pop with
      | some (es, ds, v) => some (es, u.front :: ds, v)
      | none => none
    else none

end Sys2Proof.Machine
end

