-- ==== Sys2Proof/Certificates/Slice0/Obligations.lean ====
section
/-! DEFINITION. The statements for the provers. Each docstring names the rules it formalises, and the
log entries where a clause is the model's own choice. -/

open Sys2Proof Sys2Proof.Machine

/-! ### Encoding -/

/-- Decoding what the encoder writes gives the instruction back, with whatever atoms follow left over:
no bit of an operand or a literal is dropped (R102, R103, R106, R107, R109). The spec marks as its own
decision or inference: R106 (D5), R107 (D9), log 15. -/
def Obligations.DecodeEncodeRoundTrip : Prop :=
  ∀ (cfg : Config) (i : Instr) (rest : List Word), cfg.ok = true → i.wellFormed cfg = true →
    decode cfg (encode cfg i ++ rest) = .ok (i, rest)

/-- The other direction: what decodes is the encoding of a well-formed instruction, so an
instruction has one encoding (R109, R111). The spec marks as its own decision or inference: R111
(derived). -/
def Obligations.EncodeDecodeRoundTrip : Prop :=
  ∀ (cfg : Config) (ws : List Word) (i : Instr) (rest : List Word),
    decode cfg ws = .ok (i, rest) → ws = encode cfg i ++ rest ∧ i.wellFormed cfg = true

/-- R108 with the default numbering: every 16-bit value on every channel, clause by clause of the
spec's decode function. The spec marks as its own decision or inference: R108 (derived). -/
def Obligations.DecodeFollowsDocumentedRanges : Prop :=
  ∀ (cfg : Config) (c : Channel) (a : Word), cfg.ok = true → cfg.opmap = Config.referenceOpmap →
    (cfg.atomMax ≤ a.toNat → decodeAt cfg c a = .literal a) ∧
    (a.toNat = 0 → decodeAt cfg c a = .op .stop) ∧
    (∀ o, ((1 ≤ a.toNat ∧ a.toNat ≤ 2) ∨ (7 ≤ a.toNat ∧ a.toNat ≤ 8)) →
      Opcode.all[a.toNat]? = some o →
      decodeAt cfg c a = if c = .l then .illegal else .op o) ∧
    (∀ o, 3 ≤ a.toNat ∧ a.toNat ≤ 4 → Opcode.all[a.toNat]? = some o →
      (∀ b, c = Axis.channel b →
        decodeAt cfg c a = if cfg.hasMin.get b then .op o else .illegal) ∧
      (c = .l → decodeAt cfg c a = .illegal)) ∧
    (∀ o, 5 ≤ a.toNat ∧ a.toNat ≤ 6 → Opcode.all[a.toNat]? = some o →
      (∀ b, c = Axis.channel b →
        decodeAt cfg c a = if cfg.hasMax.get b then .op o else .illegal) ∧
      (c = .l → decodeAt cfg c a = .illegal)) ∧
    (∀ o, 9 ≤ a.toNat ∧ a.toNat ≤ 17 → Opcode.all[a.toNat]? = some o →
      decodeAt cfg c a = if c = .l then .op o else .illegal) ∧
    (18 ≤ a.toNat → a.toNat < cfg.atomMax → decodeAt cfg c a = .illegal)

/-- R110: the four kinds of illegal atom, under every numbering, and no others. The spec marks as its
own decision or inference: R110 (D6), log 15. -/
def Obligations.IllegalAtomsAreExactlyTheReserved : Prop :=
  ∀ (cfg : Config) (c : Channel) (a : Word), cfg.ok = true →
    (decodeAt cfg c a = .illegal ↔
      a.toNat < cfg.atomMax ∧
      ((∀ o, opnum cfg o ≠ a) ∨
       (∃ o ∈ [Opcode.setMainModeOff, .setMainModePulsed, .setMainModeContinuous,
            .setVisibleModeOff, .setVisibleModePulsed, .setVisibleModeContinuous,
            .setMainPulseDuration, .setVisiblePulseDuration, .setMainPowerLevel],
          opnum cfg o = a ∧ c ≠ .l) ∨
       (∃ o ∈ [Opcode.dirPositive, .dirNegative, .enablePin, .disablePin,
            .loopUntilMin, .loopWhileMin, .loopUntilMax, .loopWhileMax],
          opnum cfg o = a ∧ c = .l) ∨
       (∃ b, c = Axis.channel b ∧
          ((∃ o ∈ [Opcode.loopUntilMin, .loopWhileMin],
              opnum cfg o = a ∧ cfg.hasMin.get b = false) ∨
           (∃ o ∈ [Opcode.loopUntilMax, .loopWhileMax],
              opnum cfg o = a ∧ cfg.hasMax.get b = false)))))

/-- A few words written from the spec's encoding table decode to their instructions: one of each
family and format (R102, R103, R104, R106). That the 16-bit word 0x0010 alone is
`SET_VISIBLE_PULSE_DURATION` 0 is the model's choice: a missing second atom reads as 0 (log 12). That
32 is a literal and 31 is no atom rests on the reference clock of log 13 (PRESUMED). The spec marks as
its own decision or inference: R104 (D2), R106 (D5), log 15. -/
def Obligations.TableWordsDecode : Prop :=
  decodeTableWord 16 0b0000000000000000 = some .stop ∧
  decodeTableWord 16 0b0000000000000010 = some .dirNegative ∧
  decodeTableWord 16 0b0000000000000110 = some .loopWhileMax ∧
  decodeTableWord 16 0b0000000000001000 = some .disablePin ∧
  decodeTableWord 16 0b0000000000001011 = some .setMainModeContinuous ∧
  decodeTableWord 16 0b0000000000001101 = some .setVisibleModePulsed ∧
  decodeTableWord 32 0b00000001001011000000000000010001 = some (.setMainPowerLevel 300) ∧
  decodeTableWord 16 0b0000000000010000 = some (.setVisiblePulseDuration 0) ∧
  decodeTableWord 16 0b0000010111011100 = some (.ivl 1500) ∧
  decodeTableWord 16 0b0000000000100000 = some (.ivl 32) ∧
  decodeTableWord 16 0b0000000000011111 = none

/-! ### The interpreter's pass -/

/-- When the atoms at the head of the running channel's queue decode to an instruction the channel
takes, the step is that instruction's `exec` on the state with exactly its atoms dequeued: `head`
advanced by their number modulo 128, `count` less by it, everything else as it was, and the queue's
contents are the atoms left over (R131, R179, R193). That a pass is a step of its own is log 4. The
spec marks as its own decision or inference: R179 (derived). -/
def Obligations.StepRunsDecodedInstruction : Prop :=
  ∀ (s : State) (i : Instr) (rest : List Word), s.cfg.ok = true → s.phase = .firing →
    decode s.cfg (s.q.get s.cur).contents = .ok (i, rest) →
    takesInstr s.cfg s.cur i = true →
    ∃ t, step s = exec i t ∧
      (t.q.get s.cur).head = (s.q.get s.cur).head + Fin.ofNat 128 (encode s.cfg i).length ∧
      (t.q.get s.cur).count + (encode s.cfg i).length = (s.q.get s.cur).count ∧
      (t.q.get s.cur).contents = rest ∧
      (t.q.get s.cur).buf = (s.q.get s.cur).buf ∧
      (t.q.get s.cur).running = (s.q.get s.cur).running ∧
      t = { s with q := s.q.set s.cur (t.q.get s.cur) }

/-- R135: an illegal atom is dequeued and is fatal. The firing does nothing else: `F_SW_SYNTAX` (9) is
set, the alert is raised if that fault was clear, the block is halted and the tick abandoned; the
running flags, the timers, the registers, the other faults and the outputs keep their values. The
premise on `HANDLER` is its default for this fault ("`F_SW_SYNTAX` and `F_SW_UNDERFLOW` have no
handler", R305). That a pass is a step of its own is log 4. The spec marks as its own decision or
inference: R135 (D6), R305 (D8), log 15. -/
def Obligations.IllegalAtomIsFatal : Prop :=
  ∀ (s : State), s.cfg.ok = true → s.phase = .firing →
    (s.cfg.handlerOf .swSyntax).raised = .done →
    (s.q.get s.cur).count ≠ 0 → decodeAt s.cfg s.cur (s.q.get s.cur).front = .illegal →
    ∃ t, step s = .next t ∧ engineState t = engineState s ∧ SlotsKept s t ∧
      t = { s with
        q := s.q.set s.cur
          { s.q.get s.cur with
            head := (s.q.get s.cur).head + 1, count := (s.q.get s.cur).count - 1 }
        faultSet := s.faultSet.set 9 true
        alert := s.alert || !s.faultSet[9]
        halted := true
        phase := .idle
        pending := [] }

/-- R136 and R179: an under-run at the top of the loop changes no queue; an under-run at the operand
leaves the opcode atom consumed and the operand's register as it was. Both are `Fatal(F_SW_UNDERFLOW)`
(10): that bit is set, the alert is raised if it was clear, the block is halted and the tick
abandoned, and nothing else changes. The premise on `HANDLER` is its default for this fault (R305).
That a pass is a step of its own is log 4. The spec marks as its own decision or inference: R136 (D7),
R179 (derived), R305 (D8), log 15. -/
def Obligations.UnderRunIsFatal : Prop :=
  ∀ (s : State), s.cfg.ok = true → s.phase = .firing →
    (s.cfg.handlerOf .swUnderflow).raised = .done →
    ((s.q.get s.cur).count = 0 →
      step s = .next { s with
        faultSet := s.faultSet.set 10 true
        alert := s.alert || !s.faultSet[10]
        halted := true
        phase := .idle
        pending := [] }) ∧
    (∀ o, hasOperand o = true → s.cur = .l → (s.q.get s.cur).count = 1 →
      (s.q.get s.cur).front = opnum s.cfg o →
      ∃ t, step s = .next t ∧ SlotsKept s t ∧
        t = { s with
          q := s.q.set s.cur
            { s.q.get s.cur with head := (s.q.get s.cur).head + 1, count := 0 }
          faultSet := s.faultSet.set 10 true
          alert := s.alert || !s.faultSet[10]
          halted := true
          phase := .idle
          pending := [] })

/-! ### The atoms -/

/-- R133 `IVL v`: the channel's interval register takes the value unchanged and the firing ends;
nothing else changes. The spec marks as its own decision or inference: R133 (D12), log 15. -/
def Obligations.LiteralLoadsTheInterval : Prop :=
  ∀ (s : State) (v : Word),
    ∃ t, exec (.ivl v) s = .next t ∧
      (t.tmr.get s.cur).ivl = v ∧
      (t.tmr.get s.cur).on = (s.tmr.get s.cur).on ∧
      (t.tmr.get s.cur).cnt = (s.tmr.get s.cur).cnt ∧
      (∀ c, c ≠ s.cur → t.tmr.get c = s.tmr.get c) ∧
      SlotsKept s t ∧
      t = { s with tmr := t.tmr, phase := .between }

/-- R134 `STOP`: the channel's timer stops and its running flag is cleared, the engine goes from
`RUNNING` to `STOPPING` at the first channel's `STOP` and to `STOPPED` at the last one's, the atoms
behind it stay queued, and nothing else changes. The spec marks as its own decision or inference: R134
(D11), log 15. -/
def Obligations.StopIdlesTheChannel : Prop :=
  ∀ (s : State),
    ∃ t, exec .stop s = .next t ∧
      (t.tmr.get s.cur).on = false ∧ (t.q.get s.cur).running = false ∧
      (t.tmr.get s.cur).ivl = (s.tmr.get s.cur).ivl ∧
      (t.tmr.get s.cur).cnt = (s.tmr.get s.cur).cnt ∧
      (t.q.get s.cur).head = (s.q.get s.cur).head ∧
      (t.q.get s.cur).count = (s.q.get s.cur).count ∧
      (engineState s = .running → engineState t = .stopping) ∧
      ((∀ c, c ≠ s.cur → (s.q.get c).running = false) → engineState t = .stopped) ∧
      (∀ c, c ≠ s.cur → t.tmr.get c = s.tmr.get c ∧ t.q.get c = s.q.get c) ∧
      SlotsKept s t ∧
      t = { s with tmr := t.tmr, q := t.q, phase := .between }

/-- R150, R151, R152, R153: on its motor channel each of the four atoms writes its one register,
whatever the gates are (R137), and the interpreter goes on; nothing else changes. The step output (R61)
and the step event (R62) follow the step enable and `move_ok`. On the laser channel each is
`Fatal(F_SW_SYNTAX)` (R105). These decisions of the spec are followed as log 15 says. The spec marks as
its own decision or inference: R61 (D17), R62 (D17, D35), R105 (D6), R137 (D17). -/
def Obligations.MotorRegisterAtomsWriteTheirRegister : Prop :=
  (∀ (s : State) (b : Axis), s.cur = b.channel →
    (∃ t, exec .dirPositive s = .next t ∧ t.dir.get b = .pos ∧
      (∀ d, d ≠ b → t.dir.get d = s.dir.get d) ∧ SlotsKept s t ∧ t = { s with dir := t.dir }) ∧
    (∃ t, exec .dirNegative s = .next t ∧ t.dir.get b = .neg ∧
      (∀ d, d ≠ b → t.dir.get d = s.dir.get d) ∧ SlotsKept s t ∧ t = { s with dir := t.dir }) ∧
    (∃ t, exec .enablePin s = .next t ∧ t.stepEn.get b = true ∧
      (outputLevels t).stepOutEn.get b = s.moveOk ∧
      overflowEvents t s.cur = (if s.moveOk = true then [.step b (s.dir.get b)] else []) ∧
      (∀ d, d ≠ b → t.stepEn.get d = s.stepEn.get d) ∧ SlotsKept s t ∧
      t = { s with stepEn := t.stepEn }) ∧
    (∃ t, exec .disablePin s = .next t ∧ t.stepEn.get b = false ∧
      (outputLevels t).stepOutEn.get b = false ∧ overflowEvents t s.cur = [] ∧
      (∀ d, d ≠ b → t.stepEn.get d = s.stepEn.get d) ∧ SlotsKept s t ∧
      t = { s with stepEn := t.stepEn })) ∧
  (∀ (s : State) (i : Instr), s.cur = .l →
    i ∈ [Instr.dirPositive, .dirNegative, .enablePin, .disablePin] →
    exec i s = (fatal .swSyntax s).outcome)

/-- R156 with the exit conditions of R157, R158, R159, R160: when it holds, the loop atom is done and
the interpreter goes on in the same firing with the whole state as it was. The spec marks as its own
decision or inference: R157 (D10), R158 (D10), R159 (D10), R160 (D10), log 15. -/
def Obligations.LoopAtomsGoOnAtTheirExit : Prop :=
  ∀ (s : State) (b : Axis), s.cur = b.channel →
    (s.cfg.hasMin.get b = true → s.inp.minReached.get b = true →
      exec .loopUntilMin s = .next s) ∧
    (s.cfg.hasMin.get b = true → s.inp.minReached.get b = false →
      exec .loopWhileMin s = .next s) ∧
    (s.cfg.hasMax.get b = true → s.inp.maxReached.get b = true →
      exec .loopUntilMax s = .next s) ∧
    (s.cfg.hasMax.get b = true → s.inp.maxReached.get b = false →
      exec .loopWhileMax s = .next s)

/-- R156 with the exit conditions of R157, R158, R159, R160: when it does not hold, a step of the
firing ends it with the state EXACTLY as it was before the atom was dequeued: `head`, `count` and
every slot are restored, the interval is not written (R163, R39). That a pass is a step of its own is
log 4. The spec marks as its own decision or inference: R157 (D10), R158 (D10), R159 (D10), R160
(D10), R163 (derived), log 15. -/
def Obligations.LoopAtomsHoldTheirChannel : Prop :=
  ∀ (s : State) (b : Axis) (o : Opcode), s.cfg.ok = true → s.phase = .firing →
    s.cur = b.channel →
    (s.q.get s.cur).count ≠ 0 → (s.q.get s.cur).count ≤ 128 →
    (s.q.get s.cur).front = opnum s.cfg o →
    ((o = .loopUntilMin ∧ s.cfg.hasMin.get b = true ∧ s.inp.minReached.get b = false) ∨
     (o = .loopWhileMin ∧ s.cfg.hasMin.get b = true ∧ s.inp.minReached.get b = true) ∨
     (o = .loopUntilMax ∧ s.cfg.hasMax.get b = true ∧ s.inp.maxReached.get b = false) ∨
     (o = .loopWhileMax ∧ s.cfg.hasMax.get b = true ∧ s.inp.maxReached.get b = true)) →
    step s = .next { s with phase := .between }

/-- R156 and R195 on the meaning itself: a loop atom whose exit condition does not hold writes its
own number to the slot before the head, moves the head there and adds one to the count; the
firing ends and nothing else changes. On a queue that is already full, where no step brings it
(R195), the model stops with a fault of its own (log 10). The spec marks as its own decision or
inference: the polarities of R157, R158, R159 and R160 in the premises (D10, log 15). -/
def Obligations.LoopAtomsPushThemselvesBack : Prop :=
  ∀ (s : State) (b : Axis) (i : Instr) (o : Opcode), s.cur = b.channel →
    ((i = .loopUntilMin ∧ o = .loopUntilMin ∧ s.cfg.hasMin.get b = true ∧
        s.inp.minReached.get b = false) ∨
     (i = .loopWhileMin ∧ o = .loopWhileMin ∧ s.cfg.hasMin.get b = true ∧
        s.inp.minReached.get b = true) ∨
     (i = .loopUntilMax ∧ o = .loopUntilMax ∧ s.cfg.hasMax.get b = true ∧
        s.inp.maxReached.get b = false) ∨
     (i = .loopWhileMax ∧ o = .loopWhileMax ∧ s.cfg.hasMax.get b = true ∧
        s.inp.maxReached.get b = true)) →
    ((s.q.get s.cur).count < 128 →
      ∃ t, exec i s = .next t ∧
        (t.q.get s.cur).head = (s.q.get s.cur).backSlot ∧
        (t.q.get s.cur).count = (s.q.get s.cur).count + 1 ∧
        (t.q.get s.cur).running = (s.q.get s.cur).running ∧
        slotRead t s.cur (s.q.get s.cur).backSlot = opnum s.cfg o ∧
        (∀ c j, (c ≠ s.cur ∨ j ≠ (s.q.get s.cur).backSlot) → slotRead t c j = slotRead s c j) ∧
        (∀ c, c ≠ s.cur → t.q.get c = s.q.get c) ∧
        t = { s with q := t.q, phase := .between }) ∧
    (128 ≤ (s.q.get s.cur).count → exec i s = .fault .pushBackOverflow)

/-- R170 to R175: on the laser channel each mode atom writes its mode, whatever the gates and the
selected laser are (R137, R180), and the interpreter goes on; nothing else changes. Off gives no
level and no pulse. Pulsed gives no level, and exactly one pulse an overflow while the gate is 1 and
none while it is 0. Continuous gives the level of the gate and no pulse. The spec marks as its own
decision or inference: R137 (D17), R171 (D35), R174 (D35), log 15. -/
def Obligations.LaserModeAtomsWriteTheirMode : Prop :=
  ∀ (s : State), s.cur = .l →
    (∃ t, exec .setMainModeOff s = .next t ∧ t.mainMode = .off ∧
      (outputLevels t).mainLaserOn = false ∧ (∀ n, .mainPulse n ∉ overflowEvents t .l) ∧
      SlotsKept s t ∧ t = { s with mainMode := t.mainMode }) ∧
    (∃ t, exec .setMainModePulsed s = .next t ∧ t.mainMode = .pulsed ∧
      (outputLevels t).mainLaserOn = false ∧
      (∀ n, (overflowEvents t .l).count (.mainPulse n) =
        if s.mainOk = true ∧ n = s.mainPulseDur then 1 else 0) ∧
      SlotsKept s t ∧ t = { s with mainMode := t.mainMode }) ∧
    (∃ t, exec .setMainModeContinuous s = .next t ∧ t.mainMode = .continuous ∧
      (outputLevels t).mainLaserOn = s.mainOk ∧ (∀ n, .mainPulse n ∉ overflowEvents t .l) ∧
      SlotsKept s t ∧ t = { s with mainMode := t.mainMode }) ∧
    (∃ t, exec .setVisibleModeOff s = .next t ∧ t.visMode = .off ∧
      (outputLevels t).visLaserOn = false ∧ (∀ n, .visPulse n ∉ overflowEvents t .l) ∧
      SlotsKept s t ∧ t = { s with visMode := t.visMode }) ∧
    (∃ t, exec .setVisibleModePulsed s = .next t ∧ t.visMode = .pulsed ∧
      (outputLevels t).visLaserOn = false ∧
      (∀ n, (overflowEvents t .l).count (.visPulse n) =
        if s.visOk = true ∧ n = s.visPulseDur then 1 else 0) ∧
      SlotsKept s t ∧ t = { s with visMode := t.visMode }) ∧
    (∃ t, exec .setVisibleModeContinuous s = .next t ∧ t.visMode = .continuous ∧
      (outputLevels t).visLaserOn = s.visOk ∧ (∀ n, .visPulse n ∉ overflowEvents t .l) ∧
      SlotsKept s t ∧ t = { s with visMode := t.visMode })

/-- R176, R177, R178: on the laser channel each of the three writes its operand, all 16 bits and
undecoded (R107), to its register; nothing else changes. The spec marks as its own decision or
inference: R107 (D9), log 15. -/
def Obligations.LaserOperandAtomsWriteTheirRegister : Prop :=
  ∀ (s : State) (n : Word), s.cur = .l →
    (∃ t, exec (.setMainPulseDuration n) s = .next t ∧ t.mainPulseDur = n ∧ SlotsKept s t ∧
      t = { s with mainPulseDur := t.mainPulseDur }) ∧
    (∃ t, exec (.setVisiblePulseDuration n) s = .next t ∧ t.visPulseDur = n ∧ SlotsKept s t ∧
      t = { s with visPulseDur := t.visPulseDur }) ∧
    (∃ t, exec (.setMainPowerLevel n) s = .next t ∧ t.mainPower = n ∧ SlotsKept s t ∧
      (outputLevels t).mainPower = n ∧ t = { s with mainPower := t.mainPower })

/-- R105 and R110 on the meanings: an instruction on a channel that does not take it is
`Fatal(F_SW_SYNTAX)` and nothing else. The spec marks as its own decision or inference: R105 (D6),
R110 (D6), log 15. -/
def Obligations.WrongChannelIsFatal : Prop :=
  ∀ (s : State) (i : Instr), takesInstr s.cfg s.cur i = false →
    exec i s = (fatal .swSyntax s).outcome

/-- R131, R78 and R315: a pass of the interpreter of one channel, whatever it runs, changes the state
of that channel only (R131), and the interpreters share the fault set, the alert, `halted` and the
gates alone (R315, R213): the queue (R78), the timer, the direction and the step enable of every other
channel stay as they were, and a motor channel's pass leaves the laser registers. A pass that faults
writes none of these: the premises on `HANDLER` are its defaults for the two fatal faults, which have
no handler (R305, R252); any other could write anything. That a pass is a step of its own is log 4.
The spec marks as its own decision or inference: R213 (D13), R252 (D22), R305 (D8), log 15. -/
def Obligations.FiringTouchesOnlyItsChannel : Prop :=
  ∀ (s t : State), s.phase = .firing →
    (s.cfg.handlerOf .swSyntax).raised = .done → (s.cfg.handlerOf .swUnderflow).raised = .done →
    step s = .next t →
    (∀ c, c ≠ s.cur → t.q.get c = s.q.get c ∧ t.tmr.get c = s.tmr.get c) ∧
    (∀ b, b.channel ≠ s.cur → t.dir.get b = s.dir.get b ∧ t.stepEn.get b = s.stepEn.get b) ∧
    (s.cur ≠ .l →
      t.mainMode = s.mainMode ∧ t.visMode = s.visMode ∧ t.mainPulseDur = s.mainPulseDur ∧
      t.visPulseDur = s.visPulseDur ∧ t.mainPower = s.mainPower)

/-- No pass of the interpreter, whatever it runs, writes a switch, a gate, `laser_sel`, an override or
the debouncer, and none lowers a fault: their only writers are those of R48 to R54 with R244, and no
firing is among them; no atom consults a gate to decide what it does (R137), and no laser atom raises
or lowers a fault (R180). The faults a pass can raise are `F_SW_SYNTAX`, at an illegal atom (R135),
and `F_SW_UNDERFLOW`, at an empty queue (R136), and `Fatal` then changes nothing of these but that bit
(R305). The premises on `HANDLER` are its defaults for those two, which have no handler (R305, R252);
any other could write anything. That a pass is a step of its own is log 4. The spec marks as its own
decision or inference: R48 (D25), R50 (D24), R52 (D19), R54 (D19), R135 (D6), R136 (D7), R137 (D17),
R244 (D20), R252 (D22), R305 (D8), log 15. -/
def Obligations.FiringLeavesTheSafetyLayer : Prop :=
  ∀ (s t : State), s.phase = .firing →
    (s.cfg.handlerOf .swSyntax).raised = .done → (s.cfg.handlerOf .swUnderflow).raised = .done →
    step s = .next t →
    t.stopDown = s.stopDown ∧ t.lidOpen = s.lidOpen ∧ t.moveOk = s.moveOk ∧
    t.mainOk = s.mainOk ∧ t.visOk = s.visOk ∧ t.laserSel = s.laserSel ∧
    t.faultOvr = s.faultOvr ∧ t.dbPending = s.dbPending ∧ t.dbCnt = s.dbCnt ∧
    (∀ k, faultIsSet s k = true → faultIsSet t k = true) ∧
    (∀ k, isFatalKind k = false → faultIsSet t k = faultIsSet s k)

/-! ### Queues -/

/-- R196, its four laws. (a) From an empty queue, `n <= 128` appends and then `n` takes give the
atoms back in order and leave the queue empty with `head` advanced by `n` modulo 128. (b) An
un-dequeue followed by a dequeue gives the atom back and restores `head` and `count`. (c) A
dequeue followed by an un-dequeue of the same atom restores the whole queue. (d) Along any
interleaving that never takes the count below 0 or above 128, what was queued at first followed
by what was appended is what was taken followed by what is still queued: first in, first out. -/
def Obligations.QueueIsFirstInFirstOut : Prop :=
  (∀ (u : Queue) (ws : List Word), u.count = 0 → ws.length ≤ 128 →
    ∃ v, runMoves (ws.map .enq ++ List.replicate ws.length .deq) u = some (ws, ws, v) ∧
      v.count = 0 ∧ v.head = u.head + Fin.ofNat 128 ws.length) ∧
  (∀ (u : Queue) (a : Word), (u.unpop a).front = a ∧ (u.unpop a).pop.head = u.head ∧
    (u.unpop a).pop.count = u.count) ∧
  (∀ (u : Queue), u.count ≠ 0 → u.pop.unpop u.front = u) ∧
  (∀ (ms : List QueueMove) (u v : Queue) (ins outs : List Word), u.count ≤ 128 →
    runMoves ms u = some (ins, outs, v) → u.contents ++ ins = outs ++ v.contents)

/-- R191 and R192 as host steps: with room, `enqueue` writes the atom to the slot `tail` and adds
one to `count`, and every other slot and register is as before, running or not; on a full queue it
is `Fatal(F_SW_UNDERFLOW)` (10) and nothing else: the atom is not stored and `count` stays 128. The
premise on `HANDLER` is its default for this fault (R305). The spec marks as its own decision or
inference: R192 (D7), R305 (D8), log 15. -/
def Obligations.EnqueueAppendsOrFaults : Prop :=
  ∀ (s : State) (c : Channel) (a : Word), s.halted = false →
    ((s.q.get c).count < 128 →
      ∃ t, hostStep (.enqueue c a) s = .next t ∧
        (t.q.get c).head = (s.q.get c).head ∧
        (t.q.get c).count = (s.q.get c).count + 1 ∧
        (t.q.get c).running = (s.q.get c).running ∧
        slotRead t c (s.q.get c).tail = a ∧
        (∀ d j, (d ≠ c ∨ j ≠ (s.q.get c).tail) → slotRead t d j = slotRead s d j) ∧
        (∀ d, d ≠ c → t.q.get d = s.q.get d) ∧
        t = { s with q := t.q, hostResult := none }) ∧
    ((s.q.get c).count = 128 → (s.cfg.handlerOf .swUnderflow).raised = .done →
      hostStep (.enqueue c a) s = .next { s with
        faultSet := s.faultSet.set 10 true
        alert := s.alert || !s.faultSet[10]
        halted := true
        phase := .idle
        pending := []
        hostResult := none })

/-! ### The trap -/

/-- R305: `Fatal` sets its fault, latches `halted` and abandons the step. When the fault was clear the
alert is raised. No other fault, register, queue, timer or output changes. The premise on `HANDLER` is
its default for the two fatal faults. The spec marks as its own decision or inference: R305 (D8), log
15. -/
def Obligations.FatalOnlyRecordsAndHalts : Prop :=
  ∀ (s : State) (k : FaultKind), (s.cfg.handlerOf k).raised = .done →
    ∃ t, fatal k s = .abandoned t ∧ faultIsSet t k = true ∧
      (∀ j, j ≠ k → faultIsSet t j = faultIsSet s j) ∧
      engineState t = engineState s ∧
      (outputLevels t).stepOutEn = (outputLevels s).stepOutEn ∧
      (outputLevels t).mainLaserOn = (outputLevels s).mainLaserOn ∧
      (outputLevels t).visLaserOn = (outputLevels s).visLaserOn ∧
      SlotsKept s t ∧
      t = { s with
        faultSet := t.faultSet, alert := s.alert || !faultIsSet s k, halted := true,
        phase := .idle, pending := [] }

/-- R306: while the block is halted, no step but `reset` changes any of its state: a tick changes
nothing, a host operation changes nothing and answers from the frozen state, an input may change. What
moves is outside the block: the inputs, the script, the answer to the host, the count of draws. The
spec marks as its own decision or inference: R306 (D8), log 15. -/
def Obligations.HaltedBlockIsFrozen : Prop :=
  ∀ (s t : State), s.phase = .idle → s.halted = true → step s = .next t →
    (∀ h, (nextEvent s).1 ≠ .host h .reset) →
    t = { s with
      inp := t.inp, script := t.script, hostResult := t.hostResult, draws := t.draws }

/-- R56 and R340: only `reset` clears `halted`, and it always does: for every `HANDLER` with the stop
input at 0; with it at 1, where `reset` raises `F_ESTOP`, for handlers that the safety rules count on,
the default among them (log 6), since a `HANDLER` that halts there is possible (D33). The spec marks
as its own decision or inference: R56 (D8), R340 (D26), log 15. -/
def Obligations.OnlyResetLeavesHalted : Prop :=
  (∀ (s t : State), Inv s → s.halted = true → step s = .next t → t.halted = false →
    ∃ h, (nextEvent s).1 = .host h .reset) ∧
  (∀ (s : State), (s.inp.stopRaw = true → s.cfg.handlersRegular = true) →
    ∃ t, hostStep .reset s = .next t ∧ t.halted = false ∧ t.phase = .idle)

/-! ### The engine -/

/-- R36: bit `k` of the engine mask is channel `k`'s running flag; the engine state is `STOPPED`
exactly when no channel runs, `RUNNING` exactly when all run, `STOPPING` otherwise; after reset
it is `STOPPED` (R341), whatever `HANDLER` is where the stop input is 0, and with the default one where it
is 1 and `reset` raises `F_ESTOP` (R252, log 6). The spec's decisions in the reset clause are followed as
log 15 says. The spec marks as its own decision or inference: R252 (D22), R341 (D26). -/
def Obligations.EngineStateFromRunningFlags : Prop :=
  (∀ (s : State),
    (∀ c, (engineMask s).getLsbD (Channel.index c) = (s.q.get c).running) ∧
    (engineState s = .stopped ↔ ∀ c, (s.q.get c).running = false) ∧
    (engineState s = .running ↔ ∀ c, (s.q.get c).running = true) ∧
    (engineState s = .stopping ↔
      (∃ c, (s.q.get c).running = true) ∧ (∃ c, (s.q.get c).running = false))) ∧
  (∀ (s : State), (s.inp.stopRaw = true → s.cfg.handler = Config.referenceHandler) →
    ∃ t, hostStep .reset s = .next t ∧ engineState t = .stopped)

/-- R215: with the engine stopped, `start_engine` starts all four channels in one step: running, timer
on, the bootstrap interval, and a counter of 0 when there is no skew (with a skew, at most
`START_SKEW`, R222; which counter is a free value, log 8). Nothing else changes. The spec marks as its
own decision or inference: R215 (D14), R222 (D14), log 15. -/
def Obligations.StartEngineStartsAllChannels : Prop :=
  ∀ (s : State), s.cfg.ok = true → s.halted = false → engineState s = .stopped →
    ∃ t, hostStep .startEngine s = .next t ∧ engineState t = .running ∧
      (∀ c, (t.q.get c).running = true ∧ (t.q.get c).head = (s.q.get c).head ∧
        (t.q.get c).count = (s.q.get c).count ∧
        (t.tmr.get c).on = true ∧ (t.tmr.get c).ivl = s.cfg.ivlBoot ∧
        (t.tmr.get c).cnt.toNat ≤ s.cfg.startSkew ∧
        (s.cfg.startSkew = 0 → (t.tmr.get c).cnt = 0)) ∧
      SlotsKept s t ∧
      t = { s with q := t.q, tmr := t.tmr, hostResult := none, draws := t.draws }

/-- R216 and R217: `start_engine` with the engine not stopped is `Fatal(F_SW_UNDERFLOW)` (10) and
nothing else, so the running flags keep their values; `maybe_start_engine` starts exactly when the
engine is not `RUNNING` and some queue is full, and does nothing otherwise. The premise on `HANDLER`
is its default for this fault (R305). The spec marks as its own decision or inference: R216 (D15),
R217 (derived), R305 (D8), log 15. -/
def Obligations.StartWhileNotStoppedIsFatal : Prop :=
  ∀ (s : State), s.halted = false → (s.cfg.handlerOf .swUnderflow).raised = .done →
    (engineState s ≠ .stopped →
      ∃ t, hostStep .startEngine s = .next t ∧ engineState t = engineState s ∧
        t = { s with
          faultSet := s.faultSet.set 10 true
          alert := s.alert || !s.faultSet[10]
          halted := true
          phase := .idle
          pending := []
          hostResult := none }) ∧
    (engineState s ≠ .running ∧ (∃ c, (s.q.get c).count = 128) →
      hostStep .maybeStartEngine s = hostStep .startEngine s) ∧
    (engineState s = .running ∨ (∀ c, (s.q.get c).count ≠ 128) →
      hostStep .maybeStartEngine s = .next { s with hostResult := none })

/-- R218: `stop_engine_immediately` in any engine state: timers off, flags cleared, queues emptied
without running their atoms, step enables and laser modes off, so that no step, laser or pulse output
is on; the interval and counter registers, the slots, and every other register keep their values. The
spec marks as its own decision or inference: R218 (D16), log 15. -/
def Obligations.ImmediateStopSilencesTheOutputs : Prop :=
  ∀ (s : State), s.halted = false →
    ∃ t, hostStep .stopEngineImmediately s = .next t ∧ engineState t = .stopped ∧
      (∀ c, (t.q.get c).head = 0 ∧ (t.q.get c).count = 0 ∧ (t.q.get c).running = false ∧
        (t.tmr.get c).on = false ∧ (t.tmr.get c).cnt = (s.tmr.get c).cnt ∧
        (t.tmr.get c).ivl = (s.tmr.get c).ivl) ∧
      (∀ b, t.stepEn.get b = false ∧ (outputLevels t).stepOutEn.get b = false) ∧
      t.mainMode = .off ∧ t.visMode = .off ∧
      (outputLevels t).mainLaserOn = false ∧ (outputLevels t).visLaserOn = false ∧
      (∀ c, overflowEvents t c = []) ∧
      SlotsKept s t ∧
      t = { s with
        q := t.q, tmr := t.tmr, stepEn := t.stepEn, mainMode := t.mainMode,
        visMode := t.visMode, hostResult := none }

/-- R220: a host that waits in `await_engine_stopped` is held while the engine is not stopped, its own
later operations with it, and nothing else is: the first tick, input change or operation of another
host behind the wait is taken, with the wait still at the head of the script (R86; that other hosts go
on is D39, log 17). When nothing is enabled the step is a tick: that one comes at all is the model's
choice where R86 asks fairness of the environment, and its order is a free value (log 5). With the
engine stopped the wait returns and changes nothing. The spec marks as its own decision or inference:
R220 (D31), log 15. -/
def Obligations.AwaitHoldsItsHostOnly : Prop :=
  ∀ (s : State) (h : Nat) (later : List HostOp) (es : List Event), s.cfg.ok = true →
    s.phase = .idle →
    (engineState s ≠ .stopped →
      (s.script = .host h .awaitEngineStopped :: later.map (fun op => .host h op) →
        step s = .next (beginTick (Config.freeOrder s.draws) { s with draws := s.draws + 1 })) ∧
      (∀ order, s.script = .host h .awaitEngineStopped ::
          (later.map (fun op => .host h op) ++ .tick order :: es) →
        step s = .next (beginTick order { s with
          script := .host h .awaitEngineStopped :: (later.map (fun op => .host h op) ++ es) })) ∧
      (∀ sig v, s.script = .host h .awaitEngineStopped ::
          (later.map (fun op => .host h op) ++ .input sig v :: es) →
        step s = .next { s with
          inp := s.inp.change sig v
          script := .host h .awaitEngineStopped :: (later.map (fun op => .host h op) ++ es) }) ∧
      (∀ g op, g ≠ h → op ≠ .awaitEngineStopped → s.script = .host h .awaitEngineStopped ::
          (later.map (fun op => .host h op) ++ .host g op :: es) →
        step s = hostStep op { s with
          script := .host h .awaitEngineStopped :: (later.map (fun op => .host h op) ++ es) })) ∧
    (engineState s = .stopped → s.script = .host h .awaitEngineStopped :: es →
      step s = .next { s with script := es, hostResult := none })

/-- R77, R197, R214, R243, R254, R301: every read of the host, at every channel and at every index
that names a fault, returns the value of its rule and has no side effect; the answer field is the
model's own. The spec marks as its own decision or inference: R77 (derived), R197 (D28), R301 (D18),
log 15. -/
def Obligations.HostReadsHaveNoSideEffect : Prop :=
  ∀ (s : State) (c : Channel),
    hostStep (.queueIsFull c) s =
      .next { s with hostResult := some (.bool (decide ((s.q.get c).count = 128))) } ∧
    hostStep (.queueIsEmpty c) s =
      .next { s with hostResult := some (.bool (decide ((s.q.get c).count = 0))) } ∧
    hostStep (.queueIsRunning c) s =
      .next { s with hostResult := some (.bool (s.q.get c).running) } ∧
    hostStep .getEngineState s =
      .next { s with hostResult := some (.engine (engineState s)) } ∧
    hostStep .readGates s =
      .next { s with hostResult := some (.gates s.moveOk s.mainOk s.visOk) } ∧
    (∀ i : Fin 16, i.val < 12 →
      hostStep (.faultIsSet i.val) s =
        .next { s with hostResult := some (.bool s.faultSet[i]) } ∧
      hostStep (.faultOverridden i.val) s =
        .next { s with hostResult := some (.bool s.faultOvr[i]) }) ∧
    (∀ i name, (i, name) ∈
        [(0, "F_ESTOP"), (1, "F_LID_OPEN"), (2, "F_LID_CLOSED"), (3, "F_WATER_FLOW"),
         (4, "F_WATER_TEMP"), (5, "F_SERIAL_FRAME"), (6, "F_SERIAL_OVERRUN"),
         (7, "F_SERIAL_PARITY"), (8, "F_SW_LEXICAL"), (9, "F_SW_SYNTAX"),
         (10, "F_SW_UNDERFLOW"), (11, "F_SW_MISSED_INT")] →
      hostStep (.getFaultName i) s = .next { s with hostResult := some (.name name) })

/-- R254: `fault_is_set` and `fault_overridden` return their bits of the fault set and of the overrides,
for every fault, and have no side effect: nothing else changes than the model's answer field. -/
def Obligations.FaultQueriesReturnTheirBits : Prop :=
  ∀ (s : State) (k : FaultKind),
    hostStep (.faultIsSet k.index.val) s =
      .next { s with hostResult := some (.bool s.faultSet[k.index]) } ∧
    hostStep (.faultOverridden k.index.val) s =
      .next { s with hostResult := some (.bool s.faultOvr[k.index]) }

/-! ### Faults and gates -/

/-- R242: `set_gates()` writes the three gate registers from the current state, and nothing else. The
lid is the debounced one, and no other fault bit, no override of `F_ESTOP` and no raw input enters:
states that agree on the emergency stop, the debounced lid and the two lid overrides get the same
gates. -/
def Obligations.SetGatesFollowsTheGateFunction : Prop :=
  (∀ (s : State),
    setGates s = { s with
      moveOk := !faultIsSet s .estop
      mainOk := !faultIsSet s .estop && (!s.lidOpen || faultOverridden s .lidOpen)
      visOk := !faultIsSet s .estop && (s.lidOpen || faultOverridden s .lidClosed) }) ∧
  (∀ (s t : State), faultIsSet t .estop = faultIsSet s .estop → t.lidOpen = s.lidOpen →
    faultOverridden t .lidOpen = faultOverridden s .lidOpen →
    faultOverridden t .lidClosed = faultOverridden s .lidClosed →
    (setGates t).moveOk = (setGates s).moveOk ∧ (setGates t).mainOk = (setGates s).mainOk ∧
      (setGates t).visOk = (setGates s).visOk)

/-- R249: `raise_fault` on a fault already set does nothing; on a clear one it sets the bit and the
alert and then runs the handler of R252, whatever that is; a handler that does nothing changes nothing
more. With handlers that the safety rules count on (log 6) no host raise halts the block, and no other
fault bit changes (R251). The spec marks as its own decision or inference: R249 (D33), log 15. -/
def Obligations.RaiseFaultOnTheTransitionOnly : Prop :=
  ∀ (s : State) (k : FaultKind), s.halted = false →
    (faultIsSet s k = true →
      hostStep (.raiseFault k.index.val) s = .next { s with hostResult := none }) ∧
    (faultIsSet s k = false →
      hostStep (.raiseFault k.index.val) s =
        hostAct (handle (s.cfg.handlerOf k).raised)
          { s with faultSet := s.faultSet.set k.index true, alert := true }) ∧
    (faultIsSet s k = false → (s.cfg.handlerOf k).raised = .done →
      hostStep (.raiseFault k.index.val) s = .next { s with
        faultSet := s.faultSet.set k.index true, alert := true, hostResult := none }) ∧
    (faultIsSet s k = false → s.cfg.handlersRegular = true →
      ∃ t, hostStep (.raiseFault k.index.val) s = .next t ∧ faultIsSet t k = true ∧
        t.alert = true ∧ t.halted = false ∧
        (∀ j, j ≠ k → faultIsSet t j = faultIsSet s j))

/-- R252: with the default `HANDLER`, raising `F_ESTOP` or a lid fault that was clear stops the engine
at once: the engine is `STOPPED`, every queue empty, no output on; `dir` and `main_power` are kept,
among the registers that `stop_engine_immediately` leaves alone by the spec's own choice (R218, log
15). The spec marks as its own decision or inference: R218 (D16), R252 (D22). -/
def Obligations.SafetyFaultsStopTheEngine : Prop :=
  ∀ (s : State) (k : FaultKind), s.halted = false → s.cfg.handler = Config.referenceHandler →
    k ∈ [FaultKind.estop, .lidOpen, .lidClosed] → faultIsSet s k = false →
    ∃ t, hostStep (.raiseFault k.index.val) s = .next t ∧ engineState t = .stopped ∧
      (∀ c, (t.q.get c).count = 0) ∧ (∀ b, t.stepEn.get b = false) ∧
      t.mainMode = .off ∧ t.visMode = .off ∧ t.dir = s.dir ∧ t.mainPower = s.mainPower

/-- R250: `lower_fault` on a clear fault does nothing; on a set one that has no handler for its
lowering, as every fault but `F_ESTOP` under the default `HANDLER` (R252), it clears that bit only,
and clears the alert exactly when no fault is left set. The spec marks as its own decision or
inference: R252 (D22), log 15. -/
def Obligations.LowerFaultClearsAlertWhenEmpty : Prop :=
  ∀ (s : State) (k : FaultKind), Inv s → s.halted = false →
    (faultIsSet s k = false →
      hostStep (.lowerFault k.index.val) s = .next { s with hostResult := none }) ∧
    (faultIsSet s k = true → (s.cfg.handlerOf k).lowered = .done →
      ∃ t, hostStep (.lowerFault k.index.val) s = .next t ∧ faultIsSet t k = false ∧
        (∀ j, j ≠ k → faultIsSet t j = faultIsSet s j) ∧
        (t.alert = true ↔ ∃ j, j ≠ k ∧ faultIsSet s j = true) ∧
        t = { s with
          faultSet := s.faultSet.set k.index false, alert := t.alert, hostResult := none })

/-- R246, R252 and R253: with the default `HANDLER`, lowering `F_ESTOP` while the stop switch is down
raises it again in the same step, with the gates shut (R244) and the engine stopped (R218); with the
switch up it clears it, and the gates are those of the lid and override matrix (R247). The spec marks
as its own decision or inference: R218 (D16), R244 (D20), R246 (D21), R247 (derived), R252 (D22), R253
(derived), log 15. -/
def Obligations.LoweringEstopRechecksTheSwitch : Prop :=
  ∀ (s : State), Inv s → s.halted = false → s.cfg.handler = Config.referenceHandler →
    faultIsSet s .estop = true →
    (s.stopDown = true →
      ∃ t, hostStep (.lowerFault 0) s = .next t ∧ faultIsSet t .estop = true ∧
        t.alert = true ∧ t.moveOk = false ∧ t.mainOk = false ∧ t.visOk = false ∧
        engineState t = .stopped) ∧
    (s.stopDown = false →
      ∃ t, hostStep (.lowerFault 0) s = .next t ∧ faultIsSet t .estop = false ∧
        t.moveOk = true ∧
        t.mainOk = (!s.lidOpen || s.faultOvr[FaultKind.lidOpen.index]) ∧
        t.visOk = (s.lidOpen || s.faultOvr[FaultKind.lidClosed.index]))

/-- R256 and R244: raising the emergency-stop fault shuts all three gates, whatever the switches, the
overrides and the other faults are, and with them the step outputs and the laser levels, since the
gates act at the outputs (R61). For handlers that the safety rules count on, the default among them
(log 6). The spec marks as its own decision or inference: R61 (D17), R244 (D20), log 15. -/
def Obligations.EstopShutsEveryGate : Prop :=
  ∀ (s : State), Inv s → s.halted = false →
    ∃ t, hostStep (.raiseFault 0) s = .next t ∧
      t.moveOk = false ∧ t.mainOk = false ∧ t.visOk = false ∧
      (∀ b, (outputLevels t).stepOutEn.get b = false) ∧
      (outputLevels t).mainLaserOn = false ∧ (outputLevels t).visLaserOn = false

/-- R245 and R246: `update_safety` leaves each lid fault set exactly when its conflict holds, sets
`F_ESTOP` when the stop switch is down and never clears it, leaves every other fault, and ends with
the gates of R242. It writes no direction, pulse duration, power, interval, counter, switch,
selection, override or debouncer field and no slot, also where a handler it runs stops the engine
(R218 leaves those registers alone); where it raises and lowers no fault it writes the gates and
nothing else. For handlers that the safety rules count on, the default among them (log 6). The spec
marks as its own decision or inference: R218 (D16), R246 (D21), log 15. -/
def Obligations.UpdateSafetyFollowsItsConditions : Prop :=
  ∀ (s : State), s.halted = false → s.cfg.handlersRegular = true →
    ∃ t, hostStep .updateSafety s = .next t ∧
      (faultIsSet t .lidOpen = true ↔
        s.laserSel = .main ∧ s.lidOpen = true ∧ s.faultOvr[FaultKind.lidOpen.index] = false) ∧
      (faultIsSet t .lidClosed = true ↔
        s.laserSel = .visible ∧ s.lidOpen = false ∧
          s.faultOvr[FaultKind.lidClosed.index] = false) ∧
      faultIsSet t .estop = (faultIsSet s .estop || s.stopDown) ∧
      (∀ k, k ≠ .estop → k ≠ .lidOpen → k ≠ .lidClosed → faultIsSet t k = faultIsSet s k) ∧
      t.moveOk = (!faultIsSet t .estop) ∧
      t.mainOk = (!faultIsSet t .estop &&
        (!s.lidOpen || s.faultOvr[FaultKind.lidOpen.index])) ∧
      t.visOk = (!faultIsSet t .estop &&
        (s.lidOpen || s.faultOvr[FaultKind.lidClosed.index])) ∧
      SlotsKept s t ∧
      (∀ c, (t.tmr.get c).cnt = (s.tmr.get c).cnt ∧ (t.tmr.get c).ivl = (s.tmr.get c).ivl) ∧
      t = { s with
        q := t.q, tmr := t.tmr, stepEn := t.stepEn, mainMode := t.mainMode,
        visMode := t.visMode, moveOk := t.moveOk, mainOk := t.mainOk, visOk := t.visOk,
        faultSet := t.faultSet, alert := t.alert, hostResult := none } ∧
      ((∀ k, faultIsSet t k = faultIsSet s k) →
        t = { s with
          moveOk := t.moveOk, mainOk := t.mainOk, visOk := t.visOk, hostResult := none })

/-- R247, last sentence: after `set_laser_select` or `set_override`, with no emergency stop, the
selected laser's gate is 0 exactly when its lid fault is raised, the lid faults following their
conditions both ways (R246). For handlers that the safety rules count on, the default among them (log
6). The spec marks as its own decision or inference: R246 (D21), R247 (derived), log 15. -/
def Obligations.SelectedLaserGateMatchesItsLidFault : Prop :=
  ∀ (s : State) (op : HostOp), s.halted = false → s.stopDown = false →
    faultIsSet s .estop = false → s.cfg.handlersRegular = true →
    ((∃ v, op = .setLaserSelect v) ∨ (∃ w b, op = .setOverride w b)) →
    ∃ t, hostStep op s = .next t ∧
    (t.laserSel = .main → (t.mainOk = false ↔ faultIsSet t .lidOpen = true)) ∧
    (t.laserSel = .visible → (t.visOk = false ↔ faultIsSet t .lidClosed = true)) ∧
    (t.laserSel = .none →
      faultIsSet t .lidOpen = false ∧ faultIsSet t .lidClosed = false)

/-- R262 and R263: the two configuration writes store their value, the override bit of that lid fault
only (`F_LID_OPEN` is 1, `F_LID_CLOSED` is 2), and then run `update_safety`; with handlers that the
safety rules count on (log 6) the value is there at the end. The spec marks as its own decision or
inference: R263 (D19), log 15. -/
def Obligations.ConfigurationWritesSettleSafety : Prop :=
  ∀ (s : State) (v : LaserSel) (b : Bool), s.halted = false →
    hostStep (.setLaserSelect v) s = hostStep .updateSafety { s with laserSel := v } ∧
    hostStep (.setOverride .lidOpen b) s =
      hostStep .updateSafety { s with faultOvr := s.faultOvr.set 1 b } ∧
    hostStep (.setOverride .lidClosed b) s =
      hostStep .updateSafety { s with faultOvr := s.faultOvr.set 2 b } ∧
    (s.cfg.handlersRegular = true →
      (∃ t, hostStep (.setLaserSelect v) s = .next t ∧ t.laserSel = v ∧
        t.faultOvr = s.faultOvr) ∧
      (∃ t, hostStep (.setOverride .lidOpen b) s = .next t ∧
        faultOverridden t .lidOpen = b ∧ t.laserSel = s.laserSel ∧
        (∀ i : Fin 16, i ≠ 1 → t.faultOvr[i] = s.faultOvr[i])) ∧
      (∃ t, hostStep (.setOverride .lidClosed b) s = .next t ∧
        faultOverridden t .lidClosed = b ∧ t.laserSel = s.laserSel ∧
        (∀ i : Fin 16, i ≠ 2 → t.faultOvr[i] = s.faultOvr[i])))

/-- R7 and R255: in every state a configuration with a clock below 9 MHz, which leaves no room for the
18 opcodes below `ATOM_MAX`, is refused, and so is an operation on a fault index from `NFAULT` up. The
spec marks as its own decision or inference: R7 (derived), R255 (D32), log 15. -/
def Obligations.SlowClockAndUnknownFaultAreRefused : Prop :=
  (∀ (s : State), s.cfg.fClkMHz < 9 → step s = .refused .badConfiguration) ∧
  (∀ (s : State) (i : Nat), 12 ≤ i →
    hostStep (.raiseFault i) s = .refused (.badFaultIndex i) ∧
    hostStep (.lowerFault i) s = .refused (.badFaultIndex i) ∧
    hostStep (.faultIsSet i) s = .refused (.badFaultIndex i) ∧
    hostStep (.faultOverridden i) s = .refused (.badFaultIndex i) ∧
    hostStep (.getFaultName i) s = .refused (.badFaultIndex i))

/-! ### Reset -/

/-- R340, R341 and R342: what `reset` leaves, from any state, halted or not, and any inputs. The
registers the spec leaves unspecified are free values and are not named here; the inputs, the
configuration, the script and the emitted events are not the block's. With the stop input at 0 this is
so for every `HANDLER`; with it at 1, where `reset` raises `F_ESTOP` (R246), for handlers that the
safety rules count on, the default among them (log 6). The spec marks as its own decision or
inference: R246 (D21), R340 (D26), R341 (D26), R342 (derived), log 15. -/
def Obligations.ResetLeavesTheDocumentedValues : Prop :=
  ∀ (s : State), (s.inp.stopRaw = true → s.cfg.handlersRegular = true) →
    ∃ t, hostStep .reset s = .next t ∧
      (∀ c, (t.q.get c).head = 0 ∧ (t.q.get c).count = 0 ∧ (t.q.get c).running = false ∧
        (t.tmr.get c).on = false) ∧
      (∀ b, t.stepEn.get b = false) ∧ t.mainMode = .off ∧ t.visMode = .off ∧
      t.stopDown = s.inp.stopRaw ∧ t.lidOpen = s.inp.lidRaw ∧ t.laserSel = .none ∧
      (∀ i : Fin 16, t.faultOvr[i] = false) ∧
      (∀ i : Fin 16, t.faultSet[i] = (decide (i = 0) && s.inp.stopRaw)) ∧
      t.alert = s.inp.stopRaw ∧ t.dbPending = false ∧ t.halted = false ∧
      engineState t = .stopped ∧
      t.moveOk = !s.inp.stopRaw ∧
      t.mainOk = (!s.inp.stopRaw && !s.inp.lidRaw) ∧
      t.visOk = (!s.inp.stopRaw && s.inp.lidRaw) ∧
      t.inp = s.inp ∧ t.cfg = s.cfg ∧ t.script = s.script ∧ t.events = s.events

/-- The state after power-on meets the invariants and is `S0`, the reference start state of
95_test_vectors.md section 0: the reference configuration (its clock is PRESUMED, log 13), every queue
empty with head 0 and every channel idle, steps and modes off, nothing selected, no fault, no alert,
not halted, the switch snapshot 0 0, the gates 1 1 0, no debounce pending, and the two switch inputs
0. That the other inputs are 0, and the values of the registers the spec leaves unspecified, are log
1's choice and are not named here. -/
def Obligations.PowerOnStateMeetsInvariants : Prop :=
  Inv State.reset ∧ State.reset.cfg = Config.reference ∧
    (∀ c, (State.reset.q.get c).count = 0 ∧ (State.reset.q.get c).head = 0 ∧
      (State.reset.q.get c).running = false ∧ (State.reset.tmr.get c).on = false) ∧
    engineState State.reset = .stopped ∧
    (∀ b, State.reset.stepEn.get b = false) ∧
    State.reset.mainMode = .off ∧ State.reset.visMode = .off ∧ State.reset.laserSel = .none ∧
    (∀ i : Fin 16, State.reset.faultSet[i] = false ∧ State.reset.faultOvr[i] = false) ∧
    State.reset.alert = false ∧ State.reset.halted = false ∧
    State.reset.stopDown = false ∧ State.reset.lidOpen = false ∧
    State.reset.moveOk = true ∧ State.reset.mainOk = true ∧ State.reset.visOk = false ∧
    State.reset.dbPending = false ∧
    State.reset.inp.stopRaw = false ∧ State.reset.inp.lidRaw = false

/-! ### Time -/

/-- R211, part 1: a tick of a block that is not halted counts every running timer by one, sets a timer
that reaches its interval to 0, leaves the stopped ones, and the channels that overflow, each once and
no others, wait to fire, in the order the tick gives (R213). That part 1 is a step of its own is log
4. The spec marks as its own decision or inference: R211 (D12), R213 (D13), log 15. -/
def Obligations.TickCountsEveryRunningTimer : Prop :=
  ∀ (s : State) (order : List Channel), s.halted = false →
    (∀ c, (s.tmr.get c).on = false → (beginTick order s).tmr.get c = s.tmr.get c) ∧
    (∀ c, (s.tmr.get c).on = true → (s.tmr.get c).cnt + 1 ≠ (s.tmr.get c).ivl →
      (beginTick order s).tmr.get c =
        { s.tmr.get c with cnt := (s.tmr.get c).cnt + 1 }) ∧
    (∀ c, (s.tmr.get c).on = true → (s.tmr.get c).cnt + 1 = (s.tmr.get c).ivl →
      (beginTick order s).tmr.get c = { s.tmr.get c with cnt := 0 }) ∧
    (∀ c, c ∈ (beginTick order s).pending ↔
      (s.tmr.get c).on = true ∧ (s.tmr.get c).cnt + 1 = (s.tmr.get c).ivl) ∧
    (beginTick order s).pending.Nodup ∧
    (order.Nodup → order.length = 4 →
      (beginTick order s).pending = order.filter fun c =>
        decide ((s.tmr.get c).on = true ∧ (s.tmr.get c).cnt + 1 = (s.tmr.get c).ivl)) ∧
    beginTick order s =
      { s with
        tmr := (beginTick order s).tmr, pending := (beginTick order s).pending,
        phase := .between }

/-- R211 and R370: a timer that has just overflowed with interval `v` counts 1, 2, ... and overflows
again in exactly the `v`-th tick after. The spec marks as its own decision or inference: R211 (D12),
R370 (D12), log 15. -/
def Obligations.PeriodIsTheInterval : Prop :=
  ∀ (v : Word) (n : Nat), n < v.toNat →
    ((advanceTimer^[n] { on := true, cnt := 0, ivl := v }).cnt.toNat = n ∧
     (overflows (advanceTimer^[n] { on := true, cnt := 0, ivl := v }) = true ↔
       n + 1 = v.toNat))

/-- R212 and R62: at its overflow a channel emits from the state before its firing: a motor channel
one step event exactly when its steps are enabled and `move_ok` is 1, the laser channel one pulse
event for each laser that is in pulsed mode with its gate 1. Then its interpreter starts, and nothing
else has changed; that this is a step of its own is log 4. The order of two pulses of one overflow,
which the spec does not state and log 22 chooses, is left open here. The spec marks as its own
decision or inference: R62 (D17, D35), R212 (D17, D35), log 15. -/
def Obligations.OverflowEmitsBeforeTheFiring : Prop :=
  ∀ (s : State) (c : Channel) (rest : List Channel), s.cfg.ok = true → s.phase = .between →
    s.pending = c :: rest →
    ∃ evs, step s = .next { s with
        events := s.events ++ evs, pending := rest, cur := c, phase := .firing } ∧
      (∀ b, c = Axis.channel b →
        evs = if s.stepEn.get b = true ∧ s.moveOk = true then [.step b (s.dir.get b)] else []) ∧
      (c = .l →
        evs.Perm
          ((if s.mainMode = .pulsed ∧ s.mainOk = true then [.mainPulse s.mainPulseDur] else []) ++
          (if s.visMode = .pulsed ∧ s.visOk = true then [.visPulse s.visPulseDur] else [])))

/-- R257, R258 and R259: at the end of a tick the armed debouncer freezes when a raw switch differs
and does nothing otherwise; the frozen one only counts, whatever the raw switches do, until its count
reaches 0. The tick in which the count reaches 0 commits the raw values as they are then, arms the
debouncer again and runs `update_safety` once, even when they equal the old snapshot; with handlers
that the safety rules count on (log 6) the committed values are there at the end, and with the stop
switch down the emergency stop is in force: `update_safety` raises `F_ESTOP` (R246), which shuts every
gate (R242). That part 3 of a tick is a step of its own is log 4. The spec marks as its own decision
or inference: R246 (D21), R257 (D25), R258 (derived), log 15. -/
def Obligations.DebouncerFollowsItsRule : Prop :=
  (∀ (s : State), s.cfg.ok = true → s.phase = .between → s.pending = [] →
    (s.dbPending = false → s.inp.stopRaw = s.stopDown → s.inp.lidRaw = s.lidOpen →
      step s = .next { s with phase := .idle }) ∧
    (s.dbPending = false → (s.inp.stopRaw ≠ s.stopDown ∨ s.inp.lidRaw ≠ s.lidOpen) →
      step s = .next { s with
        dbPending := true, dbCnt := s.cfg.debounceTicks, phase := .idle }) ∧
    (s.dbPending = true → 2 ≤ s.dbCnt →
      step s = .next { s with dbCnt := s.dbCnt - 1, phase := .idle })) ∧
  (∀ (s : State), s.cfg.ok = true → s.phase = .between → s.pending = [] → s.dbPending = true →
    s.dbCnt = 1 →
    step s = ((updateSafety { s with
      stopDown := s.inp.stopRaw, lidOpen := s.inp.lidRaw, dbPending := false, dbCnt := 0 }).atEnd
        fun t => { t with phase := .idle }).outcome ∧
    (s.cfg.handlersRegular = true →
      ∃ t, step s = .next t ∧ t.stopDown = s.inp.stopRaw ∧ t.lidOpen = s.inp.lidRaw ∧
        t.dbPending = false ∧ t.phase = .idle ∧
        (s.inp.stopRaw = true →
          faultIsSet t .estop = true ∧ t.moveOk = false ∧ t.mainOk = false ∧ t.visOk = false)))

/-! ### Rules of the whole machine -/

/-- R259: after reset the commit is the only writer of the switch snapshot: a step that changes it is
the `reset` operation (R341) or the end of a tick with the debouncer's count run out (R257, R260; a
step of its own by log 4). The spec marks as its own decision or inference: R257 (D25), R260 (D25),
R341 (D26), log 15. -/
def Obligations.OnlyTheCommitWritesTheSnapshot : Prop :=
  ∀ (s t : State), Inv s → step s = .next t →
    (t.stopDown ≠ s.stopDown ∨ t.lidOpen ≠ s.lidOpen) →
    (s.phase = .idle ∧ ∃ h, (nextEvent s).1 = .host h .reset) ∨
    (s.phase = .between ∧ s.pending = [] ∧ s.dbPending = true ∧ s.dbCnt = 1)

/-- R6 and R60: no step changes the configuration, whatever the handlers do, and the inputs change by
an input change only. An input change writes its own signal and leaves the block as it was. -/
def Obligations.ConfigurationAndInputsAreExternal : Prop :=
  (∀ (s t : State), step s = .next t →
    t.cfg = s.cfg ∧
    (t.inp ≠ s.inp →
      s.phase = .idle ∧ ∃ sig v, (nextEvent s).1 = .input sig v ∧ t.inp = s.inp.change sig v)) ∧
  (∀ (s : State) (sig : InputSignal) (v : Bool) (es : List Event), s.cfg.ok = true →
    s.phase = .idle → s.script = .input sig v :: es →
    step s = .next { s with inp := s.inp.change sig v, script := es }) ∧
  (∀ (i : Inputs) (a : Axis) (v : Bool),
    i.change .stopRaw v = { i with stopRaw := v } ∧
    i.change .lidRaw v = { i with lidRaw := v } ∧
    i.change (.minReached a) v = { i with minReached := i.minReached.set a v } ∧
    i.change (.maxReached a) v = { i with maxReached := i.maxReached.set a v })

/-- R10: a step of the environment is taken only with no tick in progress: during a tick the script,
the inputs and the answer to the host stay as they are, whatever the handlers do, and so does the
count of draws with handlers that draw nothing (log 6). That a tick is taken in passes is the model's
choice (log 4). -/
def Obligations.TickIsAtomicForTheEnvironment : Prop :=
  ∀ (s t : State), s.phase ≠ .idle → step s = .next t →
    t.script = s.script ∧ t.hostResult = s.hostResult ∧ t.inp = s.inp ∧
    (s.cfg.handlersRegular = true → t.draws = s.draws)

/-- R241 at the outputs: in a state that meets the invariants, no laser output is on and no step
output enabled without its permission, and no event is emitted without it. The spec marks as its own
decision or inference: the levels of R61 (D17) and the events of R62 (D17, D35), log 15. -/
def Obligations.OutputsNeedTheirPermission : Prop :=
  ∀ (s : State), Inv s →
    (s.mainOk = true → mainPermitted s = true) ∧ (s.visOk = true → visPermitted s = true) ∧
    (s.moveOk = true ↔ movePermitted s = true) ∧
    ((outputLevels s).mainLaserOn = true → mainPermitted s = true) ∧
    ((outputLevels s).visLaserOn = true → visPermitted s = true) ∧
    (∀ b, (outputLevels s).stepOutEn.get b = true → movePermitted s = true) ∧
    (∀ c b d, .step b d ∈ overflowEvents s c → movePermitted s = true ∧ c = b.channel) ∧
    (∀ c n, .mainPulse n ∈ overflowEvents s c → mainPermitted s = true ∧ c = .l) ∧
    (∀ c n, .visPulse n ∈ overflowEvents s c → visPermitted s = true ∧ c = .l)

/-- R132: a firing always ends. From a firing with `n` atoms queued, at most `n + 1` passes bring the
machine out of it, and every one of them completes. A pass is a step of its own by log 4. The spec
marks as its own decision or inference: R132 (derived). -/
def Obligations.FiringAlwaysEnds : Prop :=
  ∀ (s : State), Inv s → s.phase = .firing →
    ∃ k t, 1 ≤ k ∧ k ≤ (s.q.get s.cur).count + 1 ∧ Sys2Proof.core.run k s = .next t ∧
      t.phase ≠ .firing

/-- Every step keeps the invariants R63 (a) to (g) and those of the model's own fields: (f) where
`START_SKEW` is below `IVL_BOOT` (log 14), and all of them for handlers that R63 (d) and (g) count on,
the default among them (log 6). The spec marks as its own decision or inference: R63 (derived). -/
def Obligations.StepKeepsInvariants : Prop :=
  ∀ (s t : State), Inv s → step s = .next t → Inv t

/-- From a state that meets the invariants no step faults, and the only step refused is a host
operation on a fault index that names no fault (R195, R255); so the handlers end (R253). The spec
marks as its own decision or inference: R253 (derived), R255 (D32), log 15. -/
def Obligations.StepFaultsNowhereReachable : Prop :=
  ∀ (s : State), Inv s →
    (∃ t, step s = .next t) ∨
    (s.phase = .idle ∧ ∃ i, 12 ≤ i ∧ step s = .refused (.badFaultIndex i))

/-- While the debounced stop switch is down, `F_ESTOP` stays set (R246, R253): a step from a state
where it is gives a state where it is, when the handler of its lowering ends in `update_safety`, as
that of the default `HANDLER` does (R252); and then every gate is shut. The spec marks as its own
decision or inference: R246 (D21), R252 (D22), R253 (derived), log 15. -/
def Obligations.StopSwitchHoldsTheEmergencyStop : Prop :=
  ∀ (s t : State), Inv s → (s.cfg.handlerOf .estop).lowered.settles = true →
    (s.stopDown = true → faultIsSet s .estop = true) → step s = .next t →
    (t.stopDown = true →
      faultIsSet t .estop = true ∧ t.moveOk = false ∧ t.mainOk = false ∧ t.visOk = false)

/-- The machine's passes refine the spec's atomic tick: from a state with no tick in progress and a
tick next, some number of steps brings it to no tick in progress for the first time, in exactly the
state the one-function `Tick` of R211 gives, with the firings in the order the tick has (R213). That a
tick is taken in passes is the model's choice (log 4). The spec marks as its own decision or
inference: R211 (D12), R213 (D13), log 15. -/
def Obligations.StepsRefineTheAtomicTick : Prop :=
  ∀ (s : State) (order : List Channel) (es : List Event), Inv s → s.phase = .idle →
    s.script = .tick order :: es →
    ∃ k t, tickAtomic order { s with script := es } = .next t ∧ t.phase = .idle ∧
      Sys2Proof.core.run (k + 1) s = .next t ∧
      (∀ j, 1 ≤ j → j ≤ k → ∃ u, Sys2Proof.core.run j s = .next u ∧ u.phase ≠ .idle)

/-- R213, of the `Tick` of R211: the order of the firings within a tick is observable only through a
fatal fault and the sequence of events. If the tick ends unhalted in one order, then in every order it
ends in the same state, but for the emitted events and which channel ran last. The spec marks as its
own decision or inference: R211 (D12), R213 (D13), log 15. -/
def Obligations.FiringOrderShowsOnlyInEventsAndFaults : Prop :=
  ∀ (s t : State) (o1 o2 : List Channel), Inv s → s.phase = .idle →
    tickAtomic o1 s = .next t → t.halted = false →
    ∃ u, tickAtomic o2 s = .next u ∧
      u = { t with events := u.events, cur := u.cur } ∧ u.events.Perm t.events

/-- R221 with R215 and `START_SKEW` = 0: after `start_engine`, and with the switches quiet, the first
`n` ticks below the bootstrap interval leave all four counters at `n`, in every order of the ticks
(R213), each tick counting every running timer by one (R211). A tick in which no channel fires is two
steps (log 4), so these are `1 + 2n`. The spec marks as its own decision or inference: R211 (D12),
R213 (D13), R215 (D14), R221 (derived), log 15. -/
def Obligations.ChannelsCountInLockstep : Prop :=
  ∀ (s : State) (n : Nat) (order : List Channel) (es : List Event), Inv s → s.phase = .idle →
    s.halted = false → engineState s = .stopped → s.cfg.startSkew = 0 → s.dbPending = false →
    s.inp.stopRaw = s.stopDown → s.inp.lidRaw = s.lidOpen → n < s.cfg.ivlBoot.toNat →
    s.script = .host 0 .startEngine :: (List.replicate n (.tick order) ++ es) →
    ∃ t, Sys2Proof.core.run (1 + 2 * n) s = .next t ∧ engineState t = .running ∧
      t.phase = .idle ∧ t.script = es ∧
      (∀ c, (t.tmr.get c).cnt.toNat = n ∧ (t.tmr.get c).ivl = s.cfg.ivlBoot)

/-- R221 with the counters of R211, for as long as both run: along any steps, two channels whose
counters are equal at the start and that, whenever no tick is in progress, both run with the same
interval, have the same counter whenever no tick is in progress, and the next tick makes both overflow
or neither. A start without skew makes the counters equal (R215). What the other channels, the host
and the inputs do is free. A tick is taken in passes (log 4), hence "no tick in progress". The spec
marks as its own decision or inference: R211 (D12), R215 (D14), R221 (derived), log 15. -/
def Obligations.EqualIntervalsKeepLockstep : Prop :=
  ∀ (u : Nat → State) (n : Nat) (c d : Channel), Inv (u 0) → (u 0).phase = .idle →
    (∀ k, k < n → step (u k) = .next (u (k + 1))) →
    ((u 0).tmr.get c).cnt = ((u 0).tmr.get d).cnt →
    (∀ k, k ≤ n → (u k).phase = .idle →
      ((u k).tmr.get c).on = true ∧ ((u k).tmr.get d).on = true ∧
      ((u k).tmr.get c).ivl = ((u k).tmr.get d).ivl) →
    ∀ k, k ≤ n → (u k).phase = .idle →
      ((u k).tmr.get c).cnt = ((u k).tmr.get d).cnt ∧
      ∀ order, c ∈ (beginTick order (u k)).pending ↔ d ∈ (beginTick order (u k)).pending

/-! ### The reference host -/

/-- R283 with R282: the chunks from `now` to `fin` sum exactly to their distance, none is above
`MAX_IVL`, none below `MIN_IVL` when the whole is at least `MIN_IVL`, and a shorter distance is one
chunk. The spec marks as its own decision or inference: R282 (D37), R283 (derived), log 15. -/
def Obligations.ChunksSumAndStayInBounds : Prop :=
  ∀ (lo hi now fin : Nat), 1 ≤ lo → 2 * lo ≤ hi + 1 → now ≤ fin →
    (chunks lo hi fin (fin - now) now).sum = fin - now ∧
    (∀ k ∈ chunks lo hi fin (fin - now) now, k ≤ hi) ∧
    (lo ≤ fin - now → ∀ k ∈ chunks lo hi fin (fin - now) now, lo ≤ k) ∧
    (0 < fin - now → fin - now < lo →
      chunks lo hi fin (fin - now) now = [fin - now])
end

