-- ==== Sys2Proof/Laws/Records.lean ====
section
/-! SUPPORT. The records of one value per channel or axis, and the two fault vectors: reading after
writing. -/

namespace Sys2Proof

@[simp] theorem PerChan.get_set_same {α : Type} (p : PerChan α) (c : Channel) (v : α) :
    (p.set c v).get c = v := by cases c <;> rfl

theorem PerChan.get_set {α : Type} (p : PerChan α) (c d : Channel) (v : α) :
    (p.set c v).get d = if d = c then v else p.get d := by cases c <;> cases d <;> rfl

theorem PerChan.get_set_other {α : Type} (p : PerChan α) {c d : Channel} (v : α) (h : d ≠ c) :
    (p.set c v).get d = p.get d := by simp [PerChan.get_set, h]

@[simp] theorem PerChan.get_ofFn {α : Type} (f : Channel → α) (c : Channel) :
    (PerChan.ofFn f).get c = f c := by cases c <;> rfl

@[simp] theorem PerChan.set_get_same {α : Type} (p : PerChan α) (c : Channel) :
    p.set c (p.get c) = p := by cases c <;> rfl

@[simp] theorem PerChan.set_set_same {α : Type} (p : PerChan α) (c : Channel) (v w : α) :
    (p.set c v).set c w = p.set c w := by cases c <;> rfl

theorem PerChan.ext_get {α : Type} {p r : PerChan α} (h : ∀ c, p.get c = r.get c) : p = r := by
  have hx := h .x
  have hy := h .y
  have hz := h .z
  have hl := h .l
  cases p
  cases r
  simp_all [PerChan.get]

@[simp] theorem PerAxis.get_set_same {α : Type} (p : PerAxis α) (a : Axis) (v : α) :
    (p.set a v).get a = v := by cases a <;> rfl

theorem PerAxis.get_set {α : Type} (p : PerAxis α) (a b : Axis) (v : α) :
    (p.set a v).get b = if b = a then v else p.get b := by cases a <;> cases b <;> rfl

theorem PerAxis.get_set_other {α : Type} (p : PerAxis α) {a b : Axis} (v : α) (h : b ≠ a) :
    (p.set a v).get b = p.get b := by simp [PerAxis.get_set, h]

@[simp] theorem PerAxis.get_ofFn {α : Type} (f : Axis → α) (a : Axis) :
    (PerAxis.ofFn f).get a = f a := by cases a <;> rfl

theorem PerAxis.ext_get {α : Type} {p r : PerAxis α} (h : ∀ a, p.get a = r.get a) : p = r := by
  have hx := h .x
  have hy := h .y
  have hz := h .z
  cases p
  cases r
  simp_all [PerAxis.get]

@[simp] theorem Axis.axis_channel (a : Axis) : a.channel.axis? = some a := by cases a <;> rfl

theorem Axis.channel_ne_laser (a : Axis) : a.channel ≠ .l := by cases a <;> decide

theorem Axis.channel_injective {a b : Axis} (h : a.channel = b.channel) : a = b := by
  cases a <;> cases b <;> first | rfl | cases h

theorem Channel.axis_eq_some {c : Channel} {a : Axis} : c.axis? = some a ↔ c = a.channel := by
  cases c <;> cases a <;> decide

theorem Channel.axis_eq_none {c : Channel} : c.axis? = none ↔ c = .l := by
  cases c <;> decide

@[simp] theorem Channel.mem_all (c : Channel) : c ∈ Channel.all := by cases c <;> decide

theorem Channel.all_nodup : Channel.all.Nodup := by decide

theorem FaultKind.index_injective {j k : FaultKind} (h : j.index = k.index) : j = k := by
  revert h
  cases j <;> cases k <;> decide

@[simp] theorem FaultKind.index_inj {j k : FaultKind} : j.index = k.index ↔ j = k :=
  ⟨FaultKind.index_injective, fun h => h ▸ rfl⟩

theorem FaultKind.index_lt (k : FaultKind) : k.index.val < 12 := by cases k <;> decide

/-- An index below 12 is some kind's (R301). -/
theorem FaultKind.exists_index {i : Fin 16} (h : i.val < 12) : ∃ k : FaultKind, k.index = i := by
  have key : ∀ j : Fin 16, j.val < 12 → ∃ k ∈ FaultKind.all, k.index = j := by decide
  obtain ⟨k, -, hk⟩ := key i h
  exact ⟨k, hk⟩

theorem Opcode.index_injective {o p : Opcode} (h : o.index = p.index) : o = p := by
  revert h
  cases o <;> cases p <;> decide

@[simp] theorem Opcode.mem_all (o : Opcode) : o ∈ Opcode.all := by cases o <;> decide

/-- The twelve indices name the twelve kinds (R301). -/
@[simp] theorem Machine.faultOfIndex_index (k : FaultKind) :
    Machine.faultOfIndex k.index.val = some k := by cases k <;> decide

/-- An index from `NFAULT` up names no fault (R255). -/
theorem Machine.faultOfIndex_high {i : Nat} (h : 12 ≤ i) : Machine.faultOfIndex i = none := by
  simp [Machine.faultOfIndex, FaultKind.all, h]

/-- Reading a fault vector after writing one bit. -/
theorem bit_after_set (v : Vector Bool 16) (i j : Fin 16) (b : Bool) :
    (v.set i b)[j] = if j = i then b else v[j] := by
  rw [Fin.getElem_fin, Fin.getElem_fin, Vector.getElem_set]
  by_cases h : j = i
  · simp [h]
  · have : i.val ≠ j.val := fun e => h (Fin.ext e.symm)
    simp [h, this]

end Sys2Proof
end

