-- ==== Sys2Proof/Laws/Decode.lean ====
section
/-! SUPPORT. The opcode numbering, the classes of an atom, and the decoder's result on an
instruction's first atom (30_encoding.md R101 to R110). -/

namespace Sys2Proof

theorem Opcode.index_of_all (i : Fin 18) : ∃ o : Opcode, o.index = i := by
  have key : ∀ j : Fin 18, ∃ o ∈ Opcode.all, o.index = j := by decide
  obtain ⟨o, -, h⟩ := key i
  exact ⟨o, h⟩

/-- Two opcodes have two numbers (R104, 93_implementation_defined.md section 1). -/
theorem opnum_injective {cfg : Config} (h : cfg.opmapOk = true) {o p : Opcode}
    (e : opnum cfg o = opnum cfg p) : o = p := by
  have hn : cfg.opmap.toList.Nodup := by
    simp only [Config.opmapOk, Bool.and_eq_true, decide_eq_true_eq] at h
    exact h.2
  apply Opcode.index_injective
  apply Fin.ext
  have hlen (q : Opcode) : q.index.val < cfg.opmap.toList.length := by simp
  apply (List.Nodup.getElem_inj_iff hn (hi := hlen o) (hj := hlen p)).mp
  simpa [opnum] using e

/-- An opcode's number is below `ATOM_MAX` (R101). -/
theorem opnum_lt {cfg : Config} (h : cfg.opmapOk = true) (o : Opcode) :
    (opnum cfg o).toNat < cfg.atomMax := by
  simp only [Config.opmapOk, Bool.and_eq_true, List.all_eq_true, decide_eq_true_eq] at h
  exact h.1 _ (by simp [opnum])

/-- The opcode found has that number. -/
theorem opnum_of_opcodeOf {cfg : Config} {a : Word} {o : Opcode} (h : opcodeOf cfg a = some o) :
    opnum cfg o = a := by
  simpa using List.find?_some h

theorem opcodeOf_opnum {cfg : Config} (h : cfg.opmapOk = true) (o : Opcode) :
    opcodeOf cfg (opnum cfg o) = some o := by
  cases e : opcodeOf cfg (opnum cfg o) with
  | none =>
    have := List.find?_eq_none.mp e o (Opcode.mem_all o)
    simp at this
  | some p => rw [opnum_injective h (opnum_of_opcodeOf e)]

theorem opcodeOf_eq_some {cfg : Config} (h : cfg.opmapOk = true) {a : Word} {o : Opcode} :
    opcodeOf cfg a = some o ↔ opnum cfg o = a :=
  ⟨opnum_of_opcodeOf, fun e => e ▸ opcodeOf_opnum h o⟩

theorem opcodeOf_eq_none {cfg : Config} {a : Word} :
    opcodeOf cfg a = none ↔ ∀ o, opnum cfg o ≠ a := by
  simp [opcodeOf, List.find?_eq_none]

theorem ok_opmap {cfg : Config} (h : cfg.ok = true) : cfg.opmapOk = true := by
  simp only [Config.ok, Bool.and_eq_true] at h
  exact h.1.1.2

theorem classify_literal {cfg : Config} {a : Word} (h : cfg.atomMax ≤ a.toNat) :
    classify cfg a = .literal a := if_pos h

theorem classify_opnum {cfg : Config} (h : cfg.opmapOk = true) (o : Opcode) :
    classify cfg (opnum cfg o) = .opcode o := by
  rw [classify, if_neg (Nat.not_le.mpr (opnum_lt h o)), opcodeOf_opnum h]

/-- What the class of an atom can be, with the condition of each (R101, R104, R110 (a)). -/
theorem classify_cases (cfg : Config) (a : Word) :
    (cfg.atomMax ≤ a.toNat ∧ classify cfg a = .literal a) ∨
    (a.toNat < cfg.atomMax ∧ ∃ o, opnum cfg o = a ∧ classify cfg a = .opcode o) ∨
    (a.toNat < cfg.atomMax ∧ (∀ o, opnum cfg o ≠ a) ∧ classify cfg a = .unassigned) := by
  by_cases h : cfg.atomMax ≤ a.toNat
  · exact .inl ⟨h, classify_literal h⟩
  · rw [classify, if_neg h]
    cases e : opcodeOf cfg a with
    | none => exact .inr (.inr ⟨by omega, opcodeOf_eq_none.mp e, rfl⟩)
    | some o => exact .inr (.inl ⟨by omega, o, opnum_of_opcodeOf e, rfl⟩)

/-- The instruction of an opcode has that opcode. -/
@[simp] theorem opcodeOfInstr_instrOf (n : Word) (o : Opcode) :
    opcodeOfInstr (instrOf n o) = some o := by cases o <;> rfl

theorem wellFormed_instrOf (cfg : Config) (n : Word) (o : Opcode) :
    (instrOf n o).wellFormed cfg = true := by cases o <;> rfl

/-- The atoms of the instruction of an opcode: the number, and in format `A2` the operand. -/
theorem encode_instrOf (cfg : Config) (n : Word) (o : Opcode) :
    encode cfg (instrOf n o) = if hasOperand o then [opnum cfg o, n] else [opnum cfg o] := by
  cases o <;> rfl

@[simp] theorem takesInstr_instrOf (cfg : Config) (c : Channel) (n : Word) (o : Opcode) :
    takesInstr cfg c (instrOf n o) = takes cfg c o := by simp [takesInstr]

/-- An instruction is a literal or the instruction of an opcode. -/
theorem instr_cases (i : Instr) : (∃ v, i = .ivl v) ∨ ∃ n o, i = instrOf n o := by
  cases i
  case ivl v => exact .inl ⟨v, rfl⟩
  case setMainPulseDuration n => exact .inr ⟨n, .setMainPulseDuration, rfl⟩
  case setVisiblePulseDuration n => exact .inr ⟨n, .setVisiblePulseDuration, rfl⟩
  case setMainPowerLevel n => exact .inr ⟨n, .setMainPowerLevel, rfl⟩
  case stop => exact .inr ⟨0, .stop, rfl⟩
  case dirPositive => exact .inr ⟨0, .dirPositive, rfl⟩
  case dirNegative => exact .inr ⟨0, .dirNegative, rfl⟩
  case loopUntilMin => exact .inr ⟨0, .loopUntilMin, rfl⟩
  case loopWhileMin => exact .inr ⟨0, .loopWhileMin, rfl⟩
  case loopUntilMax => exact .inr ⟨0, .loopUntilMax, rfl⟩
  case loopWhileMax => exact .inr ⟨0, .loopWhileMax, rfl⟩
  case enablePin => exact .inr ⟨0, .enablePin, rfl⟩
  case disablePin => exact .inr ⟨0, .disablePin, rfl⟩
  case setMainModeOff => exact .inr ⟨0, .setMainModeOff, rfl⟩
  case setMainModePulsed => exact .inr ⟨0, .setMainModePulsed, rfl⟩
  case setMainModeContinuous => exact .inr ⟨0, .setMainModeContinuous, rfl⟩
  case setVisibleModeOff => exact .inr ⟨0, .setVisibleModeOff, rfl⟩
  case setVisibleModePulsed => exact .inr ⟨0, .setVisibleModePulsed, rfl⟩
  case setVisibleModeContinuous => exact .inr ⟨0, .setVisibleModeContinuous, rfl⟩

/-- The operand of a format `A1` opcode is not looked at. -/
theorem instrOf_noOperand {o : Opcode} (h : hasOperand o = false) (m n : Word) :
    instrOf m o = instrOf n o := by cases o <;> first | rfl | cases h

/-- What the decoder can answer, and from which atoms (R109). -/
theorem decode_eq_ok {cfg : Config} {ws rest : List Word} {i : Instr}
    (h : decode cfg ws = .ok (i, rest)) :
    (∃ v, ws = v :: rest ∧ cfg.atomMax ≤ v.toNat ∧ i = .ivl v) ∨
    (∃ o n, ws = opnum cfg o :: n :: rest ∧ (opnum cfg o).toNat < cfg.atomMax ∧
      hasOperand o = true ∧ i = instrOf n o ∧ classify cfg (opnum cfg o) = .opcode o) ∨
    (∃ o, ws = opnum cfg o :: rest ∧ (opnum cfg o).toNat < cfg.atomMax ∧
      hasOperand o = false ∧ i = instrOf 0 o ∧ classify cfg (opnum cfg o) = .opcode o) := by
  cases ws with
  | nil => simp [decode] at h
  | cons a ws =>
    rcases classify_cases cfg a with ⟨ha, e⟩ | ⟨ha, o, rfl, e⟩ | ⟨-, -, e⟩
    · simp only [decode, e, Except.ok.injEq, Prod.mk.injEq] at h
      exact .inl ⟨a, by rw [h.2], ha, h.1.symm⟩
    · simp only [decode, e] at h
      cases ho : hasOperand o
      · simp only [ho, Bool.false_eq_true, if_false, Except.ok.injEq, Prod.mk.injEq] at h
        exact .inr (.inr ⟨o, by rw [h.2], ha, ho, h.1.symm, e⟩)
      · simp only [ho, if_true] at h
        cases ws with
        | nil => cases h
        | cons n ws =>
          simp only [Except.ok.injEq, Prod.mk.injEq] at h
          exact .inr (.inl ⟨o, n, by rw [h.2], ha, ho, h.1.symm, e⟩)
    · simp only [decode, e] at h
      cases h

/-- The decoder on the number of an opcode of format `A1`. -/
theorem decode_opnum_plain {cfg : Config} (h : cfg.opmapOk = true) {o : Opcode}
    (ho : hasOperand o = false) (rest : List Word) :
    decode cfg (opnum cfg o :: rest) = .ok (instrOf 0 o, rest) := by
  simp only [decode, classify_opnum h, ho, Bool.false_eq_true, if_false]

/-- The decoder on the number of an opcode of format `A2` and its operand. -/
theorem decode_opnum_operand {cfg : Config} (h : cfg.opmapOk = true) {o : Opcode}
    (ho : hasOperand o = true) (n : Word) (rest : List Word) :
    decode cfg (opnum cfg o :: n :: rest) = .ok (instrOf n o, rest) := by
  simp only [decode, classify_opnum h, ho, if_true]

theorem decodeAt_literal {cfg : Config} {a : Word} (c : Channel) (h : cfg.atomMax ≤ a.toNat) :
    decodeAt cfg c a = .literal a := by rw [decodeAt, classify_literal h]

theorem decodeAt_opnum {cfg : Config} (h : cfg.opmapOk = true) (c : Channel) (o : Opcode) :
    decodeAt cfg c (opnum cfg o) = if takes cfg c o then .op o else .illegal := by
  rw [decodeAt, classify_opnum h]

theorem decodeAt_unassigned {cfg : Config} {a : Word} (c : Channel) (h : a.toNat < cfg.atomMax)
    (hn : ∀ o, opnum cfg o ≠ a) : decodeAt cfg c a = .illegal := by
  rw [decodeAt, classify, if_neg (Nat.not_le.mpr h), opcodeOf_eq_none.mpr hn]

end Sys2Proof
end

