-- ==== Sys2Proof/Laws/State.lean ====
section
/-! SUPPORT. For each field update of State, one lemma per field: what the update does to it. -/

namespace Sys2Proof.Machine

@[simp] theorem State.withQ_cfg (s : State) (v : PerChan Queue) :
    (s.withQ v).cfg = s.cfg := rfl
@[simp] theorem State.withQ_q (s : State) (v : PerChan Queue) :
    (s.withQ v).q = v := rfl
@[simp] theorem State.withQ_tmr (s : State) (v : PerChan Queue) :
    (s.withQ v).tmr = s.tmr := rfl
@[simp] theorem State.withQ_dir (s : State) (v : PerChan Queue) :
    (s.withQ v).dir = s.dir := rfl
@[simp] theorem State.withQ_stepEn (s : State) (v : PerChan Queue) :
    (s.withQ v).stepEn = s.stepEn := rfl
@[simp] theorem State.withQ_mainMode (s : State) (v : PerChan Queue) :
    (s.withQ v).mainMode = s.mainMode := rfl
@[simp] theorem State.withQ_visMode (s : State) (v : PerChan Queue) :
    (s.withQ v).visMode = s.visMode := rfl
@[simp] theorem State.withQ_mainPulseDur (s : State) (v : PerChan Queue) :
    (s.withQ v).mainPulseDur = s.mainPulseDur := rfl
@[simp] theorem State.withQ_visPulseDur (s : State) (v : PerChan Queue) :
    (s.withQ v).visPulseDur = s.visPulseDur := rfl
@[simp] theorem State.withQ_mainPower (s : State) (v : PerChan Queue) :
    (s.withQ v).mainPower = s.mainPower := rfl
@[simp] theorem State.withQ_stopDown (s : State) (v : PerChan Queue) :
    (s.withQ v).stopDown = s.stopDown := rfl
@[simp] theorem State.withQ_lidOpen (s : State) (v : PerChan Queue) :
    (s.withQ v).lidOpen = s.lidOpen := rfl
@[simp] theorem State.withQ_moveOk (s : State) (v : PerChan Queue) :
    (s.withQ v).moveOk = s.moveOk := rfl
@[simp] theorem State.withQ_mainOk (s : State) (v : PerChan Queue) :
    (s.withQ v).mainOk = s.mainOk := rfl
@[simp] theorem State.withQ_visOk (s : State) (v : PerChan Queue) :
    (s.withQ v).visOk = s.visOk := rfl
@[simp] theorem State.withQ_laserSel (s : State) (v : PerChan Queue) :
    (s.withQ v).laserSel = s.laserSel := rfl
@[simp] theorem State.withQ_dbPending (s : State) (v : PerChan Queue) :
    (s.withQ v).dbPending = s.dbPending := rfl
@[simp] theorem State.withQ_dbCnt (s : State) (v : PerChan Queue) :
    (s.withQ v).dbCnt = s.dbCnt := rfl
@[simp] theorem State.withQ_faultSet (s : State) (v : PerChan Queue) :
    (s.withQ v).faultSet = s.faultSet := rfl
@[simp] theorem State.withQ_faultOvr (s : State) (v : PerChan Queue) :
    (s.withQ v).faultOvr = s.faultOvr := rfl
@[simp] theorem State.withQ_alert (s : State) (v : PerChan Queue) :
    (s.withQ v).alert = s.alert := rfl
@[simp] theorem State.withQ_halted (s : State) (v : PerChan Queue) :
    (s.withQ v).halted = s.halted := rfl
@[simp] theorem State.withQ_inp (s : State) (v : PerChan Queue) :
    (s.withQ v).inp = s.inp := rfl
@[simp] theorem State.withQ_script (s : State) (v : PerChan Queue) :
    (s.withQ v).script = s.script := rfl
@[simp] theorem State.withQ_phase (s : State) (v : PerChan Queue) :
    (s.withQ v).phase = s.phase := rfl
@[simp] theorem State.withQ_cur (s : State) (v : PerChan Queue) :
    (s.withQ v).cur = s.cur := rfl
@[simp] theorem State.withQ_pending (s : State) (v : PerChan Queue) :
    (s.withQ v).pending = s.pending := rfl
@[simp] theorem State.withQ_events (s : State) (v : PerChan Queue) :
    (s.withQ v).events = s.events := rfl
@[simp] theorem State.withQ_hostResult (s : State) (v : PerChan Queue) :
    (s.withQ v).hostResult = s.hostResult := rfl
@[simp] theorem State.withQ_draws (s : State) (v : PerChan Queue) :
    (s.withQ v).draws = s.draws := rfl
@[simp] theorem State.withQ_twice (s : State) (v w : PerChan Queue) :
    (s.withQ v).withQ w = s.withQ w := rfl
@[simp] theorem State.withQ_self (s : State) :
    s.withQ s.q = s := rfl

@[simp] theorem State.withTmr_cfg (s : State) (v : PerChan Timer) :
    (s.withTmr v).cfg = s.cfg := rfl
@[simp] theorem State.withTmr_q (s : State) (v : PerChan Timer) :
    (s.withTmr v).q = s.q := rfl
@[simp] theorem State.withTmr_tmr (s : State) (v : PerChan Timer) :
    (s.withTmr v).tmr = v := rfl
@[simp] theorem State.withTmr_dir (s : State) (v : PerChan Timer) :
    (s.withTmr v).dir = s.dir := rfl
@[simp] theorem State.withTmr_stepEn (s : State) (v : PerChan Timer) :
    (s.withTmr v).stepEn = s.stepEn := rfl
@[simp] theorem State.withTmr_mainMode (s : State) (v : PerChan Timer) :
    (s.withTmr v).mainMode = s.mainMode := rfl
@[simp] theorem State.withTmr_visMode (s : State) (v : PerChan Timer) :
    (s.withTmr v).visMode = s.visMode := rfl
@[simp] theorem State.withTmr_mainPulseDur (s : State) (v : PerChan Timer) :
    (s.withTmr v).mainPulseDur = s.mainPulseDur := rfl
@[simp] theorem State.withTmr_visPulseDur (s : State) (v : PerChan Timer) :
    (s.withTmr v).visPulseDur = s.visPulseDur := rfl
@[simp] theorem State.withTmr_mainPower (s : State) (v : PerChan Timer) :
    (s.withTmr v).mainPower = s.mainPower := rfl
@[simp] theorem State.withTmr_stopDown (s : State) (v : PerChan Timer) :
    (s.withTmr v).stopDown = s.stopDown := rfl
@[simp] theorem State.withTmr_lidOpen (s : State) (v : PerChan Timer) :
    (s.withTmr v).lidOpen = s.lidOpen := rfl
@[simp] theorem State.withTmr_moveOk (s : State) (v : PerChan Timer) :
    (s.withTmr v).moveOk = s.moveOk := rfl
@[simp] theorem State.withTmr_mainOk (s : State) (v : PerChan Timer) :
    (s.withTmr v).mainOk = s.mainOk := rfl
@[simp] theorem State.withTmr_visOk (s : State) (v : PerChan Timer) :
    (s.withTmr v).visOk = s.visOk := rfl
@[simp] theorem State.withTmr_laserSel (s : State) (v : PerChan Timer) :
    (s.withTmr v).laserSel = s.laserSel := rfl
@[simp] theorem State.withTmr_dbPending (s : State) (v : PerChan Timer) :
    (s.withTmr v).dbPending = s.dbPending := rfl
@[simp] theorem State.withTmr_dbCnt (s : State) (v : PerChan Timer) :
    (s.withTmr v).dbCnt = s.dbCnt := rfl
@[simp] theorem State.withTmr_faultSet (s : State) (v : PerChan Timer) :
    (s.withTmr v).faultSet = s.faultSet := rfl
@[simp] theorem State.withTmr_faultOvr (s : State) (v : PerChan Timer) :
    (s.withTmr v).faultOvr = s.faultOvr := rfl
@[simp] theorem State.withTmr_alert (s : State) (v : PerChan Timer) :
    (s.withTmr v).alert = s.alert := rfl
@[simp] theorem State.withTmr_halted (s : State) (v : PerChan Timer) :
    (s.withTmr v).halted = s.halted := rfl
@[simp] theorem State.withTmr_inp (s : State) (v : PerChan Timer) :
    (s.withTmr v).inp = s.inp := rfl
@[simp] theorem State.withTmr_script (s : State) (v : PerChan Timer) :
    (s.withTmr v).script = s.script := rfl
@[simp] theorem State.withTmr_phase (s : State) (v : PerChan Timer) :
    (s.withTmr v).phase = s.phase := rfl
@[simp] theorem State.withTmr_cur (s : State) (v : PerChan Timer) :
    (s.withTmr v).cur = s.cur := rfl
@[simp] theorem State.withTmr_pending (s : State) (v : PerChan Timer) :
    (s.withTmr v).pending = s.pending := rfl
@[simp] theorem State.withTmr_events (s : State) (v : PerChan Timer) :
    (s.withTmr v).events = s.events := rfl
@[simp] theorem State.withTmr_hostResult (s : State) (v : PerChan Timer) :
    (s.withTmr v).hostResult = s.hostResult := rfl
@[simp] theorem State.withTmr_draws (s : State) (v : PerChan Timer) :
    (s.withTmr v).draws = s.draws := rfl
@[simp] theorem State.withTmr_twice (s : State) (v w : PerChan Timer) :
    (s.withTmr v).withTmr w = s.withTmr w := rfl
@[simp] theorem State.withTmr_self (s : State) :
    s.withTmr s.tmr = s := rfl

@[simp] theorem State.withDir_cfg (s : State) (v : PerAxis Dir) :
    (s.withDir v).cfg = s.cfg := rfl
@[simp] theorem State.withDir_q (s : State) (v : PerAxis Dir) :
    (s.withDir v).q = s.q := rfl
@[simp] theorem State.withDir_tmr (s : State) (v : PerAxis Dir) :
    (s.withDir v).tmr = s.tmr := rfl
@[simp] theorem State.withDir_dir (s : State) (v : PerAxis Dir) :
    (s.withDir v).dir = v := rfl
@[simp] theorem State.withDir_stepEn (s : State) (v : PerAxis Dir) :
    (s.withDir v).stepEn = s.stepEn := rfl
@[simp] theorem State.withDir_mainMode (s : State) (v : PerAxis Dir) :
    (s.withDir v).mainMode = s.mainMode := rfl
@[simp] theorem State.withDir_visMode (s : State) (v : PerAxis Dir) :
    (s.withDir v).visMode = s.visMode := rfl
@[simp] theorem State.withDir_mainPulseDur (s : State) (v : PerAxis Dir) :
    (s.withDir v).mainPulseDur = s.mainPulseDur := rfl
@[simp] theorem State.withDir_visPulseDur (s : State) (v : PerAxis Dir) :
    (s.withDir v).visPulseDur = s.visPulseDur := rfl
@[simp] theorem State.withDir_mainPower (s : State) (v : PerAxis Dir) :
    (s.withDir v).mainPower = s.mainPower := rfl
@[simp] theorem State.withDir_stopDown (s : State) (v : PerAxis Dir) :
    (s.withDir v).stopDown = s.stopDown := rfl
@[simp] theorem State.withDir_lidOpen (s : State) (v : PerAxis Dir) :
    (s.withDir v).lidOpen = s.lidOpen := rfl
@[simp] theorem State.withDir_moveOk (s : State) (v : PerAxis Dir) :
    (s.withDir v).moveOk = s.moveOk := rfl
@[simp] theorem State.withDir_mainOk (s : State) (v : PerAxis Dir) :
    (s.withDir v).mainOk = s.mainOk := rfl
@[simp] theorem State.withDir_visOk (s : State) (v : PerAxis Dir) :
    (s.withDir v).visOk = s.visOk := rfl
@[simp] theorem State.withDir_laserSel (s : State) (v : PerAxis Dir) :
    (s.withDir v).laserSel = s.laserSel := rfl
@[simp] theorem State.withDir_dbPending (s : State) (v : PerAxis Dir) :
    (s.withDir v).dbPending = s.dbPending := rfl
@[simp] theorem State.withDir_dbCnt (s : State) (v : PerAxis Dir) :
    (s.withDir v).dbCnt = s.dbCnt := rfl
@[simp] theorem State.withDir_faultSet (s : State) (v : PerAxis Dir) :
    (s.withDir v).faultSet = s.faultSet := rfl
@[simp] theorem State.withDir_faultOvr (s : State) (v : PerAxis Dir) :
    (s.withDir v).faultOvr = s.faultOvr := rfl
@[simp] theorem State.withDir_alert (s : State) (v : PerAxis Dir) :
    (s.withDir v).alert = s.alert := rfl
@[simp] theorem State.withDir_halted (s : State) (v : PerAxis Dir) :
    (s.withDir v).halted = s.halted := rfl
@[simp] theorem State.withDir_inp (s : State) (v : PerAxis Dir) :
    (s.withDir v).inp = s.inp := rfl
@[simp] theorem State.withDir_script (s : State) (v : PerAxis Dir) :
    (s.withDir v).script = s.script := rfl
@[simp] theorem State.withDir_phase (s : State) (v : PerAxis Dir) :
    (s.withDir v).phase = s.phase := rfl
@[simp] theorem State.withDir_cur (s : State) (v : PerAxis Dir) :
    (s.withDir v).cur = s.cur := rfl
@[simp] theorem State.withDir_pending (s : State) (v : PerAxis Dir) :
    (s.withDir v).pending = s.pending := rfl
@[simp] theorem State.withDir_events (s : State) (v : PerAxis Dir) :
    (s.withDir v).events = s.events := rfl
@[simp] theorem State.withDir_hostResult (s : State) (v : PerAxis Dir) :
    (s.withDir v).hostResult = s.hostResult := rfl
@[simp] theorem State.withDir_draws (s : State) (v : PerAxis Dir) :
    (s.withDir v).draws = s.draws := rfl
@[simp] theorem State.withDir_twice (s : State) (v w : PerAxis Dir) :
    (s.withDir v).withDir w = s.withDir w := rfl
@[simp] theorem State.withDir_self (s : State) :
    s.withDir s.dir = s := rfl

@[simp] theorem State.withStepEn_cfg (s : State) (v : PerAxis Bool) :
    (s.withStepEn v).cfg = s.cfg := rfl
@[simp] theorem State.withStepEn_q (s : State) (v : PerAxis Bool) :
    (s.withStepEn v).q = s.q := rfl
@[simp] theorem State.withStepEn_tmr (s : State) (v : PerAxis Bool) :
    (s.withStepEn v).tmr = s.tmr := rfl
@[simp] theorem State.withStepEn_dir (s : State) (v : PerAxis Bool) :
    (s.withStepEn v).dir = s.dir := rfl
@[simp] theorem State.withStepEn_stepEn (s : State) (v : PerAxis Bool) :
    (s.withStepEn v).stepEn = v := rfl
@[simp] theorem State.withStepEn_mainMode (s : State) (v : PerAxis Bool) :
    (s.withStepEn v).mainMode = s.mainMode := rfl
@[simp] theorem State.withStepEn_visMode (s : State) (v : PerAxis Bool) :
    (s.withStepEn v).visMode = s.visMode := rfl
@[simp] theorem State.withStepEn_mainPulseDur (s : State) (v : PerAxis Bool) :
    (s.withStepEn v).mainPulseDur = s.mainPulseDur := rfl
@[simp] theorem State.withStepEn_visPulseDur (s : State) (v : PerAxis Bool) :
    (s.withStepEn v).visPulseDur = s.visPulseDur := rfl
@[simp] theorem State.withStepEn_mainPower (s : State) (v : PerAxis Bool) :
    (s.withStepEn v).mainPower = s.mainPower := rfl
@[simp] theorem State.withStepEn_stopDown (s : State) (v : PerAxis Bool) :
    (s.withStepEn v).stopDown = s.stopDown := rfl
@[simp] theorem State.withStepEn_lidOpen (s : State) (v : PerAxis Bool) :
    (s.withStepEn v).lidOpen = s.lidOpen := rfl
@[simp] theorem State.withStepEn_moveOk (s : State) (v : PerAxis Bool) :
    (s.withStepEn v).moveOk = s.moveOk := rfl
@[simp] theorem State.withStepEn_mainOk (s : State) (v : PerAxis Bool) :
    (s.withStepEn v).mainOk = s.mainOk := rfl
@[simp] theorem State.withStepEn_visOk (s : State) (v : PerAxis Bool) :
    (s.withStepEn v).visOk = s.visOk := rfl
@[simp] theorem State.withStepEn_laserSel (s : State) (v : PerAxis Bool) :
    (s.withStepEn v).laserSel = s.laserSel := rfl
@[simp] theorem State.withStepEn_dbPending (s : State) (v : PerAxis Bool) :
    (s.withStepEn v).dbPending = s.dbPending := rfl
@[simp] theorem State.withStepEn_dbCnt (s : State) (v : PerAxis Bool) :
    (s.withStepEn v).dbCnt = s.dbCnt := rfl
@[simp] theorem State.withStepEn_faultSet (s : State) (v : PerAxis Bool) :
    (s.withStepEn v).faultSet = s.faultSet := rfl
@[simp] theorem State.withStepEn_faultOvr (s : State) (v : PerAxis Bool) :
    (s.withStepEn v).faultOvr = s.faultOvr := rfl
@[simp] theorem State.withStepEn_alert (s : State) (v : PerAxis Bool) :
    (s.withStepEn v).alert = s.alert := rfl
@[simp] theorem State.withStepEn_halted (s : State) (v : PerAxis Bool) :
    (s.withStepEn v).halted = s.halted := rfl
@[simp] theorem State.withStepEn_inp (s : State) (v : PerAxis Bool) :
    (s.withStepEn v).inp = s.inp := rfl
@[simp] theorem State.withStepEn_script (s : State) (v : PerAxis Bool) :
    (s.withStepEn v).script = s.script := rfl
@[simp] theorem State.withStepEn_phase (s : State) (v : PerAxis Bool) :
    (s.withStepEn v).phase = s.phase := rfl
@[simp] theorem State.withStepEn_cur (s : State) (v : PerAxis Bool) :
    (s.withStepEn v).cur = s.cur := rfl
@[simp] theorem State.withStepEn_pending (s : State) (v : PerAxis Bool) :
    (s.withStepEn v).pending = s.pending := rfl
@[simp] theorem State.withStepEn_events (s : State) (v : PerAxis Bool) :
    (s.withStepEn v).events = s.events := rfl
@[simp] theorem State.withStepEn_hostResult (s : State) (v : PerAxis Bool) :
    (s.withStepEn v).hostResult = s.hostResult := rfl
@[simp] theorem State.withStepEn_draws (s : State) (v : PerAxis Bool) :
    (s.withStepEn v).draws = s.draws := rfl
@[simp] theorem State.withStepEn_twice (s : State) (v w : PerAxis Bool) :
    (s.withStepEn v).withStepEn w = s.withStepEn w := rfl
@[simp] theorem State.withStepEn_self (s : State) :
    s.withStepEn s.stepEn = s := rfl

@[simp] theorem State.withMainMode_cfg (s : State) (v : LaserMode) :
    (s.withMainMode v).cfg = s.cfg := rfl
@[simp] theorem State.withMainMode_q (s : State) (v : LaserMode) :
    (s.withMainMode v).q = s.q := rfl
@[simp] theorem State.withMainMode_tmr (s : State) (v : LaserMode) :
    (s.withMainMode v).tmr = s.tmr := rfl
@[simp] theorem State.withMainMode_dir (s : State) (v : LaserMode) :
    (s.withMainMode v).dir = s.dir := rfl
@[simp] theorem State.withMainMode_stepEn (s : State) (v : LaserMode) :
    (s.withMainMode v).stepEn = s.stepEn := rfl
@[simp] theorem State.withMainMode_mainMode (s : State) (v : LaserMode) :
    (s.withMainMode v).mainMode = v := rfl
@[simp] theorem State.withMainMode_visMode (s : State) (v : LaserMode) :
    (s.withMainMode v).visMode = s.visMode := rfl
@[simp] theorem State.withMainMode_mainPulseDur (s : State) (v : LaserMode) :
    (s.withMainMode v).mainPulseDur = s.mainPulseDur := rfl
@[simp] theorem State.withMainMode_visPulseDur (s : State) (v : LaserMode) :
    (s.withMainMode v).visPulseDur = s.visPulseDur := rfl
@[simp] theorem State.withMainMode_mainPower (s : State) (v : LaserMode) :
    (s.withMainMode v).mainPower = s.mainPower := rfl
@[simp] theorem State.withMainMode_stopDown (s : State) (v : LaserMode) :
    (s.withMainMode v).stopDown = s.stopDown := rfl
@[simp] theorem State.withMainMode_lidOpen (s : State) (v : LaserMode) :
    (s.withMainMode v).lidOpen = s.lidOpen := rfl
@[simp] theorem State.withMainMode_moveOk (s : State) (v : LaserMode) :
    (s.withMainMode v).moveOk = s.moveOk := rfl
@[simp] theorem State.withMainMode_mainOk (s : State) (v : LaserMode) :
    (s.withMainMode v).mainOk = s.mainOk := rfl
@[simp] theorem State.withMainMode_visOk (s : State) (v : LaserMode) :
    (s.withMainMode v).visOk = s.visOk := rfl
@[simp] theorem State.withMainMode_laserSel (s : State) (v : LaserMode) :
    (s.withMainMode v).laserSel = s.laserSel := rfl
@[simp] theorem State.withMainMode_dbPending (s : State) (v : LaserMode) :
    (s.withMainMode v).dbPending = s.dbPending := rfl
@[simp] theorem State.withMainMode_dbCnt (s : State) (v : LaserMode) :
    (s.withMainMode v).dbCnt = s.dbCnt := rfl
@[simp] theorem State.withMainMode_faultSet (s : State) (v : LaserMode) :
    (s.withMainMode v).faultSet = s.faultSet := rfl
@[simp] theorem State.withMainMode_faultOvr (s : State) (v : LaserMode) :
    (s.withMainMode v).faultOvr = s.faultOvr := rfl
@[simp] theorem State.withMainMode_alert (s : State) (v : LaserMode) :
    (s.withMainMode v).alert = s.alert := rfl
@[simp] theorem State.withMainMode_halted (s : State) (v : LaserMode) :
    (s.withMainMode v).halted = s.halted := rfl
@[simp] theorem State.withMainMode_inp (s : State) (v : LaserMode) :
    (s.withMainMode v).inp = s.inp := rfl
@[simp] theorem State.withMainMode_script (s : State) (v : LaserMode) :
    (s.withMainMode v).script = s.script := rfl
@[simp] theorem State.withMainMode_phase (s : State) (v : LaserMode) :
    (s.withMainMode v).phase = s.phase := rfl
@[simp] theorem State.withMainMode_cur (s : State) (v : LaserMode) :
    (s.withMainMode v).cur = s.cur := rfl
@[simp] theorem State.withMainMode_pending (s : State) (v : LaserMode) :
    (s.withMainMode v).pending = s.pending := rfl
@[simp] theorem State.withMainMode_events (s : State) (v : LaserMode) :
    (s.withMainMode v).events = s.events := rfl
@[simp] theorem State.withMainMode_hostResult (s : State) (v : LaserMode) :
    (s.withMainMode v).hostResult = s.hostResult := rfl
@[simp] theorem State.withMainMode_draws (s : State) (v : LaserMode) :
    (s.withMainMode v).draws = s.draws := rfl
@[simp] theorem State.withMainMode_twice (s : State) (v w : LaserMode) :
    (s.withMainMode v).withMainMode w = s.withMainMode w := rfl
@[simp] theorem State.withMainMode_self (s : State) :
    s.withMainMode s.mainMode = s := rfl

@[simp] theorem State.withVisMode_cfg (s : State) (v : LaserMode) :
    (s.withVisMode v).cfg = s.cfg := rfl
@[simp] theorem State.withVisMode_q (s : State) (v : LaserMode) :
    (s.withVisMode v).q = s.q := rfl
@[simp] theorem State.withVisMode_tmr (s : State) (v : LaserMode) :
    (s.withVisMode v).tmr = s.tmr := rfl
@[simp] theorem State.withVisMode_dir (s : State) (v : LaserMode) :
    (s.withVisMode v).dir = s.dir := rfl
@[simp] theorem State.withVisMode_stepEn (s : State) (v : LaserMode) :
    (s.withVisMode v).stepEn = s.stepEn := rfl
@[simp] theorem State.withVisMode_mainMode (s : State) (v : LaserMode) :
    (s.withVisMode v).mainMode = s.mainMode := rfl
@[simp] theorem State.withVisMode_visMode (s : State) (v : LaserMode) :
    (s.withVisMode v).visMode = v := rfl
@[simp] theorem State.withVisMode_mainPulseDur (s : State) (v : LaserMode) :
    (s.withVisMode v).mainPulseDur = s.mainPulseDur := rfl
@[simp] theorem State.withVisMode_visPulseDur (s : State) (v : LaserMode) :
    (s.withVisMode v).visPulseDur = s.visPulseDur := rfl
@[simp] theorem State.withVisMode_mainPower (s : State) (v : LaserMode) :
    (s.withVisMode v).mainPower = s.mainPower := rfl
@[simp] theorem State.withVisMode_stopDown (s : State) (v : LaserMode) :
    (s.withVisMode v).stopDown = s.stopDown := rfl
@[simp] theorem State.withVisMode_lidOpen (s : State) (v : LaserMode) :
    (s.withVisMode v).lidOpen = s.lidOpen := rfl
@[simp] theorem State.withVisMode_moveOk (s : State) (v : LaserMode) :
    (s.withVisMode v).moveOk = s.moveOk := rfl
@[simp] theorem State.withVisMode_mainOk (s : State) (v : LaserMode) :
    (s.withVisMode v).mainOk = s.mainOk := rfl
@[simp] theorem State.withVisMode_visOk (s : State) (v : LaserMode) :
    (s.withVisMode v).visOk = s.visOk := rfl
@[simp] theorem State.withVisMode_laserSel (s : State) (v : LaserMode) :
    (s.withVisMode v).laserSel = s.laserSel := rfl
@[simp] theorem State.withVisMode_dbPending (s : State) (v : LaserMode) :
    (s.withVisMode v).dbPending = s.dbPending := rfl
@[simp] theorem State.withVisMode_dbCnt (s : State) (v : LaserMode) :
    (s.withVisMode v).dbCnt = s.dbCnt := rfl
@[simp] theorem State.withVisMode_faultSet (s : State) (v : LaserMode) :
    (s.withVisMode v).faultSet = s.faultSet := rfl
@[simp] theorem State.withVisMode_faultOvr (s : State) (v : LaserMode) :
    (s.withVisMode v).faultOvr = s.faultOvr := rfl
@[simp] theorem State.withVisMode_alert (s : State) (v : LaserMode) :
    (s.withVisMode v).alert = s.alert := rfl
@[simp] theorem State.withVisMode_halted (s : State) (v : LaserMode) :
    (s.withVisMode v).halted = s.halted := rfl
@[simp] theorem State.withVisMode_inp (s : State) (v : LaserMode) :
    (s.withVisMode v).inp = s.inp := rfl
@[simp] theorem State.withVisMode_script (s : State) (v : LaserMode) :
    (s.withVisMode v).script = s.script := rfl
@[simp] theorem State.withVisMode_phase (s : State) (v : LaserMode) :
    (s.withVisMode v).phase = s.phase := rfl
@[simp] theorem State.withVisMode_cur (s : State) (v : LaserMode) :
    (s.withVisMode v).cur = s.cur := rfl
@[simp] theorem State.withVisMode_pending (s : State) (v : LaserMode) :
    (s.withVisMode v).pending = s.pending := rfl
@[simp] theorem State.withVisMode_events (s : State) (v : LaserMode) :
    (s.withVisMode v).events = s.events := rfl
@[simp] theorem State.withVisMode_hostResult (s : State) (v : LaserMode) :
    (s.withVisMode v).hostResult = s.hostResult := rfl
@[simp] theorem State.withVisMode_draws (s : State) (v : LaserMode) :
    (s.withVisMode v).draws = s.draws := rfl
@[simp] theorem State.withVisMode_twice (s : State) (v w : LaserMode) :
    (s.withVisMode v).withVisMode w = s.withVisMode w := rfl
@[simp] theorem State.withVisMode_self (s : State) :
    s.withVisMode s.visMode = s := rfl

@[simp] theorem State.withMainPulseDur_cfg (s : State) (v : Word) :
    (s.withMainPulseDur v).cfg = s.cfg := rfl
@[simp] theorem State.withMainPulseDur_q (s : State) (v : Word) :
    (s.withMainPulseDur v).q = s.q := rfl
@[simp] theorem State.withMainPulseDur_tmr (s : State) (v : Word) :
    (s.withMainPulseDur v).tmr = s.tmr := rfl
@[simp] theorem State.withMainPulseDur_dir (s : State) (v : Word) :
    (s.withMainPulseDur v).dir = s.dir := rfl
@[simp] theorem State.withMainPulseDur_stepEn (s : State) (v : Word) :
    (s.withMainPulseDur v).stepEn = s.stepEn := rfl
@[simp] theorem State.withMainPulseDur_mainMode (s : State) (v : Word) :
    (s.withMainPulseDur v).mainMode = s.mainMode := rfl
@[simp] theorem State.withMainPulseDur_visMode (s : State) (v : Word) :
    (s.withMainPulseDur v).visMode = s.visMode := rfl
@[simp] theorem State.withMainPulseDur_mainPulseDur (s : State) (v : Word) :
    (s.withMainPulseDur v).mainPulseDur = v := rfl
@[simp] theorem State.withMainPulseDur_visPulseDur (s : State) (v : Word) :
    (s.withMainPulseDur v).visPulseDur = s.visPulseDur := rfl
@[simp] theorem State.withMainPulseDur_mainPower (s : State) (v : Word) :
    (s.withMainPulseDur v).mainPower = s.mainPower := rfl
@[simp] theorem State.withMainPulseDur_stopDown (s : State) (v : Word) :
    (s.withMainPulseDur v).stopDown = s.stopDown := rfl
@[simp] theorem State.withMainPulseDur_lidOpen (s : State) (v : Word) :
    (s.withMainPulseDur v).lidOpen = s.lidOpen := rfl
@[simp] theorem State.withMainPulseDur_moveOk (s : State) (v : Word) :
    (s.withMainPulseDur v).moveOk = s.moveOk := rfl
@[simp] theorem State.withMainPulseDur_mainOk (s : State) (v : Word) :
    (s.withMainPulseDur v).mainOk = s.mainOk := rfl
@[simp] theorem State.withMainPulseDur_visOk (s : State) (v : Word) :
    (s.withMainPulseDur v).visOk = s.visOk := rfl
@[simp] theorem State.withMainPulseDur_laserSel (s : State) (v : Word) :
    (s.withMainPulseDur v).laserSel = s.laserSel := rfl
@[simp] theorem State.withMainPulseDur_dbPending (s : State) (v : Word) :
    (s.withMainPulseDur v).dbPending = s.dbPending := rfl
@[simp] theorem State.withMainPulseDur_dbCnt (s : State) (v : Word) :
    (s.withMainPulseDur v).dbCnt = s.dbCnt := rfl
@[simp] theorem State.withMainPulseDur_faultSet (s : State) (v : Word) :
    (s.withMainPulseDur v).faultSet = s.faultSet := rfl
@[simp] theorem State.withMainPulseDur_faultOvr (s : State) (v : Word) :
    (s.withMainPulseDur v).faultOvr = s.faultOvr := rfl
@[simp] theorem State.withMainPulseDur_alert (s : State) (v : Word) :
    (s.withMainPulseDur v).alert = s.alert := rfl
@[simp] theorem State.withMainPulseDur_halted (s : State) (v : Word) :
    (s.withMainPulseDur v).halted = s.halted := rfl
@[simp] theorem State.withMainPulseDur_inp (s : State) (v : Word) :
    (s.withMainPulseDur v).inp = s.inp := rfl
@[simp] theorem State.withMainPulseDur_script (s : State) (v : Word) :
    (s.withMainPulseDur v).script = s.script := rfl
@[simp] theorem State.withMainPulseDur_phase (s : State) (v : Word) :
    (s.withMainPulseDur v).phase = s.phase := rfl
@[simp] theorem State.withMainPulseDur_cur (s : State) (v : Word) :
    (s.withMainPulseDur v).cur = s.cur := rfl
@[simp] theorem State.withMainPulseDur_pending (s : State) (v : Word) :
    (s.withMainPulseDur v).pending = s.pending := rfl
@[simp] theorem State.withMainPulseDur_events (s : State) (v : Word) :
    (s.withMainPulseDur v).events = s.events := rfl
@[simp] theorem State.withMainPulseDur_hostResult (s : State) (v : Word) :
    (s.withMainPulseDur v).hostResult = s.hostResult := rfl
@[simp] theorem State.withMainPulseDur_draws (s : State) (v : Word) :
    (s.withMainPulseDur v).draws = s.draws := rfl
@[simp] theorem State.withMainPulseDur_twice (s : State) (v w : Word) :
    (s.withMainPulseDur v).withMainPulseDur w = s.withMainPulseDur w := rfl
@[simp] theorem State.withMainPulseDur_self (s : State) :
    s.withMainPulseDur s.mainPulseDur = s := rfl

@[simp] theorem State.withVisPulseDur_cfg (s : State) (v : Word) :
    (s.withVisPulseDur v).cfg = s.cfg := rfl
@[simp] theorem State.withVisPulseDur_q (s : State) (v : Word) :
    (s.withVisPulseDur v).q = s.q := rfl
@[simp] theorem State.withVisPulseDur_tmr (s : State) (v : Word) :
    (s.withVisPulseDur v).tmr = s.tmr := rfl
@[simp] theorem State.withVisPulseDur_dir (s : State) (v : Word) :
    (s.withVisPulseDur v).dir = s.dir := rfl
@[simp] theorem State.withVisPulseDur_stepEn (s : State) (v : Word) :
    (s.withVisPulseDur v).stepEn = s.stepEn := rfl
@[simp] theorem State.withVisPulseDur_mainMode (s : State) (v : Word) :
    (s.withVisPulseDur v).mainMode = s.mainMode := rfl
@[simp] theorem State.withVisPulseDur_visMode (s : State) (v : Word) :
    (s.withVisPulseDur v).visMode = s.visMode := rfl
@[simp] theorem State.withVisPulseDur_mainPulseDur (s : State) (v : Word) :
    (s.withVisPulseDur v).mainPulseDur = s.mainPulseDur := rfl
@[simp] theorem State.withVisPulseDur_visPulseDur (s : State) (v : Word) :
    (s.withVisPulseDur v).visPulseDur = v := rfl
@[simp] theorem State.withVisPulseDur_mainPower (s : State) (v : Word) :
    (s.withVisPulseDur v).mainPower = s.mainPower := rfl
@[simp] theorem State.withVisPulseDur_stopDown (s : State) (v : Word) :
    (s.withVisPulseDur v).stopDown = s.stopDown := rfl
@[simp] theorem State.withVisPulseDur_lidOpen (s : State) (v : Word) :
    (s.withVisPulseDur v).lidOpen = s.lidOpen := rfl
@[simp] theorem State.withVisPulseDur_moveOk (s : State) (v : Word) :
    (s.withVisPulseDur v).moveOk = s.moveOk := rfl
@[simp] theorem State.withVisPulseDur_mainOk (s : State) (v : Word) :
    (s.withVisPulseDur v).mainOk = s.mainOk := rfl
@[simp] theorem State.withVisPulseDur_visOk (s : State) (v : Word) :
    (s.withVisPulseDur v).visOk = s.visOk := rfl
@[simp] theorem State.withVisPulseDur_laserSel (s : State) (v : Word) :
    (s.withVisPulseDur v).laserSel = s.laserSel := rfl
@[simp] theorem State.withVisPulseDur_dbPending (s : State) (v : Word) :
    (s.withVisPulseDur v).dbPending = s.dbPending := rfl
@[simp] theorem State.withVisPulseDur_dbCnt (s : State) (v : Word) :
    (s.withVisPulseDur v).dbCnt = s.dbCnt := rfl
@[simp] theorem State.withVisPulseDur_faultSet (s : State) (v : Word) :
    (s.withVisPulseDur v).faultSet = s.faultSet := rfl
@[simp] theorem State.withVisPulseDur_faultOvr (s : State) (v : Word) :
    (s.withVisPulseDur v).faultOvr = s.faultOvr := rfl
@[simp] theorem State.withVisPulseDur_alert (s : State) (v : Word) :
    (s.withVisPulseDur v).alert = s.alert := rfl
@[simp] theorem State.withVisPulseDur_halted (s : State) (v : Word) :
    (s.withVisPulseDur v).halted = s.halted := rfl
@[simp] theorem State.withVisPulseDur_inp (s : State) (v : Word) :
    (s.withVisPulseDur v).inp = s.inp := rfl
@[simp] theorem State.withVisPulseDur_script (s : State) (v : Word) :
    (s.withVisPulseDur v).script = s.script := rfl
@[simp] theorem State.withVisPulseDur_phase (s : State) (v : Word) :
    (s.withVisPulseDur v).phase = s.phase := rfl
@[simp] theorem State.withVisPulseDur_cur (s : State) (v : Word) :
    (s.withVisPulseDur v).cur = s.cur := rfl
@[simp] theorem State.withVisPulseDur_pending (s : State) (v : Word) :
    (s.withVisPulseDur v).pending = s.pending := rfl
@[simp] theorem State.withVisPulseDur_events (s : State) (v : Word) :
    (s.withVisPulseDur v).events = s.events := rfl
@[simp] theorem State.withVisPulseDur_hostResult (s : State) (v : Word) :
    (s.withVisPulseDur v).hostResult = s.hostResult := rfl
@[simp] theorem State.withVisPulseDur_draws (s : State) (v : Word) :
    (s.withVisPulseDur v).draws = s.draws := rfl
@[simp] theorem State.withVisPulseDur_twice (s : State) (v w : Word) :
    (s.withVisPulseDur v).withVisPulseDur w = s.withVisPulseDur w := rfl
@[simp] theorem State.withVisPulseDur_self (s : State) :
    s.withVisPulseDur s.visPulseDur = s := rfl

@[simp] theorem State.withMainPower_cfg (s : State) (v : Word) :
    (s.withMainPower v).cfg = s.cfg := rfl
@[simp] theorem State.withMainPower_q (s : State) (v : Word) :
    (s.withMainPower v).q = s.q := rfl
@[simp] theorem State.withMainPower_tmr (s : State) (v : Word) :
    (s.withMainPower v).tmr = s.tmr := rfl
@[simp] theorem State.withMainPower_dir (s : State) (v : Word) :
    (s.withMainPower v).dir = s.dir := rfl
@[simp] theorem State.withMainPower_stepEn (s : State) (v : Word) :
    (s.withMainPower v).stepEn = s.stepEn := rfl
@[simp] theorem State.withMainPower_mainMode (s : State) (v : Word) :
    (s.withMainPower v).mainMode = s.mainMode := rfl
@[simp] theorem State.withMainPower_visMode (s : State) (v : Word) :
    (s.withMainPower v).visMode = s.visMode := rfl
@[simp] theorem State.withMainPower_mainPulseDur (s : State) (v : Word) :
    (s.withMainPower v).mainPulseDur = s.mainPulseDur := rfl
@[simp] theorem State.withMainPower_visPulseDur (s : State) (v : Word) :
    (s.withMainPower v).visPulseDur = s.visPulseDur := rfl
@[simp] theorem State.withMainPower_mainPower (s : State) (v : Word) :
    (s.withMainPower v).mainPower = v := rfl
@[simp] theorem State.withMainPower_stopDown (s : State) (v : Word) :
    (s.withMainPower v).stopDown = s.stopDown := rfl
@[simp] theorem State.withMainPower_lidOpen (s : State) (v : Word) :
    (s.withMainPower v).lidOpen = s.lidOpen := rfl
@[simp] theorem State.withMainPower_moveOk (s : State) (v : Word) :
    (s.withMainPower v).moveOk = s.moveOk := rfl
@[simp] theorem State.withMainPower_mainOk (s : State) (v : Word) :
    (s.withMainPower v).mainOk = s.mainOk := rfl
@[simp] theorem State.withMainPower_visOk (s : State) (v : Word) :
    (s.withMainPower v).visOk = s.visOk := rfl
@[simp] theorem State.withMainPower_laserSel (s : State) (v : Word) :
    (s.withMainPower v).laserSel = s.laserSel := rfl
@[simp] theorem State.withMainPower_dbPending (s : State) (v : Word) :
    (s.withMainPower v).dbPending = s.dbPending := rfl
@[simp] theorem State.withMainPower_dbCnt (s : State) (v : Word) :
    (s.withMainPower v).dbCnt = s.dbCnt := rfl
@[simp] theorem State.withMainPower_faultSet (s : State) (v : Word) :
    (s.withMainPower v).faultSet = s.faultSet := rfl
@[simp] theorem State.withMainPower_faultOvr (s : State) (v : Word) :
    (s.withMainPower v).faultOvr = s.faultOvr := rfl
@[simp] theorem State.withMainPower_alert (s : State) (v : Word) :
    (s.withMainPower v).alert = s.alert := rfl
@[simp] theorem State.withMainPower_halted (s : State) (v : Word) :
    (s.withMainPower v).halted = s.halted := rfl
@[simp] theorem State.withMainPower_inp (s : State) (v : Word) :
    (s.withMainPower v).inp = s.inp := rfl
@[simp] theorem State.withMainPower_script (s : State) (v : Word) :
    (s.withMainPower v).script = s.script := rfl
@[simp] theorem State.withMainPower_phase (s : State) (v : Word) :
    (s.withMainPower v).phase = s.phase := rfl
@[simp] theorem State.withMainPower_cur (s : State) (v : Word) :
    (s.withMainPower v).cur = s.cur := rfl
@[simp] theorem State.withMainPower_pending (s : State) (v : Word) :
    (s.withMainPower v).pending = s.pending := rfl
@[simp] theorem State.withMainPower_events (s : State) (v : Word) :
    (s.withMainPower v).events = s.events := rfl
@[simp] theorem State.withMainPower_hostResult (s : State) (v : Word) :
    (s.withMainPower v).hostResult = s.hostResult := rfl
@[simp] theorem State.withMainPower_draws (s : State) (v : Word) :
    (s.withMainPower v).draws = s.draws := rfl
@[simp] theorem State.withMainPower_twice (s : State) (v w : Word) :
    (s.withMainPower v).withMainPower w = s.withMainPower w := rfl
@[simp] theorem State.withMainPower_self (s : State) :
    s.withMainPower s.mainPower = s := rfl

@[simp] theorem State.withStopDown_cfg (s : State) (v : Bool) :
    (s.withStopDown v).cfg = s.cfg := rfl
@[simp] theorem State.withStopDown_q (s : State) (v : Bool) :
    (s.withStopDown v).q = s.q := rfl
@[simp] theorem State.withStopDown_tmr (s : State) (v : Bool) :
    (s.withStopDown v).tmr = s.tmr := rfl
@[simp] theorem State.withStopDown_dir (s : State) (v : Bool) :
    (s.withStopDown v).dir = s.dir := rfl
@[simp] theorem State.withStopDown_stepEn (s : State) (v : Bool) :
    (s.withStopDown v).stepEn = s.stepEn := rfl
@[simp] theorem State.withStopDown_mainMode (s : State) (v : Bool) :
    (s.withStopDown v).mainMode = s.mainMode := rfl
@[simp] theorem State.withStopDown_visMode (s : State) (v : Bool) :
    (s.withStopDown v).visMode = s.visMode := rfl
@[simp] theorem State.withStopDown_mainPulseDur (s : State) (v : Bool) :
    (s.withStopDown v).mainPulseDur = s.mainPulseDur := rfl
@[simp] theorem State.withStopDown_visPulseDur (s : State) (v : Bool) :
    (s.withStopDown v).visPulseDur = s.visPulseDur := rfl
@[simp] theorem State.withStopDown_mainPower (s : State) (v : Bool) :
    (s.withStopDown v).mainPower = s.mainPower := rfl
@[simp] theorem State.withStopDown_stopDown (s : State) (v : Bool) :
    (s.withStopDown v).stopDown = v := rfl
@[simp] theorem State.withStopDown_lidOpen (s : State) (v : Bool) :
    (s.withStopDown v).lidOpen = s.lidOpen := rfl
@[simp] theorem State.withStopDown_moveOk (s : State) (v : Bool) :
    (s.withStopDown v).moveOk = s.moveOk := rfl
@[simp] theorem State.withStopDown_mainOk (s : State) (v : Bool) :
    (s.withStopDown v).mainOk = s.mainOk := rfl
@[simp] theorem State.withStopDown_visOk (s : State) (v : Bool) :
    (s.withStopDown v).visOk = s.visOk := rfl
@[simp] theorem State.withStopDown_laserSel (s : State) (v : Bool) :
    (s.withStopDown v).laserSel = s.laserSel := rfl
@[simp] theorem State.withStopDown_dbPending (s : State) (v : Bool) :
    (s.withStopDown v).dbPending = s.dbPending := rfl
@[simp] theorem State.withStopDown_dbCnt (s : State) (v : Bool) :
    (s.withStopDown v).dbCnt = s.dbCnt := rfl
@[simp] theorem State.withStopDown_faultSet (s : State) (v : Bool) :
    (s.withStopDown v).faultSet = s.faultSet := rfl
@[simp] theorem State.withStopDown_faultOvr (s : State) (v : Bool) :
    (s.withStopDown v).faultOvr = s.faultOvr := rfl
@[simp] theorem State.withStopDown_alert (s : State) (v : Bool) :
    (s.withStopDown v).alert = s.alert := rfl
@[simp] theorem State.withStopDown_halted (s : State) (v : Bool) :
    (s.withStopDown v).halted = s.halted := rfl
@[simp] theorem State.withStopDown_inp (s : State) (v : Bool) :
    (s.withStopDown v).inp = s.inp := rfl
@[simp] theorem State.withStopDown_script (s : State) (v : Bool) :
    (s.withStopDown v).script = s.script := rfl
@[simp] theorem State.withStopDown_phase (s : State) (v : Bool) :
    (s.withStopDown v).phase = s.phase := rfl
@[simp] theorem State.withStopDown_cur (s : State) (v : Bool) :
    (s.withStopDown v).cur = s.cur := rfl
@[simp] theorem State.withStopDown_pending (s : State) (v : Bool) :
    (s.withStopDown v).pending = s.pending := rfl
@[simp] theorem State.withStopDown_events (s : State) (v : Bool) :
    (s.withStopDown v).events = s.events := rfl
@[simp] theorem State.withStopDown_hostResult (s : State) (v : Bool) :
    (s.withStopDown v).hostResult = s.hostResult := rfl
@[simp] theorem State.withStopDown_draws (s : State) (v : Bool) :
    (s.withStopDown v).draws = s.draws := rfl
@[simp] theorem State.withStopDown_twice (s : State) (v w : Bool) :
    (s.withStopDown v).withStopDown w = s.withStopDown w := rfl
@[simp] theorem State.withStopDown_self (s : State) :
    s.withStopDown s.stopDown = s := rfl

@[simp] theorem State.withLidOpen_cfg (s : State) (v : Bool) :
    (s.withLidOpen v).cfg = s.cfg := rfl
@[simp] theorem State.withLidOpen_q (s : State) (v : Bool) :
    (s.withLidOpen v).q = s.q := rfl
@[simp] theorem State.withLidOpen_tmr (s : State) (v : Bool) :
    (s.withLidOpen v).tmr = s.tmr := rfl
@[simp] theorem State.withLidOpen_dir (s : State) (v : Bool) :
    (s.withLidOpen v).dir = s.dir := rfl
@[simp] theorem State.withLidOpen_stepEn (s : State) (v : Bool) :
    (s.withLidOpen v).stepEn = s.stepEn := rfl
@[simp] theorem State.withLidOpen_mainMode (s : State) (v : Bool) :
    (s.withLidOpen v).mainMode = s.mainMode := rfl
@[simp] theorem State.withLidOpen_visMode (s : State) (v : Bool) :
    (s.withLidOpen v).visMode = s.visMode := rfl
@[simp] theorem State.withLidOpen_mainPulseDur (s : State) (v : Bool) :
    (s.withLidOpen v).mainPulseDur = s.mainPulseDur := rfl
@[simp] theorem State.withLidOpen_visPulseDur (s : State) (v : Bool) :
    (s.withLidOpen v).visPulseDur = s.visPulseDur := rfl
@[simp] theorem State.withLidOpen_mainPower (s : State) (v : Bool) :
    (s.withLidOpen v).mainPower = s.mainPower := rfl
@[simp] theorem State.withLidOpen_stopDown (s : State) (v : Bool) :
    (s.withLidOpen v).stopDown = s.stopDown := rfl
@[simp] theorem State.withLidOpen_lidOpen (s : State) (v : Bool) :
    (s.withLidOpen v).lidOpen = v := rfl
@[simp] theorem State.withLidOpen_moveOk (s : State) (v : Bool) :
    (s.withLidOpen v).moveOk = s.moveOk := rfl
@[simp] theorem State.withLidOpen_mainOk (s : State) (v : Bool) :
    (s.withLidOpen v).mainOk = s.mainOk := rfl
@[simp] theorem State.withLidOpen_visOk (s : State) (v : Bool) :
    (s.withLidOpen v).visOk = s.visOk := rfl
@[simp] theorem State.withLidOpen_laserSel (s : State) (v : Bool) :
    (s.withLidOpen v).laserSel = s.laserSel := rfl
@[simp] theorem State.withLidOpen_dbPending (s : State) (v : Bool) :
    (s.withLidOpen v).dbPending = s.dbPending := rfl
@[simp] theorem State.withLidOpen_dbCnt (s : State) (v : Bool) :
    (s.withLidOpen v).dbCnt = s.dbCnt := rfl
@[simp] theorem State.withLidOpen_faultSet (s : State) (v : Bool) :
    (s.withLidOpen v).faultSet = s.faultSet := rfl
@[simp] theorem State.withLidOpen_faultOvr (s : State) (v : Bool) :
    (s.withLidOpen v).faultOvr = s.faultOvr := rfl
@[simp] theorem State.withLidOpen_alert (s : State) (v : Bool) :
    (s.withLidOpen v).alert = s.alert := rfl
@[simp] theorem State.withLidOpen_halted (s : State) (v : Bool) :
    (s.withLidOpen v).halted = s.halted := rfl
@[simp] theorem State.withLidOpen_inp (s : State) (v : Bool) :
    (s.withLidOpen v).inp = s.inp := rfl
@[simp] theorem State.withLidOpen_script (s : State) (v : Bool) :
    (s.withLidOpen v).script = s.script := rfl
@[simp] theorem State.withLidOpen_phase (s : State) (v : Bool) :
    (s.withLidOpen v).phase = s.phase := rfl
@[simp] theorem State.withLidOpen_cur (s : State) (v : Bool) :
    (s.withLidOpen v).cur = s.cur := rfl
@[simp] theorem State.withLidOpen_pending (s : State) (v : Bool) :
    (s.withLidOpen v).pending = s.pending := rfl
@[simp] theorem State.withLidOpen_events (s : State) (v : Bool) :
    (s.withLidOpen v).events = s.events := rfl
@[simp] theorem State.withLidOpen_hostResult (s : State) (v : Bool) :
    (s.withLidOpen v).hostResult = s.hostResult := rfl
@[simp] theorem State.withLidOpen_draws (s : State) (v : Bool) :
    (s.withLidOpen v).draws = s.draws := rfl
@[simp] theorem State.withLidOpen_twice (s : State) (v w : Bool) :
    (s.withLidOpen v).withLidOpen w = s.withLidOpen w := rfl
@[simp] theorem State.withLidOpen_self (s : State) :
    s.withLidOpen s.lidOpen = s := rfl

@[simp] theorem State.withMoveOk_cfg (s : State) (v : Bool) :
    (s.withMoveOk v).cfg = s.cfg := rfl
@[simp] theorem State.withMoveOk_q (s : State) (v : Bool) :
    (s.withMoveOk v).q = s.q := rfl
@[simp] theorem State.withMoveOk_tmr (s : State) (v : Bool) :
    (s.withMoveOk v).tmr = s.tmr := rfl
@[simp] theorem State.withMoveOk_dir (s : State) (v : Bool) :
    (s.withMoveOk v).dir = s.dir := rfl
@[simp] theorem State.withMoveOk_stepEn (s : State) (v : Bool) :
    (s.withMoveOk v).stepEn = s.stepEn := rfl
@[simp] theorem State.withMoveOk_mainMode (s : State) (v : Bool) :
    (s.withMoveOk v).mainMode = s.mainMode := rfl
@[simp] theorem State.withMoveOk_visMode (s : State) (v : Bool) :
    (s.withMoveOk v).visMode = s.visMode := rfl
@[simp] theorem State.withMoveOk_mainPulseDur (s : State) (v : Bool) :
    (s.withMoveOk v).mainPulseDur = s.mainPulseDur := rfl
@[simp] theorem State.withMoveOk_visPulseDur (s : State) (v : Bool) :
    (s.withMoveOk v).visPulseDur = s.visPulseDur := rfl
@[simp] theorem State.withMoveOk_mainPower (s : State) (v : Bool) :
    (s.withMoveOk v).mainPower = s.mainPower := rfl
@[simp] theorem State.withMoveOk_stopDown (s : State) (v : Bool) :
    (s.withMoveOk v).stopDown = s.stopDown := rfl
@[simp] theorem State.withMoveOk_lidOpen (s : State) (v : Bool) :
    (s.withMoveOk v).lidOpen = s.lidOpen := rfl
@[simp] theorem State.withMoveOk_moveOk (s : State) (v : Bool) :
    (s.withMoveOk v).moveOk = v := rfl
@[simp] theorem State.withMoveOk_mainOk (s : State) (v : Bool) :
    (s.withMoveOk v).mainOk = s.mainOk := rfl
@[simp] theorem State.withMoveOk_visOk (s : State) (v : Bool) :
    (s.withMoveOk v).visOk = s.visOk := rfl
@[simp] theorem State.withMoveOk_laserSel (s : State) (v : Bool) :
    (s.withMoveOk v).laserSel = s.laserSel := rfl
@[simp] theorem State.withMoveOk_dbPending (s : State) (v : Bool) :
    (s.withMoveOk v).dbPending = s.dbPending := rfl
@[simp] theorem State.withMoveOk_dbCnt (s : State) (v : Bool) :
    (s.withMoveOk v).dbCnt = s.dbCnt := rfl
@[simp] theorem State.withMoveOk_faultSet (s : State) (v : Bool) :
    (s.withMoveOk v).faultSet = s.faultSet := rfl
@[simp] theorem State.withMoveOk_faultOvr (s : State) (v : Bool) :
    (s.withMoveOk v).faultOvr = s.faultOvr := rfl
@[simp] theorem State.withMoveOk_alert (s : State) (v : Bool) :
    (s.withMoveOk v).alert = s.alert := rfl
@[simp] theorem State.withMoveOk_halted (s : State) (v : Bool) :
    (s.withMoveOk v).halted = s.halted := rfl
@[simp] theorem State.withMoveOk_inp (s : State) (v : Bool) :
    (s.withMoveOk v).inp = s.inp := rfl
@[simp] theorem State.withMoveOk_script (s : State) (v : Bool) :
    (s.withMoveOk v).script = s.script := rfl
@[simp] theorem State.withMoveOk_phase (s : State) (v : Bool) :
    (s.withMoveOk v).phase = s.phase := rfl
@[simp] theorem State.withMoveOk_cur (s : State) (v : Bool) :
    (s.withMoveOk v).cur = s.cur := rfl
@[simp] theorem State.withMoveOk_pending (s : State) (v : Bool) :
    (s.withMoveOk v).pending = s.pending := rfl
@[simp] theorem State.withMoveOk_events (s : State) (v : Bool) :
    (s.withMoveOk v).events = s.events := rfl
@[simp] theorem State.withMoveOk_hostResult (s : State) (v : Bool) :
    (s.withMoveOk v).hostResult = s.hostResult := rfl
@[simp] theorem State.withMoveOk_draws (s : State) (v : Bool) :
    (s.withMoveOk v).draws = s.draws := rfl
@[simp] theorem State.withMoveOk_twice (s : State) (v w : Bool) :
    (s.withMoveOk v).withMoveOk w = s.withMoveOk w := rfl
@[simp] theorem State.withMoveOk_self (s : State) :
    s.withMoveOk s.moveOk = s := rfl

@[simp] theorem State.withMainOk_cfg (s : State) (v : Bool) :
    (s.withMainOk v).cfg = s.cfg := rfl
@[simp] theorem State.withMainOk_q (s : State) (v : Bool) :
    (s.withMainOk v).q = s.q := rfl
@[simp] theorem State.withMainOk_tmr (s : State) (v : Bool) :
    (s.withMainOk v).tmr = s.tmr := rfl
@[simp] theorem State.withMainOk_dir (s : State) (v : Bool) :
    (s.withMainOk v).dir = s.dir := rfl
@[simp] theorem State.withMainOk_stepEn (s : State) (v : Bool) :
    (s.withMainOk v).stepEn = s.stepEn := rfl
@[simp] theorem State.withMainOk_mainMode (s : State) (v : Bool) :
    (s.withMainOk v).mainMode = s.mainMode := rfl
@[simp] theorem State.withMainOk_visMode (s : State) (v : Bool) :
    (s.withMainOk v).visMode = s.visMode := rfl
@[simp] theorem State.withMainOk_mainPulseDur (s : State) (v : Bool) :
    (s.withMainOk v).mainPulseDur = s.mainPulseDur := rfl
@[simp] theorem State.withMainOk_visPulseDur (s : State) (v : Bool) :
    (s.withMainOk v).visPulseDur = s.visPulseDur := rfl
@[simp] theorem State.withMainOk_mainPower (s : State) (v : Bool) :
    (s.withMainOk v).mainPower = s.mainPower := rfl
@[simp] theorem State.withMainOk_stopDown (s : State) (v : Bool) :
    (s.withMainOk v).stopDown = s.stopDown := rfl
@[simp] theorem State.withMainOk_lidOpen (s : State) (v : Bool) :
    (s.withMainOk v).lidOpen = s.lidOpen := rfl
@[simp] theorem State.withMainOk_moveOk (s : State) (v : Bool) :
    (s.withMainOk v).moveOk = s.moveOk := rfl
@[simp] theorem State.withMainOk_mainOk (s : State) (v : Bool) :
    (s.withMainOk v).mainOk = v := rfl
@[simp] theorem State.withMainOk_visOk (s : State) (v : Bool) :
    (s.withMainOk v).visOk = s.visOk := rfl
@[simp] theorem State.withMainOk_laserSel (s : State) (v : Bool) :
    (s.withMainOk v).laserSel = s.laserSel := rfl
@[simp] theorem State.withMainOk_dbPending (s : State) (v : Bool) :
    (s.withMainOk v).dbPending = s.dbPending := rfl
@[simp] theorem State.withMainOk_dbCnt (s : State) (v : Bool) :
    (s.withMainOk v).dbCnt = s.dbCnt := rfl
@[simp] theorem State.withMainOk_faultSet (s : State) (v : Bool) :
    (s.withMainOk v).faultSet = s.faultSet := rfl
@[simp] theorem State.withMainOk_faultOvr (s : State) (v : Bool) :
    (s.withMainOk v).faultOvr = s.faultOvr := rfl
@[simp] theorem State.withMainOk_alert (s : State) (v : Bool) :
    (s.withMainOk v).alert = s.alert := rfl
@[simp] theorem State.withMainOk_halted (s : State) (v : Bool) :
    (s.withMainOk v).halted = s.halted := rfl
@[simp] theorem State.withMainOk_inp (s : State) (v : Bool) :
    (s.withMainOk v).inp = s.inp := rfl
@[simp] theorem State.withMainOk_script (s : State) (v : Bool) :
    (s.withMainOk v).script = s.script := rfl
@[simp] theorem State.withMainOk_phase (s : State) (v : Bool) :
    (s.withMainOk v).phase = s.phase := rfl
@[simp] theorem State.withMainOk_cur (s : State) (v : Bool) :
    (s.withMainOk v).cur = s.cur := rfl
@[simp] theorem State.withMainOk_pending (s : State) (v : Bool) :
    (s.withMainOk v).pending = s.pending := rfl
@[simp] theorem State.withMainOk_events (s : State) (v : Bool) :
    (s.withMainOk v).events = s.events := rfl
@[simp] theorem State.withMainOk_hostResult (s : State) (v : Bool) :
    (s.withMainOk v).hostResult = s.hostResult := rfl
@[simp] theorem State.withMainOk_draws (s : State) (v : Bool) :
    (s.withMainOk v).draws = s.draws := rfl
@[simp] theorem State.withMainOk_twice (s : State) (v w : Bool) :
    (s.withMainOk v).withMainOk w = s.withMainOk w := rfl
@[simp] theorem State.withMainOk_self (s : State) :
    s.withMainOk s.mainOk = s := rfl

@[simp] theorem State.withVisOk_cfg (s : State) (v : Bool) :
    (s.withVisOk v).cfg = s.cfg := rfl
@[simp] theorem State.withVisOk_q (s : State) (v : Bool) :
    (s.withVisOk v).q = s.q := rfl
@[simp] theorem State.withVisOk_tmr (s : State) (v : Bool) :
    (s.withVisOk v).tmr = s.tmr := rfl
@[simp] theorem State.withVisOk_dir (s : State) (v : Bool) :
    (s.withVisOk v).dir = s.dir := rfl
@[simp] theorem State.withVisOk_stepEn (s : State) (v : Bool) :
    (s.withVisOk v).stepEn = s.stepEn := rfl
@[simp] theorem State.withVisOk_mainMode (s : State) (v : Bool) :
    (s.withVisOk v).mainMode = s.mainMode := rfl
@[simp] theorem State.withVisOk_visMode (s : State) (v : Bool) :
    (s.withVisOk v).visMode = s.visMode := rfl
@[simp] theorem State.withVisOk_mainPulseDur (s : State) (v : Bool) :
    (s.withVisOk v).mainPulseDur = s.mainPulseDur := rfl
@[simp] theorem State.withVisOk_visPulseDur (s : State) (v : Bool) :
    (s.withVisOk v).visPulseDur = s.visPulseDur := rfl
@[simp] theorem State.withVisOk_mainPower (s : State) (v : Bool) :
    (s.withVisOk v).mainPower = s.mainPower := rfl
@[simp] theorem State.withVisOk_stopDown (s : State) (v : Bool) :
    (s.withVisOk v).stopDown = s.stopDown := rfl
@[simp] theorem State.withVisOk_lidOpen (s : State) (v : Bool) :
    (s.withVisOk v).lidOpen = s.lidOpen := rfl
@[simp] theorem State.withVisOk_moveOk (s : State) (v : Bool) :
    (s.withVisOk v).moveOk = s.moveOk := rfl
@[simp] theorem State.withVisOk_mainOk (s : State) (v : Bool) :
    (s.withVisOk v).mainOk = s.mainOk := rfl
@[simp] theorem State.withVisOk_visOk (s : State) (v : Bool) :
    (s.withVisOk v).visOk = v := rfl
@[simp] theorem State.withVisOk_laserSel (s : State) (v : Bool) :
    (s.withVisOk v).laserSel = s.laserSel := rfl
@[simp] theorem State.withVisOk_dbPending (s : State) (v : Bool) :
    (s.withVisOk v).dbPending = s.dbPending := rfl
@[simp] theorem State.withVisOk_dbCnt (s : State) (v : Bool) :
    (s.withVisOk v).dbCnt = s.dbCnt := rfl
@[simp] theorem State.withVisOk_faultSet (s : State) (v : Bool) :
    (s.withVisOk v).faultSet = s.faultSet := rfl
@[simp] theorem State.withVisOk_faultOvr (s : State) (v : Bool) :
    (s.withVisOk v).faultOvr = s.faultOvr := rfl
@[simp] theorem State.withVisOk_alert (s : State) (v : Bool) :
    (s.withVisOk v).alert = s.alert := rfl
@[simp] theorem State.withVisOk_halted (s : State) (v : Bool) :
    (s.withVisOk v).halted = s.halted := rfl
@[simp] theorem State.withVisOk_inp (s : State) (v : Bool) :
    (s.withVisOk v).inp = s.inp := rfl
@[simp] theorem State.withVisOk_script (s : State) (v : Bool) :
    (s.withVisOk v).script = s.script := rfl
@[simp] theorem State.withVisOk_phase (s : State) (v : Bool) :
    (s.withVisOk v).phase = s.phase := rfl
@[simp] theorem State.withVisOk_cur (s : State) (v : Bool) :
    (s.withVisOk v).cur = s.cur := rfl
@[simp] theorem State.withVisOk_pending (s : State) (v : Bool) :
    (s.withVisOk v).pending = s.pending := rfl
@[simp] theorem State.withVisOk_events (s : State) (v : Bool) :
    (s.withVisOk v).events = s.events := rfl
@[simp] theorem State.withVisOk_hostResult (s : State) (v : Bool) :
    (s.withVisOk v).hostResult = s.hostResult := rfl
@[simp] theorem State.withVisOk_draws (s : State) (v : Bool) :
    (s.withVisOk v).draws = s.draws := rfl
@[simp] theorem State.withVisOk_twice (s : State) (v w : Bool) :
    (s.withVisOk v).withVisOk w = s.withVisOk w := rfl
@[simp] theorem State.withVisOk_self (s : State) :
    s.withVisOk s.visOk = s := rfl

@[simp] theorem State.withLaserSel_cfg (s : State) (v : LaserSel) :
    (s.withLaserSel v).cfg = s.cfg := rfl
@[simp] theorem State.withLaserSel_q (s : State) (v : LaserSel) :
    (s.withLaserSel v).q = s.q := rfl
@[simp] theorem State.withLaserSel_tmr (s : State) (v : LaserSel) :
    (s.withLaserSel v).tmr = s.tmr := rfl
@[simp] theorem State.withLaserSel_dir (s : State) (v : LaserSel) :
    (s.withLaserSel v).dir = s.dir := rfl
@[simp] theorem State.withLaserSel_stepEn (s : State) (v : LaserSel) :
    (s.withLaserSel v).stepEn = s.stepEn := rfl
@[simp] theorem State.withLaserSel_mainMode (s : State) (v : LaserSel) :
    (s.withLaserSel v).mainMode = s.mainMode := rfl
@[simp] theorem State.withLaserSel_visMode (s : State) (v : LaserSel) :
    (s.withLaserSel v).visMode = s.visMode := rfl
@[simp] theorem State.withLaserSel_mainPulseDur (s : State) (v : LaserSel) :
    (s.withLaserSel v).mainPulseDur = s.mainPulseDur := rfl
@[simp] theorem State.withLaserSel_visPulseDur (s : State) (v : LaserSel) :
    (s.withLaserSel v).visPulseDur = s.visPulseDur := rfl
@[simp] theorem State.withLaserSel_mainPower (s : State) (v : LaserSel) :
    (s.withLaserSel v).mainPower = s.mainPower := rfl
@[simp] theorem State.withLaserSel_stopDown (s : State) (v : LaserSel) :
    (s.withLaserSel v).stopDown = s.stopDown := rfl
@[simp] theorem State.withLaserSel_lidOpen (s : State) (v : LaserSel) :
    (s.withLaserSel v).lidOpen = s.lidOpen := rfl
@[simp] theorem State.withLaserSel_moveOk (s : State) (v : LaserSel) :
    (s.withLaserSel v).moveOk = s.moveOk := rfl
@[simp] theorem State.withLaserSel_mainOk (s : State) (v : LaserSel) :
    (s.withLaserSel v).mainOk = s.mainOk := rfl
@[simp] theorem State.withLaserSel_visOk (s : State) (v : LaserSel) :
    (s.withLaserSel v).visOk = s.visOk := rfl
@[simp] theorem State.withLaserSel_laserSel (s : State) (v : LaserSel) :
    (s.withLaserSel v).laserSel = v := rfl
@[simp] theorem State.withLaserSel_dbPending (s : State) (v : LaserSel) :
    (s.withLaserSel v).dbPending = s.dbPending := rfl
@[simp] theorem State.withLaserSel_dbCnt (s : State) (v : LaserSel) :
    (s.withLaserSel v).dbCnt = s.dbCnt := rfl
@[simp] theorem State.withLaserSel_faultSet (s : State) (v : LaserSel) :
    (s.withLaserSel v).faultSet = s.faultSet := rfl
@[simp] theorem State.withLaserSel_faultOvr (s : State) (v : LaserSel) :
    (s.withLaserSel v).faultOvr = s.faultOvr := rfl
@[simp] theorem State.withLaserSel_alert (s : State) (v : LaserSel) :
    (s.withLaserSel v).alert = s.alert := rfl
@[simp] theorem State.withLaserSel_halted (s : State) (v : LaserSel) :
    (s.withLaserSel v).halted = s.halted := rfl
@[simp] theorem State.withLaserSel_inp (s : State) (v : LaserSel) :
    (s.withLaserSel v).inp = s.inp := rfl
@[simp] theorem State.withLaserSel_script (s : State) (v : LaserSel) :
    (s.withLaserSel v).script = s.script := rfl
@[simp] theorem State.withLaserSel_phase (s : State) (v : LaserSel) :
    (s.withLaserSel v).phase = s.phase := rfl
@[simp] theorem State.withLaserSel_cur (s : State) (v : LaserSel) :
    (s.withLaserSel v).cur = s.cur := rfl
@[simp] theorem State.withLaserSel_pending (s : State) (v : LaserSel) :
    (s.withLaserSel v).pending = s.pending := rfl
@[simp] theorem State.withLaserSel_events (s : State) (v : LaserSel) :
    (s.withLaserSel v).events = s.events := rfl
@[simp] theorem State.withLaserSel_hostResult (s : State) (v : LaserSel) :
    (s.withLaserSel v).hostResult = s.hostResult := rfl
@[simp] theorem State.withLaserSel_draws (s : State) (v : LaserSel) :
    (s.withLaserSel v).draws = s.draws := rfl
@[simp] theorem State.withLaserSel_twice (s : State) (v w : LaserSel) :
    (s.withLaserSel v).withLaserSel w = s.withLaserSel w := rfl
@[simp] theorem State.withLaserSel_self (s : State) :
    s.withLaserSel s.laserSel = s := rfl

@[simp] theorem State.withDbPending_cfg (s : State) (v : Bool) :
    (s.withDbPending v).cfg = s.cfg := rfl
@[simp] theorem State.withDbPending_q (s : State) (v : Bool) :
    (s.withDbPending v).q = s.q := rfl
@[simp] theorem State.withDbPending_tmr (s : State) (v : Bool) :
    (s.withDbPending v).tmr = s.tmr := rfl
@[simp] theorem State.withDbPending_dir (s : State) (v : Bool) :
    (s.withDbPending v).dir = s.dir := rfl
@[simp] theorem State.withDbPending_stepEn (s : State) (v : Bool) :
    (s.withDbPending v).stepEn = s.stepEn := rfl
@[simp] theorem State.withDbPending_mainMode (s : State) (v : Bool) :
    (s.withDbPending v).mainMode = s.mainMode := rfl
@[simp] theorem State.withDbPending_visMode (s : State) (v : Bool) :
    (s.withDbPending v).visMode = s.visMode := rfl
@[simp] theorem State.withDbPending_mainPulseDur (s : State) (v : Bool) :
    (s.withDbPending v).mainPulseDur = s.mainPulseDur := rfl
@[simp] theorem State.withDbPending_visPulseDur (s : State) (v : Bool) :
    (s.withDbPending v).visPulseDur = s.visPulseDur := rfl
@[simp] theorem State.withDbPending_mainPower (s : State) (v : Bool) :
    (s.withDbPending v).mainPower = s.mainPower := rfl
@[simp] theorem State.withDbPending_stopDown (s : State) (v : Bool) :
    (s.withDbPending v).stopDown = s.stopDown := rfl
@[simp] theorem State.withDbPending_lidOpen (s : State) (v : Bool) :
    (s.withDbPending v).lidOpen = s.lidOpen := rfl
@[simp] theorem State.withDbPending_moveOk (s : State) (v : Bool) :
    (s.withDbPending v).moveOk = s.moveOk := rfl
@[simp] theorem State.withDbPending_mainOk (s : State) (v : Bool) :
    (s.withDbPending v).mainOk = s.mainOk := rfl
@[simp] theorem State.withDbPending_visOk (s : State) (v : Bool) :
    (s.withDbPending v).visOk = s.visOk := rfl
@[simp] theorem State.withDbPending_laserSel (s : State) (v : Bool) :
    (s.withDbPending v).laserSel = s.laserSel := rfl
@[simp] theorem State.withDbPending_dbPending (s : State) (v : Bool) :
    (s.withDbPending v).dbPending = v := rfl
@[simp] theorem State.withDbPending_dbCnt (s : State) (v : Bool) :
    (s.withDbPending v).dbCnt = s.dbCnt := rfl
@[simp] theorem State.withDbPending_faultSet (s : State) (v : Bool) :
    (s.withDbPending v).faultSet = s.faultSet := rfl
@[simp] theorem State.withDbPending_faultOvr (s : State) (v : Bool) :
    (s.withDbPending v).faultOvr = s.faultOvr := rfl
@[simp] theorem State.withDbPending_alert (s : State) (v : Bool) :
    (s.withDbPending v).alert = s.alert := rfl
@[simp] theorem State.withDbPending_halted (s : State) (v : Bool) :
    (s.withDbPending v).halted = s.halted := rfl
@[simp] theorem State.withDbPending_inp (s : State) (v : Bool) :
    (s.withDbPending v).inp = s.inp := rfl
@[simp] theorem State.withDbPending_script (s : State) (v : Bool) :
    (s.withDbPending v).script = s.script := rfl
@[simp] theorem State.withDbPending_phase (s : State) (v : Bool) :
    (s.withDbPending v).phase = s.phase := rfl
@[simp] theorem State.withDbPending_cur (s : State) (v : Bool) :
    (s.withDbPending v).cur = s.cur := rfl
@[simp] theorem State.withDbPending_pending (s : State) (v : Bool) :
    (s.withDbPending v).pending = s.pending := rfl
@[simp] theorem State.withDbPending_events (s : State) (v : Bool) :
    (s.withDbPending v).events = s.events := rfl
@[simp] theorem State.withDbPending_hostResult (s : State) (v : Bool) :
    (s.withDbPending v).hostResult = s.hostResult := rfl
@[simp] theorem State.withDbPending_draws (s : State) (v : Bool) :
    (s.withDbPending v).draws = s.draws := rfl
@[simp] theorem State.withDbPending_twice (s : State) (v w : Bool) :
    (s.withDbPending v).withDbPending w = s.withDbPending w := rfl
@[simp] theorem State.withDbPending_self (s : State) :
    s.withDbPending s.dbPending = s := rfl

@[simp] theorem State.withDbCnt_cfg (s : State) (v : Nat) :
    (s.withDbCnt v).cfg = s.cfg := rfl
@[simp] theorem State.withDbCnt_q (s : State) (v : Nat) :
    (s.withDbCnt v).q = s.q := rfl
@[simp] theorem State.withDbCnt_tmr (s : State) (v : Nat) :
    (s.withDbCnt v).tmr = s.tmr := rfl
@[simp] theorem State.withDbCnt_dir (s : State) (v : Nat) :
    (s.withDbCnt v).dir = s.dir := rfl
@[simp] theorem State.withDbCnt_stepEn (s : State) (v : Nat) :
    (s.withDbCnt v).stepEn = s.stepEn := rfl
@[simp] theorem State.withDbCnt_mainMode (s : State) (v : Nat) :
    (s.withDbCnt v).mainMode = s.mainMode := rfl
@[simp] theorem State.withDbCnt_visMode (s : State) (v : Nat) :
    (s.withDbCnt v).visMode = s.visMode := rfl
@[simp] theorem State.withDbCnt_mainPulseDur (s : State) (v : Nat) :
    (s.withDbCnt v).mainPulseDur = s.mainPulseDur := rfl
@[simp] theorem State.withDbCnt_visPulseDur (s : State) (v : Nat) :
    (s.withDbCnt v).visPulseDur = s.visPulseDur := rfl
@[simp] theorem State.withDbCnt_mainPower (s : State) (v : Nat) :
    (s.withDbCnt v).mainPower = s.mainPower := rfl
@[simp] theorem State.withDbCnt_stopDown (s : State) (v : Nat) :
    (s.withDbCnt v).stopDown = s.stopDown := rfl
@[simp] theorem State.withDbCnt_lidOpen (s : State) (v : Nat) :
    (s.withDbCnt v).lidOpen = s.lidOpen := rfl
@[simp] theorem State.withDbCnt_moveOk (s : State) (v : Nat) :
    (s.withDbCnt v).moveOk = s.moveOk := rfl
@[simp] theorem State.withDbCnt_mainOk (s : State) (v : Nat) :
    (s.withDbCnt v).mainOk = s.mainOk := rfl
@[simp] theorem State.withDbCnt_visOk (s : State) (v : Nat) :
    (s.withDbCnt v).visOk = s.visOk := rfl
@[simp] theorem State.withDbCnt_laserSel (s : State) (v : Nat) :
    (s.withDbCnt v).laserSel = s.laserSel := rfl
@[simp] theorem State.withDbCnt_dbPending (s : State) (v : Nat) :
    (s.withDbCnt v).dbPending = s.dbPending := rfl
@[simp] theorem State.withDbCnt_dbCnt (s : State) (v : Nat) :
    (s.withDbCnt v).dbCnt = v := rfl
@[simp] theorem State.withDbCnt_faultSet (s : State) (v : Nat) :
    (s.withDbCnt v).faultSet = s.faultSet := rfl
@[simp] theorem State.withDbCnt_faultOvr (s : State) (v : Nat) :
    (s.withDbCnt v).faultOvr = s.faultOvr := rfl
@[simp] theorem State.withDbCnt_alert (s : State) (v : Nat) :
    (s.withDbCnt v).alert = s.alert := rfl
@[simp] theorem State.withDbCnt_halted (s : State) (v : Nat) :
    (s.withDbCnt v).halted = s.halted := rfl
@[simp] theorem State.withDbCnt_inp (s : State) (v : Nat) :
    (s.withDbCnt v).inp = s.inp := rfl
@[simp] theorem State.withDbCnt_script (s : State) (v : Nat) :
    (s.withDbCnt v).script = s.script := rfl
@[simp] theorem State.withDbCnt_phase (s : State) (v : Nat) :
    (s.withDbCnt v).phase = s.phase := rfl
@[simp] theorem State.withDbCnt_cur (s : State) (v : Nat) :
    (s.withDbCnt v).cur = s.cur := rfl
@[simp] theorem State.withDbCnt_pending (s : State) (v : Nat) :
    (s.withDbCnt v).pending = s.pending := rfl
@[simp] theorem State.withDbCnt_events (s : State) (v : Nat) :
    (s.withDbCnt v).events = s.events := rfl
@[simp] theorem State.withDbCnt_hostResult (s : State) (v : Nat) :
    (s.withDbCnt v).hostResult = s.hostResult := rfl
@[simp] theorem State.withDbCnt_draws (s : State) (v : Nat) :
    (s.withDbCnt v).draws = s.draws := rfl
@[simp] theorem State.withDbCnt_twice (s : State) (v w : Nat) :
    (s.withDbCnt v).withDbCnt w = s.withDbCnt w := rfl
@[simp] theorem State.withDbCnt_self (s : State) :
    s.withDbCnt s.dbCnt = s := rfl

@[simp] theorem State.withFaultSet_cfg (s : State) (v : Vector Bool 16) :
    (s.withFaultSet v).cfg = s.cfg := rfl
@[simp] theorem State.withFaultSet_q (s : State) (v : Vector Bool 16) :
    (s.withFaultSet v).q = s.q := rfl
@[simp] theorem State.withFaultSet_tmr (s : State) (v : Vector Bool 16) :
    (s.withFaultSet v).tmr = s.tmr := rfl
@[simp] theorem State.withFaultSet_dir (s : State) (v : Vector Bool 16) :
    (s.withFaultSet v).dir = s.dir := rfl
@[simp] theorem State.withFaultSet_stepEn (s : State) (v : Vector Bool 16) :
    (s.withFaultSet v).stepEn = s.stepEn := rfl
@[simp] theorem State.withFaultSet_mainMode (s : State) (v : Vector Bool 16) :
    (s.withFaultSet v).mainMode = s.mainMode := rfl
@[simp] theorem State.withFaultSet_visMode (s : State) (v : Vector Bool 16) :
    (s.withFaultSet v).visMode = s.visMode := rfl
@[simp] theorem State.withFaultSet_mainPulseDur (s : State) (v : Vector Bool 16) :
    (s.withFaultSet v).mainPulseDur = s.mainPulseDur := rfl
@[simp] theorem State.withFaultSet_visPulseDur (s : State) (v : Vector Bool 16) :
    (s.withFaultSet v).visPulseDur = s.visPulseDur := rfl
@[simp] theorem State.withFaultSet_mainPower (s : State) (v : Vector Bool 16) :
    (s.withFaultSet v).mainPower = s.mainPower := rfl
@[simp] theorem State.withFaultSet_stopDown (s : State) (v : Vector Bool 16) :
    (s.withFaultSet v).stopDown = s.stopDown := rfl
@[simp] theorem State.withFaultSet_lidOpen (s : State) (v : Vector Bool 16) :
    (s.withFaultSet v).lidOpen = s.lidOpen := rfl
@[simp] theorem State.withFaultSet_moveOk (s : State) (v : Vector Bool 16) :
    (s.withFaultSet v).moveOk = s.moveOk := rfl
@[simp] theorem State.withFaultSet_mainOk (s : State) (v : Vector Bool 16) :
    (s.withFaultSet v).mainOk = s.mainOk := rfl
@[simp] theorem State.withFaultSet_visOk (s : State) (v : Vector Bool 16) :
    (s.withFaultSet v).visOk = s.visOk := rfl
@[simp] theorem State.withFaultSet_laserSel (s : State) (v : Vector Bool 16) :
    (s.withFaultSet v).laserSel = s.laserSel := rfl
@[simp] theorem State.withFaultSet_dbPending (s : State) (v : Vector Bool 16) :
    (s.withFaultSet v).dbPending = s.dbPending := rfl
@[simp] theorem State.withFaultSet_dbCnt (s : State) (v : Vector Bool 16) :
    (s.withFaultSet v).dbCnt = s.dbCnt := rfl
@[simp] theorem State.withFaultSet_faultSet (s : State) (v : Vector Bool 16) :
    (s.withFaultSet v).faultSet = v := rfl
@[simp] theorem State.withFaultSet_faultOvr (s : State) (v : Vector Bool 16) :
    (s.withFaultSet v).faultOvr = s.faultOvr := rfl
@[simp] theorem State.withFaultSet_alert (s : State) (v : Vector Bool 16) :
    (s.withFaultSet v).alert = s.alert := rfl
@[simp] theorem State.withFaultSet_halted (s : State) (v : Vector Bool 16) :
    (s.withFaultSet v).halted = s.halted := rfl
@[simp] theorem State.withFaultSet_inp (s : State) (v : Vector Bool 16) :
    (s.withFaultSet v).inp = s.inp := rfl
@[simp] theorem State.withFaultSet_script (s : State) (v : Vector Bool 16) :
    (s.withFaultSet v).script = s.script := rfl
@[simp] theorem State.withFaultSet_phase (s : State) (v : Vector Bool 16) :
    (s.withFaultSet v).phase = s.phase := rfl
@[simp] theorem State.withFaultSet_cur (s : State) (v : Vector Bool 16) :
    (s.withFaultSet v).cur = s.cur := rfl
@[simp] theorem State.withFaultSet_pending (s : State) (v : Vector Bool 16) :
    (s.withFaultSet v).pending = s.pending := rfl
@[simp] theorem State.withFaultSet_events (s : State) (v : Vector Bool 16) :
    (s.withFaultSet v).events = s.events := rfl
@[simp] theorem State.withFaultSet_hostResult (s : State) (v : Vector Bool 16) :
    (s.withFaultSet v).hostResult = s.hostResult := rfl
@[simp] theorem State.withFaultSet_draws (s : State) (v : Vector Bool 16) :
    (s.withFaultSet v).draws = s.draws := rfl
@[simp] theorem State.withFaultSet_twice (s : State) (v w : Vector Bool 16) :
    (s.withFaultSet v).withFaultSet w = s.withFaultSet w := rfl
@[simp] theorem State.withFaultSet_self (s : State) :
    s.withFaultSet s.faultSet = s := rfl

@[simp] theorem State.withFaultOvr_cfg (s : State) (v : Vector Bool 16) :
    (s.withFaultOvr v).cfg = s.cfg := rfl
@[simp] theorem State.withFaultOvr_q (s : State) (v : Vector Bool 16) :
    (s.withFaultOvr v).q = s.q := rfl
@[simp] theorem State.withFaultOvr_tmr (s : State) (v : Vector Bool 16) :
    (s.withFaultOvr v).tmr = s.tmr := rfl
@[simp] theorem State.withFaultOvr_dir (s : State) (v : Vector Bool 16) :
    (s.withFaultOvr v).dir = s.dir := rfl
@[simp] theorem State.withFaultOvr_stepEn (s : State) (v : Vector Bool 16) :
    (s.withFaultOvr v).stepEn = s.stepEn := rfl
@[simp] theorem State.withFaultOvr_mainMode (s : State) (v : Vector Bool 16) :
    (s.withFaultOvr v).mainMode = s.mainMode := rfl
@[simp] theorem State.withFaultOvr_visMode (s : State) (v : Vector Bool 16) :
    (s.withFaultOvr v).visMode = s.visMode := rfl
@[simp] theorem State.withFaultOvr_mainPulseDur (s : State) (v : Vector Bool 16) :
    (s.withFaultOvr v).mainPulseDur = s.mainPulseDur := rfl
@[simp] theorem State.withFaultOvr_visPulseDur (s : State) (v : Vector Bool 16) :
    (s.withFaultOvr v).visPulseDur = s.visPulseDur := rfl
@[simp] theorem State.withFaultOvr_mainPower (s : State) (v : Vector Bool 16) :
    (s.withFaultOvr v).mainPower = s.mainPower := rfl
@[simp] theorem State.withFaultOvr_stopDown (s : State) (v : Vector Bool 16) :
    (s.withFaultOvr v).stopDown = s.stopDown := rfl
@[simp] theorem State.withFaultOvr_lidOpen (s : State) (v : Vector Bool 16) :
    (s.withFaultOvr v).lidOpen = s.lidOpen := rfl
@[simp] theorem State.withFaultOvr_moveOk (s : State) (v : Vector Bool 16) :
    (s.withFaultOvr v).moveOk = s.moveOk := rfl
@[simp] theorem State.withFaultOvr_mainOk (s : State) (v : Vector Bool 16) :
    (s.withFaultOvr v).mainOk = s.mainOk := rfl
@[simp] theorem State.withFaultOvr_visOk (s : State) (v : Vector Bool 16) :
    (s.withFaultOvr v).visOk = s.visOk := rfl
@[simp] theorem State.withFaultOvr_laserSel (s : State) (v : Vector Bool 16) :
    (s.withFaultOvr v).laserSel = s.laserSel := rfl
@[simp] theorem State.withFaultOvr_dbPending (s : State) (v : Vector Bool 16) :
    (s.withFaultOvr v).dbPending = s.dbPending := rfl
@[simp] theorem State.withFaultOvr_dbCnt (s : State) (v : Vector Bool 16) :
    (s.withFaultOvr v).dbCnt = s.dbCnt := rfl
@[simp] theorem State.withFaultOvr_faultSet (s : State) (v : Vector Bool 16) :
    (s.withFaultOvr v).faultSet = s.faultSet := rfl
@[simp] theorem State.withFaultOvr_faultOvr (s : State) (v : Vector Bool 16) :
    (s.withFaultOvr v).faultOvr = v := rfl
@[simp] theorem State.withFaultOvr_alert (s : State) (v : Vector Bool 16) :
    (s.withFaultOvr v).alert = s.alert := rfl
@[simp] theorem State.withFaultOvr_halted (s : State) (v : Vector Bool 16) :
    (s.withFaultOvr v).halted = s.halted := rfl
@[simp] theorem State.withFaultOvr_inp (s : State) (v : Vector Bool 16) :
    (s.withFaultOvr v).inp = s.inp := rfl
@[simp] theorem State.withFaultOvr_script (s : State) (v : Vector Bool 16) :
    (s.withFaultOvr v).script = s.script := rfl
@[simp] theorem State.withFaultOvr_phase (s : State) (v : Vector Bool 16) :
    (s.withFaultOvr v).phase = s.phase := rfl
@[simp] theorem State.withFaultOvr_cur (s : State) (v : Vector Bool 16) :
    (s.withFaultOvr v).cur = s.cur := rfl
@[simp] theorem State.withFaultOvr_pending (s : State) (v : Vector Bool 16) :
    (s.withFaultOvr v).pending = s.pending := rfl
@[simp] theorem State.withFaultOvr_events (s : State) (v : Vector Bool 16) :
    (s.withFaultOvr v).events = s.events := rfl
@[simp] theorem State.withFaultOvr_hostResult (s : State) (v : Vector Bool 16) :
    (s.withFaultOvr v).hostResult = s.hostResult := rfl
@[simp] theorem State.withFaultOvr_draws (s : State) (v : Vector Bool 16) :
    (s.withFaultOvr v).draws = s.draws := rfl
@[simp] theorem State.withFaultOvr_twice (s : State) (v w : Vector Bool 16) :
    (s.withFaultOvr v).withFaultOvr w = s.withFaultOvr w := rfl
@[simp] theorem State.withFaultOvr_self (s : State) :
    s.withFaultOvr s.faultOvr = s := rfl

@[simp] theorem State.withAlert_cfg (s : State) (v : Bool) :
    (s.withAlert v).cfg = s.cfg := rfl
@[simp] theorem State.withAlert_q (s : State) (v : Bool) :
    (s.withAlert v).q = s.q := rfl
@[simp] theorem State.withAlert_tmr (s : State) (v : Bool) :
    (s.withAlert v).tmr = s.tmr := rfl
@[simp] theorem State.withAlert_dir (s : State) (v : Bool) :
    (s.withAlert v).dir = s.dir := rfl
@[simp] theorem State.withAlert_stepEn (s : State) (v : Bool) :
    (s.withAlert v).stepEn = s.stepEn := rfl
@[simp] theorem State.withAlert_mainMode (s : State) (v : Bool) :
    (s.withAlert v).mainMode = s.mainMode := rfl
@[simp] theorem State.withAlert_visMode (s : State) (v : Bool) :
    (s.withAlert v).visMode = s.visMode := rfl
@[simp] theorem State.withAlert_mainPulseDur (s : State) (v : Bool) :
    (s.withAlert v).mainPulseDur = s.mainPulseDur := rfl
@[simp] theorem State.withAlert_visPulseDur (s : State) (v : Bool) :
    (s.withAlert v).visPulseDur = s.visPulseDur := rfl
@[simp] theorem State.withAlert_mainPower (s : State) (v : Bool) :
    (s.withAlert v).mainPower = s.mainPower := rfl
@[simp] theorem State.withAlert_stopDown (s : State) (v : Bool) :
    (s.withAlert v).stopDown = s.stopDown := rfl
@[simp] theorem State.withAlert_lidOpen (s : State) (v : Bool) :
    (s.withAlert v).lidOpen = s.lidOpen := rfl
@[simp] theorem State.withAlert_moveOk (s : State) (v : Bool) :
    (s.withAlert v).moveOk = s.moveOk := rfl
@[simp] theorem State.withAlert_mainOk (s : State) (v : Bool) :
    (s.withAlert v).mainOk = s.mainOk := rfl
@[simp] theorem State.withAlert_visOk (s : State) (v : Bool) :
    (s.withAlert v).visOk = s.visOk := rfl
@[simp] theorem State.withAlert_laserSel (s : State) (v : Bool) :
    (s.withAlert v).laserSel = s.laserSel := rfl
@[simp] theorem State.withAlert_dbPending (s : State) (v : Bool) :
    (s.withAlert v).dbPending = s.dbPending := rfl
@[simp] theorem State.withAlert_dbCnt (s : State) (v : Bool) :
    (s.withAlert v).dbCnt = s.dbCnt := rfl
@[simp] theorem State.withAlert_faultSet (s : State) (v : Bool) :
    (s.withAlert v).faultSet = s.faultSet := rfl
@[simp] theorem State.withAlert_faultOvr (s : State) (v : Bool) :
    (s.withAlert v).faultOvr = s.faultOvr := rfl
@[simp] theorem State.withAlert_alert (s : State) (v : Bool) :
    (s.withAlert v).alert = v := rfl
@[simp] theorem State.withAlert_halted (s : State) (v : Bool) :
    (s.withAlert v).halted = s.halted := rfl
@[simp] theorem State.withAlert_inp (s : State) (v : Bool) :
    (s.withAlert v).inp = s.inp := rfl
@[simp] theorem State.withAlert_script (s : State) (v : Bool) :
    (s.withAlert v).script = s.script := rfl
@[simp] theorem State.withAlert_phase (s : State) (v : Bool) :
    (s.withAlert v).phase = s.phase := rfl
@[simp] theorem State.withAlert_cur (s : State) (v : Bool) :
    (s.withAlert v).cur = s.cur := rfl
@[simp] theorem State.withAlert_pending (s : State) (v : Bool) :
    (s.withAlert v).pending = s.pending := rfl
@[simp] theorem State.withAlert_events (s : State) (v : Bool) :
    (s.withAlert v).events = s.events := rfl
@[simp] theorem State.withAlert_hostResult (s : State) (v : Bool) :
    (s.withAlert v).hostResult = s.hostResult := rfl
@[simp] theorem State.withAlert_draws (s : State) (v : Bool) :
    (s.withAlert v).draws = s.draws := rfl
@[simp] theorem State.withAlert_twice (s : State) (v w : Bool) :
    (s.withAlert v).withAlert w = s.withAlert w := rfl
@[simp] theorem State.withAlert_self (s : State) :
    s.withAlert s.alert = s := rfl

@[simp] theorem State.withHalted_cfg (s : State) (v : Bool) :
    (s.withHalted v).cfg = s.cfg := rfl
@[simp] theorem State.withHalted_q (s : State) (v : Bool) :
    (s.withHalted v).q = s.q := rfl
@[simp] theorem State.withHalted_tmr (s : State) (v : Bool) :
    (s.withHalted v).tmr = s.tmr := rfl
@[simp] theorem State.withHalted_dir (s : State) (v : Bool) :
    (s.withHalted v).dir = s.dir := rfl
@[simp] theorem State.withHalted_stepEn (s : State) (v : Bool) :
    (s.withHalted v).stepEn = s.stepEn := rfl
@[simp] theorem State.withHalted_mainMode (s : State) (v : Bool) :
    (s.withHalted v).mainMode = s.mainMode := rfl
@[simp] theorem State.withHalted_visMode (s : State) (v : Bool) :
    (s.withHalted v).visMode = s.visMode := rfl
@[simp] theorem State.withHalted_mainPulseDur (s : State) (v : Bool) :
    (s.withHalted v).mainPulseDur = s.mainPulseDur := rfl
@[simp] theorem State.withHalted_visPulseDur (s : State) (v : Bool) :
    (s.withHalted v).visPulseDur = s.visPulseDur := rfl
@[simp] theorem State.withHalted_mainPower (s : State) (v : Bool) :
    (s.withHalted v).mainPower = s.mainPower := rfl
@[simp] theorem State.withHalted_stopDown (s : State) (v : Bool) :
    (s.withHalted v).stopDown = s.stopDown := rfl
@[simp] theorem State.withHalted_lidOpen (s : State) (v : Bool) :
    (s.withHalted v).lidOpen = s.lidOpen := rfl
@[simp] theorem State.withHalted_moveOk (s : State) (v : Bool) :
    (s.withHalted v).moveOk = s.moveOk := rfl
@[simp] theorem State.withHalted_mainOk (s : State) (v : Bool) :
    (s.withHalted v).mainOk = s.mainOk := rfl
@[simp] theorem State.withHalted_visOk (s : State) (v : Bool) :
    (s.withHalted v).visOk = s.visOk := rfl
@[simp] theorem State.withHalted_laserSel (s : State) (v : Bool) :
    (s.withHalted v).laserSel = s.laserSel := rfl
@[simp] theorem State.withHalted_dbPending (s : State) (v : Bool) :
    (s.withHalted v).dbPending = s.dbPending := rfl
@[simp] theorem State.withHalted_dbCnt (s : State) (v : Bool) :
    (s.withHalted v).dbCnt = s.dbCnt := rfl
@[simp] theorem State.withHalted_faultSet (s : State) (v : Bool) :
    (s.withHalted v).faultSet = s.faultSet := rfl
@[simp] theorem State.withHalted_faultOvr (s : State) (v : Bool) :
    (s.withHalted v).faultOvr = s.faultOvr := rfl
@[simp] theorem State.withHalted_alert (s : State) (v : Bool) :
    (s.withHalted v).alert = s.alert := rfl
@[simp] theorem State.withHalted_halted (s : State) (v : Bool) :
    (s.withHalted v).halted = v := rfl
@[simp] theorem State.withHalted_inp (s : State) (v : Bool) :
    (s.withHalted v).inp = s.inp := rfl
@[simp] theorem State.withHalted_script (s : State) (v : Bool) :
    (s.withHalted v).script = s.script := rfl
@[simp] theorem State.withHalted_phase (s : State) (v : Bool) :
    (s.withHalted v).phase = s.phase := rfl
@[simp] theorem State.withHalted_cur (s : State) (v : Bool) :
    (s.withHalted v).cur = s.cur := rfl
@[simp] theorem State.withHalted_pending (s : State) (v : Bool) :
    (s.withHalted v).pending = s.pending := rfl
@[simp] theorem State.withHalted_events (s : State) (v : Bool) :
    (s.withHalted v).events = s.events := rfl
@[simp] theorem State.withHalted_hostResult (s : State) (v : Bool) :
    (s.withHalted v).hostResult = s.hostResult := rfl
@[simp] theorem State.withHalted_draws (s : State) (v : Bool) :
    (s.withHalted v).draws = s.draws := rfl
@[simp] theorem State.withHalted_twice (s : State) (v w : Bool) :
    (s.withHalted v).withHalted w = s.withHalted w := rfl
@[simp] theorem State.withHalted_self (s : State) :
    s.withHalted s.halted = s := rfl

@[simp] theorem State.withInp_cfg (s : State) (v : Inputs) :
    (s.withInp v).cfg = s.cfg := rfl
@[simp] theorem State.withInp_q (s : State) (v : Inputs) :
    (s.withInp v).q = s.q := rfl
@[simp] theorem State.withInp_tmr (s : State) (v : Inputs) :
    (s.withInp v).tmr = s.tmr := rfl
@[simp] theorem State.withInp_dir (s : State) (v : Inputs) :
    (s.withInp v).dir = s.dir := rfl
@[simp] theorem State.withInp_stepEn (s : State) (v : Inputs) :
    (s.withInp v).stepEn = s.stepEn := rfl
@[simp] theorem State.withInp_mainMode (s : State) (v : Inputs) :
    (s.withInp v).mainMode = s.mainMode := rfl
@[simp] theorem State.withInp_visMode (s : State) (v : Inputs) :
    (s.withInp v).visMode = s.visMode := rfl
@[simp] theorem State.withInp_mainPulseDur (s : State) (v : Inputs) :
    (s.withInp v).mainPulseDur = s.mainPulseDur := rfl
@[simp] theorem State.withInp_visPulseDur (s : State) (v : Inputs) :
    (s.withInp v).visPulseDur = s.visPulseDur := rfl
@[simp] theorem State.withInp_mainPower (s : State) (v : Inputs) :
    (s.withInp v).mainPower = s.mainPower := rfl
@[simp] theorem State.withInp_stopDown (s : State) (v : Inputs) :
    (s.withInp v).stopDown = s.stopDown := rfl
@[simp] theorem State.withInp_lidOpen (s : State) (v : Inputs) :
    (s.withInp v).lidOpen = s.lidOpen := rfl
@[simp] theorem State.withInp_moveOk (s : State) (v : Inputs) :
    (s.withInp v).moveOk = s.moveOk := rfl
@[simp] theorem State.withInp_mainOk (s : State) (v : Inputs) :
    (s.withInp v).mainOk = s.mainOk := rfl
@[simp] theorem State.withInp_visOk (s : State) (v : Inputs) :
    (s.withInp v).visOk = s.visOk := rfl
@[simp] theorem State.withInp_laserSel (s : State) (v : Inputs) :
    (s.withInp v).laserSel = s.laserSel := rfl
@[simp] theorem State.withInp_dbPending (s : State) (v : Inputs) :
    (s.withInp v).dbPending = s.dbPending := rfl
@[simp] theorem State.withInp_dbCnt (s : State) (v : Inputs) :
    (s.withInp v).dbCnt = s.dbCnt := rfl
@[simp] theorem State.withInp_faultSet (s : State) (v : Inputs) :
    (s.withInp v).faultSet = s.faultSet := rfl
@[simp] theorem State.withInp_faultOvr (s : State) (v : Inputs) :
    (s.withInp v).faultOvr = s.faultOvr := rfl
@[simp] theorem State.withInp_alert (s : State) (v : Inputs) :
    (s.withInp v).alert = s.alert := rfl
@[simp] theorem State.withInp_halted (s : State) (v : Inputs) :
    (s.withInp v).halted = s.halted := rfl
@[simp] theorem State.withInp_inp (s : State) (v : Inputs) :
    (s.withInp v).inp = v := rfl
@[simp] theorem State.withInp_script (s : State) (v : Inputs) :
    (s.withInp v).script = s.script := rfl
@[simp] theorem State.withInp_phase (s : State) (v : Inputs) :
    (s.withInp v).phase = s.phase := rfl
@[simp] theorem State.withInp_cur (s : State) (v : Inputs) :
    (s.withInp v).cur = s.cur := rfl
@[simp] theorem State.withInp_pending (s : State) (v : Inputs) :
    (s.withInp v).pending = s.pending := rfl
@[simp] theorem State.withInp_events (s : State) (v : Inputs) :
    (s.withInp v).events = s.events := rfl
@[simp] theorem State.withInp_hostResult (s : State) (v : Inputs) :
    (s.withInp v).hostResult = s.hostResult := rfl
@[simp] theorem State.withInp_draws (s : State) (v : Inputs) :
    (s.withInp v).draws = s.draws := rfl
@[simp] theorem State.withInp_twice (s : State) (v w : Inputs) :
    (s.withInp v).withInp w = s.withInp w := rfl
@[simp] theorem State.withInp_self (s : State) :
    s.withInp s.inp = s := rfl

@[simp] theorem State.withScript_cfg (s : State) (v : List Event) :
    (s.withScript v).cfg = s.cfg := rfl
@[simp] theorem State.withScript_q (s : State) (v : List Event) :
    (s.withScript v).q = s.q := rfl
@[simp] theorem State.withScript_tmr (s : State) (v : List Event) :
    (s.withScript v).tmr = s.tmr := rfl
@[simp] theorem State.withScript_dir (s : State) (v : List Event) :
    (s.withScript v).dir = s.dir := rfl
@[simp] theorem State.withScript_stepEn (s : State) (v : List Event) :
    (s.withScript v).stepEn = s.stepEn := rfl
@[simp] theorem State.withScript_mainMode (s : State) (v : List Event) :
    (s.withScript v).mainMode = s.mainMode := rfl
@[simp] theorem State.withScript_visMode (s : State) (v : List Event) :
    (s.withScript v).visMode = s.visMode := rfl
@[simp] theorem State.withScript_mainPulseDur (s : State) (v : List Event) :
    (s.withScript v).mainPulseDur = s.mainPulseDur := rfl
@[simp] theorem State.withScript_visPulseDur (s : State) (v : List Event) :
    (s.withScript v).visPulseDur = s.visPulseDur := rfl
@[simp] theorem State.withScript_mainPower (s : State) (v : List Event) :
    (s.withScript v).mainPower = s.mainPower := rfl
@[simp] theorem State.withScript_stopDown (s : State) (v : List Event) :
    (s.withScript v).stopDown = s.stopDown := rfl
@[simp] theorem State.withScript_lidOpen (s : State) (v : List Event) :
    (s.withScript v).lidOpen = s.lidOpen := rfl
@[simp] theorem State.withScript_moveOk (s : State) (v : List Event) :
    (s.withScript v).moveOk = s.moveOk := rfl
@[simp] theorem State.withScript_mainOk (s : State) (v : List Event) :
    (s.withScript v).mainOk = s.mainOk := rfl
@[simp] theorem State.withScript_visOk (s : State) (v : List Event) :
    (s.withScript v).visOk = s.visOk := rfl
@[simp] theorem State.withScript_laserSel (s : State) (v : List Event) :
    (s.withScript v).laserSel = s.laserSel := rfl
@[simp] theorem State.withScript_dbPending (s : State) (v : List Event) :
    (s.withScript v).dbPending = s.dbPending := rfl
@[simp] theorem State.withScript_dbCnt (s : State) (v : List Event) :
    (s.withScript v).dbCnt = s.dbCnt := rfl
@[simp] theorem State.withScript_faultSet (s : State) (v : List Event) :
    (s.withScript v).faultSet = s.faultSet := rfl
@[simp] theorem State.withScript_faultOvr (s : State) (v : List Event) :
    (s.withScript v).faultOvr = s.faultOvr := rfl
@[simp] theorem State.withScript_alert (s : State) (v : List Event) :
    (s.withScript v).alert = s.alert := rfl
@[simp] theorem State.withScript_halted (s : State) (v : List Event) :
    (s.withScript v).halted = s.halted := rfl
@[simp] theorem State.withScript_inp (s : State) (v : List Event) :
    (s.withScript v).inp = s.inp := rfl
@[simp] theorem State.withScript_script (s : State) (v : List Event) :
    (s.withScript v).script = v := rfl
@[simp] theorem State.withScript_phase (s : State) (v : List Event) :
    (s.withScript v).phase = s.phase := rfl
@[simp] theorem State.withScript_cur (s : State) (v : List Event) :
    (s.withScript v).cur = s.cur := rfl
@[simp] theorem State.withScript_pending (s : State) (v : List Event) :
    (s.withScript v).pending = s.pending := rfl
@[simp] theorem State.withScript_events (s : State) (v : List Event) :
    (s.withScript v).events = s.events := rfl
@[simp] theorem State.withScript_hostResult (s : State) (v : List Event) :
    (s.withScript v).hostResult = s.hostResult := rfl
@[simp] theorem State.withScript_draws (s : State) (v : List Event) :
    (s.withScript v).draws = s.draws := rfl
@[simp] theorem State.withScript_twice (s : State) (v w : List Event) :
    (s.withScript v).withScript w = s.withScript w := rfl
@[simp] theorem State.withScript_self (s : State) :
    s.withScript s.script = s := rfl

@[simp] theorem State.withPhase_cfg (s : State) (v : Phase) :
    (s.withPhase v).cfg = s.cfg := rfl
@[simp] theorem State.withPhase_q (s : State) (v : Phase) :
    (s.withPhase v).q = s.q := rfl
@[simp] theorem State.withPhase_tmr (s : State) (v : Phase) :
    (s.withPhase v).tmr = s.tmr := rfl
@[simp] theorem State.withPhase_dir (s : State) (v : Phase) :
    (s.withPhase v).dir = s.dir := rfl
@[simp] theorem State.withPhase_stepEn (s : State) (v : Phase) :
    (s.withPhase v).stepEn = s.stepEn := rfl
@[simp] theorem State.withPhase_mainMode (s : State) (v : Phase) :
    (s.withPhase v).mainMode = s.mainMode := rfl
@[simp] theorem State.withPhase_visMode (s : State) (v : Phase) :
    (s.withPhase v).visMode = s.visMode := rfl
@[simp] theorem State.withPhase_mainPulseDur (s : State) (v : Phase) :
    (s.withPhase v).mainPulseDur = s.mainPulseDur := rfl
@[simp] theorem State.withPhase_visPulseDur (s : State) (v : Phase) :
    (s.withPhase v).visPulseDur = s.visPulseDur := rfl
@[simp] theorem State.withPhase_mainPower (s : State) (v : Phase) :
    (s.withPhase v).mainPower = s.mainPower := rfl
@[simp] theorem State.withPhase_stopDown (s : State) (v : Phase) :
    (s.withPhase v).stopDown = s.stopDown := rfl
@[simp] theorem State.withPhase_lidOpen (s : State) (v : Phase) :
    (s.withPhase v).lidOpen = s.lidOpen := rfl
@[simp] theorem State.withPhase_moveOk (s : State) (v : Phase) :
    (s.withPhase v).moveOk = s.moveOk := rfl
@[simp] theorem State.withPhase_mainOk (s : State) (v : Phase) :
    (s.withPhase v).mainOk = s.mainOk := rfl
@[simp] theorem State.withPhase_visOk (s : State) (v : Phase) :
    (s.withPhase v).visOk = s.visOk := rfl
@[simp] theorem State.withPhase_laserSel (s : State) (v : Phase) :
    (s.withPhase v).laserSel = s.laserSel := rfl
@[simp] theorem State.withPhase_dbPending (s : State) (v : Phase) :
    (s.withPhase v).dbPending = s.dbPending := rfl
@[simp] theorem State.withPhase_dbCnt (s : State) (v : Phase) :
    (s.withPhase v).dbCnt = s.dbCnt := rfl
@[simp] theorem State.withPhase_faultSet (s : State) (v : Phase) :
    (s.withPhase v).faultSet = s.faultSet := rfl
@[simp] theorem State.withPhase_faultOvr (s : State) (v : Phase) :
    (s.withPhase v).faultOvr = s.faultOvr := rfl
@[simp] theorem State.withPhase_alert (s : State) (v : Phase) :
    (s.withPhase v).alert = s.alert := rfl
@[simp] theorem State.withPhase_halted (s : State) (v : Phase) :
    (s.withPhase v).halted = s.halted := rfl
@[simp] theorem State.withPhase_inp (s : State) (v : Phase) :
    (s.withPhase v).inp = s.inp := rfl
@[simp] theorem State.withPhase_script (s : State) (v : Phase) :
    (s.withPhase v).script = s.script := rfl
@[simp] theorem State.withPhase_phase (s : State) (v : Phase) :
    (s.withPhase v).phase = v := rfl
@[simp] theorem State.withPhase_cur (s : State) (v : Phase) :
    (s.withPhase v).cur = s.cur := rfl
@[simp] theorem State.withPhase_pending (s : State) (v : Phase) :
    (s.withPhase v).pending = s.pending := rfl
@[simp] theorem State.withPhase_events (s : State) (v : Phase) :
    (s.withPhase v).events = s.events := rfl
@[simp] theorem State.withPhase_hostResult (s : State) (v : Phase) :
    (s.withPhase v).hostResult = s.hostResult := rfl
@[simp] theorem State.withPhase_draws (s : State) (v : Phase) :
    (s.withPhase v).draws = s.draws := rfl
@[simp] theorem State.withPhase_twice (s : State) (v w : Phase) :
    (s.withPhase v).withPhase w = s.withPhase w := rfl
@[simp] theorem State.withPhase_self (s : State) :
    s.withPhase s.phase = s := rfl

@[simp] theorem State.withCur_cfg (s : State) (v : Channel) :
    (s.withCur v).cfg = s.cfg := rfl
@[simp] theorem State.withCur_q (s : State) (v : Channel) :
    (s.withCur v).q = s.q := rfl
@[simp] theorem State.withCur_tmr (s : State) (v : Channel) :
    (s.withCur v).tmr = s.tmr := rfl
@[simp] theorem State.withCur_dir (s : State) (v : Channel) :
    (s.withCur v).dir = s.dir := rfl
@[simp] theorem State.withCur_stepEn (s : State) (v : Channel) :
    (s.withCur v).stepEn = s.stepEn := rfl
@[simp] theorem State.withCur_mainMode (s : State) (v : Channel) :
    (s.withCur v).mainMode = s.mainMode := rfl
@[simp] theorem State.withCur_visMode (s : State) (v : Channel) :
    (s.withCur v).visMode = s.visMode := rfl
@[simp] theorem State.withCur_mainPulseDur (s : State) (v : Channel) :
    (s.withCur v).mainPulseDur = s.mainPulseDur := rfl
@[simp] theorem State.withCur_visPulseDur (s : State) (v : Channel) :
    (s.withCur v).visPulseDur = s.visPulseDur := rfl
@[simp] theorem State.withCur_mainPower (s : State) (v : Channel) :
    (s.withCur v).mainPower = s.mainPower := rfl
@[simp] theorem State.withCur_stopDown (s : State) (v : Channel) :
    (s.withCur v).stopDown = s.stopDown := rfl
@[simp] theorem State.withCur_lidOpen (s : State) (v : Channel) :
    (s.withCur v).lidOpen = s.lidOpen := rfl
@[simp] theorem State.withCur_moveOk (s : State) (v : Channel) :
    (s.withCur v).moveOk = s.moveOk := rfl
@[simp] theorem State.withCur_mainOk (s : State) (v : Channel) :
    (s.withCur v).mainOk = s.mainOk := rfl
@[simp] theorem State.withCur_visOk (s : State) (v : Channel) :
    (s.withCur v).visOk = s.visOk := rfl
@[simp] theorem State.withCur_laserSel (s : State) (v : Channel) :
    (s.withCur v).laserSel = s.laserSel := rfl
@[simp] theorem State.withCur_dbPending (s : State) (v : Channel) :
    (s.withCur v).dbPending = s.dbPending := rfl
@[simp] theorem State.withCur_dbCnt (s : State) (v : Channel) :
    (s.withCur v).dbCnt = s.dbCnt := rfl
@[simp] theorem State.withCur_faultSet (s : State) (v : Channel) :
    (s.withCur v).faultSet = s.faultSet := rfl
@[simp] theorem State.withCur_faultOvr (s : State) (v : Channel) :
    (s.withCur v).faultOvr = s.faultOvr := rfl
@[simp] theorem State.withCur_alert (s : State) (v : Channel) :
    (s.withCur v).alert = s.alert := rfl
@[simp] theorem State.withCur_halted (s : State) (v : Channel) :
    (s.withCur v).halted = s.halted := rfl
@[simp] theorem State.withCur_inp (s : State) (v : Channel) :
    (s.withCur v).inp = s.inp := rfl
@[simp] theorem State.withCur_script (s : State) (v : Channel) :
    (s.withCur v).script = s.script := rfl
@[simp] theorem State.withCur_phase (s : State) (v : Channel) :
    (s.withCur v).phase = s.phase := rfl
@[simp] theorem State.withCur_cur (s : State) (v : Channel) :
    (s.withCur v).cur = v := rfl
@[simp] theorem State.withCur_pending (s : State) (v : Channel) :
    (s.withCur v).pending = s.pending := rfl
@[simp] theorem State.withCur_events (s : State) (v : Channel) :
    (s.withCur v).events = s.events := rfl
@[simp] theorem State.withCur_hostResult (s : State) (v : Channel) :
    (s.withCur v).hostResult = s.hostResult := rfl
@[simp] theorem State.withCur_draws (s : State) (v : Channel) :
    (s.withCur v).draws = s.draws := rfl
@[simp] theorem State.withCur_twice (s : State) (v w : Channel) :
    (s.withCur v).withCur w = s.withCur w := rfl
@[simp] theorem State.withCur_self (s : State) :
    s.withCur s.cur = s := rfl

@[simp] theorem State.withPending_cfg (s : State) (v : List Channel) :
    (s.withPending v).cfg = s.cfg := rfl
@[simp] theorem State.withPending_q (s : State) (v : List Channel) :
    (s.withPending v).q = s.q := rfl
@[simp] theorem State.withPending_tmr (s : State) (v : List Channel) :
    (s.withPending v).tmr = s.tmr := rfl
@[simp] theorem State.withPending_dir (s : State) (v : List Channel) :
    (s.withPending v).dir = s.dir := rfl
@[simp] theorem State.withPending_stepEn (s : State) (v : List Channel) :
    (s.withPending v).stepEn = s.stepEn := rfl
@[simp] theorem State.withPending_mainMode (s : State) (v : List Channel) :
    (s.withPending v).mainMode = s.mainMode := rfl
@[simp] theorem State.withPending_visMode (s : State) (v : List Channel) :
    (s.withPending v).visMode = s.visMode := rfl
@[simp] theorem State.withPending_mainPulseDur (s : State) (v : List Channel) :
    (s.withPending v).mainPulseDur = s.mainPulseDur := rfl
@[simp] theorem State.withPending_visPulseDur (s : State) (v : List Channel) :
    (s.withPending v).visPulseDur = s.visPulseDur := rfl
@[simp] theorem State.withPending_mainPower (s : State) (v : List Channel) :
    (s.withPending v).mainPower = s.mainPower := rfl
@[simp] theorem State.withPending_stopDown (s : State) (v : List Channel) :
    (s.withPending v).stopDown = s.stopDown := rfl
@[simp] theorem State.withPending_lidOpen (s : State) (v : List Channel) :
    (s.withPending v).lidOpen = s.lidOpen := rfl
@[simp] theorem State.withPending_moveOk (s : State) (v : List Channel) :
    (s.withPending v).moveOk = s.moveOk := rfl
@[simp] theorem State.withPending_mainOk (s : State) (v : List Channel) :
    (s.withPending v).mainOk = s.mainOk := rfl
@[simp] theorem State.withPending_visOk (s : State) (v : List Channel) :
    (s.withPending v).visOk = s.visOk := rfl
@[simp] theorem State.withPending_laserSel (s : State) (v : List Channel) :
    (s.withPending v).laserSel = s.laserSel := rfl
@[simp] theorem State.withPending_dbPending (s : State) (v : List Channel) :
    (s.withPending v).dbPending = s.dbPending := rfl
@[simp] theorem State.withPending_dbCnt (s : State) (v : List Channel) :
    (s.withPending v).dbCnt = s.dbCnt := rfl
@[simp] theorem State.withPending_faultSet (s : State) (v : List Channel) :
    (s.withPending v).faultSet = s.faultSet := rfl
@[simp] theorem State.withPending_faultOvr (s : State) (v : List Channel) :
    (s.withPending v).faultOvr = s.faultOvr := rfl
@[simp] theorem State.withPending_alert (s : State) (v : List Channel) :
    (s.withPending v).alert = s.alert := rfl
@[simp] theorem State.withPending_halted (s : State) (v : List Channel) :
    (s.withPending v).halted = s.halted := rfl
@[simp] theorem State.withPending_inp (s : State) (v : List Channel) :
    (s.withPending v).inp = s.inp := rfl
@[simp] theorem State.withPending_script (s : State) (v : List Channel) :
    (s.withPending v).script = s.script := rfl
@[simp] theorem State.withPending_phase (s : State) (v : List Channel) :
    (s.withPending v).phase = s.phase := rfl
@[simp] theorem State.withPending_cur (s : State) (v : List Channel) :
    (s.withPending v).cur = s.cur := rfl
@[simp] theorem State.withPending_pending (s : State) (v : List Channel) :
    (s.withPending v).pending = v := rfl
@[simp] theorem State.withPending_events (s : State) (v : List Channel) :
    (s.withPending v).events = s.events := rfl
@[simp] theorem State.withPending_hostResult (s : State) (v : List Channel) :
    (s.withPending v).hostResult = s.hostResult := rfl
@[simp] theorem State.withPending_draws (s : State) (v : List Channel) :
    (s.withPending v).draws = s.draws := rfl
@[simp] theorem State.withPending_twice (s : State) (v w : List Channel) :
    (s.withPending v).withPending w = s.withPending w := rfl
@[simp] theorem State.withPending_self (s : State) :
    s.withPending s.pending = s := rfl

@[simp] theorem State.withEvents_cfg (s : State) (v : List OutEvent) :
    (s.withEvents v).cfg = s.cfg := rfl
@[simp] theorem State.withEvents_q (s : State) (v : List OutEvent) :
    (s.withEvents v).q = s.q := rfl
@[simp] theorem State.withEvents_tmr (s : State) (v : List OutEvent) :
    (s.withEvents v).tmr = s.tmr := rfl
@[simp] theorem State.withEvents_dir (s : State) (v : List OutEvent) :
    (s.withEvents v).dir = s.dir := rfl
@[simp] theorem State.withEvents_stepEn (s : State) (v : List OutEvent) :
    (s.withEvents v).stepEn = s.stepEn := rfl
@[simp] theorem State.withEvents_mainMode (s : State) (v : List OutEvent) :
    (s.withEvents v).mainMode = s.mainMode := rfl
@[simp] theorem State.withEvents_visMode (s : State) (v : List OutEvent) :
    (s.withEvents v).visMode = s.visMode := rfl
@[simp] theorem State.withEvents_mainPulseDur (s : State) (v : List OutEvent) :
    (s.withEvents v).mainPulseDur = s.mainPulseDur := rfl
@[simp] theorem State.withEvents_visPulseDur (s : State) (v : List OutEvent) :
    (s.withEvents v).visPulseDur = s.visPulseDur := rfl
@[simp] theorem State.withEvents_mainPower (s : State) (v : List OutEvent) :
    (s.withEvents v).mainPower = s.mainPower := rfl
@[simp] theorem State.withEvents_stopDown (s : State) (v : List OutEvent) :
    (s.withEvents v).stopDown = s.stopDown := rfl
@[simp] theorem State.withEvents_lidOpen (s : State) (v : List OutEvent) :
    (s.withEvents v).lidOpen = s.lidOpen := rfl
@[simp] theorem State.withEvents_moveOk (s : State) (v : List OutEvent) :
    (s.withEvents v).moveOk = s.moveOk := rfl
@[simp] theorem State.withEvents_mainOk (s : State) (v : List OutEvent) :
    (s.withEvents v).mainOk = s.mainOk := rfl
@[simp] theorem State.withEvents_visOk (s : State) (v : List OutEvent) :
    (s.withEvents v).visOk = s.visOk := rfl
@[simp] theorem State.withEvents_laserSel (s : State) (v : List OutEvent) :
    (s.withEvents v).laserSel = s.laserSel := rfl
@[simp] theorem State.withEvents_dbPending (s : State) (v : List OutEvent) :
    (s.withEvents v).dbPending = s.dbPending := rfl
@[simp] theorem State.withEvents_dbCnt (s : State) (v : List OutEvent) :
    (s.withEvents v).dbCnt = s.dbCnt := rfl
@[simp] theorem State.withEvents_faultSet (s : State) (v : List OutEvent) :
    (s.withEvents v).faultSet = s.faultSet := rfl
@[simp] theorem State.withEvents_faultOvr (s : State) (v : List OutEvent) :
    (s.withEvents v).faultOvr = s.faultOvr := rfl
@[simp] theorem State.withEvents_alert (s : State) (v : List OutEvent) :
    (s.withEvents v).alert = s.alert := rfl
@[simp] theorem State.withEvents_halted (s : State) (v : List OutEvent) :
    (s.withEvents v).halted = s.halted := rfl
@[simp] theorem State.withEvents_inp (s : State) (v : List OutEvent) :
    (s.withEvents v).inp = s.inp := rfl
@[simp] theorem State.withEvents_script (s : State) (v : List OutEvent) :
    (s.withEvents v).script = s.script := rfl
@[simp] theorem State.withEvents_phase (s : State) (v : List OutEvent) :
    (s.withEvents v).phase = s.phase := rfl
@[simp] theorem State.withEvents_cur (s : State) (v : List OutEvent) :
    (s.withEvents v).cur = s.cur := rfl
@[simp] theorem State.withEvents_pending (s : State) (v : List OutEvent) :
    (s.withEvents v).pending = s.pending := rfl
@[simp] theorem State.withEvents_events (s : State) (v : List OutEvent) :
    (s.withEvents v).events = v := rfl
@[simp] theorem State.withEvents_hostResult (s : State) (v : List OutEvent) :
    (s.withEvents v).hostResult = s.hostResult := rfl
@[simp] theorem State.withEvents_draws (s : State) (v : List OutEvent) :
    (s.withEvents v).draws = s.draws := rfl
@[simp] theorem State.withEvents_twice (s : State) (v w : List OutEvent) :
    (s.withEvents v).withEvents w = s.withEvents w := rfl
@[simp] theorem State.withEvents_self (s : State) :
    s.withEvents s.events = s := rfl

@[simp] theorem State.withHostResult_cfg (s : State) (v : Option HostResult) :
    (s.withHostResult v).cfg = s.cfg := rfl
@[simp] theorem State.withHostResult_q (s : State) (v : Option HostResult) :
    (s.withHostResult v).q = s.q := rfl
@[simp] theorem State.withHostResult_tmr (s : State) (v : Option HostResult) :
    (s.withHostResult v).tmr = s.tmr := rfl
@[simp] theorem State.withHostResult_dir (s : State) (v : Option HostResult) :
    (s.withHostResult v).dir = s.dir := rfl
@[simp] theorem State.withHostResult_stepEn (s : State) (v : Option HostResult) :
    (s.withHostResult v).stepEn = s.stepEn := rfl
@[simp] theorem State.withHostResult_mainMode (s : State) (v : Option HostResult) :
    (s.withHostResult v).mainMode = s.mainMode := rfl
@[simp] theorem State.withHostResult_visMode (s : State) (v : Option HostResult) :
    (s.withHostResult v).visMode = s.visMode := rfl
@[simp] theorem State.withHostResult_mainPulseDur (s : State) (v : Option HostResult) :
    (s.withHostResult v).mainPulseDur = s.mainPulseDur := rfl
@[simp] theorem State.withHostResult_visPulseDur (s : State) (v : Option HostResult) :
    (s.withHostResult v).visPulseDur = s.visPulseDur := rfl
@[simp] theorem State.withHostResult_mainPower (s : State) (v : Option HostResult) :
    (s.withHostResult v).mainPower = s.mainPower := rfl
@[simp] theorem State.withHostResult_stopDown (s : State) (v : Option HostResult) :
    (s.withHostResult v).stopDown = s.stopDown := rfl
@[simp] theorem State.withHostResult_lidOpen (s : State) (v : Option HostResult) :
    (s.withHostResult v).lidOpen = s.lidOpen := rfl
@[simp] theorem State.withHostResult_moveOk (s : State) (v : Option HostResult) :
    (s.withHostResult v).moveOk = s.moveOk := rfl
@[simp] theorem State.withHostResult_mainOk (s : State) (v : Option HostResult) :
    (s.withHostResult v).mainOk = s.mainOk := rfl
@[simp] theorem State.withHostResult_visOk (s : State) (v : Option HostResult) :
    (s.withHostResult v).visOk = s.visOk := rfl
@[simp] theorem State.withHostResult_laserSel (s : State) (v : Option HostResult) :
    (s.withHostResult v).laserSel = s.laserSel := rfl
@[simp] theorem State.withHostResult_dbPending (s : State) (v : Option HostResult) :
    (s.withHostResult v).dbPending = s.dbPending := rfl
@[simp] theorem State.withHostResult_dbCnt (s : State) (v : Option HostResult) :
    (s.withHostResult v).dbCnt = s.dbCnt := rfl
@[simp] theorem State.withHostResult_faultSet (s : State) (v : Option HostResult) :
    (s.withHostResult v).faultSet = s.faultSet := rfl
@[simp] theorem State.withHostResult_faultOvr (s : State) (v : Option HostResult) :
    (s.withHostResult v).faultOvr = s.faultOvr := rfl
@[simp] theorem State.withHostResult_alert (s : State) (v : Option HostResult) :
    (s.withHostResult v).alert = s.alert := rfl
@[simp] theorem State.withHostResult_halted (s : State) (v : Option HostResult) :
    (s.withHostResult v).halted = s.halted := rfl
@[simp] theorem State.withHostResult_inp (s : State) (v : Option HostResult) :
    (s.withHostResult v).inp = s.inp := rfl
@[simp] theorem State.withHostResult_script (s : State) (v : Option HostResult) :
    (s.withHostResult v).script = s.script := rfl
@[simp] theorem State.withHostResult_phase (s : State) (v : Option HostResult) :
    (s.withHostResult v).phase = s.phase := rfl
@[simp] theorem State.withHostResult_cur (s : State) (v : Option HostResult) :
    (s.withHostResult v).cur = s.cur := rfl
@[simp] theorem State.withHostResult_pending (s : State) (v : Option HostResult) :
    (s.withHostResult v).pending = s.pending := rfl
@[simp] theorem State.withHostResult_events (s : State) (v : Option HostResult) :
    (s.withHostResult v).events = s.events := rfl
@[simp] theorem State.withHostResult_hostResult (s : State) (v : Option HostResult) :
    (s.withHostResult v).hostResult = v := rfl
@[simp] theorem State.withHostResult_draws (s : State) (v : Option HostResult) :
    (s.withHostResult v).draws = s.draws := rfl
@[simp] theorem State.withHostResult_twice (s : State) (v w : Option HostResult) :
    (s.withHostResult v).withHostResult w = s.withHostResult w := rfl
@[simp] theorem State.withHostResult_self (s : State) :
    s.withHostResult s.hostResult = s := rfl

@[simp] theorem State.withDraws_cfg (s : State) (v : Nat) :
    (s.withDraws v).cfg = s.cfg := rfl
@[simp] theorem State.withDraws_q (s : State) (v : Nat) :
    (s.withDraws v).q = s.q := rfl
@[simp] theorem State.withDraws_tmr (s : State) (v : Nat) :
    (s.withDraws v).tmr = s.tmr := rfl
@[simp] theorem State.withDraws_dir (s : State) (v : Nat) :
    (s.withDraws v).dir = s.dir := rfl
@[simp] theorem State.withDraws_stepEn (s : State) (v : Nat) :
    (s.withDraws v).stepEn = s.stepEn := rfl
@[simp] theorem State.withDraws_mainMode (s : State) (v : Nat) :
    (s.withDraws v).mainMode = s.mainMode := rfl
@[simp] theorem State.withDraws_visMode (s : State) (v : Nat) :
    (s.withDraws v).visMode = s.visMode := rfl
@[simp] theorem State.withDraws_mainPulseDur (s : State) (v : Nat) :
    (s.withDraws v).mainPulseDur = s.mainPulseDur := rfl
@[simp] theorem State.withDraws_visPulseDur (s : State) (v : Nat) :
    (s.withDraws v).visPulseDur = s.visPulseDur := rfl
@[simp] theorem State.withDraws_mainPower (s : State) (v : Nat) :
    (s.withDraws v).mainPower = s.mainPower := rfl
@[simp] theorem State.withDraws_stopDown (s : State) (v : Nat) :
    (s.withDraws v).stopDown = s.stopDown := rfl
@[simp] theorem State.withDraws_lidOpen (s : State) (v : Nat) :
    (s.withDraws v).lidOpen = s.lidOpen := rfl
@[simp] theorem State.withDraws_moveOk (s : State) (v : Nat) :
    (s.withDraws v).moveOk = s.moveOk := rfl
@[simp] theorem State.withDraws_mainOk (s : State) (v : Nat) :
    (s.withDraws v).mainOk = s.mainOk := rfl
@[simp] theorem State.withDraws_visOk (s : State) (v : Nat) :
    (s.withDraws v).visOk = s.visOk := rfl
@[simp] theorem State.withDraws_laserSel (s : State) (v : Nat) :
    (s.withDraws v).laserSel = s.laserSel := rfl
@[simp] theorem State.withDraws_dbPending (s : State) (v : Nat) :
    (s.withDraws v).dbPending = s.dbPending := rfl
@[simp] theorem State.withDraws_dbCnt (s : State) (v : Nat) :
    (s.withDraws v).dbCnt = s.dbCnt := rfl
@[simp] theorem State.withDraws_faultSet (s : State) (v : Nat) :
    (s.withDraws v).faultSet = s.faultSet := rfl
@[simp] theorem State.withDraws_faultOvr (s : State) (v : Nat) :
    (s.withDraws v).faultOvr = s.faultOvr := rfl
@[simp] theorem State.withDraws_alert (s : State) (v : Nat) :
    (s.withDraws v).alert = s.alert := rfl
@[simp] theorem State.withDraws_halted (s : State) (v : Nat) :
    (s.withDraws v).halted = s.halted := rfl
@[simp] theorem State.withDraws_inp (s : State) (v : Nat) :
    (s.withDraws v).inp = s.inp := rfl
@[simp] theorem State.withDraws_script (s : State) (v : Nat) :
    (s.withDraws v).script = s.script := rfl
@[simp] theorem State.withDraws_phase (s : State) (v : Nat) :
    (s.withDraws v).phase = s.phase := rfl
@[simp] theorem State.withDraws_cur (s : State) (v : Nat) :
    (s.withDraws v).cur = s.cur := rfl
@[simp] theorem State.withDraws_pending (s : State) (v : Nat) :
    (s.withDraws v).pending = s.pending := rfl
@[simp] theorem State.withDraws_events (s : State) (v : Nat) :
    (s.withDraws v).events = s.events := rfl
@[simp] theorem State.withDraws_hostResult (s : State) (v : Nat) :
    (s.withDraws v).hostResult = s.hostResult := rfl
@[simp] theorem State.withDraws_draws (s : State) (v : Nat) :
    (s.withDraws v).draws = v := rfl
@[simp] theorem State.withDraws_twice (s : State) (v w : Nat) :
    (s.withDraws v).withDraws w = s.withDraws w := rfl
@[simp] theorem State.withDraws_self (s : State) :
    s.withDraws s.draws = s := rfl

end Sys2Proof.Machine
end

