-- ==== Sys2Proof/Laws/Queue.lean ====
section
/-! SUPPORT. What each queue operation of Machine/Ops.lean does (43_queue_ops.md), said once. -/

namespace Sys2Proof.Machine

@[simp] theorem Queue.push_head (u : Queue) (a : Word) : (u.push a).head = u.head := rfl
@[simp] theorem Queue.push_count (u : Queue) (a : Word) : (u.push a).count = u.count + 1 := rfl
@[simp] theorem Queue.push_running (u : Queue) (a : Word) : (u.push a).running = u.running := rfl
@[simp] theorem Queue.pop_head (u : Queue) : u.pop.head = u.head + 1 := rfl
@[simp] theorem Queue.pop_count (u : Queue) : u.pop.count = u.count - 1 := rfl
@[simp] theorem Queue.pop_running (u : Queue) : u.pop.running = u.running := rfl
@[simp] theorem Queue.pop_buf (u : Queue) : u.pop.buf = u.buf := rfl
@[simp] theorem Queue.unpop_head (u : Queue) (a : Word) : (u.unpop a).head = u.backSlot := rfl
@[simp] theorem Queue.unpop_count (u : Queue) (a : Word) : (u.unpop a).count = u.count + 1 := rfl
@[simp] theorem Queue.unpop_running (u : Queue) (a : Word) :
    (u.unpop a).running = u.running := rfl
@[simp] theorem Queue.flush_head (u : Queue) : u.flush.head = 0 := rfl
@[simp] theorem Queue.flush_count (u : Queue) : u.flush.count = 0 := rfl
@[simp] theorem Queue.flush_running (u : Queue) : u.flush.running = false := rfl
@[simp] theorem Queue.flush_buf (u : Queue) : u.flush.buf = u.buf := rfl
@[simp] theorem Queue.flush_flush (u : Queue) : u.flush.flush = u.flush := rfl

/-- Reading a slot after writing one. -/
theorem slot_after_set (v : Vector Word 128) (i j : Fin 128) (a : Word) :
    (v.set i a)[j] = if j = i then a else v[j] := by
  rw [Fin.getElem_fin, Fin.getElem_fin, Vector.getElem_set]
  by_cases h : j = i
  · simp [h]
  · have : i.val ≠ j.val := fun e => h (Fin.ext e.symm)
    simp [h, this]

theorem Queue.push_slot (u : Queue) (a : Word) (j : Fin 128) :
    (u.push a).buf[j] = if j = u.tail then a else u.buf[j] := slot_after_set ..

theorem Queue.unpop_slot (u : Queue) (a : Word) (j : Fin 128) :
    (u.unpop a).buf[j] = if j = u.backSlot then a else u.buf[j] := slot_after_set ..

/-- What an un-dequeue puts back is the next atom taken (R196 (b)). -/
theorem Queue.unpop_front (u : Queue) (a : Word) : (u.unpop a).front = a :=
  (u.unpop_slot a u.backSlot).trans (if_pos rfl)

/-- Writing back what a slot holds changes nothing. -/
theorem slot_set_same (v : Vector Word 128) (i : Fin 128) : v.set i v[i] = v := by
  ext j hj
  rw [Vector.getElem_set]
  split
  · next h => subst h; rfl
  · rfl

@[simp] theorem Queue.backSlot_pop (u : Queue) : u.pop.backSlot = u.head := by
  simp [Queue.backSlot, Queue.pop]

@[simp] theorem Queue.contents_length (u : Queue) : u.contents.length = u.count := by
  simp [Queue.contents]

/-- A queue that is not empty begins with the atom a dequeue returns and goes on with what the
dequeue leaves (R193). -/
theorem Queue.contents_pop (u : Queue) (h : u.count ≠ 0) :
    u.contents = u.front :: u.pop.contents := by
  obtain ⟨n, hn⟩ := Nat.exists_eq_succ_of_ne_zero h
  simp only [Queue.contents, Queue.pop_count, Queue.pop_head, Queue.pop_buf, Queue.front, hn,
    Nat.succ_eq_add_one, Nat.add_sub_cancel, List.range_succ_eq_map, List.map_cons, List.map_map]
  have h0 : Fin.ofNat 128 0 = 0 := rfl
  congr 1
  · simp
  · apply List.map_congr_left
    intro k _
    have : u.head + Fin.ofNat 128 (k + 1) = u.head + 1 + Fin.ofNat 128 k := by
      apply Fin.ext
      simp [Fin.val_add]
      omega
    exact congrArg (fun j : Fin 128 => u.buf[j]) this

/-- With room, an append adds its atom at the end (R191). -/
theorem Queue.contents_push (u : Queue) (a : Word) (h : u.count < 128) :
    (u.push a).contents = u.contents ++ [a] := by
  simp only [Queue.contents, Queue.push_count, Queue.push_head, List.range_succ, List.map_append,
    List.map_cons, List.map_nil, Queue.push_slot]
  congr 1
  · apply List.map_congr_left
    intro k hk
    have hk := List.mem_range.mp hk
    have : ¬ u.head + Fin.ofNat 128 k = u.tail := by
      intro e
      have e := congrArg Fin.val e
      simp [Queue.tail, Fin.val_add] at e
      omega
    exact if_neg this
  · exact congrArg (fun w => [w]) (if_pos rfl)

theorem Queue.contents_empty (u : Queue) (h : u.count = 0) : u.contents = [] := by
  simp [Queue.contents, h]

/-- A dequeue and an un-dequeue of its atom restore the queue (R196 (c)). -/
theorem Queue.unpop_pop (u : Queue) (h : u.count ≠ 0) : u.pop.unpop u.front = u := by
  have hs : u.buf.set u.head u.front = u.buf := slot_set_same ..
  have hb : u.pop.backSlot = u.head := u.backSlot_pop
  have hc : u.count - 1 + 1 = u.count := by omega
  simp only [Queue.unpop, hb, Queue.pop_buf, Queue.pop_count, Queue.pop_running, hc, hs]

/-- What a dequeue can do (R193, R194). -/
theorem dequeue_eq_some {c : Channel} {s t : State} {a : Word} (h : dequeue c s = some (a, t)) :
    (s.q.get c).count ≠ 0 ∧ a = (s.q.get c).front ∧ t = s.withQ (s.q.set c (s.q.get c).pop) := by
  unfold dequeue at h
  split at h
  · cases h
  · next hc =>
    simp only [Option.some.injEq, Prod.mk.injEq] at h
    exact ⟨hc, h.1.symm, h.2.symm⟩

theorem dequeue_eq_none {c : Channel} {s : State} :
    dequeue c s = none ↔ (s.q.get c).count = 0 := by
  unfold dequeue
  split <;> simp_all

end Sys2Proof.Machine
end

