-- ==== Sys2Proof/Laws/Ops.lean ====
section
/-! SUPPORT. The safety operations of Machine/Ops.lean for regular handlers, as functions on the state
(`Quiet`: nothing they run halts), and what each can do, said once: the immediate stop, the gates,
the handlers, the fault set, `update_safety`, `Fatal`. Laws/Handlers.lean says that the operations
themselves end in these states. -/

namespace Sys2Proof.Machine

/-- What any safety operation may write (R218, R242, R252): the engine's queues and timers by an
immediate stop, the outputs' registers, the gates, the faults and the alert. Nothing else. -/
structure SafetyOnly (s t : State) : Prop where
  cfg : t.cfg = s.cfg
  dir : t.dir = s.dir
  mainPulseDur : t.mainPulseDur = s.mainPulseDur
  visPulseDur : t.visPulseDur = s.visPulseDur
  mainPower : t.mainPower = s.mainPower
  stopDown : t.stopDown = s.stopDown
  lidOpen : t.lidOpen = s.lidOpen
  laserSel : t.laserSel = s.laserSel
  dbPending : t.dbPending = s.dbPending
  dbCnt : t.dbCnt = s.dbCnt
  faultOvr : t.faultOvr = s.faultOvr
  halted : t.halted = s.halted
  inp : t.inp = s.inp
  script : t.script = s.script
  phase : t.phase = s.phase
  cur : t.cur = s.cur
  pending : t.pending = s.pending
  events : t.events = s.events
  hostResult : t.hostResult = s.hostResult
  draws : t.draws = s.draws
  channels : ∀ c, (t.q.get c = s.q.get c ∧ t.tmr.get c = s.tmr.get c) ∨
    (t.q.get c = (s.q.get c).flush ∧ t.tmr.get c = { s.tmr.get c with on := false })
  outputs : (t.stepEn = s.stepEn ∧ t.mainMode = s.mainMode ∧ t.visMode = s.visMode) ∨
    (t.stepEn = PerAxis.ofFn (fun _ => false) ∧ t.mainMode = .off ∧ t.visMode = .off)

theorem SafetyOnly.refl (s : State) : SafetyOnly s s := by
  constructor <;> first | rfl | exact fun _ => .inl ⟨rfl, rfl⟩ | exact .inl ⟨rfl, rfl, rfl⟩

theorem SafetyOnly.trans {s t u : State} (h : SafetyOnly s t) (k : SafetyOnly t u) :
    SafetyOnly s u where
  cfg := k.cfg.trans h.cfg
  dir := k.dir.trans h.dir
  mainPulseDur := k.mainPulseDur.trans h.mainPulseDur
  visPulseDur := k.visPulseDur.trans h.visPulseDur
  mainPower := k.mainPower.trans h.mainPower
  stopDown := k.stopDown.trans h.stopDown
  lidOpen := k.lidOpen.trans h.lidOpen
  laserSel := k.laserSel.trans h.laserSel
  dbPending := k.dbPending.trans h.dbPending
  dbCnt := k.dbCnt.trans h.dbCnt
  faultOvr := k.faultOvr.trans h.faultOvr
  halted := k.halted.trans h.halted
  inp := k.inp.trans h.inp
  script := k.script.trans h.script
  phase := k.phase.trans h.phase
  cur := k.cur.trans h.cur
  pending := k.pending.trans h.pending
  events := k.events.trans h.events
  hostResult := k.hostResult.trans h.hostResult
  draws := k.draws.trans h.draws
  channels c := by
    rcases h.channels c with ⟨a, b⟩ | ⟨a, b⟩ <;>
      rcases k.channels c with ⟨d, e⟩ | ⟨d, e⟩
    all_goals simp [a, b, d, e]
  outputs := by
    rcases k.outputs with ⟨a, b, c⟩ | hk
    · rw [a, b, c]
      exact h.outputs
    · exact .inr hk

theorem SafetyOnly.slots {s t : State} (h : SafetyOnly s t) (c : Channel) (i : Fin 128) :
    slotRead t c i = slotRead s c i := by
  unfold slotRead
  rcases h.channels c with ⟨a, -⟩ | ⟨a, -⟩
  · rw [a]
  · rw [a]; rfl

/-- The state after, from the state before and the fields it may write. -/
theorem SafetyOnly.eq {s t : State} (h : SafetyOnly s t) :
    t = { s with
      q := t.q, tmr := t.tmr, stepEn := t.stepEn, mainMode := t.mainMode, visMode := t.visMode,
      moveOk := t.moveOk, mainOk := t.mainOk, visOk := t.visOk, faultSet := t.faultSet,
      alert := t.alert } := by
  obtain ⟨h0, h1, h2, h3, h4, h5, h6, h7, h8, h9, h10, h11, h12, h13, h14, h15, h16, h17, h18, h19,
    -, -⟩ := h
  cases s
  cases t
  simp only at *
  subst_vars
  rfl

/-! ### The operations as functions on the state -/

/-- What the stops and gate computations of a procedure do. -/
def Quiet.runActions : HandlerProg → State → State
  | .done, s => s
  | .act .stopEngineImmediately p, s => Quiet.runActions p (stopEngine s)
  | .act .setGates p, s => Quiet.runActions p (setGates s)
  | .act _ p, s => Quiet.runActions p s
  | .branch _ _ _, s => s

/-- `raise_fault(k)` (R249). -/
def Quiet.raiseFault (k : FaultKind) (s : State) : State :=
  if faultIsSet s k then s
  else Quiet.runActions (s.cfg.handlerOf k).raised ((setFaultBit k true s).withAlert true)

/-- `lower_fault(k)` (R250) without the `update_safety` its handler may end in. -/
def Quiet.clearFault (k : FaultKind) (s : State) : State :=
  if faultIsSet s k then
    Quiet.runActions (s.cfg.handlerOf k).lowered (settleAlert (setFaultBit k false s))
  else s

/-- A lid fault follows its condition (R246). -/
def Quiet.followFault (k : FaultKind) (condition : Bool) (s : State) : State :=
  if condition then Quiet.raiseFault k s else Quiet.clearFault k s

/-- The three fault decisions of `update_safety()` (R245). -/
def Quiet.settleFaults (s : State) : State :=
  let s1 := if s.stopDown then Quiet.raiseFault .estop s else s
  let s2 := Quiet.followFault .lidOpen (lidOpenConflict s1) s1
  Quiet.followFault .lidClosed (lidClosedConflict s2) s2

/-- `update_safety()` (R245). -/
def Quiet.updateSafety (s : State) : State := setGates (Quiet.settleFaults s)

/-- `lower_fault(k)` (R250). -/
def Quiet.lowerFault (k : FaultKind) (s : State) : State :=
  if faultIsSet s k then
    if (s.cfg.handlerOf k).lowered.settles then Quiet.updateSafety (Quiet.clearFault k s)
    else Quiet.clearFault k s
  else s

/-- `Fatal(k)` (R305). -/
def Quiet.fatal (k : FaultKind) (s : State) : State := halt (Quiet.raiseFault k s)

/-! ### The immediate stop, the gates, the handlers -/

/-- The immediate stop, field by field (R218). -/
theorem stopEngine_eq (s : State) :
    stopEngine s =
      { s with
        tmr := PerChan.ofFn fun c => { s.tmr.get c with on := false }
        q := PerChan.ofFn fun c => (s.q.get c).flush
        stepEn := PerAxis.ofFn fun _ => false
        mainMode := .off
        visMode := .off } := rfl

theorem setGates_eq (s : State) :
    setGates s = { s with moveOk := gateMove s, mainOk := gateMain s, visOk := gateVis s } := rfl

theorem stopEngine_stopEngine (s : State) : stopEngine (stopEngine s) = stopEngine s := by
  simp [stopEngine_eq]

theorem setGates_stopEngine (s : State) : setGates (stopEngine s) = stopEngine (setGates s) := rfl

@[simp] theorem setGates_alert (s : State) : (setGates s).alert = s.alert := rfl
@[simp] theorem setGates_faultSet (s : State) : (setGates s).faultSet = s.faultSet := rfl

/-- After `set_gates` the gates are those of R242 on the state it leaves. -/
theorem setGates_gates (s : State) :
    (setGates s).moveOk = gateMove (setGates s) ∧ (setGates s).mainOk = gateMain (setGates s) ∧
    (setGates s).visOk = gateVis (setGates s) := ⟨rfl, rfl, rfl⟩

theorem setGates_setGates (s : State) : setGates (setGates s) = setGates s := rfl

/-- The immediate stop, if `b`. -/
def stopIf (b : Bool) (s : State) : State := if b then stopEngine s else s

/-- The gate computation, if `b`. -/
def gatesIf (b : Bool) (s : State) : State := if b then setGates s else s

/-- A handler's actions amount to at most one gate computation and at most one immediate stop. -/
theorem Quiet.runActions_eq (p : HandlerProg) (s : State) :
    Quiet.runActions p s =
      stopIf (p.has .stopEngineImmediately) (gatesIf (p.has .setGates) s) := by
  induction p generalizing s with
  | done => rfl
  | branch => rfl
  | act a p ih =>
    cases a <;> simp only [Quiet.runActions, ih, HandlerProg.has, reduceCtorEq, decide_false,
      decide_true, Bool.false_or, Bool.true_or]
    all_goals
      cases p.has .stopEngineImmediately <;> cases p.has .setGates <;>
        simp [stopIf, gatesIf, setGates_stopEngine, stopEngine_stopEngine, setGates_setGates]

theorem stopEngine_safetyOnly (s : State) : SafetyOnly s (stopEngine s) := by
  rw [stopEngine_eq]
  constructor <;> first | rfl | exact fun c => .inr (by simp) | exact .inr ⟨rfl, rfl, rfl⟩

theorem setGates_safetyOnly (s : State) : SafetyOnly s (setGates s) := by
  rw [setGates_eq]
  constructor <;> first | rfl | exact fun c => .inl ⟨rfl, rfl⟩ | exact .inl ⟨rfl, rfl, rfl⟩

theorem Quiet.runActions_safetyOnly (p : HandlerProg) (s : State) :
    SafetyOnly s (Quiet.runActions p s) := by
  induction p generalizing s with
  | done => exact .refl s
  | branch => exact .refl s
  | act a p ih =>
    cases a
    case stopEngineImmediately => exact (stopEngine_safetyOnly s).trans (ih _)
    case setGates => exact (setGates_safetyOnly s).trans (ih _)
    all_goals exact ih s

@[simp] theorem Quiet.runActions_cfg (p : HandlerProg) (s : State) :
    (Quiet.runActions p s).cfg = s.cfg := (Quiet.runActions_safetyOnly p s).cfg
@[simp] theorem Quiet.runActions_dir (p : HandlerProg) (s : State) :
    (Quiet.runActions p s).dir = s.dir := (Quiet.runActions_safetyOnly p s).dir
@[simp] theorem Quiet.runActions_mainPulseDur (p : HandlerProg) (s : State) :
    (Quiet.runActions p s).mainPulseDur = s.mainPulseDur := (Quiet.runActions_safetyOnly p s).mainPulseDur
@[simp] theorem Quiet.runActions_visPulseDur (p : HandlerProg) (s : State) :
    (Quiet.runActions p s).visPulseDur = s.visPulseDur := (Quiet.runActions_safetyOnly p s).visPulseDur
@[simp] theorem Quiet.runActions_mainPower (p : HandlerProg) (s : State) :
    (Quiet.runActions p s).mainPower = s.mainPower := (Quiet.runActions_safetyOnly p s).mainPower
@[simp] theorem Quiet.runActions_stopDown (p : HandlerProg) (s : State) :
    (Quiet.runActions p s).stopDown = s.stopDown := (Quiet.runActions_safetyOnly p s).stopDown
@[simp] theorem Quiet.runActions_lidOpen (p : HandlerProg) (s : State) :
    (Quiet.runActions p s).lidOpen = s.lidOpen := (Quiet.runActions_safetyOnly p s).lidOpen
@[simp] theorem Quiet.runActions_laserSel (p : HandlerProg) (s : State) :
    (Quiet.runActions p s).laserSel = s.laserSel := (Quiet.runActions_safetyOnly p s).laserSel
@[simp] theorem Quiet.runActions_dbPending (p : HandlerProg) (s : State) :
    (Quiet.runActions p s).dbPending = s.dbPending := (Quiet.runActions_safetyOnly p s).dbPending
@[simp] theorem Quiet.runActions_dbCnt (p : HandlerProg) (s : State) :
    (Quiet.runActions p s).dbCnt = s.dbCnt := (Quiet.runActions_safetyOnly p s).dbCnt
@[simp] theorem Quiet.runActions_faultOvr (p : HandlerProg) (s : State) :
    (Quiet.runActions p s).faultOvr = s.faultOvr := (Quiet.runActions_safetyOnly p s).faultOvr
@[simp] theorem Quiet.runActions_halted (p : HandlerProg) (s : State) :
    (Quiet.runActions p s).halted = s.halted := (Quiet.runActions_safetyOnly p s).halted
@[simp] theorem Quiet.runActions_inp (p : HandlerProg) (s : State) :
    (Quiet.runActions p s).inp = s.inp := (Quiet.runActions_safetyOnly p s).inp
@[simp] theorem Quiet.runActions_script (p : HandlerProg) (s : State) :
    (Quiet.runActions p s).script = s.script := (Quiet.runActions_safetyOnly p s).script
@[simp] theorem Quiet.runActions_phase (p : HandlerProg) (s : State) :
    (Quiet.runActions p s).phase = s.phase := (Quiet.runActions_safetyOnly p s).phase
@[simp] theorem Quiet.runActions_cur (p : HandlerProg) (s : State) :
    (Quiet.runActions p s).cur = s.cur := (Quiet.runActions_safetyOnly p s).cur
@[simp] theorem Quiet.runActions_pending (p : HandlerProg) (s : State) :
    (Quiet.runActions p s).pending = s.pending := (Quiet.runActions_safetyOnly p s).pending
@[simp] theorem Quiet.runActions_events (p : HandlerProg) (s : State) :
    (Quiet.runActions p s).events = s.events := (Quiet.runActions_safetyOnly p s).events
@[simp] theorem Quiet.runActions_hostResult (p : HandlerProg) (s : State) :
    (Quiet.runActions p s).hostResult = s.hostResult := (Quiet.runActions_safetyOnly p s).hostResult
@[simp] theorem Quiet.runActions_draws (p : HandlerProg) (s : State) :
    (Quiet.runActions p s).draws = s.draws := (Quiet.runActions_safetyOnly p s).draws

@[simp] theorem Quiet.runActions_faultSet (p : HandlerProg) (s : State) :
    (Quiet.runActions p s).faultSet = s.faultSet := by
  induction p generalizing s with
  | done => rfl
  | branch => rfl
  | act a p ih => cases a <;> simp only [Quiet.runActions, ih] <;> rfl
@[simp] theorem Quiet.runActions_alert (p : HandlerProg) (s : State) :
    (Quiet.runActions p s).alert = s.alert := by
  induction p generalizing s with
  | done => rfl
  | branch => rfl
  | act a p ih => cases a <;> simp only [Quiet.runActions, ih] <;> rfl

/-- The queue of a channel after a handler: as it was, or flushed. -/
theorem Quiet.runActions_queue (p : HandlerProg) (s : State) (c : Channel) :
    (Quiet.runActions p s).q.get c =
      if p.has .stopEngineImmediately then (s.q.get c).flush else s.q.get c := by
  rw [Quiet.runActions_eq]
  generalize p.has .stopEngineImmediately = b
  generalize p.has .setGates = g
  cases b <;> cases g <;> simp [stopIf, gatesIf, stopEngine_eq, setGates_eq]

/-- The timer of a channel after a handler: as it was, or off. -/
theorem Quiet.runActions_timer (p : HandlerProg) (s : State) (c : Channel) :
    (Quiet.runActions p s).tmr.get c =
      if p.has .stopEngineImmediately then { s.tmr.get c with on := false }
      else s.tmr.get c := by
  rw [Quiet.runActions_eq]
  generalize p.has .stopEngineImmediately = b
  generalize p.has .setGates = g
  cases b <;> cases g <;> simp [stopIf, gatesIf, stopEngine_eq, setGates_eq]

/-- The gates after a handler: as they were, or computed anew. -/
theorem Quiet.runActions_gates (p : HandlerProg) (s : State) :
    ((Quiet.runActions p s).moveOk = if p.has .setGates then gateMove s else s.moveOk) ∧
    ((Quiet.runActions p s).mainOk = if p.has .setGates then gateMain s else s.mainOk) ∧
    ((Quiet.runActions p s).visOk = if p.has .setGates then gateVis s else s.visOk) := by
  rw [Quiet.runActions_eq]
  generalize p.has .stopEngineImmediately = b
  generalize p.has .setGates = g
  cases b <;> cases g <;> simp [stopIf, gatesIf, stopEngine_eq, setGates_eq]

@[simp] theorem Quiet.runActions_done (s : State) : Quiet.runActions .done s = s := rfl

/-! ### The fault set -/

theorem faultIsSet_eq (s : State) (k : FaultKind) : faultIsSet s k = s.faultSet[k.index] := rfl

theorem faultOverridden_eq (s : State) (k : FaultKind) :
    faultOverridden s k = s.faultOvr[k.index] := rfl

/-- Some fault is set exactly when some index is (R55). -/
theorem anyFault_iff (s : State) : anyFault s = true ↔ ∃ i : Fin 16, s.faultSet[i] = true := by
  unfold anyFault
  rw [List.any_eq_true]
  constructor
  · rintro ⟨x, hx, hx'⟩
    obtain ⟨i, hi, he⟩ := List.getElem_of_mem hx
    have hi' : i < 16 := by simpa using hi
    refine ⟨⟨i, hi'⟩, ?_⟩
    simp only [id_eq] at hx'
    rw [Fin.getElem_fin, ← hx', ← he, Vector.getElem_toList]
  · rintro ⟨i, hi⟩
    refine ⟨s.faultSet[i], ?_, by simpa using hi⟩
    rw [Fin.getElem_fin, ← Vector.getElem_toList]
    · exact List.getElem_mem _
    · simp

/-- The alert condition depends on the fault bits only. -/
theorem anyFault_congr {s t : State} (h : t.faultSet = s.faultSet) : anyFault t = anyFault s := by
  unfold anyFault
  rw [h]

/-- The gate functions depend on `F_ESTOP`, the lid and the two overrides only (R242, R248). -/
theorem gates_congr {s t : State} (he : faultIsSet t .estop = faultIsSet s .estop)
    (hl : t.lidOpen = s.lidOpen) (ho : t.faultOvr = s.faultOvr) :
    gateMove t = gateMove s ∧ gateMain t = gateMain s ∧ gateVis t = gateVis s := by
  simp [gateMove, gateMain, gateVis, he, hl, ho, faultOverridden]

/-- `raise_fault` (R249), said once: nothing on a set fault; on a clear one the bit, the alert and
the handler. -/
theorem Quiet.raiseFault_cases (k : FaultKind) (s : State) :
    (faultIsSet s k = true ∧ Quiet.raiseFault k s = s) ∨
    (faultIsSet s k = false ∧
      Quiet.raiseFault k s =
        Quiet.runActions (s.cfg.handlerOf k).raised
          ((setFaultBit k true s).withAlert true)) := by
  unfold Quiet.raiseFault
  cases h : faultIsSet s k
  · exact .inr ⟨rfl, if_neg Bool.false_ne_true⟩
  · exact .inl ⟨rfl, if_pos rfl⟩

theorem setFaultBit_faultSet (k : FaultKind) (b : Bool) (s : State) :
    (setFaultBit k b s).faultSet = s.faultSet.set k.index b := rfl

theorem setFaultBit_safetyOnly (k : FaultKind) (b : Bool) (s : State) (v : Bool) :
    SafetyOnly s ((setFaultBit k b s).withAlert v) := by
  constructor <;> first | rfl | exact fun c => .inl ⟨rfl, rfl⟩ | exact .inl ⟨rfl, rfl, rfl⟩

theorem Quiet.raiseFault_safetyOnly (k : FaultKind) (s : State) : SafetyOnly s (Quiet.raiseFault k s) := by
  rcases Quiet.raiseFault_cases k s with ⟨-, h⟩ | ⟨-, h⟩ <;> rw [h]
  · exact .refl s
  · exact .trans (setFaultBit_safetyOnly ..) (Quiet.runActions_safetyOnly ..)

@[simp] theorem Quiet.raiseFault_cfg (k : FaultKind) (s : State) :
    (Quiet.raiseFault k s).cfg = s.cfg := (Quiet.raiseFault_safetyOnly k s).cfg
@[simp] theorem Quiet.raiseFault_dir (k : FaultKind) (s : State) :
    (Quiet.raiseFault k s).dir = s.dir := (Quiet.raiseFault_safetyOnly k s).dir
@[simp] theorem Quiet.raiseFault_mainPulseDur (k : FaultKind) (s : State) :
    (Quiet.raiseFault k s).mainPulseDur = s.mainPulseDur := (Quiet.raiseFault_safetyOnly k s).mainPulseDur
@[simp] theorem Quiet.raiseFault_visPulseDur (k : FaultKind) (s : State) :
    (Quiet.raiseFault k s).visPulseDur = s.visPulseDur := (Quiet.raiseFault_safetyOnly k s).visPulseDur
@[simp] theorem Quiet.raiseFault_mainPower (k : FaultKind) (s : State) :
    (Quiet.raiseFault k s).mainPower = s.mainPower := (Quiet.raiseFault_safetyOnly k s).mainPower
@[simp] theorem Quiet.raiseFault_stopDown (k : FaultKind) (s : State) :
    (Quiet.raiseFault k s).stopDown = s.stopDown := (Quiet.raiseFault_safetyOnly k s).stopDown
@[simp] theorem Quiet.raiseFault_lidOpen (k : FaultKind) (s : State) :
    (Quiet.raiseFault k s).lidOpen = s.lidOpen := (Quiet.raiseFault_safetyOnly k s).lidOpen
@[simp] theorem Quiet.raiseFault_laserSel (k : FaultKind) (s : State) :
    (Quiet.raiseFault k s).laserSel = s.laserSel := (Quiet.raiseFault_safetyOnly k s).laserSel
@[simp] theorem Quiet.raiseFault_dbPending (k : FaultKind) (s : State) :
    (Quiet.raiseFault k s).dbPending = s.dbPending := (Quiet.raiseFault_safetyOnly k s).dbPending
@[simp] theorem Quiet.raiseFault_dbCnt (k : FaultKind) (s : State) :
    (Quiet.raiseFault k s).dbCnt = s.dbCnt := (Quiet.raiseFault_safetyOnly k s).dbCnt
@[simp] theorem Quiet.raiseFault_faultOvr (k : FaultKind) (s : State) :
    (Quiet.raiseFault k s).faultOvr = s.faultOvr := (Quiet.raiseFault_safetyOnly k s).faultOvr
@[simp] theorem Quiet.raiseFault_halted (k : FaultKind) (s : State) :
    (Quiet.raiseFault k s).halted = s.halted := (Quiet.raiseFault_safetyOnly k s).halted
@[simp] theorem Quiet.raiseFault_inp (k : FaultKind) (s : State) :
    (Quiet.raiseFault k s).inp = s.inp := (Quiet.raiseFault_safetyOnly k s).inp
@[simp] theorem Quiet.raiseFault_script (k : FaultKind) (s : State) :
    (Quiet.raiseFault k s).script = s.script := (Quiet.raiseFault_safetyOnly k s).script
@[simp] theorem Quiet.raiseFault_phase (k : FaultKind) (s : State) :
    (Quiet.raiseFault k s).phase = s.phase := (Quiet.raiseFault_safetyOnly k s).phase
@[simp] theorem Quiet.raiseFault_cur (k : FaultKind) (s : State) :
    (Quiet.raiseFault k s).cur = s.cur := (Quiet.raiseFault_safetyOnly k s).cur
@[simp] theorem Quiet.raiseFault_pending (k : FaultKind) (s : State) :
    (Quiet.raiseFault k s).pending = s.pending := (Quiet.raiseFault_safetyOnly k s).pending
@[simp] theorem Quiet.raiseFault_events (k : FaultKind) (s : State) :
    (Quiet.raiseFault k s).events = s.events := (Quiet.raiseFault_safetyOnly k s).events
@[simp] theorem Quiet.raiseFault_hostResult (k : FaultKind) (s : State) :
    (Quiet.raiseFault k s).hostResult = s.hostResult := (Quiet.raiseFault_safetyOnly k s).hostResult
@[simp] theorem Quiet.raiseFault_draws (k : FaultKind) (s : State) :
    (Quiet.raiseFault k s).draws = s.draws := (Quiet.raiseFault_safetyOnly k s).draws

@[simp] theorem Quiet.raiseFault_bits (k j : FaultKind) (s : State) :
    faultIsSet (Quiet.raiseFault k s) j = (decide (j = k) || faultIsSet s j) := by
  rcases Quiet.raiseFault_cases k s with ⟨hs, h⟩ | ⟨-, h⟩ <;> rw [h]
  · by_cases hj : j = k
    · subst hj
      simp [hs]
    · simp [hj]
  · rw [faultIsSet_eq, Quiet.runActions_faultSet, State.withAlert_faultSet, setFaultBit_faultSet,
      bit_after_set]
    by_cases hj : j = k <;> simp [hj, faultIsSet_eq]

/-- A bit no kind of fault names is not written (R53). -/
theorem Quiet.raiseFault_bit (k : FaultKind) (s : State) (i : Fin 16) :
    (Quiet.raiseFault k s).faultSet[i] = (decide (i = k.index) || s.faultSet[i]) := by
  rcases Quiet.raiseFault_cases k s with ⟨hs, h⟩ | ⟨-, h⟩ <;> rw [h]
  · by_cases hj : i = k.index
    · subst hj
      simpa [faultIsSet_eq] using hs
    · simp [hj]
  · rw [Quiet.runActions_faultSet, State.withAlert_faultSet, setFaultBit_faultSet, bit_after_set]
    by_cases hj : i = k.index <;> simp [hj]

theorem Quiet.raiseFault_alert (k : FaultKind) (s : State) :
    (Quiet.raiseFault k s).alert = (s.alert || !faultIsSet s k) := by
  rcases Quiet.raiseFault_cases k s with ⟨hs, h⟩ | ⟨hs, h⟩ <;> rw [h] <;> simp [hs]

/-- `clearFault` (R250), said once: nothing on a clear fault; on a set one the bit, the alert when
no fault is left, and the handler. -/
theorem Quiet.clearFault_cases (k : FaultKind) (s : State) :
    (faultIsSet s k = false ∧ Quiet.clearFault k s = s) ∨
    (faultIsSet s k = true ∧
      Quiet.clearFault k s =
        Quiet.runActions (s.cfg.handlerOf k).lowered
          ((setFaultBit k false s).withAlert (s.alert && anyFault (setFaultBit k false s)))) := by
  unfold Quiet.clearFault
  cases h : faultIsSet s k
  · exact .inl ⟨rfl, if_neg Bool.false_ne_true⟩
  · exact .inr ⟨rfl, if_pos rfl⟩

theorem Quiet.clearFault_safetyOnly (k : FaultKind) (s : State) : SafetyOnly s (Quiet.clearFault k s) := by
  rcases Quiet.clearFault_cases k s with ⟨-, h⟩ | ⟨-, h⟩ <;> rw [h]
  · exact .refl s
  · exact .trans (setFaultBit_safetyOnly ..) (Quiet.runActions_safetyOnly ..)

@[simp] theorem Quiet.clearFault_cfg (k : FaultKind) (s : State) :
    (Quiet.clearFault k s).cfg = s.cfg := (Quiet.clearFault_safetyOnly k s).cfg
@[simp] theorem Quiet.clearFault_dir (k : FaultKind) (s : State) :
    (Quiet.clearFault k s).dir = s.dir := (Quiet.clearFault_safetyOnly k s).dir
@[simp] theorem Quiet.clearFault_mainPulseDur (k : FaultKind) (s : State) :
    (Quiet.clearFault k s).mainPulseDur = s.mainPulseDur := (Quiet.clearFault_safetyOnly k s).mainPulseDur
@[simp] theorem Quiet.clearFault_visPulseDur (k : FaultKind) (s : State) :
    (Quiet.clearFault k s).visPulseDur = s.visPulseDur := (Quiet.clearFault_safetyOnly k s).visPulseDur
@[simp] theorem Quiet.clearFault_mainPower (k : FaultKind) (s : State) :
    (Quiet.clearFault k s).mainPower = s.mainPower := (Quiet.clearFault_safetyOnly k s).mainPower
@[simp] theorem Quiet.clearFault_stopDown (k : FaultKind) (s : State) :
    (Quiet.clearFault k s).stopDown = s.stopDown := (Quiet.clearFault_safetyOnly k s).stopDown
@[simp] theorem Quiet.clearFault_lidOpen (k : FaultKind) (s : State) :
    (Quiet.clearFault k s).lidOpen = s.lidOpen := (Quiet.clearFault_safetyOnly k s).lidOpen
@[simp] theorem Quiet.clearFault_laserSel (k : FaultKind) (s : State) :
    (Quiet.clearFault k s).laserSel = s.laserSel := (Quiet.clearFault_safetyOnly k s).laserSel
@[simp] theorem Quiet.clearFault_dbPending (k : FaultKind) (s : State) :
    (Quiet.clearFault k s).dbPending = s.dbPending := (Quiet.clearFault_safetyOnly k s).dbPending
@[simp] theorem Quiet.clearFault_dbCnt (k : FaultKind) (s : State) :
    (Quiet.clearFault k s).dbCnt = s.dbCnt := (Quiet.clearFault_safetyOnly k s).dbCnt
@[simp] theorem Quiet.clearFault_faultOvr (k : FaultKind) (s : State) :
    (Quiet.clearFault k s).faultOvr = s.faultOvr := (Quiet.clearFault_safetyOnly k s).faultOvr
@[simp] theorem Quiet.clearFault_halted (k : FaultKind) (s : State) :
    (Quiet.clearFault k s).halted = s.halted := (Quiet.clearFault_safetyOnly k s).halted
@[simp] theorem Quiet.clearFault_inp (k : FaultKind) (s : State) :
    (Quiet.clearFault k s).inp = s.inp := (Quiet.clearFault_safetyOnly k s).inp
@[simp] theorem Quiet.clearFault_script (k : FaultKind) (s : State) :
    (Quiet.clearFault k s).script = s.script := (Quiet.clearFault_safetyOnly k s).script
@[simp] theorem Quiet.clearFault_phase (k : FaultKind) (s : State) :
    (Quiet.clearFault k s).phase = s.phase := (Quiet.clearFault_safetyOnly k s).phase
@[simp] theorem Quiet.clearFault_cur (k : FaultKind) (s : State) :
    (Quiet.clearFault k s).cur = s.cur := (Quiet.clearFault_safetyOnly k s).cur
@[simp] theorem Quiet.clearFault_pending (k : FaultKind) (s : State) :
    (Quiet.clearFault k s).pending = s.pending := (Quiet.clearFault_safetyOnly k s).pending
@[simp] theorem Quiet.clearFault_events (k : FaultKind) (s : State) :
    (Quiet.clearFault k s).events = s.events := (Quiet.clearFault_safetyOnly k s).events
@[simp] theorem Quiet.clearFault_hostResult (k : FaultKind) (s : State) :
    (Quiet.clearFault k s).hostResult = s.hostResult := (Quiet.clearFault_safetyOnly k s).hostResult
@[simp] theorem Quiet.clearFault_draws (k : FaultKind) (s : State) :
    (Quiet.clearFault k s).draws = s.draws := (Quiet.clearFault_safetyOnly k s).draws

@[simp] theorem Quiet.clearFault_bits (k j : FaultKind) (s : State) :
    faultIsSet (Quiet.clearFault k s) j = (!decide (j = k) && faultIsSet s j) := by
  rcases Quiet.clearFault_cases k s with ⟨hs, h⟩ | ⟨-, h⟩ <;> rw [h]
  · by_cases hj : j = k
    · subst hj
      simp [hs]
    · simp [hj]
  · rw [faultIsSet_eq, Quiet.runActions_faultSet, State.withAlert_faultSet, setFaultBit_faultSet,
      bit_after_set]
    by_cases hj : j = k <;> simp [hj, faultIsSet_eq]

theorem Quiet.clearFault_bit (k : FaultKind) (s : State) (i : Fin 16) :
    (Quiet.clearFault k s).faultSet[i] = (!decide (i = k.index) && s.faultSet[i]) := by
  rcases Quiet.clearFault_cases k s with ⟨hs, h⟩ | ⟨-, h⟩ <;> rw [h]
  · by_cases hj : i = k.index
    · subst hj
      simpa [faultIsSet_eq] using hs
    · simp [hj]
  · rw [Quiet.runActions_faultSet, State.withAlert_faultSet, setFaultBit_faultSet, bit_after_set]
    by_cases hj : i = k.index <;> simp [hj]

theorem Quiet.followFault_safetyOnly (k : FaultKind) (b : Bool) (s : State) :
    SafetyOnly s (Quiet.followFault k b s) := by
  cases b
  · exact Quiet.clearFault_safetyOnly k s
  · exact Quiet.raiseFault_safetyOnly k s

@[simp] theorem Quiet.followFault_cfg (k : FaultKind) (b : Bool) (s : State) :
    (Quiet.followFault k b s).cfg = s.cfg := (Quiet.followFault_safetyOnly k b s).cfg
@[simp] theorem Quiet.followFault_dir (k : FaultKind) (b : Bool) (s : State) :
    (Quiet.followFault k b s).dir = s.dir := (Quiet.followFault_safetyOnly k b s).dir
@[simp] theorem Quiet.followFault_mainPulseDur (k : FaultKind) (b : Bool) (s : State) :
    (Quiet.followFault k b s).mainPulseDur = s.mainPulseDur := (Quiet.followFault_safetyOnly k b s).mainPulseDur
@[simp] theorem Quiet.followFault_visPulseDur (k : FaultKind) (b : Bool) (s : State) :
    (Quiet.followFault k b s).visPulseDur = s.visPulseDur := (Quiet.followFault_safetyOnly k b s).visPulseDur
@[simp] theorem Quiet.followFault_mainPower (k : FaultKind) (b : Bool) (s : State) :
    (Quiet.followFault k b s).mainPower = s.mainPower := (Quiet.followFault_safetyOnly k b s).mainPower
@[simp] theorem Quiet.followFault_stopDown (k : FaultKind) (b : Bool) (s : State) :
    (Quiet.followFault k b s).stopDown = s.stopDown := (Quiet.followFault_safetyOnly k b s).stopDown
@[simp] theorem Quiet.followFault_lidOpen (k : FaultKind) (b : Bool) (s : State) :
    (Quiet.followFault k b s).lidOpen = s.lidOpen := (Quiet.followFault_safetyOnly k b s).lidOpen
@[simp] theorem Quiet.followFault_laserSel (k : FaultKind) (b : Bool) (s : State) :
    (Quiet.followFault k b s).laserSel = s.laserSel := (Quiet.followFault_safetyOnly k b s).laserSel
@[simp] theorem Quiet.followFault_dbPending (k : FaultKind) (b : Bool) (s : State) :
    (Quiet.followFault k b s).dbPending = s.dbPending := (Quiet.followFault_safetyOnly k b s).dbPending
@[simp] theorem Quiet.followFault_dbCnt (k : FaultKind) (b : Bool) (s : State) :
    (Quiet.followFault k b s).dbCnt = s.dbCnt := (Quiet.followFault_safetyOnly k b s).dbCnt
@[simp] theorem Quiet.followFault_faultOvr (k : FaultKind) (b : Bool) (s : State) :
    (Quiet.followFault k b s).faultOvr = s.faultOvr := (Quiet.followFault_safetyOnly k b s).faultOvr
@[simp] theorem Quiet.followFault_halted (k : FaultKind) (b : Bool) (s : State) :
    (Quiet.followFault k b s).halted = s.halted := (Quiet.followFault_safetyOnly k b s).halted
@[simp] theorem Quiet.followFault_inp (k : FaultKind) (b : Bool) (s : State) :
    (Quiet.followFault k b s).inp = s.inp := (Quiet.followFault_safetyOnly k b s).inp
@[simp] theorem Quiet.followFault_script (k : FaultKind) (b : Bool) (s : State) :
    (Quiet.followFault k b s).script = s.script := (Quiet.followFault_safetyOnly k b s).script
@[simp] theorem Quiet.followFault_phase (k : FaultKind) (b : Bool) (s : State) :
    (Quiet.followFault k b s).phase = s.phase := (Quiet.followFault_safetyOnly k b s).phase
@[simp] theorem Quiet.followFault_cur (k : FaultKind) (b : Bool) (s : State) :
    (Quiet.followFault k b s).cur = s.cur := (Quiet.followFault_safetyOnly k b s).cur
@[simp] theorem Quiet.followFault_pending (k : FaultKind) (b : Bool) (s : State) :
    (Quiet.followFault k b s).pending = s.pending := (Quiet.followFault_safetyOnly k b s).pending
@[simp] theorem Quiet.followFault_events (k : FaultKind) (b : Bool) (s : State) :
    (Quiet.followFault k b s).events = s.events := (Quiet.followFault_safetyOnly k b s).events
@[simp] theorem Quiet.followFault_hostResult (k : FaultKind) (b : Bool) (s : State) :
    (Quiet.followFault k b s).hostResult = s.hostResult := (Quiet.followFault_safetyOnly k b s).hostResult
@[simp] theorem Quiet.followFault_draws (k : FaultKind) (b : Bool) (s : State) :
    (Quiet.followFault k b s).draws = s.draws := (Quiet.followFault_safetyOnly k b s).draws

@[simp] theorem Quiet.followFault_bits (k j : FaultKind) (b : Bool) (s : State) :
    faultIsSet (Quiet.followFault k b s) j = if j = k then b else faultIsSet s j := by
  cases b
  · rw [show Quiet.followFault k false s = Quiet.clearFault k s from rfl, Quiet.clearFault_bits]
    by_cases h : j = k <;> simp [h]
  · rw [show Quiet.followFault k true s = Quiet.raiseFault k s from rfl, Quiet.raiseFault_bits]
    by_cases h : j = k <;> simp [h]

theorem Quiet.followFault_bit (k : FaultKind) (b : Bool) (s : State) (i : Fin 16) :
    (Quiet.followFault k b s).faultSet[i] = if i = k.index then b else s.faultSet[i] := by
  cases b
  · rw [show Quiet.followFault k false s = Quiet.clearFault k s from rfl, Quiet.clearFault_bit]
    by_cases h : i = k.index <;> simp [h]
  · rw [show Quiet.followFault k true s = Quiet.raiseFault k s from rfl, Quiet.raiseFault_bit]
    by_cases h : i = k.index <;> simp [h]

/-! ### `update_safety` -/

/-- The first decision of `update_safety` (R245). -/
def estopStep (s : State) : State := if s.stopDown then Quiet.raiseFault .estop s else s

theorem estopStep_safetyOnly (s : State) : SafetyOnly s (estopStep s) := by
  unfold estopStep
  split
  · exact Quiet.raiseFault_safetyOnly .estop s
  · exact .refl s

@[simp] theorem estopStep_cfg (s : State) :
    (estopStep s).cfg = s.cfg := (estopStep_safetyOnly s).cfg
@[simp] theorem estopStep_dir (s : State) :
    (estopStep s).dir = s.dir := (estopStep_safetyOnly s).dir
@[simp] theorem estopStep_mainPulseDur (s : State) :
    (estopStep s).mainPulseDur = s.mainPulseDur := (estopStep_safetyOnly s).mainPulseDur
@[simp] theorem estopStep_visPulseDur (s : State) :
    (estopStep s).visPulseDur = s.visPulseDur := (estopStep_safetyOnly s).visPulseDur
@[simp] theorem estopStep_mainPower (s : State) :
    (estopStep s).mainPower = s.mainPower := (estopStep_safetyOnly s).mainPower
@[simp] theorem estopStep_stopDown (s : State) :
    (estopStep s).stopDown = s.stopDown := (estopStep_safetyOnly s).stopDown
@[simp] theorem estopStep_lidOpen (s : State) :
    (estopStep s).lidOpen = s.lidOpen := (estopStep_safetyOnly s).lidOpen
@[simp] theorem estopStep_laserSel (s : State) :
    (estopStep s).laserSel = s.laserSel := (estopStep_safetyOnly s).laserSel
@[simp] theorem estopStep_dbPending (s : State) :
    (estopStep s).dbPending = s.dbPending := (estopStep_safetyOnly s).dbPending
@[simp] theorem estopStep_dbCnt (s : State) :
    (estopStep s).dbCnt = s.dbCnt := (estopStep_safetyOnly s).dbCnt
@[simp] theorem estopStep_faultOvr (s : State) :
    (estopStep s).faultOvr = s.faultOvr := (estopStep_safetyOnly s).faultOvr
@[simp] theorem estopStep_halted (s : State) :
    (estopStep s).halted = s.halted := (estopStep_safetyOnly s).halted
@[simp] theorem estopStep_inp (s : State) :
    (estopStep s).inp = s.inp := (estopStep_safetyOnly s).inp
@[simp] theorem estopStep_script (s : State) :
    (estopStep s).script = s.script := (estopStep_safetyOnly s).script
@[simp] theorem estopStep_phase (s : State) :
    (estopStep s).phase = s.phase := (estopStep_safetyOnly s).phase
@[simp] theorem estopStep_cur (s : State) :
    (estopStep s).cur = s.cur := (estopStep_safetyOnly s).cur
@[simp] theorem estopStep_pending (s : State) :
    (estopStep s).pending = s.pending := (estopStep_safetyOnly s).pending
@[simp] theorem estopStep_events (s : State) :
    (estopStep s).events = s.events := (estopStep_safetyOnly s).events
@[simp] theorem estopStep_hostResult (s : State) :
    (estopStep s).hostResult = s.hostResult := (estopStep_safetyOnly s).hostResult
@[simp] theorem estopStep_draws (s : State) :
    (estopStep s).draws = s.draws := (estopStep_safetyOnly s).draws

@[simp] theorem estopStep_bits (s : State) (j : FaultKind) :
    faultIsSet (estopStep s) j = (decide (j = .estop) && s.stopDown || faultIsSet s j) := by
  unfold estopStep
  cases s.stopDown <;> simp

theorem estopStep_bit (s : State) (i : Fin 16) :
    (estopStep s).faultSet[i] = (decide (i = 0) && s.stopDown || s.faultSet[i]) := by
  unfold estopStep
  cases s.stopDown
  · simp
  · rw [if_pos rfl, Quiet.raiseFault_bit, show FaultKind.estop.index = 0 from rfl, Bool.and_true]

/-- The lid conflicts are not changed by what `update_safety` does before it looks at them. -/
theorem lidOpenConflict_congr {s t : State} (hs : t.laserSel = s.laserSel)
    (hl : t.lidOpen = s.lidOpen) (ho : t.faultOvr = s.faultOvr) :
    lidOpenConflict t = lidOpenConflict s := by
  simp [lidOpenConflict, hs, hl, ho, faultOverridden]

theorem lidClosedConflict_congr {s t : State} (hs : t.laserSel = s.laserSel)
    (hl : t.lidOpen = s.lidOpen) (ho : t.faultOvr = s.faultOvr) :
    lidClosedConflict t = lidClosedConflict s := by
  simp [lidClosedConflict, hs, hl, ho, faultOverridden]

/-- `update_safety` before its gates, as three decisions on the state before it. -/
theorem Quiet.settleFaults_eq (s : State) :
    Quiet.settleFaults s =
      Quiet.followFault .lidClosed (lidClosedConflict s)
        (Quiet.followFault .lidOpen (lidOpenConflict s) (estopStep s)) := by
  unfold Quiet.settleFaults
  rw [show (if s.stopDown then Quiet.raiseFault .estop s else s) = estopStep s from rfl]
  simp only []
  rw [lidOpenConflict_congr (s := s) (t := estopStep s) (by simp) (by simp) (by simp)]
  rw [lidClosedConflict_congr (s := s) (by simp) (by simp) (by simp)]
theorem Quiet.settleFaults_safetyOnly (s : State) : SafetyOnly s (Quiet.settleFaults s) := by
  rw [Quiet.settleFaults_eq]
  exact ((estopStep_safetyOnly s).trans (Quiet.followFault_safetyOnly ..)).trans
    (Quiet.followFault_safetyOnly ..)

@[simp] theorem Quiet.settleFaults_cfg (s : State) :
    (Quiet.settleFaults s).cfg = s.cfg := (Quiet.settleFaults_safetyOnly s).cfg
@[simp] theorem Quiet.settleFaults_dir (s : State) :
    (Quiet.settleFaults s).dir = s.dir := (Quiet.settleFaults_safetyOnly s).dir
@[simp] theorem Quiet.settleFaults_mainPulseDur (s : State) :
    (Quiet.settleFaults s).mainPulseDur = s.mainPulseDur := (Quiet.settleFaults_safetyOnly s).mainPulseDur
@[simp] theorem Quiet.settleFaults_visPulseDur (s : State) :
    (Quiet.settleFaults s).visPulseDur = s.visPulseDur := (Quiet.settleFaults_safetyOnly s).visPulseDur
@[simp] theorem Quiet.settleFaults_mainPower (s : State) :
    (Quiet.settleFaults s).mainPower = s.mainPower := (Quiet.settleFaults_safetyOnly s).mainPower
@[simp] theorem Quiet.settleFaults_stopDown (s : State) :
    (Quiet.settleFaults s).stopDown = s.stopDown := (Quiet.settleFaults_safetyOnly s).stopDown
@[simp] theorem Quiet.settleFaults_lidOpen (s : State) :
    (Quiet.settleFaults s).lidOpen = s.lidOpen := (Quiet.settleFaults_safetyOnly s).lidOpen
@[simp] theorem Quiet.settleFaults_laserSel (s : State) :
    (Quiet.settleFaults s).laserSel = s.laserSel := (Quiet.settleFaults_safetyOnly s).laserSel
@[simp] theorem Quiet.settleFaults_dbPending (s : State) :
    (Quiet.settleFaults s).dbPending = s.dbPending := (Quiet.settleFaults_safetyOnly s).dbPending
@[simp] theorem Quiet.settleFaults_dbCnt (s : State) :
    (Quiet.settleFaults s).dbCnt = s.dbCnt := (Quiet.settleFaults_safetyOnly s).dbCnt
@[simp] theorem Quiet.settleFaults_faultOvr (s : State) :
    (Quiet.settleFaults s).faultOvr = s.faultOvr := (Quiet.settleFaults_safetyOnly s).faultOvr
@[simp] theorem Quiet.settleFaults_halted (s : State) :
    (Quiet.settleFaults s).halted = s.halted := (Quiet.settleFaults_safetyOnly s).halted
@[simp] theorem Quiet.settleFaults_inp (s : State) :
    (Quiet.settleFaults s).inp = s.inp := (Quiet.settleFaults_safetyOnly s).inp
@[simp] theorem Quiet.settleFaults_script (s : State) :
    (Quiet.settleFaults s).script = s.script := (Quiet.settleFaults_safetyOnly s).script
@[simp] theorem Quiet.settleFaults_phase (s : State) :
    (Quiet.settleFaults s).phase = s.phase := (Quiet.settleFaults_safetyOnly s).phase
@[simp] theorem Quiet.settleFaults_cur (s : State) :
    (Quiet.settleFaults s).cur = s.cur := (Quiet.settleFaults_safetyOnly s).cur
@[simp] theorem Quiet.settleFaults_pending (s : State) :
    (Quiet.settleFaults s).pending = s.pending := (Quiet.settleFaults_safetyOnly s).pending
@[simp] theorem Quiet.settleFaults_events (s : State) :
    (Quiet.settleFaults s).events = s.events := (Quiet.settleFaults_safetyOnly s).events
@[simp] theorem Quiet.settleFaults_hostResult (s : State) :
    (Quiet.settleFaults s).hostResult = s.hostResult := (Quiet.settleFaults_safetyOnly s).hostResult
@[simp] theorem Quiet.settleFaults_draws (s : State) :
    (Quiet.settleFaults s).draws = s.draws := (Quiet.settleFaults_safetyOnly s).draws

/-- The faults after `update_safety` (R245, R246): `F_ESTOP` raised by the stop switch and never
lowered, the lid faults as their conflicts, the others kept. -/
theorem Quiet.settleFaults_bits (s : State) (j : FaultKind) :
    faultIsSet (Quiet.settleFaults s) j =
      if j = .lidClosed then lidClosedConflict s
      else if j = .lidOpen then lidOpenConflict s
      else (decide (j = .estop) && s.stopDown || faultIsSet s j) := by
  rw [Quiet.settleFaults_eq, Quiet.followFault_bits, Quiet.followFault_bits, estopStep_bits]

theorem Quiet.settleFaults_bit (s : State) (i : Fin 16) :
    (Quiet.settleFaults s).faultSet[i] =
      if i = FaultKind.lidClosed.index then lidClosedConflict s
      else if i = FaultKind.lidOpen.index then lidOpenConflict s
      else (decide (i = 0) && s.stopDown || s.faultSet[i]) := by
  rw [Quiet.settleFaults_eq, Quiet.followFault_bit, Quiet.followFault_bit, estopStep_bit]

theorem Quiet.updateSafety_safetyOnly (s : State) : SafetyOnly s (Quiet.updateSafety s) :=
  (Quiet.settleFaults_safetyOnly s).trans (setGates_safetyOnly _)

@[simp] theorem Quiet.updateSafety_cfg (s : State) :
    (Quiet.updateSafety s).cfg = s.cfg := (Quiet.updateSafety_safetyOnly s).cfg
@[simp] theorem Quiet.updateSafety_dir (s : State) :
    (Quiet.updateSafety s).dir = s.dir := (Quiet.updateSafety_safetyOnly s).dir
@[simp] theorem Quiet.updateSafety_mainPulseDur (s : State) :
    (Quiet.updateSafety s).mainPulseDur = s.mainPulseDur := (Quiet.updateSafety_safetyOnly s).mainPulseDur
@[simp] theorem Quiet.updateSafety_visPulseDur (s : State) :
    (Quiet.updateSafety s).visPulseDur = s.visPulseDur := (Quiet.updateSafety_safetyOnly s).visPulseDur
@[simp] theorem Quiet.updateSafety_mainPower (s : State) :
    (Quiet.updateSafety s).mainPower = s.mainPower := (Quiet.updateSafety_safetyOnly s).mainPower
@[simp] theorem Quiet.updateSafety_stopDown (s : State) :
    (Quiet.updateSafety s).stopDown = s.stopDown := (Quiet.updateSafety_safetyOnly s).stopDown
@[simp] theorem Quiet.updateSafety_lidOpen (s : State) :
    (Quiet.updateSafety s).lidOpen = s.lidOpen := (Quiet.updateSafety_safetyOnly s).lidOpen
@[simp] theorem Quiet.updateSafety_laserSel (s : State) :
    (Quiet.updateSafety s).laserSel = s.laserSel := (Quiet.updateSafety_safetyOnly s).laserSel
@[simp] theorem Quiet.updateSafety_dbPending (s : State) :
    (Quiet.updateSafety s).dbPending = s.dbPending := (Quiet.updateSafety_safetyOnly s).dbPending
@[simp] theorem Quiet.updateSafety_dbCnt (s : State) :
    (Quiet.updateSafety s).dbCnt = s.dbCnt := (Quiet.updateSafety_safetyOnly s).dbCnt
@[simp] theorem Quiet.updateSafety_faultOvr (s : State) :
    (Quiet.updateSafety s).faultOvr = s.faultOvr := (Quiet.updateSafety_safetyOnly s).faultOvr
@[simp] theorem Quiet.updateSafety_halted (s : State) :
    (Quiet.updateSafety s).halted = s.halted := (Quiet.updateSafety_safetyOnly s).halted
@[simp] theorem Quiet.updateSafety_inp (s : State) :
    (Quiet.updateSafety s).inp = s.inp := (Quiet.updateSafety_safetyOnly s).inp
@[simp] theorem Quiet.updateSafety_script (s : State) :
    (Quiet.updateSafety s).script = s.script := (Quiet.updateSafety_safetyOnly s).script
@[simp] theorem Quiet.updateSafety_phase (s : State) :
    (Quiet.updateSafety s).phase = s.phase := (Quiet.updateSafety_safetyOnly s).phase
@[simp] theorem Quiet.updateSafety_cur (s : State) :
    (Quiet.updateSafety s).cur = s.cur := (Quiet.updateSafety_safetyOnly s).cur
@[simp] theorem Quiet.updateSafety_pending (s : State) :
    (Quiet.updateSafety s).pending = s.pending := (Quiet.updateSafety_safetyOnly s).pending
@[simp] theorem Quiet.updateSafety_events (s : State) :
    (Quiet.updateSafety s).events = s.events := (Quiet.updateSafety_safetyOnly s).events
@[simp] theorem Quiet.updateSafety_hostResult (s : State) :
    (Quiet.updateSafety s).hostResult = s.hostResult := (Quiet.updateSafety_safetyOnly s).hostResult
@[simp] theorem Quiet.updateSafety_draws (s : State) :
    (Quiet.updateSafety s).draws = s.draws := (Quiet.updateSafety_safetyOnly s).draws

@[simp] theorem Quiet.updateSafety_faultSet (s : State) :
    (Quiet.updateSafety s).faultSet = (Quiet.settleFaults s).faultSet := by
  rw [Quiet.updateSafety, setGates_faultSet]

@[simp] theorem Quiet.updateSafety_alert (s : State) :
    (Quiet.updateSafety s).alert = (Quiet.settleFaults s).alert := by
  rw [Quiet.updateSafety, setGates_alert]

@[simp] theorem Quiet.updateSafety_bits (s : State) (j : FaultKind) :
    faultIsSet (Quiet.updateSafety s) j =
      if j = .lidClosed then lidClosedConflict s
      else if j = .lidOpen then lidOpenConflict s
      else (decide (j = .estop) && s.stopDown || faultIsSet s j) := by
  rw [← Quiet.settleFaults_bits, faultIsSet_eq, Quiet.updateSafety_faultSet, faultIsSet_eq]

/-- After `update_safety` the gates are those of R242 on the state it leaves. -/
theorem Quiet.updateSafety_gates (s : State) :
    (Quiet.updateSafety s).moveOk = gateMove (Quiet.updateSafety s) ∧
    (Quiet.updateSafety s).mainOk = gateMain (Quiet.updateSafety s) ∧
    (Quiet.updateSafety s).visOk = gateVis (Quiet.updateSafety s) := by
  rw [Quiet.updateSafety]
  exact setGates_gates _

/-! ### The trap -/

/-- `Fatal` (R305), said once: the fault is raised, the halt latched, the step abandoned. -/
theorem Quiet.fatal_eq (k : FaultKind) (s : State) :
    Quiet.fatal k s = { Quiet.raiseFault k s with halted := true, phase := .idle, pending := [] } := rfl

@[simp] theorem Quiet.fatal_cfg (k : FaultKind) (s : State) : (Quiet.fatal k s).cfg = s.cfg := by
  rw [Quiet.fatal_eq, Quiet.raiseFault_cfg]
@[simp] theorem Quiet.fatal_q (k : FaultKind) (s : State) :
    (Quiet.fatal k s).q = (Quiet.raiseFault k s).q := by rw [Quiet.fatal_eq]
@[simp] theorem Quiet.fatal_tmr (k : FaultKind) (s : State) :
    (Quiet.fatal k s).tmr = (Quiet.raiseFault k s).tmr := by rw [Quiet.fatal_eq]
@[simp] theorem Quiet.fatal_dir (k : FaultKind) (s : State) : (Quiet.fatal k s).dir = s.dir := by
  rw [Quiet.fatal_eq, Quiet.raiseFault_dir]
@[simp] theorem Quiet.fatal_stepEn (k : FaultKind) (s : State) :
    (Quiet.fatal k s).stepEn = (Quiet.raiseFault k s).stepEn := by rw [Quiet.fatal_eq]
@[simp] theorem Quiet.fatal_mainMode (k : FaultKind) (s : State) :
    (Quiet.fatal k s).mainMode = (Quiet.raiseFault k s).mainMode := by rw [Quiet.fatal_eq]
@[simp] theorem Quiet.fatal_visMode (k : FaultKind) (s : State) :
    (Quiet.fatal k s).visMode = (Quiet.raiseFault k s).visMode := by rw [Quiet.fatal_eq]
@[simp] theorem Quiet.fatal_mainPulseDur (k : FaultKind) (s : State) : (Quiet.fatal k s).mainPulseDur = s.mainPulseDur := by
  rw [Quiet.fatal_eq, Quiet.raiseFault_mainPulseDur]
@[simp] theorem Quiet.fatal_visPulseDur (k : FaultKind) (s : State) : (Quiet.fatal k s).visPulseDur = s.visPulseDur := by
  rw [Quiet.fatal_eq, Quiet.raiseFault_visPulseDur]
@[simp] theorem Quiet.fatal_mainPower (k : FaultKind) (s : State) : (Quiet.fatal k s).mainPower = s.mainPower := by
  rw [Quiet.fatal_eq, Quiet.raiseFault_mainPower]
@[simp] theorem Quiet.fatal_stopDown (k : FaultKind) (s : State) : (Quiet.fatal k s).stopDown = s.stopDown := by
  rw [Quiet.fatal_eq, Quiet.raiseFault_stopDown]
@[simp] theorem Quiet.fatal_lidOpen (k : FaultKind) (s : State) : (Quiet.fatal k s).lidOpen = s.lidOpen := by
  rw [Quiet.fatal_eq, Quiet.raiseFault_lidOpen]
@[simp] theorem Quiet.fatal_moveOk (k : FaultKind) (s : State) :
    (Quiet.fatal k s).moveOk = (Quiet.raiseFault k s).moveOk := by rw [Quiet.fatal_eq]
@[simp] theorem Quiet.fatal_mainOk (k : FaultKind) (s : State) :
    (Quiet.fatal k s).mainOk = (Quiet.raiseFault k s).mainOk := by rw [Quiet.fatal_eq]
@[simp] theorem Quiet.fatal_visOk (k : FaultKind) (s : State) :
    (Quiet.fatal k s).visOk = (Quiet.raiseFault k s).visOk := by rw [Quiet.fatal_eq]
@[simp] theorem Quiet.fatal_laserSel (k : FaultKind) (s : State) : (Quiet.fatal k s).laserSel = s.laserSel := by
  rw [Quiet.fatal_eq, Quiet.raiseFault_laserSel]
@[simp] theorem Quiet.fatal_dbPending (k : FaultKind) (s : State) : (Quiet.fatal k s).dbPending = s.dbPending := by
  rw [Quiet.fatal_eq, Quiet.raiseFault_dbPending]
@[simp] theorem Quiet.fatal_dbCnt (k : FaultKind) (s : State) : (Quiet.fatal k s).dbCnt = s.dbCnt := by
  rw [Quiet.fatal_eq, Quiet.raiseFault_dbCnt]
@[simp] theorem Quiet.fatal_faultSet (k : FaultKind) (s : State) :
    (Quiet.fatal k s).faultSet = (Quiet.raiseFault k s).faultSet := by rw [Quiet.fatal_eq]
@[simp] theorem Quiet.fatal_faultOvr (k : FaultKind) (s : State) : (Quiet.fatal k s).faultOvr = s.faultOvr := by
  rw [Quiet.fatal_eq, Quiet.raiseFault_faultOvr]
@[simp] theorem Quiet.fatal_alert (k : FaultKind) (s : State) :
    (Quiet.fatal k s).alert = (Quiet.raiseFault k s).alert := by rw [Quiet.fatal_eq]
@[simp] theorem Quiet.fatal_inp (k : FaultKind) (s : State) : (Quiet.fatal k s).inp = s.inp := by
  rw [Quiet.fatal_eq, Quiet.raiseFault_inp]
@[simp] theorem Quiet.fatal_script (k : FaultKind) (s : State) : (Quiet.fatal k s).script = s.script := by
  rw [Quiet.fatal_eq, Quiet.raiseFault_script]
@[simp] theorem Quiet.fatal_cur (k : FaultKind) (s : State) : (Quiet.fatal k s).cur = s.cur := by
  rw [Quiet.fatal_eq, Quiet.raiseFault_cur]
@[simp] theorem Quiet.fatal_events (k : FaultKind) (s : State) : (Quiet.fatal k s).events = s.events := by
  rw [Quiet.fatal_eq, Quiet.raiseFault_events]
@[simp] theorem Quiet.fatal_hostResult (k : FaultKind) (s : State) : (Quiet.fatal k s).hostResult = s.hostResult := by
  rw [Quiet.fatal_eq, Quiet.raiseFault_hostResult]
@[simp] theorem Quiet.fatal_draws (k : FaultKind) (s : State) : (Quiet.fatal k s).draws = s.draws := by
  rw [Quiet.fatal_eq, Quiet.raiseFault_draws]
@[simp] theorem Quiet.fatal_halted (k : FaultKind) (s : State) : (Quiet.fatal k s).halted = true := by
  rw [Quiet.fatal_eq]
@[simp] theorem Quiet.fatal_phase (k : FaultKind) (s : State) : (Quiet.fatal k s).phase = .idle := by
  rw [Quiet.fatal_eq]
@[simp] theorem Quiet.fatal_pending (k : FaultKind) (s : State) : (Quiet.fatal k s).pending = [] := by
  rw [Quiet.fatal_eq]
@[simp] theorem Quiet.fatal_bits (k j : FaultKind) (s : State) :
    faultIsSet (Quiet.fatal k s) j = (decide (j = k) || faultIsSet s j) := by
  rw [faultIsSet_eq, Quiet.fatal_faultSet, ← faultIsSet_eq, Quiet.raiseFault_bits]

/-- Setting a bit that is set writes nothing. -/
theorem faultSet_set_same {s : State} {k : FaultKind} (h : faultIsSet s k = true) :
    s.faultSet.set k.index true = s.faultSet := by
  ext j hj
  rw [Vector.getElem_set]
  split
  · next e => subst e; exact h.symm
  · rfl

/-- With no handler for the fault, `Fatal` only records it and halts (R305). -/
theorem Quiet.fatal_frame {k : FaultKind} {s : State} (h : (s.cfg.handlerOf k).raised = .done) :
    Quiet.fatal k s =
      { s with
        faultSet := s.faultSet.set k.index true, alert := s.alert || !faultIsSet s k,
        halted := true, phase := .idle, pending := [] } := by
  rw [Quiet.fatal_eq]
  rcases Quiet.raiseFault_cases k s with ⟨hs, e⟩ | ⟨hs, e⟩ <;> rw [e]
  · rw [faultSet_set_same hs, hs, Bool.not_true, Bool.or_false]
  · rw [h, hs, Bool.not_false, Bool.or_true]
    rfl

end Sys2Proof.Machine
end

