-- ==== Sys2Proof/Laws/Engine.lean ====
section
/-! SUPPORT. The engine mask and the engine state (10_state.md R36), and what changes them. -/

namespace Sys2Proof.Machine

/-- The engine mask is zero exactly when no channel runs (R36). -/
theorem engineMask_eq_zero (s : State) :
    engineMask s = 0b0000#4 ↔ ∀ c, (s.q.get c).running = false := by
  have key : ∀ a b c d : Bool,
      (BitVec.ofBool d ++ BitVec.ofBool c ++ BitVec.ofBool b ++ BitVec.ofBool a = 0b0000#4) ↔
        (a = false ∧ b = false ∧ c = false ∧ d = false) := by decide
  refine (key s.q.x.running s.q.y.running s.q.z.running s.q.l.running).trans ?_
  constructor
  · rintro ⟨hx, hy, hz, hl⟩ c
    cases c
    · exact hx
    · exact hy
    · exact hz
    · exact hl
  · intro h
    exact ⟨h .x, h .y, h .z, h .l⟩

/-- The engine mask is full exactly when every channel runs (R36). -/
theorem engineMask_eq_full (s : State) :
    engineMask s = 0b1111#4 ↔ ∀ c, (s.q.get c).running = true := by
  have key : ∀ a b c d : Bool,
      (BitVec.ofBool d ++ BitVec.ofBool c ++ BitVec.ofBool b ++ BitVec.ofBool a = 0b1111#4) ↔
        (a = true ∧ b = true ∧ c = true ∧ d = true) := by decide
  refine (key s.q.x.running s.q.y.running s.q.z.running s.q.l.running).trans ?_
  constructor
  · rintro ⟨hx, hy, hz, hl⟩ c
    cases c
    · exact hx
    · exact hy
    · exact hz
    · exact hl
  · intro h
    exact ⟨h .x, h .y, h .z, h .l⟩

theorem engineState_eq_stopped (s : State) :
    engineState s = .stopped ↔ ∀ c, (s.q.get c).running = false := by
  rw [← engineMask_eq_zero]
  unfold engineState
  split
  · simp [*]
  · split <;> simp [*]

theorem engineState_eq_running (s : State) :
    engineState s = .running ↔ ∀ c, (s.q.get c).running = true := by
  rw [← engineMask_eq_full]
  unfold engineState
  split
  · simp [*]
  · split <;> simp [*]

theorem engineState_eq_stopping (s : State) :
    engineState s = .stopping ↔
      (∃ c, (s.q.get c).running = true) ∧ (∃ c, (s.q.get c).running = false) := by
  have h1 := engineState_eq_stopped s
  have h2 := engineState_eq_running s
  have hs : engineState s = .stopping ↔ ¬ engineState s = .stopped ∧ ¬ engineState s = .running := by
    cases engineState s <;> simp
  rw [hs, h1, h2]
  simp

/-- The engine state depends on the running flags only (R36). -/
theorem engineState_congr {s t : State} (h : ∀ c, (t.q.get c).running = (s.q.get c).running) :
    engineState t = engineState s := by
  have h1 := engineState_eq_stopped s
  have h2 := engineState_eq_running s
  have h3 := engineState_eq_stopped t
  have h4 := engineState_eq_running t
  simp only [h] at h3 h4
  rw [← h1] at h3
  rw [← h2] at h4
  cases hs : engineState s <;> cases ht : engineState t <;> simp_all

/-- After the immediate stop the engine is stopped (R218). -/
theorem stopEngine_stopped (s : State) : engineState (stopEngine s) = .stopped := by
  rw [engineState_eq_stopped]
  intro c
  rw [stopEngine_eq]
  simp

/-- A safety operation leaves a stopped engine stopped (R218, R252). -/
theorem SafetyOnly.stopped {s t : State} (h : SafetyOnly s t) (hs : engineState s = .stopped) :
    engineState t = .stopped := by
  rw [engineState_eq_stopped] at *
  intro c
  rcases h.channels c with ⟨e, -⟩ | ⟨e, -⟩ <;> rw [e]
  · exact hs c
  · rfl

/-- A handler with an immediate stop leaves the engine stopped (R252). -/
theorem Quiet.runActions_stopped {p : HandlerProg} (h : p.has .stopEngineImmediately = true)
    (s : State) : engineState (Quiet.runActions p s) = .stopped := by
  rw [Quiet.runActions_eq, h, stopIf, if_pos rfl]
  exact stopEngine_stopped _

/-- Reading a slot after one queue has been written. -/
theorem slotRead_set_queue (s : State) (c d : Channel) (u : Queue) (i : Fin 128) :
    slotRead (s.withQ (s.q.set c u)) d i = if d = c then u.buf[i] else slotRead s d i := by
  simp only [slotRead, State.withQ_q, PerChan.get_set]
  by_cases h : d = c <;> simp [h]

end Sys2Proof.Machine
end

