-- ==== Sys2Proof/Laws/Handlers.lean ====
section
/-! SUPPORT. How the operations that run handlers end. For regular handlers: in the states Laws/Ops.lean
says (R251, R253). For any handlers: with the configuration, the inputs and the environment's fields
as they were. -/

namespace Sys2Proof

theorem Config.regular_row {cfg : Config} (h : cfg.handlersRegular = true) (k : FaultKind) :
    (cfg.handlerOf k).regular k = true := by
  simp only [Config.handlersRegular, Bool.and_eq_true, List.all_eq_true] at h
  exact h.1.1 k (by cases k <;> decide)

/-- A regular handler of a raise is a plain one. -/
theorem Config.regular_raised {cfg : Config} (h : cfg.handlersRegular = true) (k : FaultKind) :
    (cfg.handlerOf k).raised.plain = true := by
  have := Config.regular_row h k
  simp only [HandlerRow.regular, Bool.and_eq_true] at this
  exact this.1

/-- A regular handler of a lowering is a plain one, or one that ends in `update_safety` and is not
of a lid fault. -/
theorem Config.regular_lowered {cfg : Config} (h : cfg.handlersRegular = true) (k : FaultKind) :
    (cfg.handlerOf k).lowered.plain = true ∨
      ((cfg.handlerOf k).lowered.settles = true ∧ k ≠ .lidOpen ∧ k ≠ .lidClosed) := by
  have := Config.regular_row h k
  simp only [HandlerRow.regular, Bool.and_eq_true, Bool.or_eq_true, decide_eq_true_eq] at this
  exact this.2.imp id fun e => ⟨e.1.1, e.1.2, e.2⟩

/-- Raising `F_ESTOP` sets the gates (R252). -/
theorem Config.regular_estop_raised {cfg : Config} (h : cfg.handlersRegular = true) :
    (cfg.handlerOf .estop).raised.has .setGates = true := by
  simp only [Config.handlersRegular, Bool.and_eq_true] at h
  exact h.1.2

/-- Lowering `F_ESTOP` sets the gates or runs `update_safety` (R252). -/
theorem Config.regular_estop_lowered {cfg : Config} (h : cfg.handlersRegular = true) :
    (cfg.handlerOf .estop).lowered.has .setGates = true ∨
      (cfg.handlerOf .estop).lowered.settles = true := by
  simp only [Config.handlersRegular, Bool.and_eq_true, Bool.or_eq_true] at h
  exact h.2

/-- The default of `HANDLER` is regular (R252). -/
theorem Config.regular_of_default {cfg : Config} (h : cfg.handler = Config.referenceHandler) :
    cfg.handlersRegular = true := by
  have : Config.reference.handlersRegular = true := by decide
  have e : cfg.handlerOf = Config.reference.handlerOf := by
    funext k
    unfold Config.handlerOf
    rw [h]
    rfl
  unfold Config.handlersRegular at *
  rw [e]
  exact this

theorem HandlerProg.not_settles {p : HandlerProg} (h : p.plain = true) : p.settles = false := by
  induction p with
  | done => rfl
  | branch => rfl
  | act a p ih => cases a <;> simp_all [HandlerProg.plain, HandlerProg.settles]

end Sys2Proof

namespace Sys2Proof.Machine

@[simp] theorem Ran.on_andThen (s : State) (f : State → Ran) : (Ran.on s).andThen f = f s := rfl
@[simp] theorem Ran.abandoned_andThen (s : State) (f : State → Ran) :
    (Ran.abandoned s).andThen f = .abandoned s := rfl
@[simp] theorem Ran.endless_andThen (f : State → Ran) : Ran.endless.andThen f = .endless := rfl
@[simp] theorem Ran.on_atEnd (s : State) (f : State → State) : (Ran.on s).atEnd f = .on (f s) := rfl
@[simp] theorem Ran.abandoned_atEnd (s : State) (f : State → State) :
    (Ran.abandoned s).atEnd f = .abandoned (f s) := rfl
@[simp] theorem Ran.endless_atEnd (f : State → State) : Ran.endless.atEnd f = .endless := rfl
@[simp] theorem Ran.on_outcome (s : State) : (Ran.on s).outcome = .next s := rfl
@[simp] theorem Ran.abandoned_outcome (s : State) : (Ran.abandoned s).outcome = .next s := rfl
@[simp] theorem Ran.endless_outcome : Ran.endless.outcome = .refused .endlessHandler := rfl

/-! ### Regular handlers -/

/-- A plain procedure runs its stops and gate computations, and ends. -/
theorem runProg_plain (run : HandlerProg → State → Ran) {p : HandlerProg} (h : p.plain = true)
    (s : State) : runProg (actionWith run) p s = .on (Quiet.runActions p s) := by
  induction p generalizing s with
  | done => rfl
  | branch => cases h
  | act a p ih =>
    cases a
    case stopEngineImmediately => exact ih h _
    case setGates => exact ih h _
    all_goals cases h

/-- A procedure that ends in `update_safety` ends as that does. -/
theorem runProg_settles (run : HandlerProg → State → Ran) {p : HandlerProg}
    (h : p.settles = true) (s : State) :
    runProg (actionWith run) p s = updateSafetyWith run (Quiet.runActions p s) := by
  induction p generalizing s with
  | done => cases h
  | branch => cases h
  | act a p ih =>
    cases a
    case stopEngineImmediately => exact ih h _
    case setGates => exact ih h _
    case updateSafety =>
      have hp : p = .done := of_decide_eq_true h
      subst hp
      show (updateSafetyWith run s).andThen .on = updateSafetyWith run s
      cases updateSafetyWith run s <;> rfl
    all_goals cases h

theorem runHandler_plain (n : Nat) {p : HandlerProg} (h : p.plain = true) (s : State) :
    runHandler (n + 1) p s = .on (Quiet.runActions p s) := runProg_plain _ h s

theorem raiseWith_regular (n : Nat) (k : FaultKind) {s : State}
    (h : (s.cfg.handlerOf k).raised.plain = true) :
    raiseWith (runHandler (n + 1)) k s = .on (Quiet.raiseFault k s) := by
  unfold raiseWith Quiet.raiseFault
  split
  · rfl
  · exact runHandler_plain n h _

theorem lowerWith_plain (n : Nat) (k : FaultKind) {s : State}
    (h : (s.cfg.handlerOf k).lowered.plain = true) :
    lowerWith (runHandler (n + 1)) k s = .on (Quiet.clearFault k s) := by
  unfold lowerWith Quiet.clearFault
  split
  · exact runHandler_plain n h _
  · rfl

theorem followWith_regular (n : Nat) (k : FaultKind) (b : State → Bool) {s : State}
    (h1 : (s.cfg.handlerOf k).raised.plain = true)
    (h2 : (s.cfg.handlerOf k).lowered.plain = true) :
    followWith (runHandler (n + 1)) k b s = .on (Quiet.followFault k (b s) s) := by
  unfold followWith Quiet.followFault
  split
  · exact raiseWith_regular n k h1
  · exact lowerWith_plain n k h2

theorem updateSafetyWith_regular (n : Nat) {s : State} (h : s.cfg.handlersRegular = true) :
    updateSafetyWith (runHandler (n + 1)) s = .on (Quiet.updateSafety s) := by
  have hl : ∀ k, k = .lidOpen ∨ k = .lidClosed → (s.cfg.handlerOf k).lowered.plain = true :=
    fun k hk => (Config.regular_lowered h k).resolve_right fun e => hk.elim e.2.1 e.2.2
  have h1 : (if s.stopDown then raiseWith (runHandler (n + 1)) .estop s else .on s) =
      .on (estopStep s) := by
    unfold estopStep
    split
    · exact raiseWith_regular n _ (Config.regular_raised h _)
    · rfl
  have h2 := followWith_regular n .lidOpen lidOpenConflict (s := estopStep s)
    (by rw [estopStep_cfg]; exact Config.regular_raised h _)
    (by rw [estopStep_cfg]; exact hl _ (.inl rfl))
  have h3 := followWith_regular n .lidClosed lidClosedConflict
    (s := Quiet.followFault .lidOpen (lidOpenConflict (estopStep s)) (estopStep s))
    (by rw [Quiet.followFault_cfg, estopStep_cfg]; exact Config.regular_raised h _)
    (by rw [Quiet.followFault_cfg, estopStep_cfg]; exact hl _ (.inr rfl))
  unfold updateSafetyWith
  rw [h1, Ran.on_andThen, h2, Ran.on_andThen, h3, Ran.on_andThen]
  rfl

theorem lowerWith_regular (n : Nat) (k : FaultKind) {s : State}
    (h : s.cfg.handlersRegular = true) :
    lowerWith (runHandler (n + 2)) k s = .on (Quiet.lowerFault k s) := by
  rcases Config.regular_lowered h k with hp | ⟨hs, -, -⟩
  · rw [lowerWith_plain (n + 1) k hp, Quiet.lowerFault, HandlerProg.not_settles hp]
    cases hk : faultIsSet s k
    · rw [if_neg Bool.false_ne_true, Quiet.clearFault, hk, if_neg Bool.false_ne_true]
    · rw [if_pos rfl, if_neg Bool.false_ne_true]
  · unfold lowerWith Quiet.lowerFault Quiet.clearFault
    rw [hs]
    split
    · rw [if_pos rfl]
      refine (runProg_settles _ hs _).trans (updateSafetyWith_regular n ?_)
      rw [Quiet.runActions_cfg]
      exact h
    · rfl

/-- What runs a handler has room for two handlers one inside the other (R253). -/
theorem handle_eq : ∃ n, handle = runHandler (n + 2) := by
  refine ⟨2 ^ 80 - 2, ?_⟩
  funext p s
  show runHandler (2 ^ 80) p s = _
  congr 1

/-- With a plain handler `raise_fault` ends in its state (R249). -/
theorem raiseFault_plain (k : FaultKind) {s : State} (h : (s.cfg.handlerOf k).raised.plain = true) :
    raiseFault k s = .on (Quiet.raiseFault k s) := by
  obtain ⟨n, e⟩ := handle_eq
  rw [raiseFault, e]
  exact raiseWith_regular (n + 1) k h

/-- With a plain handler `lower_fault` ends in its state (R250). -/
theorem lowerFault_plain (k : FaultKind) {s : State}
    (h : (s.cfg.handlerOf k).lowered.plain = true) :
    lowerFault k s = .on (Quiet.clearFault k s) := by
  obtain ⟨n, e⟩ := handle_eq
  rw [lowerFault, e]
  exact lowerWith_plain (n + 1) k h

/-- With regular handlers `raise_fault` ends in its state (R249, R253). -/
theorem raiseFault_regular (k : FaultKind) {s : State} (h : s.cfg.handlersRegular = true) :
    raiseFault k s = .on (Quiet.raiseFault k s) :=
  raiseFault_plain k (Config.regular_raised h k)

/-- With regular handlers `lower_fault` ends in its state (R250, R253). -/
theorem lowerFault_regular (k : FaultKind) {s : State} (h : s.cfg.handlersRegular = true) :
    lowerFault k s = .on (Quiet.lowerFault k s) := by
  obtain ⟨n, e⟩ := handle_eq
  rw [lowerFault, e]
  exact lowerWith_regular n k h

/-- With regular handlers `update_safety` ends in its state (R245, R253). -/
theorem updateSafety_regular {s : State} (h : s.cfg.handlersRegular = true) :
    updateSafety s = .on (Quiet.updateSafety s) := by
  obtain ⟨n, e⟩ := handle_eq
  rw [updateSafety, e]
  exact updateSafetyWith_regular (n + 1) h

/-- With a plain handler `Fatal` ends in its state, and the step with it (R305). -/
theorem fatal_plain (k : FaultKind) {s : State} (h : (s.cfg.handlerOf k).raised.plain = true) :
    fatal k s = .abandoned (Quiet.fatal k s) := by
  show (raiseFault k s).andThen _ = _
  rw [raiseFault_plain k h]
  rfl

theorem fatal_regular (k : FaultKind) {s : State} (h : s.cfg.handlersRegular = true) :
    fatal k s = .abandoned (Quiet.fatal k s) := fatal_plain k (Config.regular_raised h k)

/-- With no handler for the fault, `Fatal` only records it and halts (R305). -/
theorem fatal_done (k : FaultKind) {s : State} (h : (s.cfg.handlerOf k).raised = .done) :
    fatal k s = .abandoned
      { s with
        faultSet := s.faultSet.set k.index true, alert := s.alert || !faultIsSet s k,
        halted := true, phase := .idle, pending := [] } := by
  rw [fatal_plain k (by rw [h]; rfl), Quiet.fatal_frame h]

/-- With regular handlers `reset` ends in its state (R340). -/
theorem resetBlock_regular {s : State} (h : s.cfg.handlersRegular = true) :
    resetBlock s = .on (Quiet.updateSafety (clearBlock s)) := by
  have e : (clearBlock s).cfg = s.cfg := by unfold clearBlock; rfl
  have h' : (clearBlock s).cfg.handlersRegular = true := by rw [e]; exact h
  unfold resetBlock resetWith
  exact updateSafety_regular h'

/-- With the stop input at 0 `reset` runs no handler, so it ends so for every `HANDLER` (R340). -/
theorem resetBlock_switchUp {s : State} (h : s.inp.stopRaw = false) :
    resetBlock s = .on (Quiet.updateSafety (clearBlock s)) := by
  have h1 : (clearBlock s).stopDown = false := by unfold clearBlock; exact h
  have h2 : lidOpenConflict (clearBlock s) = false := by unfold clearBlock; rfl
  have h3 : lidClosedConflict (clearBlock s) = false := by unfold clearBlock; rfl
  have h4 : ∀ k, faultIsSet (clearBlock s) k = false := fun k => by
    unfold clearBlock faultIsSet
    simp
  have low : ∀ k, lowerWith handle k (clearBlock s) = .on (clearBlock s) := fun k =>
    if_neg (by rw [h4]; exact Bool.false_ne_true)
  have quiet : ∀ k, Quiet.clearFault k (clearBlock s) = clearBlock s := fun k =>
    if_neg (by rw [h4]; exact Bool.false_ne_true)
  have e : estopStep (clearBlock s) = clearBlock s := if_neg (by rw [h1]; exact Bool.false_ne_true)
  rw [Quiet.updateSafety, Quiet.settleFaults_eq, e, h2]
  unfold resetBlock resetWith updateSafetyWith followWith Quiet.followFault
  simp only [h1, h2, h3, low, quiet, Bool.false_eq_true, if_false, Ran.on_andThen]

/-- How `reset` ends (R340): with the stop input at 0 for every `HANDLER`, else for regular ones. -/
theorem resetBlock_ends {s : State} (h : s.inp.stopRaw = true → s.cfg.handlersRegular = true) :
    resetBlock s = .on (Quiet.updateSafety (clearBlock s)) := by
  cases hs : s.inp.stopRaw
  · exact resetBlock_switchUp hs
  · exact resetBlock_regular (h hs)

/-! ### Any handlers -/

/-- However an operation ends, its state meets `P`. -/
def Ran.All (P : State → Prop) : Ran → Prop
  | .on s => P s
  | .abandoned s => P s
  | .endless => True

theorem Ran.All.andThen {P : State → Prop} {r : Ran} {f : State → Ran} (h : r.All P)
    (k : ∀ t, P t → (f t).All P) : (r.andThen f).All P := by
  cases r with
  | on s => exact k s h
  | abandoned s => exact h
  | endless => trivial

/-- What an operation that ends leaves. -/
theorem Ran.All.outcome {P : State → Prop} {r : Ran} {t : State} (h : r.All P)
    (e : r.outcome = .next t) : P t := by
  cases r <;> cases e <;> exact h

/-- What no operation of the block writes, whatever its handlers do: the configuration, the inputs
and what the environment's steps keep (R6, R60). -/
structure EnvKept (s t : State) : Prop where
  cfg : t.cfg = s.cfg
  inp : t.inp = s.inp
  script : t.script = s.script
  cur : t.cur = s.cur
  events : t.events = s.events
  hostResult : t.hostResult = s.hostResult

theorem EnvKept.refl (s : State) : EnvKept s s := by constructor <;> rfl

theorem EnvKept.trans {s t u : State} (h : EnvKept s t) (k : EnvKept t u) : EnvKept s u where
  cfg := k.cfg.trans h.cfg
  inp := k.inp.trans h.inp
  script := k.script.trans h.script
  cur := k.cur.trans h.cur
  events := k.events.trans h.events
  hostResult := k.hostResult.trans h.hostResult

theorem clearBlock_envKept (s : State) : EnvKept s (clearBlock s) := by
  unfold clearBlock
  constructor <;> rfl

/-- An operation, however it ends, leaves the environment's fields. -/
def Keeps (f : State → Ran) : Prop := ∀ s, (f s).All (EnvKept s)

theorem Keeps.after {f : State → Ran} (h : Keeps f) {s t : State} (k : EnvKept s t) :
    (f t).All (EnvKept s) := by
  have := h t
  cases hf : f t <;> rw [hf] at this
  · exact k.trans this
  · exact k.trans this
  · trivial

theorem Keeps.andThen {f g : State → Ran} (h : Keeps f) (k : Keeps g) :
    Keeps fun s => (f s).andThen g := fun s => (h s).andThen fun _ => k.after

section
variable {run : HandlerProg → State → Ran} (hr : ∀ p, Keeps (run p))
include hr

theorem raiseWith_keeps (k : FaultKind) : Keeps (raiseWith run k) := fun s => by
  unfold raiseWith
  split
  · exact .refl s
  · exact (hr _).after (by constructor <;> rfl)

theorem lowerWith_keeps (k : FaultKind) : Keeps (lowerWith run k) := fun s => by
  unfold lowerWith
  split
  · exact (hr _).after (by constructor <;> rfl)
  · exact .refl s

theorem fatalWith_keeps (k : FaultKind) : Keeps (fatalWith run k) := fun s =>
  (raiseWith_keeps hr k s).andThen fun t h => by
    exact h.trans (by constructor <;> rfl)

theorem followWith_keeps (k : FaultKind) (b : State → Bool) : Keeps (followWith run k b) :=
  fun s => by
    unfold followWith
    split
    · exact raiseWith_keeps hr k s
    · exact lowerWith_keeps hr k s

theorem updateSafetyWith_keeps : Keeps (updateSafetyWith run) := fun s => by
  unfold updateSafetyWith
  refine ((Ran.All.andThen ?_ fun t => (followWith_keeps hr _ _).after).andThen
    fun t => (followWith_keeps hr _ _).after).andThen fun t h => h.trans (by constructor <;> rfl)
  split
  · exact raiseWith_keeps hr _ s
  · exact .refl s

theorem startEngineWith_keeps : Keeps (startEngineWith run) := fun s => by
  unfold startEngineWith
  split
  · show EnvKept s _
    constructor <;> rfl
  · exact fatalWith_keeps hr _ s

theorem maybeStartEngineWith_keeps : Keeps (maybeStartEngineWith run) := fun s => by
  unfold maybeStartEngineWith
  split
  · exact startEngineWith_keeps hr s
  · exact .refl s

theorem enqueueWith_keeps (c : Channel) (a : Word) : Keeps (enqueueWith run c a) := fun s => by
  unfold enqueueWith
  split
  · exact fatalWith_keeps hr _ s
  · show EnvKept s _
    constructor <;> rfl

theorem actionWith_keeps (a : HandlerAction) : Keeps (actionWith run a) := fun s => by
  cases a
  case stopEngineImmediately => show EnvKept s _; constructor <;> rfl
  case setGates => show EnvKept s _; constructor <;> rfl
  case updateSafety => exact updateSafetyWith_keeps hr s
  case raiseFault k => exact raiseWith_keeps hr k s
  case lowerFault k => exact lowerWith_keeps hr k s
  case fatal k => exact fatalWith_keeps hr k s
  case enqueue c a => exact enqueueWith_keeps hr c a s
  case startEngine => exact startEngineWith_keeps hr s
  case maybeStartEngine => exact maybeStartEngineWith_keeps hr s
  case setLaserSelect v => exact (updateSafetyWith_keeps hr).after (by constructor <;> rfl)
  case setOverride w b => exact (updateSafetyWith_keeps hr).after (by constructor <;> rfl)
  case reset => exact (updateSafetyWith_keeps hr).after (clearBlock_envKept s)

end

theorem runProg_keeps {act : HandlerAction → State → Ran} (h : ∀ a, Keeps (act a))
    (p : HandlerProg) : Keeps (runProg act p) := by
  induction p with
  | done => exact .refl
  | act a p ih => exact (h a).andThen ih
  | branch c p p' ih ih' =>
    intro s
    unfold runProg
    split
    · exact ih s
    · exact ih' s

/-- No handler writes the configuration, the inputs or the environment's fields (R6, R60). -/
theorem runHandler_keeps (n : Nat) (p : HandlerProg) : Keeps (runHandler n p) := by
  induction n generalizing p with
  | zero => exact fun _ => trivial
  | succ n ih => exact runProg_keeps (fun a => actionWith_keeps ih a) p

theorem handle_keeps (p : HandlerProg) : Keeps (handle p) := runHandler_keeps _ p

/-- The operations a handler may run are the operations of the block: none writes them. -/
theorem action_keeps (a : HandlerAction) : Keeps (actionWith handle a) :=
  actionWith_keeps handle_keeps a

end Sys2Proof.Machine
end

