-- ==== Sys2Proof/Laws/Endless.lean ====
section
/-! SUPPORT. Which handlers end (93_implementation_defined.md section 1, "a terminating procedure"): one
that ends with so many handlers one inside the other ends the same way with more; what it does next
depends on finitely many facts about the state; so there is a depth at which every handler that
ends at all has ended (log 6). -/

namespace Sys2Proof.Machine

/-! ### Deeper runs -/

/-- The procedures that raising and lowering run (R252). -/
def calledProg (cfg : Config) : FaultKind × Bool → HandlerProg
  | (k, true) => (cfg.handlerOf k).raised
  | (k, false) => (cfg.handlerOf k).lowered

/-- From every state over `s0`'s configuration and inputs in which `f` ends, `g` ends the same way. -/
def Extends (s0 : State) (f g : State → Ran) : Prop :=
  ∀ s, s.cfg = s0.cfg → s.inp = s0.inp → f s ≠ .endless → g s = f s

theorem Extends.refl (s0 : State) (f : State → Ran) : Extends s0 f f := fun _ _ _ _ => rfl

theorem Extends.andThen {s0 : State} {f g f' g' : State → Ran} (h : Extends s0 f g) (hf : Keeps f)
    (h' : Extends s0 f' g') :
    Extends s0 (fun s => (f s).andThen f') (fun s => (g s).andThen g') := by
  intro s hc hi hne
  have hk := hf s
  have e : f s ≠ .endless := fun e => hne (by simp only [e]; rfl)
  show (g s).andThen g' = (f s).andThen f'
  rw [h s hc hi e]
  cases e' : f s with
  | on t =>
    rw [e'] at hk
    refine h' t (hk.cfg.trans hc) (hk.inp.trans hi) fun e => hne ?_
    simp only [e']
    exact e
  | abandoned t => rfl
  | endless => exact absurd e' e

section
variable {s0 : State} {run run' : HandlerProg → State → Ran} (hk : ∀ p, Keeps (run p))
  (hr : ∀ x, Extends s0 (run (calledProg s0.cfg x)) (run' (calledProg s0.cfg x)))

include hr in
theorem raiseWith_extends (k : FaultKind) : Extends s0 (raiseWith run k) (raiseWith run' k) := by
  intro s hc hi hne
  unfold raiseWith at *
  split at hne
  · next h => rw [if_pos h, if_pos h]
  · next h =>
    rw [if_neg h, if_neg h]
    rw [hc] at hne ⊢
    exact hr (k, true) _ hc hi hne

include hr in
theorem lowerWith_extends (k : FaultKind) : Extends s0 (lowerWith run k) (lowerWith run' k) := by
  intro s hc hi hne
  unfold lowerWith at *
  split at hne
  · next h =>
    rw [if_pos h, if_pos h]
    rw [hc] at hne ⊢
    exact hr (k, false) _ hc hi hne
  · next h => rw [if_neg h, if_neg h]

include hr in
theorem fatalWith_extends (k : FaultKind) : Extends s0 (fatalWith run k) (fatalWith run' k) := by
  intro s hc hi hne
  unfold fatalWith at *
  rw [raiseWith_extends hr k s hc hi fun e => hne (by rw [e]; rfl)]

include hr in
theorem followWith_extends (k : FaultKind) (b : State → Bool) :
    Extends s0 (followWith run k b) (followWith run' k b) := by
  intro s hc hi hne
  unfold followWith at *
  split at hne
  · next h => rw [if_pos h, if_pos h]; exact raiseWith_extends hr k s hc hi hne
  · next h => rw [if_neg h, if_neg h]; exact lowerWith_extends hr k s hc hi hne

include hk hr

theorem updateSafetyWith_extends : Extends s0 (updateSafetyWith run) (updateSafetyWith run') := by
  have h1 : Extends s0 (fun s => if s.stopDown then raiseWith run .estop s else .on s)
      (fun s => if s.stopDown then raiseWith run' .estop s else .on s) := by
    intro s hc hi hne
    simp only [] at *
    split at hne
    · next h => rw [if_pos h, if_pos h]; exact raiseWith_extends hr _ s hc hi hne
    · next h => rw [if_neg h, if_neg h]
  have k1 : Keeps (fun s => if s.stopDown then raiseWith run .estop s else .on s) := fun s => by
    simp only []
    split
    · exact raiseWith_keeps hk _ s
    · exact .refl s
  have h2 := h1.andThen k1 (followWith_extends hr .lidOpen lidOpenConflict)
  have k2 := k1.andThen (followWith_keeps hk .lidOpen lidOpenConflict)
  have h3 := h2.andThen k2 (followWith_extends hr .lidClosed lidClosedConflict)
  exact h3.andThen (k2.andThen (followWith_keeps hk .lidClosed lidClosedConflict)) (Extends.refl _ _)

theorem actionWith_extends (a : HandlerAction) :
    Extends s0 (actionWith run a) (actionWith run' a) := by
  have start : Extends s0 (startEngineWith run) (startEngineWith run') := by
    intro s hc hi hne
    unfold startEngineWith at *
    split at hne
    · next h => rw [if_pos h, if_pos h]
    · next h => rw [if_neg h, if_neg h]; exact fatalWith_extends hr _ s hc hi hne
  have safety := updateSafetyWith_extends hk hr
  cases a
  case stopEngineImmediately => exact Extends.refl _ _
  case setGates => exact Extends.refl _ _
  case updateSafety => exact safety
  case raiseFault k => exact raiseWith_extends hr k
  case lowerFault k => exact lowerWith_extends hr k
  case fatal k => exact fatalWith_extends hr k
  case enqueue c a =>
    intro s hc hi hne
    simp only [actionWith, enqueueWith] at *
    split at hne
    · next h => rw [if_pos h, if_pos h]; exact fatalWith_extends hr _ s hc hi hne
    · next h => rw [if_neg h, if_neg h]
  case startEngine => exact start
  case maybeStartEngine =>
    intro s hc hi hne
    simp only [actionWith, maybeStartEngineWith] at *
    split at hne
    · next h => rw [if_pos h, if_pos h]; exact start s hc hi hne
    · next h => rw [if_neg h, if_neg h]
  case setLaserSelect v => exact fun s hc hi hne => safety (s.withLaserSel v) hc hi hne
  case setOverride w b => exact fun s hc hi hne => safety (s.withFaultOvr _) hc hi hne
  case reset =>
    intro s hc hi hne
    have h := clearBlock_envKept s
    exact safety (clearBlock s) (h.cfg.trans hc) (h.inp.trans hi) hne

theorem runProg_extends (p : HandlerProg) :
    Extends s0 (runProg (actionWith run) p) (runProg (actionWith run') p) := by
  induction p with
  | done => exact Extends.refl _ _
  | act a p ih => exact (actionWith_extends hk hr a).andThen (actionWith_keeps hk a) ih
  | branch c p p' ih ih' =>
    intro s hc hi hne
    simp only [runProg] at *
    split at hne
    · next h => rw [if_pos h, if_pos h]; exact ih s hc hi hne
    · next h => rw [if_neg h, if_neg h]; exact ih' s hc hi hne

end

/-- A handler that ends with so many handlers one inside the other ends so with one more. -/
theorem runHandler_succ_extends (s0 : State) (n : Nat) (p : HandlerProg) :
    Extends s0 (runHandler n p) (runHandler (n + 1) p) := by
  induction n generalizing p with
  | zero => exact fun s _ _ hne => absurd rfl hne
  | succ n ih => exact runProg_extends (runHandler_keeps n) (fun x => ih _) p

/-- A handler that ends with so many handlers one inside the other ends so with any more. -/
theorem runHandler_mono {n m : Nat} (h : n ≤ m) {p : HandlerProg} {s : State}
    (hne : runHandler n p s ≠ .endless) : runHandler m p s = runHandler n p s := by
  induction m, h using Nat.le_induction with
  | base => rfl
  | succ m _ ih =>
    rw [← ih] at hne ⊢
    exact runHandler_succ_extends s m p s rfl rfl hne

/-- Where one more level makes no called procedure end that did not, no number of levels more makes
any procedure end that did not. -/
theorem runHandler_settled {s0 : State} {j : Nat}
    (h : ∀ x, Extends s0 (runHandler (j + 1) (calledProg s0.cfg x)) (runHandler j (calledProg s0.cfg x)))
    {m : Nat} (hm : j < m) (p : HandlerProg) :
    Extends s0 (runHandler m p) (runHandler (j + 1) p) := by
  induction m, hm using Nat.le_induction generalizing p with
  | base => exact Extends.refl _ _
  | succ m hm ih =>
    refine runProg_extends (runHandler_keeps m) (fun x s hc hi hne => ?_) p
    have e := ih (calledProg s0.cfg x) s hc hi hne
    rw [← e] at hne
    exact (h x s hc hi hne).trans e

/-! ### What a handler's way depends on -/

/-- Two states that differ in nothing a handler's way depends on. A count above 128, which no run
reaches, is read as 129. -/
structure Alike (s t : State) : Prop where
  cfg : t.cfg = s.cfg
  inp : t.inp = s.inp
  faultSet : t.faultSet = s.faultSet
  faultOvr : t.faultOvr = s.faultOvr
  running : ∀ c, (t.q.get c).running = (s.q.get c).running
  count : ∀ c, min (t.q.get c).count 129 = min (s.q.get c).count 129
  moveOk : t.moveOk = s.moveOk
  mainOk : t.mainOk = s.mainOk
  visOk : t.visOk = s.visOk
  stopDown : t.stopDown = s.stopDown
  lidOpen : t.lidOpen = s.lidOpen
  laserSel : t.laserSel = s.laserSel

namespace Alike
variable {s t : State} (h : Alike s t)
include h

theorem bit (k : FaultKind) : faultIsSet t k = faultIsSet s k := by
  unfold faultIsSet
  rw [h.faultSet]

theorem ovr (k : FaultKind) : faultOverridden t k = faultOverridden s k := by
  unfold faultOverridden
  rw [h.faultOvr]

theorem engine : engineState t = engineState s := engineState_congr h.running

theorem full (c : Channel) : queueIsFull t c = queueIsFull s c := by
  have := h.count c
  unfold queueIsFull
  congr 1
  apply propext
  omega

theorem empty (c : Channel) : queueIsEmpty t c = queueIsEmpty s c := by
  have := h.count c
  unfold queueIsEmpty
  congr 1
  apply propext
  omega

theorem cond (c : HandlerCond) : condHolds t c = condHolds s c := by
  cases c
  case faultIsSet k => exact h.bit k
  case faultOverridden k => exact h.ovr k
  case engineIs e => exact congrArg (fun x => decide (x = e)) h.engine
  case queueIsFull c => exact h.full c
  case queueIsEmpty c => exact h.empty c
  case queueIsRunning c => exact h.running c
  case moveOk => exact h.moveOk
  case mainOk => exact h.mainOk
  case visOk => exact h.visOk

theorem setBit (k : FaultKind) (b : Bool) : Alike (setFaultBit k b s) (setFaultBit k b t) :=
  { h with faultSet := congrArg (fun v => v.set k.index b) h.faultSet }

theorem alert (a b : Bool) : Alike (s.withAlert a) (t.withAlert b) := { h with }

theorem gates : Alike (setGates s) (setGates t) :=
  { h with
    moveOk := by
      show gateMove t = gateMove s
      unfold gateMove
      rw [h.bit]
    mainOk := by
      show gateMain t = gateMain s
      unfold gateMain
      rw [h.bit, h.lidOpen, h.ovr]
    visOk := by
      show gateVis t = gateVis s
      unfold gateVis
      rw [h.bit, h.lidOpen, h.ovr] }

theorem stop : Alike (stopEngine s) (stopEngine t) :=
  { h with
    running := fun c => by simp only [stopEngine_eq]; simp [Queue.flush]
    count := fun c => by simp only [stopEngine_eq]; simp [Queue.flush] }

theorem start : Alike (startChannels s) (startChannels t) :=
  { h with
    running := fun c => by simp [startChannels]
    count := fun c => by simpa [startChannels] using h.count c }

theorem push (c : Channel) (a : Word) :
    Alike (s.withQ (s.q.set c ((s.q.get c).push a))) (t.withQ (t.q.set c ((t.q.get c).push a))) :=
  { h with
    running := fun d => by
      simp only [State.withQ_q, PerChan.get_set]
      split
      · exact h.running c
      · exact h.running d
    count := fun d => by
      simp only [State.withQ_q, PerChan.get_set]
      split
      · have := h.count c
        simp only [Queue.push]
        omega
      · exact h.count d }

theorem select (v : LaserSel) : Alike (s.withLaserSel v) (t.withLaserSel v) :=
  { h with laserSel := rfl }

theorem override (w : Override) (b : Bool) :
    Alike (s.withFaultOvr (s.faultOvr.set (overrideFault w).index b))
      (t.withFaultOvr (t.faultOvr.set (overrideFault w).index b)) :=
  { h with faultOvr := congrArg (fun v => v.set (overrideFault w).index b) h.faultOvr }

theorem clear : Alike (clearBlock s) (clearBlock t) := by
  have hc := (clearBlock_envKept t).cfg.trans (h.cfg.trans (clearBlock_envKept s).cfg.symm)
  have hi := (clearBlock_envKept t).inp.trans (h.inp.trans (clearBlock_envKept s).inp.symm)
  constructor
  · exact hc
  · exact hi
  · unfold clearBlock; rfl
  · unfold clearBlock; rfl
  · intro c; simp [clearBlock, resetQueue]
  · intro c; simp [clearBlock, resetQueue]
  · unfold clearBlock; exact h.moveOk
  · unfold clearBlock; exact h.mainOk
  · unfold clearBlock; exact h.visOk
  · unfold clearBlock; exact congrArg Inputs.stopRaw h.inp
  · unfold clearBlock; exact congrArg Inputs.lidRaw h.inp
  · unfold clearBlock; rfl

end Alike

/-- Two operations that end alike. After `Fatal` nothing reads the states. -/
inductive EndAlike : Ran → Ran → Prop
  | on {s t : State} (h : Alike s t) : EndAlike (.on s) (.on t)
  | abandoned (s t : State) : EndAlike (.abandoned s) (.abandoned t)
  | endless : EndAlike .endless .endless

theorem EndAlike.endless_iff {r r' : Ran} (h : EndAlike r r') : r' = .endless ↔ r = .endless := by
  cases h <;> simp

/-- From alike states the operation ends alike. -/
def ReadsOnly (f : State → Ran) : Prop := ∀ s t, Alike s t → EndAlike (f s) (f t)

theorem ReadsOnly.andThen {f g : State → Ran} (h : ReadsOnly f) (k : ReadsOnly g) :
    ReadsOnly fun s => (f s).andThen g := fun s t hst => by
  have := h s t hst
  revert this
  simp only []
  generalize f s = r
  generalize f t = r'
  intro this
  cases this with
  | on h => exact k _ _ h
  | abandoned s t => exact .abandoned s t
  | endless => exact .endless

theorem ReadsOnly.ite {b : State → Bool} {f g : State → Ran} (hb : ∀ s t, Alike s t → b t = b s)
    (h : ReadsOnly f) (k : ReadsOnly g) : ReadsOnly fun s => if b s then f s else g s :=
  fun s t hst => by
    simp only [hb s t hst]
    split
    · exact h s t hst
    · exact k s t hst

theorem ReadsOnly.done : ReadsOnly .on := fun _ _ h => .on h

section
variable {run : HandlerProg → State → Ran} (hr : ∀ p, ReadsOnly (run p))
include hr

theorem raiseWith_readsOnly (k : FaultKind) : ReadsOnly (raiseWith run k) :=
  ReadsOnly.ite (fun _ _ h => h.bit k) .done fun s t h => by
    rw [h.cfg]
    exact hr _ _ _ ((h.setBit k true).alert _ _)

theorem lowerWith_readsOnly (k : FaultKind) : ReadsOnly (lowerWith run k) :=
  ReadsOnly.ite (fun _ _ h => h.bit k) (fun s t h => by
    rw [h.cfg]
    exact hr _ _ _ ((h.setBit k false).alert _ _)) .done

theorem fatalWith_readsOnly (k : FaultKind) : ReadsOnly (fatalWith run k) :=
  (raiseWith_readsOnly hr k).andThen fun _ _ _ => .abandoned _ _

theorem followWith_readsOnly (k : FaultKind) {b : State → Bool}
    (hb : ∀ s t, Alike s t → b t = b s) : ReadsOnly (followWith run k b) :=
  ReadsOnly.ite hb (raiseWith_readsOnly hr k) (lowerWith_readsOnly hr k)

theorem updateSafetyWith_readsOnly : ReadsOnly (updateSafetyWith run) :=
  (((ReadsOnly.ite (fun _ _ h => h.stopDown) (raiseWith_readsOnly hr .estop) .done).andThen
    (followWith_readsOnly hr .lidOpen fun s t h => by
      unfold lidOpenConflict
      rw [h.laserSel, h.lidOpen, h.ovr])).andThen
    (followWith_readsOnly hr .lidClosed fun s t h => by
      unfold lidClosedConflict
      rw [h.laserSel, h.lidOpen, h.ovr])).andThen fun _ _ h => .on h.gates

theorem startEngineWith_readsOnly : ReadsOnly (startEngineWith run) := fun s t h => by
  unfold startEngineWith
  rw [h.engine]
  split
  · exact .on h.start
  · exact fatalWith_readsOnly hr _ s t h

theorem actionWith_readsOnly (a : HandlerAction) : ReadsOnly (actionWith run a) := by
  have safety := updateSafetyWith_readsOnly hr
  cases a
  case stopEngineImmediately => exact fun _ _ h => .on h.stop
  case setGates => exact fun _ _ h => .on h.gates
  case updateSafety => exact safety
  case raiseFault k => exact raiseWith_readsOnly hr k
  case lowerFault k => exact lowerWith_readsOnly hr k
  case fatal k => exact fatalWith_readsOnly hr k
  case enqueue c a =>
    intro s t h
    have e := h.full c
    simp only [queueIsFull, decide_eq_decide] at e
    simp only [actionWith, enqueueWith, e]
    split
    · exact fatalWith_readsOnly hr _ s t h
    · exact .on (h.push c a)
  case startEngine => exact startEngineWith_readsOnly hr
  case maybeStartEngine =>
    exact ReadsOnly.ite (fun s t h => by simp only [someQueueFull, h.engine, h.full])
      (startEngineWith_readsOnly hr) .done
  case setLaserSelect v => exact fun s t h => safety _ _ (h.select v)
  case setOverride w b => exact fun s t h => safety _ _ (h.override w b)
  case reset => exact fun s t h => safety _ _ h.clear

end

theorem runProg_readsOnly {act : HandlerAction → State → Ran} (h : ∀ a, ReadsOnly (act a))
    (p : HandlerProg) : ReadsOnly (runProg act p) := by
  induction p with
  | done => exact .done
  | act a p ih => exact (h a).andThen ih
  | branch c p p' ih ih' => exact ReadsOnly.ite (fun _ _ h => h.cond c) ih ih'

/-- What a handler does next depends only on what `Alike` names. -/
theorem runHandler_readsOnly (n : Nat) (p : HandlerProg) : ReadsOnly (runHandler n p) := by
  induction n generalizing p with
  | zero => exact fun _ _ _ => .endless
  | succ n ih => exact runProg_readsOnly (fun a => actionWith_readsOnly ih a) p

/-! ### How many calls there are -/

/-- What `Alike` names of a state, the configuration and the inputs apart, as one of finitely many. -/
abbrev HandlerKey : Type :=
  (Fin 16 → Bool) × (Fin 16 → Bool) × (Fin 4 → Bool) × (Fin 4 → Fin 130) × (Fin 7 → Bool)

/-- The key of a state. -/
def handlerKey (s : State) : HandlerKey :=
  (fun i => s.faultSet[i], fun i => s.faultOvr[i],
    ![s.q.x.running, s.q.y.running, s.q.z.running, s.q.l.running],
    ![Fin.ofNat 130 (min s.q.x.count 129), Fin.ofNat 130 (min s.q.y.count 129),
      Fin.ofNat 130 (min s.q.z.count 129), Fin.ofNat 130 (min s.q.l.count 129)],
    ![s.moveOk, s.mainOk, s.visOk, s.stopDown, s.lidOpen, decide (s.laserSel = .main),
      decide (s.laserSel = .visible)])

/-- States with one configuration, the same inputs and one key are alike. -/
theorem alike_of_key {s t : State} (hc : t.cfg = s.cfg) (hi : t.inp = s.inp)
    (h : handlerKey t = handlerKey s) : Alike s t := by
  simp only [handlerKey, Prod.mk.injEq] at h
  obtain ⟨h1, h2, h3, h4, h5⟩ := h
  have run := fun i => congrFun h3 i
  have cnt := fun i => congrArg Fin.val (congrFun h4 i)
  have bits := fun i => congrFun h5 i
  have small : ∀ n, (Fin.ofNat 130 (min n 129)).val = min n 129 := fun n =>
    Nat.mod_eq_of_lt (by omega)
  refine ⟨hc, hi, Vector.ext fun i hi => congrFun h1 ⟨i, hi⟩, Vector.ext fun i hi => congrFun h2 ⟨i, hi⟩,
    fun c => ?_, fun c => ?_, bits 0, bits 1, bits 2, bits 3, bits 4, ?_⟩
  · cases c
    · exact run 0
    · exact run 1
    · exact run 2
    · exact run 3
  · cases c
    · exact (small _).symm.trans ((cnt 0).trans (small _))
    · exact (small _).symm.trans ((cnt 1).trans (small _))
    · exact (small _).symm.trans ((cnt 2).trans (small _))
    · exact (small _).symm.trans ((cnt 3).trans (small _))
  · have h5 := bits 5
    have h6 := bits 6
    revert h5 h6
    simp only [Matrix.cons_val]
    cases t.laserSel <;> cases s.laserSel <;> simp

/-! ### What the block refuses as endless -/

/-- A depth below the block's at which every procedure the faults run has done what it does at the next:
else each depth up to `2 ^ 76` would have a call that ends one deeper only, and there are fewer keys. -/
theorem exists_settled (s0 : State) : ∃ j, j + 2 ≤ handlerDepth ∧
    ∀ x, Extends s0 (runHandler (j + 1) (calledProg s0.cfg x))
      (runHandler j (calledProg s0.cfg x)) := by
  by_contra hno
  push Not at hno
  have hB : ∀ j : Fin (2 ^ 76), ∃ (x : FaultKind × Bool) (s : State),
      s.cfg = s0.cfg ∧ s.inp = s0.inp ∧
      runHandler (j.val + 1) (calledProg s0.cfg x) s ≠ .endless ∧
      runHandler j.val (calledProg s0.cfg x) s = .endless := by
    intro j
    have h1 : (2 : Nat) ^ 76 + 2 ≤ handlerDepth := by unfold handlerDepth; norm_num
    have := j.isLt
    obtain ⟨x, hx⟩ := hno j.val (by omega)
    unfold Extends at hx
    push Not at hx
    obtain ⟨s, hc, hi, hne, hd⟩ := hx
    refine ⟨x, s, hc, hi, hne, ?_⟩
    by_contra he
    exact hd (runHandler_mono (Nat.le_succ _) he).symm
  choose x s hc hi hne he using hB
  let call : Fin (2 ^ 76) → (Fin 12 × Bool) × HandlerKey := fun j =>
    ((⟨(x j).1.index.val, by cases (x j).1 <;> decide⟩, (x j).2), handlerKey (s j))
  have hcard : Fintype.card ((Fin 12 × Bool) × HandlerKey) < Fintype.card (Fin (2 ^ 76)) := by
    simp only [HandlerKey, Fintype.card_prod, Fintype.card_fin, Fintype.card_bool, Fintype.card_fun]
    norm_num
  obtain ⟨a, b, hab, hf⟩ := Fintype.exists_ne_map_eq_of_card_lt call hcard
  have key : ∀ a b : Fin (2 ^ 76), a.val < b.val → call a = call b → False := by
    intro a b hlt hf
    simp only [call, Prod.mk.injEq, Fin.mk.injEq] at hf
    obtain ⟨⟨h1, h2⟩, h3⟩ := hf
    have hx : x b = x a := by
      have e : (x b).1 = (x a).1 := by
        revert h1
        generalize (x a).1 = k
        generalize (x b).1 = k'
        cases k <;> cases k' <;> simp [FaultKind.index]
      exact Prod.ext e h2.symm
    have al : Alike (s a) (s b) :=
      alike_of_key ((hc b).trans (hc a).symm) ((hi b).trans (hi a).symm) h3.symm
    have r := (runHandler_readsOnly (a.val + 1) (calledProg s0.cfg (x a)) _ _ al).endless_iff
    have n1 : runHandler (a.val + 1) (calledProg s0.cfg (x b)) (s b) ≠ .endless := by
      rw [hx]; exact fun e => hne a (r.mp e)
    have := runHandler_mono (show a.val + 1 ≤ b.val by omega) n1
    rw [he b] at this
    exact n1 this.symm
  rcases Nat.lt_or_gt_of_ne (fun e => hab (Fin.ext e)) with h | h
  · exact key a b h hf
  · exact key b a h hf.symm

/-- 93_implementation_defined.md section 1: a procedure that ends at some depth of handlers one inside the
other ends in the block, in the same way, whatever that depth is. -/
theorem handle_of_ends {n : Nat} {p : HandlerProg} {s : State} (hne : runHandler n p s ≠ .endless) :
    handle p s = runHandler n p s := by
  obtain ⟨j, hj, h⟩ := exists_settled s
  have big : ∀ m, j < m → runHandler m p s ≠ .endless →
      runHandler (j + 1) p s = runHandler m p s :=
    fun m hm hne => runHandler_settled h hm p s rfl rfl hne
  by_cases hn : n ≤ handlerDepth
  · exact runHandler_mono hn hne
  · have hn : handlerDepth ≤ n := by omega
    have e := big n (by omega) hne
    have hne' : runHandler (j + 1) p s ≠ .endless := by rw [e]; exact hne
    rw [handle, runHandler_mono (show j + 1 ≤ handlerDepth by omega) hne', e]

/-- The block refuses an operation as endless exactly when the handlers it runs do not end at any
depth (R6, R252; log 6). -/
theorem action_endless_iff (a : HandlerAction) (s : State) :
    actionWith handle a s = .endless ↔ ∀ n, actionWith (runHandler n) a s = .endless := by
  refine ⟨fun he n => ?_, fun h => h handlerDepth⟩
  by_contra hne
  have e1 : actionWith (runHandler (max n handlerDepth)) a s = actionWith (runHandler n) a s :=
    actionWith_extends (s0 := s) (runHandler_keeps n)
      (fun x t _ _ hne => runHandler_mono (le_max_left _ _) hne) a s rfl rfl hne
  have e2 : actionWith (runHandler (max n handlerDepth)) a s ≠ .endless := by rw [e1]; exact hne
  have e3 : actionWith handle a s = actionWith (runHandler (max n handlerDepth)) a s :=
    actionWith_extends (s0 := s) (run := runHandler (max n handlerDepth)) (run' := handle)
      (runHandler_keeps _) (fun x t _ _ hne => handle_of_ends hne) a s rfl rfl e2
  exact e2 (e3.symm.trans he)

end Sys2Proof.Machine
end

