-- ==== Sys2Proof/Laws/Fetch.lean ====
section
/-! SUPPORT. What a fetch of the interpreter can give, and which atoms it takes (R101, R131, R179),
and what `exec` can do (R137). -/

namespace Sys2Proof.Machine

/-- Taking the front atom of channel `c`'s queue. -/
def popState (c : Channel) (s : State) : State := s.withQ (s.q.set c (s.q.get c).pop)

theorem dequeue_empty {c : Channel} {s : State} (h : (s.q.get c).count = 0) :
    dequeue c s = none := if_pos h

theorem dequeue_some {c : Channel} {s : State} (h : (s.q.get c).count ≠ 0) :
    dequeue c s = some ((s.q.get c).front, popState c s) := if_neg h

/-- A fetch on an empty queue under-runs and takes nothing (R136). -/
theorem fetchInstr_empty {c : Channel} {s : State} (h : (s.q.get c).count = 0) :
    fetchInstr c s = .underRun s := by
  unfold fetchInstr
  rw [dequeue_empty h]

/-- A fetch on a queue that holds an atom, by what the atom is (R108). -/
theorem fetchInstr_atom {c : Channel} {s : State} (h : (s.q.get c).count ≠ 0) :
    fetchInstr c s =
      match decodeAt s.cfg c (s.q.get c).front with
      | .illegal => .illegal (popState c s)
      | .literal v => .instr (.ivl v) (popState c s)
      | .op o => fetchOperand c o (popState c s) := by
  unfold fetchInstr
  rw [dequeue_some h]
  rfl

theorem fetchInstr_illegal {c : Channel} {s : State} (h : (s.q.get c).count ≠ 0)
    (hd : decodeAt s.cfg c (s.q.get c).front = .illegal) :
    fetchInstr c s = .illegal (popState c s) := by
  rw [fetchInstr_atom h, hd]

theorem fetchInstr_literal {c : Channel} {s : State} {v : Word} (h : (s.q.get c).count ≠ 0)
    (hd : decodeAt s.cfg c (s.q.get c).front = .literal v) :
    fetchInstr c s = .instr (.ivl v) (popState c s) := by
  rw [fetchInstr_atom h, hd]

theorem fetchInstr_plain {c : Channel} {s : State} {o : Opcode} (h : (s.q.get c).count ≠ 0)
    (hd : decodeAt s.cfg c (s.q.get c).front = .op o) (ho : hasOperand o = false) :
    fetchInstr c s = .instr (instrOf 0 o) (popState c s) := by
  rw [fetchInstr_atom h, hd]
  simp only [fetchOperand, ho, Bool.false_eq_true, if_false]

theorem fetchInstr_operand {c : Channel} {s : State} {o : Opcode} (h : 2 ≤ (s.q.get c).count)
    (hd : decodeAt s.cfg c (s.q.get c).front = .op o) (ho : hasOperand o = true) :
    fetchInstr c s =
      .instr (instrOf (s.q.get c).pop.front o) (popState c (popState c s)) := by
  rw [fetchInstr_atom (by omega), hd]
  have h2 : ((popState c s).q.get c).count ≠ 0 := by
    simp only [popState, State.withQ_q, PerChan.get_set_same, Queue.pop_count]
    omega
  simp only [fetchOperand, ho, if_true, dequeue_some h2]
  simp only [popState, State.withQ_q, PerChan.get_set_same]

theorem fetchInstr_noOperand {c : Channel} {s : State} {o : Opcode} (h : (s.q.get c).count = 1)
    (hd : decodeAt s.cfg c (s.q.get c).front = .op o) (ho : hasOperand o = true) :
    fetchInstr c s = .underRun (popState c s) := by
  rw [fetchInstr_atom (by omega), hd]
  have h2 : ((popState c s).q.get c).count = 0 := by
    simp only [popState, State.withQ_q, PerChan.get_set_same, Queue.pop_count]
    omega
  simp only [fetchOperand, ho, if_true, dequeue_empty h2]

theorem popState_popState (c : Channel) (s : State) :
    popState c (popState c s) = s.withQ (s.q.set c (s.q.get c).pop.pop) := by
  simp only [popState, State.withQ_q, PerChan.get_set_same, PerChan.set_set_same]
  rfl

/-- What a fetch can give: an under-run with at most the opcode taken, an illegal atom taken, or a
well-formed instruction the channel takes, with one or two atoms taken. -/
theorem fetchInstr_cases (c : Channel) (s : State) :
    ((s.q.get c).count = 0 ∧ fetchInstr c s = .underRun s) ∨
    ((s.q.get c).count = 1 ∧ fetchInstr c s = .underRun (popState c s)) ∨
    ((s.q.get c).count ≠ 0 ∧ fetchInstr c s = .illegal (popState c s)) ∨
    (∃ i, (s.q.get c).count ≠ 0 ∧ takesInstr s.cfg c i = true ∧ i.wellFormed s.cfg = true ∧
      fetchInstr c s = .instr i (popState c s)) ∨
    (∃ i, 2 ≤ (s.q.get c).count ∧ takesInstr s.cfg c i = true ∧ i.wellFormed s.cfg = true ∧
      fetchInstr c s = .instr i (popState c (popState c s))) := by
  by_cases h : (s.q.get c).count = 0
  · exact .inl ⟨h, fetchInstr_empty h⟩
  · refine .inr ?_
    cases hd : decodeAt s.cfg c (s.q.get c).front with
    | illegal => exact .inr (.inl ⟨h, fetchInstr_illegal h hd⟩)
    | literal v =>
      have hv : s.cfg.atomMax ≤ v.toNat := by
        unfold decodeAt classify at hd
        split at hd
        · next e =>
          split at e
          · cases e
            cases hd
            assumption
          · split at e <;> cases e
        · split at hd <;> cases hd
        · cases hd
      exact .inr (.inr (.inl ⟨_, h, rfl, by simpa [Instr.wellFormed] using hv,
        fetchInstr_literal h hd⟩))
    | op o =>
      have ht : takes s.cfg c o = true := by
        unfold decodeAt at hd
        split at hd
        · cases hd
        · next p _ =>
          split at hd
          · next hp => cases hd; exact hp
          · cases hd
        · cases hd
      cases ho : hasOperand o
      · exact .inr (.inr (.inl
          ⟨_, h, by simpa using ht, wellFormed_instrOf .., fetchInstr_plain h hd ho⟩))
      · by_cases h1 : (s.q.get c).count = 1
        · exact .inl ⟨h1, fetchInstr_noOperand h1 hd ho⟩
        · exact .inr (.inr (.inr ⟨_, by omega, by simpa using ht, wellFormed_instrOf ..,
            fetchInstr_operand (by omega) hd ho⟩))

/-! ### The meanings -/

/-- On a channel that does not take it, an instruction is fatal and nothing else (R135). -/
theorem exec_wrong_channel {i : Instr} {s : State} (h : takesInstr s.cfg s.cur i = false) :
    exec i s = (fatal .swSyntax s).outcome := by
  cases e : s.cur.axis? with
  | none =>
    cases i <;>
      simp_all [takesInstr, opcodeOfInstr, takes, exec, onAxis, pollAtom,
        execDirPositive, execDirNegative, execEnablePin, execDisablePin,
        execLoopUntilMin, execLoopWhileMin, execLoopUntilMax, execLoopWhileMax]
  | some a =>
    cases i <;>
      simp_all [takesInstr, opcodeOfInstr, takes, exec, onAxis, onLaser, pollAtom,
        execLoopUntilMin, execLoopWhileMin, execLoopUntilMax, execLoopWhileMax,
        execSetMainModeOff, execSetMainModePulsed, execSetMainModeContinuous,
        execSetVisibleModeOff, execSetVisibleModePulsed, execSetVisibleModeContinuous,
        execSetMainPulseDuration, execSetVisiblePulseDuration, execSetMainPowerLevel]

/-- The instructions that write one output register and let the interpreter go on. -/
def outputWrite (i : Instr) (a : Option Axis) (s : State) : Option State :=
  match i, a with
  | .dirPositive, some a => some (s.withDir (s.dir.set a .pos))
  | .dirNegative, some a => some (s.withDir (s.dir.set a .neg))
  | .enablePin, some a => some (s.withStepEn (s.stepEn.set a true))
  | .disablePin, some a => some (s.withStepEn (s.stepEn.set a false))
  | .setMainModeOff, none => some (s.withMainMode .off)
  | .setMainModePulsed, none => some (s.withMainMode .pulsed)
  | .setMainModeContinuous, none => some (s.withMainMode .continuous)
  | .setVisibleModeOff, none => some (s.withVisMode .off)
  | .setVisibleModePulsed, none => some (s.withVisMode .pulsed)
  | .setVisibleModeContinuous, none => some (s.withVisMode .continuous)
  | .setMainPulseDuration n, none => some (s.withMainPulseDur n)
  | .setVisiblePulseDuration n, none => some (s.withVisPulseDur n)
  | .setMainPowerLevel n, none => some (s.withMainPower n)
  | _, _ => none

/-- What an instruction can do on a channel that takes it (R137): end the firing with its timer
stopped (`STOP`), with a new interval (`IVL`), or pushed back; or let the interpreter go on, with
one output register written or nothing (a loop atom at its exit). -/
theorem exec_cases {i : Instr} {s : State} (h : takesInstr s.cfg s.cur i = true) :
    (i = .stop ∧ exec i s = .next (endFiring (stopChannel s.cur s))) ∨
    (∃ v, i = .ivl v ∧ exec i s =
      .next (endFiring (s.withTmr (s.tmr.set s.cur { s.tmr.get s.cur with ivl := v })))) ∨
    (∃ o, i = instrOf 0 o ∧ hasOperand o = false ∧ exec i s = pushBack s.cur (opnum s.cfg o) s) ∨
    exec i s = .next s ∨
    (∃ t, outputWrite i s.cur.axis? s = some t ∧ exec i s = .next t) := by
  cases i
  case stop => exact .inl ⟨rfl, rfl⟩
  case ivl v => exact .inr (.inl ⟨v, rfl, rfl⟩)
  case loopUntilMin =>
    cases e : s.cur.axis? with
    | none => simp [takesInstr, opcodeOfInstr, takes, e] at h
    | some a =>
      simp only [takesInstr, opcodeOfInstr, takes, e] at h
      cases hx : s.inp.minReached.get a
      · exact .inr (.inr (.inl ⟨.loopUntilMin, rfl, rfl, by
          simp [exec, execLoopUntilMin, pollAtom, onAxis, e, h, hx]⟩))
      · exact .inr (.inr (.inr (.inl (by
          simp [exec, execLoopUntilMin, pollAtom, onAxis, e, h, hx]))))
  case loopWhileMin =>
    cases e : s.cur.axis? with
    | none => simp [takesInstr, opcodeOfInstr, takes, e] at h
    | some a =>
      simp only [takesInstr, opcodeOfInstr, takes, e] at h
      cases hx : s.inp.minReached.get a
      · exact .inr (.inr (.inr (.inl (by
          simp [exec, execLoopWhileMin, pollAtom, onAxis, e, h, hx]))))
      · exact .inr (.inr (.inl ⟨.loopWhileMin, rfl, rfl, by
          simp [exec, execLoopWhileMin, pollAtom, onAxis, e, h, hx]⟩))
  case loopUntilMax =>
    cases e : s.cur.axis? with
    | none => simp [takesInstr, opcodeOfInstr, takes, e] at h
    | some a =>
      simp only [takesInstr, opcodeOfInstr, takes, e] at h
      cases hx : s.inp.maxReached.get a
      · exact .inr (.inr (.inl ⟨.loopUntilMax, rfl, rfl, by
          simp [exec, execLoopUntilMax, pollAtom, onAxis, e, h, hx]⟩))
      · exact .inr (.inr (.inr (.inl (by
          simp [exec, execLoopUntilMax, pollAtom, onAxis, e, h, hx]))))
  case loopWhileMax =>
    cases e : s.cur.axis? with
    | none => simp [takesInstr, opcodeOfInstr, takes, e] at h
    | some a =>
      simp only [takesInstr, opcodeOfInstr, takes, e] at h
      cases hx : s.inp.maxReached.get a
      · exact .inr (.inr (.inr (.inl (by
          simp [exec, execLoopWhileMax, pollAtom, onAxis, e, h, hx]))))
      · exact .inr (.inr (.inl ⟨.loopWhileMax, rfl, rfl, by
          simp [exec, execLoopWhileMax, pollAtom, onAxis, e, h, hx]⟩))
  all_goals
    refine .inr (.inr (.inr (.inr ?_)))
    cases e : s.cur.axis? with
    | none =>
      first
      | exact ⟨_, rfl, by
          simp [exec, onLaser, e, execSetMainModeOff, execSetMainModePulsed,
            execSetMainModeContinuous, execSetVisibleModeOff, execSetVisibleModePulsed,
            execSetVisibleModeContinuous, execSetMainPulseDuration,
            execSetVisiblePulseDuration, execSetMainPowerLevel]⟩
      | simp [takesInstr, opcodeOfInstr, takes, e] at h
    | some a =>
      first
      | exact ⟨_, rfl, by
          simp [exec, onAxis, e, execDirPositive, execDirNegative, execEnablePin,
            execDisablePin]⟩
      | simp [takesInstr, opcodeOfInstr, takes, e] at h

end Sys2Proof.Machine
end

