-- ==== Sys2Proof/Laws/Step.lean ====
section
/-! SUPPORT. The three arms of `step`, what a pass of the interpreter can do (R131, R137), and what
the next event of the environment is (R10, R220). -/

namespace Sys2Proof.Machine

theorem step_idle {s : State} (hok : s.cfg.ok = true) (hp : s.phase = .idle) :
    step s = stepEvent s := by simp only [step, hok, hp, if_true]

theorem step_between {s : State} (hok : s.cfg.ok = true) (hp : s.phase = .between) :
    step s = nextFiring s := by simp only [step, hok, hp, if_true]

theorem step_firing {s : State} (hok : s.cfg.ok = true) (hp : s.phase = .firing) :
    step s = firingPass s := by simp only [step, hok, hp, if_true]

/-- A step that gives a next state runs on a configuration the model accepts. -/
theorem ok_of_step {s t : State} (h : step s = .next t) : s.cfg.ok = true := by
  unfold step at h
  split at h
  · assumption
  · cases h

/-- The state after the atoms of one instruction have been taken from channel `c`'s queue: one, or
two. -/
def Taken (c : Channel) (s t : State) : Prop :=
  ((s.q.get c).count ≠ 0 ∧ t = popState c s) ∨
  (2 ≤ (s.q.get c).count ∧ t = popState c (popState c s))

/-- What one pass of the interpreter can do (R131): an under-run, with nothing or the opcode taken;
an illegal atom, taken; or a well-formed instruction that the channel takes, on the state with its
atoms taken. -/
theorem firingPass_cases (s : State) :
    ((s.q.get s.cur).count = 0 ∧ firingPass s = (fatal .swUnderflow s).outcome) ∨
    ((s.q.get s.cur).count = 1 ∧ firingPass s = (fatal .swUnderflow (popState s.cur s)).outcome) ∨
    ((s.q.get s.cur).count ≠ 0 ∧ firingPass s = (fatal .swSyntax (popState s.cur s)).outcome) ∨
    (∃ i t, Taken s.cur s t ∧ takesInstr s.cfg s.cur i = true ∧ i.wellFormed s.cfg = true ∧
      firingPass s = exec i t) := by
  rcases fetchInstr_cases s.cur s with ⟨h, e⟩ | ⟨h, e⟩ | ⟨h, e⟩ | ⟨i, h, ht, hw, e⟩ |
    ⟨i, h, ht, hw, e⟩
  · exact .inl ⟨h, by simp only [firingPass, e]⟩
  · exact .inr (.inl ⟨h, by simp only [firingPass, e]⟩)
  · exact .inr (.inr (.inl ⟨h, by simp only [firingPass, e]⟩))
  · exact .inr (.inr (.inr ⟨i, _, .inl ⟨h, rfl⟩, ht, hw, by simp only [firingPass, e]⟩))
  · exact .inr (.inr (.inr ⟨i, _, .inr ⟨h, rfl⟩, ht, hw, by simp only [firingPass, e]⟩))

/-- Taking atoms writes the queue of its channel and nothing else, and keeps what the queue holds
in its slots and whether it runs. -/
theorem Taken.eq {c : Channel} {s t : State} (h : Taken c s t) :
    ∃ u : Queue, t = s.withQ (s.q.set c u) ∧ u.buf = (s.q.get c).buf ∧
      u.running = (s.q.get c).running ∧ u.count < (s.q.get c).count := by
  rcases h with ⟨h, rfl⟩ | ⟨h, rfl⟩
  · exact ⟨(s.q.get c).pop, rfl, rfl, rfl, by simp only [Queue.pop_count]; omega⟩
  · exact ⟨(s.q.get c).pop.pop, popState_popState c s, rfl, rfl, by
      simp only [Queue.pop_count]; omega⟩

/-- Going back to the top of a firing with the queue restored: what a loop atom that holds does. -/
theorem pushBack_eq {c : Channel} {a : Word} {s : State} (h : (s.q.get c).count < 128) :
    pushBack c a s = .next (endFiring (s.withQ (s.q.set c ((s.q.get c).unpop a)))) :=
  if_neg (Nat.not_le.mpr h)

theorem hostAct_live {s : State} (h : s.halted = false) (f : State → Ran) :
    hostAct f s = ((f s).atEnd fun t => t.withHostResult none).outcome := by
  rw [hostAct, h, if_neg Bool.false_ne_true]

/-- An operation of the host on a block that is not halted, when it is known how it ends. -/
theorem hostAct_on {f : State → Ran} {s t : State} (h : s.halted = false) (e : f s = .on t) :
    hostAct f s = .next (t.withHostResult none) := by
  rw [hostAct_live h, e]
  rfl

theorem hostAct_abandoned {f : State → Ran} {s t : State} (h : s.halted = false)
    (e : f s = .abandoned t) : hostAct f s = .next (t.withHostResult none) := by
  rw [hostAct_live h, e]
  rfl

theorem hostAct_halted {s : State} (h : s.halted = true) (f : State → Ran) :
    hostAct f s = .next (s.withHostResult none) := by
  rw [hostAct, h, if_pos rfl]
  rfl

/-- The next event is the first enabled one of the script, or a tick (R220, log 5). -/
theorem nextEvent_cases (s : State) :
    (∃ e es, takeEvent (decide (engineState s = .stopped)) [] s.script = some (e, es) ∧
      nextEvent s = (e, s.withScript es)) ∨
    (takeEvent (decide (engineState s = .stopped)) [] s.script = none ∧
      nextEvent s = (.tick (Config.freeOrder s.draws), s.withDraws (s.draws + 1))) := by
  unfold nextEvent
  cases h : takeEvent (decide (engineState s = .stopped)) [] s.script with
  | none => exact .inr ⟨rfl, rfl⟩
  | some p => exact .inl ⟨p.1, p.2, rfl, rfl⟩

/-- Choosing the next event writes the script or the count of draws, and nothing of the block. -/
theorem nextEvent_eq (s : State) :
    (nextEvent s).2 =
      (s.withScript (nextEvent s).2.script).withDraws (nextEvent s).2.draws := by
  rcases nextEvent_cases s with ⟨e, es, -, h⟩ | ⟨-, h⟩ <;> rw [h] <;> rfl

/-- An event that is a tick or an input is never held back (R220). -/
theorem takeEvent_tick (b : Bool) (w : List Nat) (order : List Channel) (es : List Event) :
    takeEvent b w (.tick order :: es) = some (.tick order, es) := rfl

theorem takeEvent_input (b : Bool) (w : List Nat) (sig : InputSignal) (v : Bool)
    (es : List Event) : takeEvent b w (.input sig v :: es) = some (.input sig v, es) := rfl

/-- An operation that waits for nothing, of a host that does not wait, is taken (R10). -/
theorem takeEvent_host {b : Bool} {h : Nat} {op : HostOp} (es : List Event)
    (hop : op ≠ .awaitEngineStopped ∨ b = true) :
    takeEvent b [] (.host h op :: es) = some (.host h op, es) := by
  rcases hop with hop | rfl <;> simp [takeEvent, mustWait, *]

end Sys2Proof.Machine
end

