-- ==== Sys2Proof/Laws/Invariant.lean ====
section
/-! SUPPORT. The parts of the invariants of 10_state.md R63, and that the shared operations keep
them. -/

namespace Sys2Proof.Machine

/-- A start leaves every counter below the bootstrap interval (R215, R222). -/
def SkewBelow (cfg : Config) : Prop := cfg.startSkew < cfg.ivlBoot.toNat

/-- R63 (a), (b) of one channel, and (f) where `b` holds. -/
def ChannelOk (b : Prop) (u : Queue) (t : Timer) : Prop :=
  u.count ≤ 128 ∧ t.on = u.running ∧ (b → t.on = true → t.cnt < t.ivl)

/-- R63 (c) and the first half of (e): what holds of the fault set and the alert. -/
def FaultsOk (s : State) : Prop :=
  s.alert = anyFault s ∧ ∀ i : Fin 16, 12 ≤ i.val → s.faultSet[i] = false

/-- R63 (d). -/
def GatesOk (s : State) : Prop :=
  s.moveOk = gateMove s ∧ s.mainOk = gateMain s ∧ s.visOk = gateVis s

/-- The second half of R63 (e), and the bounds on the debouncer. -/
def SwitchesOk (s : State) : Prop :=
  (∀ i : Fin 16, i ≠ FaultKind.lidOpen.index → i ≠ FaultKind.lidClosed.index →
    s.faultOvr[i] = false) ∧
  s.dbCnt ≤ s.cfg.debounceTicks ∧ (s.dbPending = true → 1 ≤ s.dbCnt)

/-! ### The configuration -/

theorem ok_clock {cfg : Config} (h : cfg.ok = true) : 9 ≤ cfg.fClkMHz := by
  simp only [Config.ok, Bool.and_eq_true, decide_eq_true_eq] at h
  exact h.1.1.1

theorem ok_boot {cfg : Config} (h : cfg.ok = true) : 1 ≤ cfg.ivlBoot.toNat := by
  simp only [Config.ok, Bool.and_eq_true, decide_eq_true_eq] at h
  exact h.1.2

theorem ok_debounce {cfg : Config} (h : cfg.ok = true) : 1 ≤ cfg.debounceTicks := by
  simp only [Config.ok, Bool.and_eq_true, decide_eq_true_eq] at h
  exact h.2

/-! ### Channels -/

theorem ChannelOk.flush {b : Prop} {u : Queue} {t : Timer} :
    ChannelOk b u.flush { t with on := false } :=
  ⟨Nat.zero_le _, rfl, fun _ h => nomatch h⟩

/-- A safety operation keeps every channel's invariant. -/
theorem SafetyOnly.channelOk {b : Prop} {s t : State} (h : SafetyOnly s t) {c : Channel}
    (k : ChannelOk b (s.q.get c) (s.tmr.get c)) : ChannelOk b (t.q.get c) (t.tmr.get c) := by
  rcases h.channels c with ⟨a, b⟩ | ⟨a, b⟩ <;> rw [a, b]
  · exact k
  · exact .flush

theorem SafetyOnly.switchesOk {s t : State} (h : SafetyOnly s t) (k : SwitchesOk s) :
    SwitchesOk t := by
  unfold SwitchesOk
  rw [h.faultOvr, h.dbCnt, h.cfg, h.dbPending]
  exact k

/-- A tick of a timer keeps its counter below its interval, and stops at 0 at an overflow. -/
theorem advanceTimer_ok {b : Prop} {u : Queue} {t : Timer} (h : ChannelOk b u t) :
    ChannelOk b u (advanceTimer t) := by
  obtain ⟨h1, h2, h3⟩ := h
  unfold advanceTimer
  split
  · next hon =>
    split
    · next he =>
      refine ⟨h1, h2, fun hb _ => ?_⟩
      have hlt := h3 hb hon
      simp only [BitVec.lt_def] at *
      show (0#16).toNat < t.ivl.toNat
      simp only [BitVec.toNat_ofNat, Nat.zero_mod]
      omega
    · next he =>
      refine ⟨h1, h2, fun hb _ => ?_⟩
      have hlt := h3 hb hon
      simp only [BitVec.lt_def] at *
      show (t.cnt + 1#16).toNat < t.ivl.toNat
      have hne : (t.cnt + 1#16).toNat ≠ t.ivl.toNat := fun e => he (BitVec.eq_of_toNat_eq e)
      rw [BitVec.toNat_add] at *
      have := t.ivl.isLt
      simp only [BitVec.toNat_ofNat] at *
      omega
  · exact ⟨h1, h2, h3⟩

theorem advanceTimer_on (t : Timer) : (advanceTimer t).on = t.on := by
  unfold advanceTimer
  split
  · split <;> rfl
  · rfl

theorem advanceTimer_ivl (t : Timer) : (advanceTimer t).ivl = t.ivl := by
  unfold advanceTimer
  split
  · split <;> rfl
  · rfl

theorem overflows_iff (t : Timer) : overflows t = true ↔ t.on = true ∧ t.cnt + 1 = t.ivl := by
  simp [overflows]

theorem advanceTimer_overflow {t : Timer} (h : overflows t = true) : (advanceTimer t).cnt = 0 := by
  obtain ⟨h1, h2⟩ := (overflows_iff t).mp h
  rw [advanceTimer, if_pos h1, if_pos h2]

/-! ### Faults and the alert -/

theorem anyFault_of_set {s : State} {k : FaultKind} (h : faultIsSet s k = true) :
    anyFault s = true := (anyFault_iff s).mpr ⟨k.index, h⟩

theorem FaultsOk.congr {s t : State} (h : FaultsOk s) (hf : t.faultSet = s.faultSet)
    (ha : t.alert = s.alert) : FaultsOk t := by
  unfold FaultsOk
  rw [ha, hf, anyFault_congr hf]
  exact h

theorem FaultsOk.raiseFault {s : State} (h : FaultsOk s) (k : FaultKind) :
    FaultsOk (Quiet.raiseFault k s) := by
  refine ⟨?_, fun i hi => ?_⟩
  · have hset : faultIsSet (Quiet.raiseFault k s) k = true := by simp
    rw [Quiet.raiseFault_alert, anyFault_of_set hset]
    cases hk : faultIsSet s k
    · simp
    · rw [h.1, anyFault_of_set hk]
      rfl
  · have := k.index_lt
    have hne : i ≠ k.index := fun e => by rw [e] at hi; omega
    rw [Quiet.raiseFault_bit, h.2 i hi]
    simp [hne]

theorem FaultsOk.clearFault {s : State} (h : FaultsOk s) (k : FaultKind) :
    FaultsOk (Quiet.clearFault k s) := by
  refine ⟨?_, fun i hi => by rw [Quiet.clearFault_bit, h.2 i hi, Bool.and_false]⟩
  rcases Quiet.clearFault_cases k s with ⟨-, e⟩ | ⟨hk, e⟩
  · rw [e]
    exact h.1
  · rw [e, Quiet.runActions_alert, State.withAlert_alert, h.1, anyFault_of_set hk, Bool.true_and]
    exact (anyFault_congr (by rw [Quiet.runActions_faultSet]; rfl)).symm

theorem FaultsOk.followFault {s : State} (h : FaultsOk s) (k : FaultKind) (b : Bool) :
    FaultsOk (Quiet.followFault k b s) := by
  cases b
  · exact h.clearFault k
  · exact h.raiseFault k

theorem FaultsOk.updateSafety {s : State} (h : FaultsOk s) : FaultsOk (Quiet.updateSafety s) := by
  have h1 : FaultsOk (estopStep s) := by
    unfold estopStep
    split
    · exact h.raiseFault _
    · exact h
  have h2 : FaultsOk (Quiet.settleFaults s) := by
    rw [Quiet.settleFaults_eq]
    exact (h1.followFault _ _).followFault _ _
  exact h2.congr (Quiet.updateSafety_faultSet s) (Quiet.updateSafety_alert s)

theorem FaultsOk.lowerFault {s : State} (h : FaultsOk s) (k : FaultKind) :
    FaultsOk (Quiet.lowerFault k s) := by
  unfold Quiet.lowerFault
  split
  · split
    · exact (h.clearFault k).updateSafety
    · exact h.clearFault k
  · exact h

/-! ### Gates -/

theorem GatesOk.congr {s t : State} (h : GatesOk s) (hm : t.moveOk = s.moveOk)
    (hn : t.mainOk = s.mainOk) (hv : t.visOk = s.visOk)
    (he : faultIsSet t .estop = faultIsSet s .estop) (hl : t.lidOpen = s.lidOpen)
    (ho : t.faultOvr = s.faultOvr) : GatesOk t := by
  obtain ⟨g1, g2, g3⟩ := gates_congr he hl ho
  unfold GatesOk
  rw [hm, hn, hv, g1, g2, g3]
  exact h

theorem Quiet.updateSafety_gatesOk (s : State) : GatesOk (Quiet.updateSafety s) := Quiet.updateSafety_gates s

/-- A handler keeps the gates right, and makes them right when it computes them. -/
theorem Quiet.runActions_gatesOk {p : HandlerProg} {s : State}
    (h : GatesOk s ∨ p.has .setGates = true) : GatesOk (Quiet.runActions p s) := by
  obtain ⟨e1, e2, e3⟩ := Quiet.runActions_gates p s
  have hb : faultIsSet (Quiet.runActions p s) .estop = faultIsSet s .estop := by
    rw [faultIsSet_eq, Quiet.runActions_faultSet, faultIsSet_eq]
  obtain ⟨g1, g2, g3⟩ := gates_congr hb (Quiet.runActions_lidOpen p s) (Quiet.runActions_faultOvr p s)
  unfold GatesOk
  rw [e1, e2, e3, g1, g2, g3]
  cases hc : p.has .setGates
  · rcases h with h | h
    · exact h
    · rw [hc] at h
      cases h
  · exact ⟨rfl, rfl, rfl⟩

/-- Raising a fault leaves the gates right (R244, R256). -/
theorem Quiet.raiseFault_gatesOk {s : State} (k : FaultKind) (h : GatesOk s) (hok : s.cfg.handlersRegular = true) :
    GatesOk (Quiet.raiseFault k s) := by
  rcases Quiet.raiseFault_cases k s with ⟨-, e⟩ | ⟨-, e⟩ <;> rw [e]
  · exact h
  · apply Quiet.runActions_gatesOk
    by_cases hk : k = .estop
    · subst hk
      exact .inr (Config.regular_estop_raised hok)
    · refine .inl (h.congr rfl rfl rfl ?_ rfl rfl)
      rw [faultIsSet_eq, State.withAlert_faultSet, setFaultBit_faultSet, bit_after_set,
        if_neg (by simpa using fun e => hk e.symm)]
      rfl

/-- Clearing a fault leaves the gates right, unless it is `F_ESTOP` and its handler settles the
safety layer afterwards. -/
theorem Quiet.clearFault_gatesOk {s : State} (k : FaultKind) (h : GatesOk s) (hok : s.cfg.handlersRegular = true)
    (hk : k = .estop → (s.cfg.handlerOf k).lowered.settles = false) : GatesOk (Quiet.clearFault k s) := by
  rcases Quiet.clearFault_cases k s with ⟨-, e⟩ | ⟨-, e⟩ <;> rw [e]
  · exact h
  · apply Quiet.runActions_gatesOk
    by_cases hke : k = .estop
    · have := Config.regular_estop_lowered hok
      rw [← hke, hk hke] at this
      exact .inr (this.resolve_right (by simp))
    · refine .inl (h.congr rfl rfl rfl ?_ rfl rfl)
      rw [faultIsSet_eq, State.withAlert_faultSet, setFaultBit_faultSet, bit_after_set,
        if_neg (by simpa using fun e => hke e.symm)]
      rfl

theorem Quiet.lowerFault_gatesOk {s : State} (k : FaultKind) (h : GatesOk s) (hok : s.cfg.handlersRegular = true) :
    GatesOk (Quiet.lowerFault k s) := by
  unfold Quiet.lowerFault
  split
  · split
    · exact Quiet.updateSafety_gatesOk _
    · next hs => exact Quiet.clearFault_gatesOk k h hok fun _ => by simpa using hs
  · exact h

theorem Quiet.lowerFault_safetyOnly (k : FaultKind) (s : State) : SafetyOnly s (Quiet.lowerFault k s) := by
  unfold Quiet.lowerFault
  split
  · split
    · exact (Quiet.clearFault_safetyOnly k s).trans (Quiet.updateSafety_safetyOnly _)
    · exact Quiet.clearFault_safetyOnly k s
  · exact .refl s

/-! ### What one step keeps -/

/-- The invariants that do not speak of the tick in progress or the halt. -/
structure CoreInv (s : State) : Prop where
  config : s.cfg.ok = true
  handlers : s.cfg.handlersRegular = true
  channel : ∀ c, ChannelOk (SkewBelow s.cfg) (s.q.get c) (s.tmr.get c)
  faults : FaultsOk s
  gates : GatesOk s
  switches : SwitchesOk s

theorem Inv.core {s : State} (h : Inv s) : CoreInv s where
  config := h.config
  handlers := h.handlers
  channel c := ⟨h.countLe c, h.onRunning c, fun b => h.cntBelow b c⟩
  faults := ⟨h.alertIff, h.noHighFault⟩
  gates := ⟨h.moveGate, h.mainGate, h.visGate⟩
  switches := ⟨h.noOtherOverride, h.dbBound, h.dbLeft⟩

/-- A state with no tick in progress that is not halted, or halted by a Quiet.fatal fault. -/
theorem CoreInv.idle {s : State} (h : CoreInv s) (hp : s.phase = .idle) (hd : s.pending = [])
    (hh : s.halted = true → faultIsSet s .swSyntax = true ∨ faultIsSet s .swUnderflow = true) :
    Inv s where
  config := h.config
  handlers := h.handlers
  countLe c := (h.channel c).1
  onRunning c := (h.channel c).2.1
  cntBelow b c := (h.channel c).2.2 b
  alertIff := h.faults.1
  noHighFault := h.faults.2
  moveGate := h.gates.1
  mainGate := h.gates.2.1
  visGate := h.gates.2.2
  noOtherOverride := h.switches.1
  dbBound := h.switches.2.1
  dbLeft := h.switches.2.2
  haltedFatal := hh
  haltedIdle _ := hp
  idleDone _ := hd
  firingChannel hf := by rw [hp] at hf; cases hf
  pendingChannels c hc := by rw [hd] at hc; cases hc
  pendingOnce := by rw [hd]; exact List.nodup_nil

/-- A state in a tick. -/
theorem CoreInv.busy {s : State} (h : CoreInv s) (hp : s.phase ≠ .idle) (hh : s.halted = false)
    (hf : s.phase = .firing →
      (s.q.get s.cur).running = true ∧ (s.tmr.get s.cur).cnt = 0 ∧ s.cur ∉ s.pending)
    (hd : ∀ c ∈ s.pending, (s.q.get c).running = true ∧ (s.tmr.get c).cnt = 0)
    (hn : s.pending.Nodup) : Inv s where
  config := h.config
  handlers := h.handlers
  countLe c := (h.channel c).1
  onRunning c := (h.channel c).2.1
  cntBelow b c := (h.channel c).2.2 b
  alertIff := h.faults.1
  noHighFault := h.faults.2
  moveGate := h.gates.1
  mainGate := h.gates.2.1
  visGate := h.gates.2.2
  noOtherOverride := h.switches.1
  dbBound := h.switches.2.1
  dbLeft := h.switches.2.2
  haltedFatal e := by rw [hh] at e; cases e
  haltedIdle e := by rw [hh] at e; cases e
  idleDone e := absurd e hp
  firingChannel := hf
  pendingChannels := hd
  pendingOnce := hn

/-- A safety operation that leaves the faults and the gates right keeps the core invariants. -/
theorem CoreInv.safetyOnly {s t : State} (h : CoreInv s) (k : SafetyOnly s t) (hf : FaultsOk t)
    (hg : GatesOk t) : CoreInv t where
  config := by rw [k.cfg]; exact h.config
  handlers := by rw [k.cfg]; exact h.handlers
  channel c := by rw [k.cfg]; exact k.channelOk (h.channel c)
  faults := hf
  gates := hg
  switches := k.switchesOk h.switches

theorem CoreInv.updateSafety {s : State} (hc : s.cfg.ok = true)
    (hr : s.cfg.handlersRegular = true)
    (hch : ∀ c, ChannelOk (SkewBelow s.cfg) (s.q.get c) (s.tmr.get c)) (hf : FaultsOk s) (hs : SwitchesOk s) :
    CoreInv (Quiet.updateSafety s) where
  config := by rw [Quiet.updateSafety_cfg]; exact hc
  handlers := by rw [Quiet.updateSafety_cfg]; exact hr
  channel c := by
    rw [Quiet.updateSafety_cfg]
    exact (Quiet.updateSafety_safetyOnly s).channelOk (hch c)
  faults := hf.updateSafety
  gates := Quiet.updateSafety_gatesOk s
  switches := (Quiet.updateSafety_safetyOnly s).switchesOk hs

/-- `Fatal` leaves an invariant state, halted with its fault set (R305, R63 (g)). -/
theorem CoreInv.fatal {s : State} (h : CoreInv s) {k : FaultKind}
    (hk : k = .swSyntax ∨ k = .swUnderflow) : Inv (Quiet.fatal k s) := by
  have hr : CoreInv (Quiet.raiseFault k s) :=
    h.safetyOnly (Quiet.raiseFault_safetyOnly k s) (h.faults.raiseFault k)
      (Quiet.raiseFault_gatesOk k h.gates h.handlers)
  have hcore : CoreInv (Quiet.fatal k s) := by
    refine ⟨by simpa using h.config, by simpa using h.handlers, fun c => ?_, hr.faults.congr (by simp) (by simp),
      hr.gates.congr (by simp) (by simp) (by simp) (by simp) (by simp) (by simp), ?_⟩
    · rw [Quiet.fatal_q, Quiet.fatal_tmr, Quiet.fatal_cfg]
      have := hr.channel c
      rwa [Quiet.raiseFault_cfg] at this
    · unfold SwitchesOk
      rw [Quiet.fatal_faultOvr, Quiet.fatal_dbCnt, Quiet.fatal_cfg, Quiet.fatal_dbPending]
      exact h.switches
  refine hcore.idle (by simp) (by simp) fun _ => ?_
  rcases hk with rfl | rfl
  · exact .inl (by simp)
  · exact .inr (by simp)

end Sys2Proof.Machine
end

