-- ==== Sys2Proof/Laws/Tick.lean ====
section
/-! SUPPORT. The parts of a tick (44_engine_ops.md R211, R213): the order of the firings, the channels
that overflow, what the beginning and the end of a tick write. -/

namespace Sys2Proof.Machine

/-- The order of a tick rearranges the channels that overflowed (R213). -/
theorem pickOrder_perm (o l : List Channel) : (pickOrder o l).Perm l := by
  induction o generalizing l with
  | nil => exact .refl _
  | cons c o ih =>
    unfold pickOrder
    split
    · next h => exact ((ih _).cons c).trans (List.perm_cons_erase h).symm
    · exact ih l

/-- With one channel or none there is one order. -/
theorem arrange_eq (o l : List Channel) : arrange o l = pickOrder o l := by
  unfold arrange
  split
  · exact (List.perm_nil.mp (pickOrder_perm o [])).symm
  · exact (List.perm_singleton.mp (pickOrder_perm o _)).symm
  · rfl

theorem arrange_perm (o l : List Channel) : (arrange o l).Perm l := by
  rw [arrange_eq]
  exact pickOrder_perm o l

theorem mem_overflowed {s : State} {c : Channel} : c ∈ overflowed s ↔ overflows (s.tmr.get c) = true := by
  simp [overflowed]

theorem overflowed_nodup (s : State) : (overflowed s).Nodup := Channel.all_nodup.filter _

/-- An order that names every channel once is the order they fire in (R213). -/
theorem pickOrder_filter (o l : List Channel) (hl : l.Nodup) (ho : o.Nodup) (hall : ∀ c ∈ l, c ∈ o) :
    pickOrder o l = o.filter (fun c => decide (c ∈ l)) := by
  induction o generalizing l with
  | nil =>
    cases l with
    | nil => rfl
    | cons a l => exact absurd (hall a (by simp)) (by simp)
  | cons c o ih =>
    unfold pickOrder
    rw [List.nodup_cons] at ho
    by_cases h : c ∈ l
    · rw [if_pos h, List.filter_cons_of_pos (by simpa using h), ih _ (hl.erase c) ho.2]
      · congr 1
        apply List.filter_congr
        intro d hd
        have : d ≠ c := fun e => ho.1 (e ▸ hd)
        simp [List.mem_erase_of_ne this]
      · intro d hd
        have h1 := hall d (List.mem_of_mem_erase hd)
        have : d ≠ c := by
          intro e
          subst e
          exact List.Nodup.not_mem_erase hl hd
        simpa [this] using h1
    · rw [if_neg h, List.filter_cons_of_neg (by simpa using h), ih _ hl ho.2]
      intro d hd
      have : d ≠ c := fun e => h (e ▸ hd)
      simpa [this] using hall d hd

/-- Part 1 of a tick on a block that is not halted (R211). -/
theorem beginTick_eq {s : State} (h : s.halted = false) (order : List Channel) :
    beginTick order s =
      ((s.withTmr (PerChan.ofFn fun c => advanceTimer (s.tmr.get c))).withPending
        (arrange order (overflowed s))).withPhase .between := by
  rw [beginTick, h, if_neg Bool.false_ne_true]

/-- A tick of a halted block does nothing (R306). -/
theorem beginTick_halted {s : State} (h : s.halted = true) (order : List Channel) :
    beginTick order s = s := by
  rw [beginTick, h, if_pos rfl]

/-- `debounce_tick()` (R257) for regular handlers. -/
def Quiet.debounceTick (s : State) : State :=
  if s.dbPending then
    let t := s.withDbCnt (s.dbCnt - 1)
    if t.dbCnt = 0 then Quiet.updateSafety (commitSwitches t) else t
  else if switchDiffers s then freezeSwitches s
  else s

/-- With regular handlers the debouncer ends in its state (R253, R257). -/
theorem debounceTick_regular {s : State} (h : s.cfg.handlersRegular = true) :
    debounceTick s = .on (Quiet.debounceTick s) := by
  unfold debounceTick Quiet.debounceTick
  split
  · simp only []
    split
    · exact updateSafety_regular (s := commitSwitches _) h
    · rfl
  · split <;> rfl

/-- What the debouncer can do at the end of a tick (R257): nothing, freeze, count, or commit. -/
theorem Quiet.debounceTick_cases (s : State) :
    (s.dbPending = false ∧ switchDiffers s = false ∧ Quiet.debounceTick s = s) ∨
    (s.dbPending = false ∧ switchDiffers s = true ∧ Quiet.debounceTick s = freezeSwitches s) ∨
    (s.dbPending = true ∧ s.dbCnt - 1 ≠ 0 ∧ Quiet.debounceTick s = s.withDbCnt (s.dbCnt - 1)) ∨
    (s.dbPending = true ∧ s.dbCnt - 1 = 0 ∧
      Quiet.debounceTick s = Quiet.updateSafety (commitSwitches (s.withDbCnt 0))) := by
  unfold Quiet.debounceTick
  cases hp : s.dbPending
  · rw [if_neg Bool.false_ne_true]
    cases hd : switchDiffers s
    · exact .inl ⟨rfl, rfl, if_neg Bool.false_ne_true⟩
    · exact .inr (.inl ⟨rfl, rfl, if_pos rfl⟩)
  · rw [if_pos rfl]
    by_cases hc : s.dbCnt - 1 = 0
    · refine .inr (.inr (.inr ⟨rfl, hc, ?_⟩))
      simp only [State.withDbCnt_dbCnt, hc, if_true]
    · exact .inr (.inr (.inl ⟨rfl, hc, if_neg hc⟩))

/-- The end of a tick, when no channel is left to fire. -/
theorem nextFiring_done {s : State} (h : s.pending = []) :
    nextFiring s = endTick s := by
  unfold nextFiring
  rw [h]

theorem endTick_regular {s : State} (h : s.cfg.handlersRegular = true) :
    endTick s = .next ((Quiet.debounceTick s).withPhase .idle) := by
  rw [endTick, debounceTick_regular h]
  rfl

/-- The next firing of a tick. -/
theorem nextFiring_more {s : State} {c : Channel} {rest : List Channel} (h : s.pending = c :: rest) :
    nextFiring s = .next (enterFiring c (s.withPending rest)) := by
  unfold nextFiring
  rw [h]

end Sys2Proof.Machine
end

