-- ==== Sys2Proof/Laws/Keeps.lean ====
section
/-! SUPPORT. What the operations of a tick keep: the core invariants, the configuration, the inputs,
the environment's fields and the switch snapshot. -/

namespace Sys2Proof.Machine

/-- The core invariants depend on these fields only. -/
theorem CoreInv.congr {s t : State} (h : CoreInv s) (hc : t.cfg = s.cfg) (hq : t.q = s.q)
    (ht : t.tmr = s.tmr) (hf : t.faultSet = s.faultSet) (ha : t.alert = s.alert)
    (h1 : t.moveOk = s.moveOk) (h2 : t.mainOk = s.mainOk) (h3 : t.visOk = s.visOk)
    (h4 : t.lidOpen = s.lidOpen) (h5 : t.faultOvr = s.faultOvr) (h6 : t.dbCnt = s.dbCnt)
    (h7 : t.dbPending = s.dbPending) : CoreInv t where
  config := by rw [hc]; exact h.config
  handlers := by rw [hc]; exact h.handlers
  channel := by rw [hq, ht, hc]; exact h.channel
  faults := h.faults.congr hf ha
  gates := h.gates.congr h1 h2 h3 (by rw [faultIsSet_eq, hf]; rfl) h4 h5
  switches := by
    unfold SwitchesOk
    rw [h5, h6, h7, hc]
    exact h.switches

/-- Writing queues and timers that are right keeps the core invariants. -/
theorem CoreInv.withChannels {s t : State} (h : CoreInv s)
    (hch : ∀ c, ChannelOk (SkewBelow s.cfg) (t.q.get c) (t.tmr.get c)) (hc : t.cfg = s.cfg)
    (hf : t.faultSet = s.faultSet) (ha : t.alert = s.alert) (h1 : t.moveOk = s.moveOk)
    (h2 : t.mainOk = s.mainOk) (h3 : t.visOk = s.visOk) (h4 : t.lidOpen = s.lidOpen)
    (h5 : t.faultOvr = s.faultOvr) (h6 : t.dbCnt = s.dbCnt) (h7 : t.dbPending = s.dbPending) :
    CoreInv t where
  config := by rw [hc]; exact h.config
  handlers := by rw [hc]; exact h.handlers
  channel := by rw [hc]; exact hch
  faults := h.faults.congr hf ha
  gates := h.gates.congr h1 h2 h3 (by rw [faultIsSet_eq, hf]; rfl) h4 h5
  switches := by
    unfold SwitchesOk
    rw [h5, h6, h7, hc]
    exact h.switches

/-- Taking the atoms of an instruction keeps the core invariants. -/
theorem Taken.core {s t : State} (hT : Taken s.cur s t) (h : CoreInv s) : CoreInv t := by
  obtain ⟨u, rfl, hb, hr, hc⟩ := hT.eq
  refine h.withChannels (fun c => ?_) rfl rfl rfl rfl rfl rfl rfl rfl rfl rfl
  simp only [State.withQ_q, State.withQ_tmr, PerChan.get_set]
  split
  · next e =>
    subst e
    obtain ⟨h1, h2, h3⟩ := h.channel s.cur
    exact ⟨by omega, by rw [h2, hr], h3⟩
  · exact h.channel c

/-- The debouncer keeps the core invariants (R257). -/
theorem Quiet.debounceTick_core {s : State} (h : CoreInv s) : CoreInv (Quiet.debounceTick s) := by
  rcases Quiet.debounceTick_cases s with ⟨-, -, e⟩ | ⟨-, -, e⟩ | ⟨-, h2, e⟩ | ⟨-, -, e⟩ <;> rw [e]
  · exact h
  · exact ⟨h.config, h.handlers, h.channel, h.faults.congr rfl rfl, h.gates.congr rfl rfl rfl rfl rfl rfl,
      h.switches.1, le_refl _, fun _ => ok_debounce h.config⟩
  · refine ⟨h.config, h.handlers, h.channel, h.faults.congr rfl rfl, h.gates.congr rfl rfl rfl rfl rfl rfl,
      h.switches.1, ?_, fun _ => ?_⟩
    · have := h.switches.2.1
      simp only [State.withDbCnt_dbCnt, State.withDbCnt_cfg]
      omega
    · simp only [State.withDbCnt_dbCnt]
      omega
  · exact CoreInv.updateSafety h.config h.handlers h.channel (h.faults.congr rfl rfl)
      ⟨h.switches.1, Nat.zero_le _, fun h => nomatch h⟩

/-- What the debouncer leaves (R257): all but the snapshot, its own registers and what
`update_safety` writes. -/
theorem Quiet.debounceTick_keeps (s : State) :
    (Quiet.debounceTick s).cfg = s.cfg ∧ (Quiet.debounceTick s).halted = s.halted ∧
    (Quiet.debounceTick s).pending = s.pending ∧ (Quiet.debounceTick s).inp = s.inp ∧
    (Quiet.debounceTick s).script = s.script ∧ (Quiet.debounceTick s).hostResult = s.hostResult ∧
    (Quiet.debounceTick s).draws = s.draws ∧ (Quiet.debounceTick s).events = s.events ∧
    (Quiet.debounceTick s).cur = s.cur := by
  rcases Quiet.debounceTick_cases s with ⟨-, -, e⟩ | ⟨-, -, e⟩ | ⟨-, -, e⟩ | ⟨-, -, e⟩ <;> rw [e]
  · exact ⟨rfl, rfl, rfl, rfl, rfl, rfl, rfl, rfl, rfl⟩
  · exact ⟨rfl, rfl, rfl, rfl, rfl, rfl, rfl, rfl, rfl⟩
  · exact ⟨rfl, rfl, rfl, rfl, rfl, rfl, rfl, rfl, rfl⟩
  · simp only [Quiet.updateSafety_cfg, Quiet.updateSafety_halted, Quiet.updateSafety_pending, Quiet.updateSafety_inp,
      Quiet.updateSafety_script, Quiet.updateSafety_hostResult, Quiet.updateSafety_draws, Quiet.updateSafety_events,
      Quiet.updateSafety_cur]
    exact ⟨rfl, rfl, rfl, rfl, rfl, rfl, rfl, rfl, rfl⟩

/-- What a pass of the interpreter may write (R78, R137, R180): the queue, timer and registers of
its channel, or, when it is Quiet.fatal, what `Fatal` writes. -/
structure FiringOnly (s t : State) : Prop where
  cfg : t.cfg = s.cfg
  stopDown : t.stopDown = s.stopDown
  lidOpen : t.lidOpen = s.lidOpen
  laserSel : t.laserSel = s.laserSel
  dbPending : t.dbPending = s.dbPending
  dbCnt : t.dbCnt = s.dbCnt
  faultOvr : t.faultOvr = s.faultOvr
  inp : t.inp = s.inp
  script : t.script = s.script
  cur : t.cur = s.cur
  events : t.events = s.events
  hostResult : t.hostResult = s.hostResult
  draws : t.draws = s.draws

theorem FiringOnly.refl (s : State) : FiringOnly s s := by constructor <;> rfl

theorem FiringOnly.trans {s t u : State} (h : FiringOnly s t) (k : FiringOnly t u) :
    FiringOnly s u where
  cfg := k.cfg.trans h.cfg
  stopDown := k.stopDown.trans h.stopDown
  lidOpen := k.lidOpen.trans h.lidOpen
  laserSel := k.laserSel.trans h.laserSel
  dbPending := k.dbPending.trans h.dbPending
  dbCnt := k.dbCnt.trans h.dbCnt
  faultOvr := k.faultOvr.trans h.faultOvr
  inp := k.inp.trans h.inp
  script := k.script.trans h.script
  cur := k.cur.trans h.cur
  events := k.events.trans h.events
  hostResult := k.hostResult.trans h.hostResult
  draws := k.draws.trans h.draws

theorem Quiet.fatal_firingOnly (k : FaultKind) (s : State) : FiringOnly s (Quiet.fatal k s) := by
  constructor <;> simp

theorem popState_firingOnly (c : Channel) (s : State) : FiringOnly s (popState c s) := by
  constructor <;> rfl

theorem Taken.firingOnly {c : Channel} {s t : State} (h : Taken c s t) : FiringOnly s t := by
  obtain ⟨u, rfl, -⟩ := h.eq
  constructor <;> rfl

/-- What an instruction that its channel takes leaves (R137): also the gates, the faults, the alert
and the halt. -/
theorem exec_keeps {i : Instr} {s t : State} (ht : takesInstr s.cfg s.cur i = true)
    (h : exec i s = .next t) :
    FiringOnly s t ∧ t.moveOk = s.moveOk ∧ t.mainOk = s.mainOk ∧ t.visOk = s.visOk ∧
    t.faultSet = s.faultSet ∧ t.alert = s.alert ∧ t.halted = s.halted ∧ t.pending = s.pending ∧
    (∀ c, c ≠ s.cur → t.q.get c = s.q.get c ∧ t.tmr.get c = s.tmr.get c) ∧
    (∀ b, b.channel ≠ s.cur → t.dir.get b = s.dir.get b ∧ t.stepEn.get b = s.stepEn.get b) ∧
    (s.cur ≠ .l →
      t.mainMode = s.mainMode ∧ t.visMode = s.visMode ∧ t.mainPulseDur = s.mainPulseDur ∧
      t.visPulseDur = s.visPulseDur ∧ t.mainPower = s.mainPower) := by
  rcases exec_cases ht with ⟨-, e⟩ | ⟨v, -, e⟩ | ⟨o, -, -, e⟩ | e | ⟨u, hu, e⟩
  · rw [e] at h
    cases h
    refine ⟨by constructor <;> rfl, rfl, rfl, rfl, rfl, rfl, rfl, rfl, fun c hc => ?_,
      fun _ _ => ⟨rfl, rfl⟩, fun _ => ⟨rfl, rfl, rfl, rfl, rfl⟩⟩
    exact ⟨PerChan.get_set_other _ _ hc, PerChan.get_set_other _ _ hc⟩
  · rw [e] at h
    cases h
    refine ⟨by constructor <;> rfl, rfl, rfl, rfl, rfl, rfl, rfl, rfl, fun c hc => ?_,
      fun _ _ => ⟨rfl, rfl⟩, fun _ => ⟨rfl, rfl, rfl, rfl, rfl⟩⟩
    exact ⟨rfl, PerChan.get_set_other _ _ hc⟩
  · rw [e, pushBack] at h
    split at h
    · cases h
    · cases h
      refine ⟨by constructor <;> rfl, rfl, rfl, rfl, rfl, rfl, rfl, rfl, fun c hc => ?_,
        fun _ _ => ⟨rfl, rfl⟩, fun _ => ⟨rfl, rfl, rfl, rfl, rfl⟩⟩
      exact ⟨PerChan.get_set_other _ _ hc, rfl⟩
  · rw [e] at h
    cases h
    exact ⟨.refl _, rfl, rfl, rfl, rfl, rfl, rfl, rfl, fun _ _ => ⟨rfl, rfl⟩,
      fun _ _ => ⟨rfl, rfl⟩, fun _ => ⟨rfl, rfl, rfl, rfl, rfl⟩⟩
  · rw [e] at h
    cases h
    cases ha : s.cur.axis? with
    | none =>
      have hl := Channel.axis_eq_none.mp ha
      rw [ha] at hu
      cases i <;> simp only [outputWrite, Option.some.injEq, reduceCtorEq] at hu <;> subst hu <;>
        exact ⟨by constructor <;> rfl, rfl, rfl, rfl, rfl, rfl, rfl, rfl, fun _ _ => ⟨rfl, rfl⟩,
          fun _ _ => ⟨rfl, rfl⟩, fun hn => absurd hl hn⟩
    | some a =>
      have hl := Channel.axis_eq_some.mp ha
      have hne : ∀ b : Axis, b.channel ≠ s.cur → b ≠ a := fun b hb e => hb (by rw [e, hl])
      rw [ha] at hu
      cases i <;> simp only [outputWrite, Option.some.injEq, reduceCtorEq] at hu <;> subst hu <;>
        exact ⟨by constructor <;> rfl, rfl, rfl, rfl, rfl, rfl, rfl, rfl, fun _ _ => ⟨rfl, rfl⟩,
          fun b hb => by
            first
            | exact ⟨PerAxis.get_set_other _ _ (hne b hb), rfl⟩
            | exact ⟨rfl, PerAxis.get_set_other _ _ (hne b hb)⟩,
          fun _ => ⟨rfl, rfl, rfl, rfl, rfl⟩⟩

/-- How a fatal pass ends when the fault's handler is a plain one. -/
theorem fatal_outcome {k : FaultKind} {s : State} (h : (s.cfg.handlerOf k).raised.plain = true) :
    (fatal k s).outcome = .next (Quiet.fatal k s) := by
  rw [fatal_plain k h]
  rfl

/-- What a pass of the interpreter leaves, when the two fatal faults have plain handlers. -/
theorem firingPass_keeps {s t : State} (h1 : (s.cfg.handlerOf .swSyntax).raised.plain = true)
    (h2 : (s.cfg.handlerOf .swUnderflow).raised.plain = true) (h : firingPass s = .next t) :
    FiringOnly s t := by
  rcases firingPass_cases s with ⟨-, e⟩ | ⟨-, e⟩ | ⟨-, e⟩ | ⟨i, u, hT, ht, -, e⟩ <;> rw [e] at h
  · rw [fatal_outcome h2] at h
    cases h
    exact Quiet.fatal_firingOnly ..
  · rw [fatal_outcome (s := popState s.cur s) h2] at h
    cases h
    exact (popState_firingOnly ..).trans (Quiet.fatal_firingOnly ..)
  · rw [fatal_outcome (s := popState s.cur s) h1] at h
    cases h
    exact (popState_firingOnly ..).trans (Quiet.fatal_firingOnly ..)
  · have hu := hT.firingOnly
    exact hu.trans (exec_keeps (by rw [hu.cfg, hu.cur]; exact ht) h).1

/-- What a pass of the interpreter leaves, whatever the handlers do. -/
theorem firingPass_env {s t : State} (h : firingPass s = .next t) : EnvKept s t := by
  have hp : EnvKept s (popState s.cur s) := by constructor <;> rfl
  rcases firingPass_cases s with ⟨-, e⟩ | ⟨-, e⟩ | ⟨-, e⟩ | ⟨i, u, hT, ht, -, e⟩ <;> rw [e] at h
  · exact (action_keeps (.fatal .swUnderflow) s).outcome h
  · exact hp.trans ((action_keeps (.fatal .swUnderflow) _).outcome h)
  · exact hp.trans ((action_keeps (.fatal .swSyntax) _).outcome h)
  · have hu := hT.firingOnly
    have hx := hu.trans (exec_keeps (by rw [hu.cfg, hu.cur]; exact ht) h).1
    exact ⟨hx.cfg, hx.inp, hx.script, hx.cur, hx.events, hx.hostResult⟩

end Sys2Proof.Machine
end

