-- ==== Sys2Proof/Laws/Host.lean ====
section
/-! SUPPORT. What a host operation and the end of a tick can do, said once: for regular handlers by cases
(00_scope.md R12), for any handlers by what they leave. -/

namespace Sys2Proof.Machine

/-! ### Regular handlers -/

/-- The state a host operation leaves, but for its answer. -/
inductive HostDoes (op : HostOp) (s : State) : State → Prop
  /-- a read, an operation on a halted block, a no-op -/
  | same : HostDoes op s s
  | raised (k : FaultKind) (h : s.halted = false) : HostDoes op s (Quiet.raiseFault k s)
  | lowered (k : FaultKind) (h : s.halted = false) : HostDoes op s (Quiet.lowerFault k s)
  | halts (h : s.halted = false) : HostDoes op s (Quiet.fatal .swUnderflow s)
  | queued (c : Channel) (a : Word) (h : s.halted = false) (hc : (s.q.get c).count ≠ 128) :
    HostDoes op s (s.withQ (s.q.set c ((s.q.get c).push a)))
  | started (h : s.halted = false) (he : engineState s = .stopped) :
    HostDoes op s (startChannels s)
  | stopped (h : s.halted = false) : HostDoes op s (stopEngine s)
  | settled (h : s.halted = false) : HostDoes op s (Quiet.updateSafety s)
  | selected (v : LaserSel) (h : s.halted = false) :
    HostDoes op s (Quiet.updateSafety (s.withLaserSel v))
  | overridden (w : Override) (b : Bool) (h : s.halted = false) :
    HostDoes op s
      (Quiet.updateSafety (s.withFaultOvr (s.faultOvr.set (overrideFault w).index b)))
  | reset (h : op = .reset) : HostDoes op s (Quiet.updateSafety (clearBlock s))

theorem setLaserSelect_eq (v : LaserSel) (s : State) :
    setLaserSelect v s = updateSafety (s.withLaserSel v) := by
  unfold setLaserSelect setLaserSelectWith updateSafety
  rfl

theorem setOverride_eq (w : Override) (b : Bool) (s : State) :
    setOverride w b s =
      updateSafety (s.withFaultOvr (s.faultOvr.set (overrideFault w).index b)) := by
  unfold setOverride setOverrideWith updateSafety
  rfl

/-- What a host operation can do with regular handlers (R12): answer one of the states of
`HostDoes`, or be refused for a fault index that names no fault (R255). -/
theorem hostStep_cases {s : State} (hr : s.cfg.handlersRegular = true) (op : HostOp) :
    (∃ t r, HostDoes op s t ∧ hostStep op s = .next (t.withHostResult r)) ∨
    (∃ i, 12 ≤ i ∧ hostStep op s = .refused (.badFaultIndex i)) := by
  have act : ∀ f : State → Ran,
      (s.halted = false → ∃ t, HostDoes op s t ∧ (f s = .on t ∨ f s = .abandoned t)) →
      ∃ t r, HostDoes op s t ∧ hostAct f s = .next (t.withHostResult r) := by
    intro f hf
    cases hh : s.halted
    · obtain ⟨t, hd, e | e⟩ := hf hh
      · exact ⟨t, none, hd, hostAct_on hh e⟩
      · exact ⟨t, none, hd, hostAct_abandoned hh e⟩
    · exact ⟨s, none, .same, hostAct_halted hh f⟩
  have read : ∀ r, ∃ t r', HostDoes op s t ∧ hostRead r s = .next (t.withHostResult r') :=
    fun r => ⟨s, some (r s), .same, rfl⟩
  have onf : ∀ (i : Nat) (f : FaultKind → Host.Outcome State Fault Refusal),
      (∀ k, ∃ t r, HostDoes op s t ∧ f k = .next (t.withHostResult r)) →
      (∃ t r, HostDoes op s t ∧ onFault i f = .next (t.withHostResult r)) ∨
      (∃ j, 12 ≤ j ∧ onFault i f = .refused (.badFaultIndex j)) := by
    intro i f hf
    unfold onFault
    cases e : faultOfIndex i with
    | some k => exact .inl (hf k)
    | none =>
      refine .inr ⟨i, ?_, rfl⟩
      simpa [faultOfIndex, FaultKind.all] using e
  have hst : s.halted = false →
      ∃ t, HostDoes op s t ∧ (startEngine s = .on t ∨ startEngine s = .abandoned t) := by
    intro hh
    by_cases he : engineState s = .stopped
    · exact ⟨_, .started hh he, .inl (if_pos he)⟩
    · exact ⟨_, .halts hh, .inr ((if_neg he).trans (fatal_regular _ hr))⟩
  cases op
  case raiseFault i =>
    exact onf i _ fun k => act _ fun hh => ⟨_, .raised k hh, .inl (raiseFault_regular k hr)⟩
  case lowerFault i =>
    exact onf i _ fun k => act _ fun hh => ⟨_, .lowered k hh, .inl (lowerFault_regular k hr)⟩
  case faultIsSet i => exact onf i _ fun k => read _
  case faultOverridden i => exact onf i _ fun k => read _
  case getFaultName i => exact onf i _ fun k => read _
  all_goals left
  case queueIsFull => exact read (fun t => .bool (queueIsFull t _))
  case queueIsEmpty => exact read (fun t => .bool (queueIsEmpty t _))
  case queueIsRunning => exact read (fun t => .bool (t.q.get _).running)
  case getEngineState => exact read (fun t => .engine (engineState t))
  case readGates => exact read (fun t => .gates t.moveOk t.mainOk t.visOk)
  case enqueue c a =>
    refine act _ fun hh => ?_
    by_cases hc : (s.q.get c).count = 128
    · exact ⟨_, .halts hh, .inr ((if_pos hc).trans (fatal_regular _ hr))⟩
    · exact ⟨_, .queued c a hh hc, .inl (if_neg hc)⟩
  case startEngine => exact act _ hst
  case maybeStartEngine =>
    refine act _ fun hh => ?_
    by_cases hc : (decide (engineState s ≠ .running) && someQueueFull s) = true
    · rw [show maybeStartEngine s = startEngine s from if_pos hc]
      exact hst hh
    · exact ⟨s, .same, .inl (if_neg hc)⟩
  case stopEngineImmediately => exact act (fun t => .on (stopEngine t)) fun hh => ⟨_, .stopped hh, .inl rfl⟩
  case awaitEngineStopped => exact act _ fun _ => ⟨s, .same, .inl rfl⟩
  case setLaserSelect v =>
    exact act _ fun hh => ⟨_, .selected v hh, .inl
      ((setLaserSelect_eq v s).trans (updateSafety_regular (s := s.withLaserSel v) hr))⟩
  case setOverride w b =>
    exact act _ fun hh => ⟨_, .overridden w b hh, .inl ((setOverride_eq w b s).trans
      (updateSafety_regular (s := s.withFaultOvr _) hr))⟩
  case updateSafety => exact act _ fun hh => ⟨_, .settled hh, .inl (updateSafety_regular hr)⟩
  case reset =>
    refine ⟨_, none, .reset rfl, ?_⟩
    rw [hostStep, resetBlock_regular hr]
    rfl

/-! ### Any handlers -/

/-- What no host operation writes, whatever the handlers do: the configuration, the inputs, the
script, the channel that ran last and the emitted events (R6, R60). -/
def HostKeeps (s t : State) : Prop :=
  t.cfg = s.cfg ∧ t.inp = s.inp ∧ t.script = s.script ∧ t.cur = s.cur ∧ t.events = s.events

theorem Ran.All.answered {s : State} {r : Ran} (h : r.All (EnvKept s)) {v : Option HostResult}
    {t : State} (e : (r.atEnd fun t => t.withHostResult v).outcome = .next t) : HostKeeps s t := by
  cases r with
  | on u => cases e; exact ⟨h.cfg, h.inp, h.script, h.cur, h.events⟩
  | abandoned u => cases e; exact ⟨h.cfg, h.inp, h.script, h.cur, h.events⟩
  | endless => cases e

theorem hostAct_keeps {f : State → Ran} (hf : Keeps f) {s t : State}
    (h : hostAct f s = .next t) : HostKeeps s t := by
  unfold hostAct at h
  split at h
  · cases h
    exact ⟨rfl, rfl, rfl, rfl, rfl⟩
  · exact (hf s).answered h

theorem hostStep_keeps {op : HostOp} {s t : State} (h : hostStep op s = .next t) :
    HostKeeps s t := by
  cases op <;> simp only [hostStep, onFault, hostRead] at h
  case enqueue c a => exact hostAct_keeps (action_keeps (.enqueue c a)) h
  case startEngine => exact hostAct_keeps (action_keeps .startEngine) h
  case maybeStartEngine => exact hostAct_keeps (action_keeps .maybeStartEngine) h
  case stopEngineImmediately => exact hostAct_keeps (action_keeps .stopEngineImmediately) h
  case awaitEngineStopped => exact hostAct_keeps (f := .on) EnvKept.refl h
  case raiseFault i =>
    split at h
    · exact hostAct_keeps (action_keeps (.raiseFault _)) h
    · cases h
  case lowerFault i =>
    split at h
    · exact hostAct_keeps (action_keeps (.lowerFault _)) h
    · cases h
  case setLaserSelect v => exact hostAct_keeps (action_keeps (.setLaserSelect v)) h
  case setOverride w b => exact hostAct_keeps (action_keeps (.setOverride w b)) h
  case updateSafety => exact hostAct_keeps (action_keeps .updateSafety) h
  case reset => exact (action_keeps .reset s).answered h
  all_goals
    try split at h
    all_goals
      cases h
      try exact ⟨rfl, rfl, rfl, rfl, rfl⟩

/-- The debouncer writes no configuration, no input and nothing of the environment, whatever the
handlers do (R257). -/
theorem debounceTick_env : Keeps debounceTick := fun s => by
  unfold debounceTick
  split
  · simp only []
    split
    · exact (action_keeps .updateSafety).after (by constructor <;> rfl)
    · show EnvKept s _
      constructor <;> rfl
  · split
    · show EnvKept s _
      constructor <;> rfl
    · exact .refl s

/-- What the tick leaves between firings, whatever the handlers do: the configuration, the inputs,
the script and the host's answer. -/
theorem nextFiring_keeps {s t : State} (h : nextFiring s = .next t) :
    t.cfg = s.cfg ∧ t.inp = s.inp ∧ t.script = s.script ∧ t.hostResult = s.hostResult := by
  cases hd : s.pending with
  | nil =>
    rw [nextFiring_done hd, endTick] at h
    have k := debounceTick_env s
    cases e : debounceTick s <;> rw [e] at h k
    · cases h; exact ⟨k.cfg, k.inp, k.script, k.hostResult⟩
    · cases h; exact ⟨k.cfg, k.inp, k.script, k.hostResult⟩
    · cases h
  | cons c rest =>
    rw [nextFiring_more hd] at h
    injection h with h
    subst h
    simp [enterFiring]

end Sys2Proof.Machine
end

