-- ==== Sys2Proof/Laws/PerInstr.lean ====
section
/-! SUPPORT. What is said of every instruction as syntax, one lemma per constructor. -/

namespace Sys2Proof.Laws

open Sys2Proof

/-- The formats of 30_encoding.md R102, R103 and R106, under every configuration: an opcode's first
atom is its number, it is always well formed, and it has two atoms exactly in format `A2`; a
literal has one. -/
def EncodingShape.Statement (i : Instr) : Prop :=
  ∀ cfg : Config,
    (∀ o, opcodeOfInstr i = some o →
      i.wellFormed cfg = true ∧ (encode cfg i).head? = some (opnum cfg o) ∧
        (encode cfg i).length = if hasOperand o then 2 else 1) ∧
    (opcodeOfInstr i = none → (encode cfg i).length = 1)

theorem EncodingShape.stop : EncodingShape.Statement .stop := by
  intro cfg; refine ⟨?_, by simp [opcodeOfInstr]⟩; rintro o ⟨⟩; exact ⟨rfl, rfl, rfl⟩

theorem EncodingShape.dirPositive : EncodingShape.Statement .dirPositive := by
  intro cfg; refine ⟨?_, by simp [opcodeOfInstr]⟩; rintro o ⟨⟩; exact ⟨rfl, rfl, rfl⟩

theorem EncodingShape.dirNegative : EncodingShape.Statement .dirNegative := by
  intro cfg; refine ⟨?_, by simp [opcodeOfInstr]⟩; rintro o ⟨⟩; exact ⟨rfl, rfl, rfl⟩

theorem EncodingShape.loopUntilMin : EncodingShape.Statement .loopUntilMin := by
  intro cfg; refine ⟨?_, by simp [opcodeOfInstr]⟩; rintro o ⟨⟩; exact ⟨rfl, rfl, rfl⟩

theorem EncodingShape.loopWhileMin : EncodingShape.Statement .loopWhileMin := by
  intro cfg; refine ⟨?_, by simp [opcodeOfInstr]⟩; rintro o ⟨⟩; exact ⟨rfl, rfl, rfl⟩

theorem EncodingShape.loopUntilMax : EncodingShape.Statement .loopUntilMax := by
  intro cfg; refine ⟨?_, by simp [opcodeOfInstr]⟩; rintro o ⟨⟩; exact ⟨rfl, rfl, rfl⟩

theorem EncodingShape.loopWhileMax : EncodingShape.Statement .loopWhileMax := by
  intro cfg; refine ⟨?_, by simp [opcodeOfInstr]⟩; rintro o ⟨⟩; exact ⟨rfl, rfl, rfl⟩

theorem EncodingShape.enablePin : EncodingShape.Statement .enablePin := by
  intro cfg; refine ⟨?_, by simp [opcodeOfInstr]⟩; rintro o ⟨⟩; exact ⟨rfl, rfl, rfl⟩

theorem EncodingShape.disablePin : EncodingShape.Statement .disablePin := by
  intro cfg; refine ⟨?_, by simp [opcodeOfInstr]⟩; rintro o ⟨⟩; exact ⟨rfl, rfl, rfl⟩

theorem EncodingShape.setMainModeOff : EncodingShape.Statement .setMainModeOff := by
  intro cfg; refine ⟨?_, by simp [opcodeOfInstr]⟩; rintro o ⟨⟩; exact ⟨rfl, rfl, rfl⟩

theorem EncodingShape.setMainModePulsed : EncodingShape.Statement .setMainModePulsed := by
  intro cfg; refine ⟨?_, by simp [opcodeOfInstr]⟩; rintro o ⟨⟩; exact ⟨rfl, rfl, rfl⟩

theorem EncodingShape.setMainModeContinuous : EncodingShape.Statement .setMainModeContinuous := by
  intro cfg; refine ⟨?_, by simp [opcodeOfInstr]⟩; rintro o ⟨⟩; exact ⟨rfl, rfl, rfl⟩

theorem EncodingShape.setVisibleModeOff : EncodingShape.Statement .setVisibleModeOff := by
  intro cfg; refine ⟨?_, by simp [opcodeOfInstr]⟩; rintro o ⟨⟩; exact ⟨rfl, rfl, rfl⟩

theorem EncodingShape.setVisibleModePulsed : EncodingShape.Statement .setVisibleModePulsed := by
  intro cfg; refine ⟨?_, by simp [opcodeOfInstr]⟩; rintro o ⟨⟩; exact ⟨rfl, rfl, rfl⟩

theorem EncodingShape.setVisibleModeContinuous : EncodingShape.Statement .setVisibleModeContinuous := by
  intro cfg; refine ⟨?_, by simp [opcodeOfInstr]⟩; rintro o ⟨⟩; exact ⟨rfl, rfl, rfl⟩

theorem EncodingShape.setMainPulseDuration (n : Word) : EncodingShape.Statement (.setMainPulseDuration n) := by
  intro cfg; refine ⟨?_, by simp [opcodeOfInstr]⟩; rintro o ⟨⟩; exact ⟨rfl, rfl, rfl⟩

theorem EncodingShape.setVisiblePulseDuration (n : Word) : EncodingShape.Statement (.setVisiblePulseDuration n) := by
  intro cfg; refine ⟨?_, by simp [opcodeOfInstr]⟩; rintro o ⟨⟩; exact ⟨rfl, rfl, rfl⟩

theorem EncodingShape.setMainPowerLevel (n : Word) : EncodingShape.Statement (.setMainPowerLevel n) := by
  intro cfg; refine ⟨?_, by simp [opcodeOfInstr]⟩; rintro o ⟨⟩; exact ⟨rfl, rfl, rfl⟩

theorem EncodingShape.ivl (v : Word) : EncodingShape.Statement (.ivl v) := by
  intro cfg; exact ⟨by simp [opcodeOfInstr], fun _ => rfl⟩

end Sys2Proof.Laws
end

