-- ==== Sys2Proof/Laws/Shadow.lean ====
section
/-! SUPPORT. The reference host's shadow follows the block (70_reset_and_hazards.md R356): under the
default `HANDLER` an event is a stop by `stopHappened` exactly where the block has silenced its outputs and
thrown its queues away; every other one leaves both (log 19). -/

namespace Sys2Proof.Machine

/-! ### The two ways an event can leave what the shadow is about -/

/-- Steps disabled, both modes off, and no atom queued (R218). -/
def Silenced (t : State) : Prop :=
  t.stepEn = PerAxis.ofFn (fun _ => false) ∧ t.mainMode = .off ∧ t.visMode = .off ∧
    ∀ c, (t.q.get c).count = 0

/-- Step enables and modes as they were, and no queued atom thrown away. -/
def LeavesCommanded (s t : State) : Prop :=
  t.stepEn = s.stepEn ∧ t.mainMode = s.mainMode ∧ t.visMode = s.visMode ∧
    ∀ c, (t.q.get c).head = (s.q.get c).head ∧ (s.q.get c).count ≤ (t.q.get c).count

/-- One of the three faults of R356 was raised. -/
def RaisedStop (s t : State) : Prop := ∃ k ∈ stopFaults, faultIsSet t k = true ∧ faultIsSet s k = false

theorem LeavesCommanded.refl (s : State) : LeavesCommanded s s :=
  ⟨rfl, rfl, rfl, fun _ => ⟨rfl, le_refl _⟩⟩

theorem LeavesCommanded.trans {s t u : State} (h : LeavesCommanded s t) (k : LeavesCommanded t u) :
    LeavesCommanded s u :=
  ⟨k.1.trans h.1, k.2.1.trans h.2.1, k.2.2.1.trans h.2.2.1,
    fun c => ⟨(k.2.2.2 c).1.trans (h.2.2.2 c).1, (h.2.2.2 c).2.trans (k.2.2.2 c).2⟩⟩

theorem Silenced.safety {s t : State} (h : Silenced s) (k : SafetyOnly s t) : Silenced t := by
  obtain ⟨a, b, c, d⟩ := h
  refine ⟨?_, ?_, ?_, fun ch => ?_⟩
  · rcases k.outputs with ⟨e, -⟩ | ⟨e, -⟩ <;> rw [e]
    exact a
  · rcases k.outputs with ⟨-, e, -⟩ | ⟨-, e, -⟩ <;> rw [e]
    exact b
  · rcases k.outputs with ⟨-, -, e⟩ | ⟨-, -, e⟩ <;> rw [e]
    exact c
  · rcases k.channels ch with ⟨e, -⟩ | ⟨e, -⟩ <;> rw [e]
    · exact d ch
    · rfl

theorem silenced_stop (s : State) : Silenced (stopEngine s) := by
  rw [stopEngine_eq]
  exact ⟨rfl, rfl, rfl, fun c => by simp [Queue.flush]⟩

theorem silenced_clear (s : State) : Silenced (clearBlock s) := by
  refine ⟨?_, ?_, ?_, fun c => ?_⟩
  · unfold clearBlock; rfl
  · unfold clearBlock; rfl
  · unfold clearBlock; rfl
  · simp [clearBlock, resetQueue]

theorem RaisedStop.none {s t : State}
    (h : ∀ k ∈ stopFaults, faultIsSet t k = true → faultIsSet s k = true) : ¬ RaisedStop s t := by
  rintro ⟨k, hk, a, b⟩
  rw [h k hk a] at b
  cases b

theorem any_raisedStop {s t : State} :
    (stopFaults.any fun k => faultIsSet t k && !faultIsSet s k) = true ↔ RaisedStop s t := by
  simp only [RaisedStop, List.any_eq_true, Bool.and_eq_true, Bool.not_eq_true']

/-! ### Raising, lowering and `update_safety` under the default handlers -/

theorem default_rows {s : State} (hc : s.cfg.handler = Config.referenceHandler) (k : FaultKind) :
    s.cfg.handlerOf k = Config.reference.handlerOf k := by
  unfold Config.handlerOf
  rw [hc]
  rfl

theorem raise_stops {s : State} (hc : s.cfg.handler = Config.referenceHandler) (k : FaultKind) :
    (k ∈ stopFaults ∧ faultIsSet s k = false ∧ Silenced (Quiet.raiseFault k s)) ∨
      ((k ∉ stopFaults ∨ faultIsSet s k = true) ∧ LeavesCommanded s (Quiet.raiseFault k s)) := by
  rcases Quiet.raiseFault_cases k s with ⟨h, e⟩ | ⟨h, e⟩ <;> rw [e]
  · exact .inr ⟨.inr h, .refl _⟩
  · rw [default_rows hc]
    cases k
    case estop => exact .inl ⟨by decide, h, (silenced_stop _).safety (setGates_safetyOnly _)⟩
    case lidOpen => exact .inl ⟨by decide, h, silenced_stop _⟩
    case lidClosed => exact .inl ⟨by decide, h, silenced_stop _⟩
    all_goals exact .inr ⟨.inl (by decide), .refl _⟩

theorem clear_leavesCommanded {s : State} (hc : s.cfg.handler = Config.referenceHandler)
    (k : FaultKind) : LeavesCommanded s (Quiet.clearFault k s) := by
  rcases Quiet.clearFault_cases k s with ⟨h, e⟩ | ⟨h, e⟩ <;> rw [e]
  · exact .refl _
  · rw [default_rows hc]
    cases k <;> exact .refl _

theorem follow_stops {s : State} (hc : s.cfg.handler = Config.referenceHandler) {k : FaultKind}
    (hk : k ∈ stopFaults) (b : Bool) :
    (b = true ∧ faultIsSet s k = false ∧ Silenced (Quiet.followFault k b s)) ∨
      ((b = false ∨ faultIsSet s k = true) ∧ LeavesCommanded s (Quiet.followFault k b s)) := by
  unfold Quiet.followFault
  cases b
  · exact .inr ⟨.inl rfl, clear_leavesCommanded hc k⟩
  · rcases raise_stops hc k with ⟨-, h1, h2⟩ | ⟨h1, h2⟩
    · exact .inl ⟨rfl, h1, h2⟩
    · exact .inr ⟨.inr (h1.resolve_left (fun h => h hk)), h2⟩

/-- `update_safety` raises one of the three faults and stops the engine, or does neither (R246). -/
theorem update_stops {s : State} (hc : s.cfg.handler = Config.referenceHandler) :
    (RaisedStop s (Quiet.updateSafety s) ∧ Silenced (Quiet.updateSafety s)) ∨
      (¬ RaisedStop s (Quiet.updateSafety s) ∧ LeavesCommanded s (Quiet.updateSafety s)) := by
  have hb := Quiet.updateSafety_bits s
  have r1 : (RaisedStop s (Quiet.updateSafety s) ∧ Silenced (estopStep s)) ∨
      ((s.stopDown = false ∨ faultIsSet s .estop = true) ∧ LeavesCommanded s (estopStep s)) := by
    unfold estopStep
    cases hd : s.stopDown
    · exact .inr ⟨.inl rfl, .refl _⟩
    · rw [if_pos rfl]
      rcases raise_stops hc .estop with ⟨-, h1, h2⟩ | ⟨h1, h2⟩
      · exact .inl ⟨⟨.estop, by decide, by rw [hb]; simp [hd], h1⟩, h2⟩
      · exact .inr ⟨.inr (h1.resolve_left (fun h => h (by decide))), h2⟩
  have hc1 : (estopStep s).cfg.handler = Config.referenceHandler := by
    rw [estopStep_cfg]
    exact hc
  have f1 : ∀ k, k ≠ .estop → faultIsSet (estopStep s) k = faultIsSet s k := fun k hk => by
    rw [estopStep_bits]
    simp [hk]
  have ho := follow_stops hc1 (k := .lidOpen) (by decide) (lidOpenConflict s)
  rw [f1 _ (by decide)] at ho
  have hc2 : (Quiet.followFault .lidOpen (lidOpenConflict s) (estopStep s)).cfg.handler =
      Config.referenceHandler := by
    rw [Quiet.followFault_cfg]
    exact hc1
  have hcl := follow_stops hc2 (k := .lidClosed) (by decide) (lidClosedConflict s)
  rw [Quiet.followFault_bits, if_neg (by decide), f1 _ (by decide)] at hcl
  have so1 := Quiet.followFault_safetyOnly .lidOpen (lidOpenConflict s) (estopStep s)
  have so2 := Quiet.followFault_safetyOnly .lidClosed (lidClosedConflict s)
    (Quiet.followFault .lidOpen (lidOpenConflict s) (estopStep s))
  have eq : Quiet.updateSafety s = setGates (Quiet.followFault .lidClosed (lidClosedConflict s)
      (Quiet.followFault .lidOpen (lidOpenConflict s) (estopStep s))) := by
    rw [Quiet.updateSafety, Quiet.settleFaults_eq]
  have gates : ∀ t : State, Silenced t → Silenced (setGates t) :=
    fun t h => h.safety (setGates_safetyOnly t)
  rcases r1 with ⟨hr, h1⟩ | ⟨n1, h1⟩
  · refine .inl ⟨hr, ?_⟩
    rw [eq]
    exact gates _ ((h1.safety so1).safety so2)
  rcases ho with ⟨a, b, h2⟩ | ⟨n2, h2⟩
  · refine .inl ⟨⟨.lidOpen, by decide, by rw [hb]; simp [a], b⟩, ?_⟩
    rw [eq]
    exact gates _ (h2.safety so2)
  rcases hcl with ⟨a, b, h3⟩ | ⟨n3, h3⟩
  · refine .inl ⟨⟨.lidClosed, by decide, by rw [hb]; simp [a], b⟩, ?_⟩
    rw [eq]
    exact gates _ h3
  refine .inr ⟨?_, ?_⟩
  · rintro ⟨k, hk, ht, hs⟩
    rw [hb] at ht
    simp only [stopFaults, List.mem_cons, List.not_mem_nil, or_false] at hk
    rcases hk with rfl | rfl | rfl
    · simp [hs] at ht
      simp [ht, hs] at n1
    · simp at ht
      simp [ht, hs] at n2
    · simp at ht
      simp [ht, hs] at n3
  · rw [eq]
    exact (h1.trans h2).trans h3

/-! ### Host operations and the end of a tick -/

/-- `stopHappened` as a proposition. -/
def Stops (e : Event) (s t : State) : Prop :=
  (∃ h, e = .host h .reset) ∨ (∃ h, e = .host h .stopEngineImmediately ∧ s.halted = false) ∨
    (∃ h, e = .host h (.lowerFault 0) ∧ s.halted = false ∧ faultIsSet s .estop = true ∧
      faultIsSet t .estop = true) ∨
    RaisedStop s t

theorem stopHappened_iff {e : Event} {s t : State} : stopHappened e s t = true ↔ Stops e s t := by
  unfold stopHappened Stops
  rw [Bool.or_eq_true, any_raisedStop]
  cases e <;>
    simp only [Bool.false_eq_true, false_or, Bool.or_eq_true, Bool.and_eq_true, decide_eq_true_eq,
      Bool.not_eq_true', reduceCtorEq, false_and, exists_false, Event.host.injEq]
  simp [FaultKind.index, or_assoc, and_assoc]

/-- The event stopped the block and it is silenced, or it did not and the block is as commanded. -/
def StopCase (e : Event) (s t : State) : Prop :=
  Stops e s t ∧ Silenced t ∨ ¬ Stops e s t ∧ LeavesCommanded s t

/-- An operation that is none of the three stops by raising one of the faults. -/
theorem StopCase.of_raised {h : Nat} {op : HostOp} {s t : State} (h1 : op ≠ .reset)
    (h2 : op ≠ .stopEngineImmediately) (h3 : op ≠ .lowerFault 0)
    (k : (RaisedStop s t ∧ Silenced t) ∨ (¬ RaisedStop s t ∧ LeavesCommanded s t)) :
    StopCase (.host h op) s t := by
  unfold StopCase Stops
  simpa [h1, h2, h3] using k

theorem StopCase.of_kept {h : Nat} {op : HostOp} {s t : State} (h1 : op ≠ .reset)
    (h2 : op ≠ .stopEngineImmediately) (h3 : op ≠ .lowerFault 0) (hk : LeavesCommanded s t)
    (hb : ∀ k ∈ stopFaults, faultIsSet t k = true → faultIsSet s k = true) :
    StopCase (.host h op) s t :=
  .of_raised h1 h2 h3 (.inr ⟨RaisedStop.none hb, hk⟩)

theorem read_stopCase {h : Nat} {op : HostOp} {r : State → HostResult} {s t : State}
    (k : hostRead r s = .next t) (h1 : op ≠ .reset) (h2 : op ≠ .stopEngineImmediately)
    (h3 : op ≠ .lowerFault 0) : StopCase (.host h op) s t := by
  cases k
  exact .of_kept h1 h2 h3 (.refl _) fun _ _ => id

/-- A host operation that acts: halted it is dropped, else what its function answers is the state. -/
theorem hostAct_next {f : State → Ran} {s t : State} (h : hostAct f s = .next t) :
    (s.halted = true ∧ t = s.withHostResult none) ∨
      (s.halted = false ∧ ∃ u, (f s = .on u ∨ f s = .abandoned u) ∧ t = u.withHostResult none) := by
  cases hh : s.halted
  · rw [hostAct_live hh] at h
    cases e : f s with
    | on u => rw [e] at h; cases h; exact .inr ⟨rfl, u, .inl rfl, rfl⟩
    | abandoned u => rw [e] at h; cases h; exact .inr ⟨rfl, u, .inr rfl, rfl⟩
    | endless => rw [e] at h; cases h
  · rw [hostAct_halted hh] at h
    cases h
    exact .inl ⟨rfl, rfl⟩

theorem act_stopCase {h : Nat} {op : HostOp} {f : State → Ran} {s t : State}
    (k : hostAct f s = .next t) (hr : op ≠ .reset)
    (hf : s.halted = false → ∀ u, (f s = .on u ∨ f s = .abandoned u) → StopCase (.host h op) s u) :
    StopCase (.host h op) s t := by
  rcases hostAct_next k with ⟨hh, rfl⟩ | ⟨hh, u, hu, rfl⟩
  · refine .inr ⟨?_, .refl _⟩
    have : ¬ RaisedStop s (s.withHostResult none) := RaisedStop.none fun _ _ => id
    simp [Stops, hr, hh, this]
  · exact hf hh u hu

theorem fatal_stopCase {h : Nat} {op : HostOp} {s u : State}
    (hc : s.cfg.handler = Config.referenceHandler) (h1 : op ≠ .reset)
    (h2 : op ≠ .stopEngineImmediately) (h3 : op ≠ .lowerFault 0)
    (k : fatal .swUnderflow s = .on u ∨ fatal .swUnderflow s = .abandoned u) :
    StopCase (.host h op) s u := by
  have hrow : (s.cfg.handlerOf .swUnderflow).raised = .done := by
    rw [default_rows hc]
    rfl
  rw [fatal_done _ hrow] at k
  rcases k with k | k <;> cases k
  refine .of_kept h1 h2 h3 (.refl _) fun k hk hs => ?_
  have : k ≠ .swUnderflow := by
    rintro rfl
    revert hk
    decide
  revert hs
  simp only [faultIsSet]
  cases k <;> simp_all [FaultKind.index, stopFaults]

theorem start_stopCase {h : Nat} {op : HostOp} {s u : State}
    (hc : s.cfg.handler = Config.referenceHandler) (h1 : op ≠ .reset)
    (h2 : op ≠ .stopEngineImmediately) (h3 : op ≠ .lowerFault 0)
    (k : startEngine s = .on u ∨ startEngine s = .abandoned u) : StopCase (.host h op) s u := by
  by_cases he : engineState s = .stopped
  · rw [show startEngine s = .on (startChannels s) from if_pos he] at k
    rcases k with k | k <;> cases k
    refine .of_kept h1 h2 h3 ⟨rfl, rfl, rfl, fun c => ?_⟩ fun _ _ => id
    simp [startChannels]
  · rw [show startEngine s = fatal .swUnderflow s from if_neg he] at k
    exact fatal_stopCase hc h1 h2 h3 k

theorem update_stopCase {h : Nat} {op : HostOp} {s v u : State}
    (hc : s.cfg.handler = Config.referenceHandler) (hv : v.faultSet = s.faultSet)
    (hcv : v.cfg = s.cfg) (hk : LeavesCommanded s v) (h1 : op ≠ .reset)
    (h2 : op ≠ .stopEngineImmediately) (h3 : op ≠ .lowerFault 0)
    (k : updateSafety v = .on u ∨ updateSafety v = .abandoned u) : StopCase (.host h op) s u := by
  have hcv' : v.cfg.handler = Config.referenceHandler := by
    rw [hcv]
    exact hc
  rw [updateSafety_regular (Config.regular_of_default hcv')] at k
  rcases k with k | k <;> cases k
  apply StopCase.of_raised h1 h2 h3
  have : RaisedStop s (Quiet.updateSafety v) ↔ RaisedStop v (Quiet.updateSafety v) := by
    unfold RaisedStop
    simp only [faultIsSet, hv]
  rw [this]
  exact (update_stops hcv').imp id fun ⟨a, b⟩ => ⟨a, hk.trans b⟩

theorem faultOfIndex_estop {i : Nat} (h : faultOfIndex i = some .estop) : i = 0 := by
  match i with
  | 0 => rfl
  | 1 | 2 | 3 | 4 | 5 | 6 | 7 | 8 | 9 | 10 | 11 => cases h
  | n + 12 => simp [faultOfIndex, FaultKind.all] at h

theorem lower_stopCase {h i : Nat} {k : FaultKind} {s : State}
    (hc : s.cfg.handler = Config.referenceHandler) (hi : faultOfIndex i = some k)
    (hh : s.halted = false) : StopCase (.host h (.lowerFault i)) s (Quiet.lowerFault k s) := by
  have hrow : ∀ j, (s.cfg.handlerOf j).lowered.settles = decide (j = .estop) := by
    intro j
    rw [default_rows hc]
    cases j <;> rfl
  unfold Quiet.lowerFault
  rw [hrow]
  by_cases hk : k = .estop
  · subst hk
    cases faultOfIndex_estop hi
    unfold StopCase Stops
    simp only [hh, true_and, Event.host.injEq, reduceCtorEq, and_false, exists_false, false_or,
      and_true]
    cases hs : faultIsSet s .estop
    · rw [if_neg Bool.false_ne_true]
      refine .inr ⟨?_, .refl _⟩
      have : ¬ RaisedStop s s := RaisedStop.none fun _ _ => id
      simp [this]
    · rw [if_pos rfl, if_pos (by decide)]
      have hcc : (Quiet.clearFault .estop s).cfg.handler = Config.referenceHandler := by
        rw [Quiet.clearFault_cfg]
        exact hc
      have hbits : ∀ k, faultIsSet (Quiet.clearFault .estop s) k =
          (decide (k ≠ .estop) && faultIsSet s k) := by
        intro k
        simp
      rcases update_stops hcc with ⟨⟨j, hj, a, b⟩, o⟩ | ⟨nr, kp⟩
      · refine .inl ⟨?_, o⟩
        by_cases e : j = .estop
        · subst e
          exact .inl ⟨h, rfl, rfl, a⟩
        · refine .inr ⟨j, hj, a, ?_⟩
          rw [hbits] at b
          simpa [e] using b
      · refine .inr ⟨?_, (clear_leavesCommanded hc _).trans kp⟩
        rintro (⟨-, -, -, h⟩ | ⟨j, hj, a, b⟩)
        · exact nr ⟨.estop, by decide, h, by rw [hbits]; simp⟩
        · exact nr ⟨j, hj, a, by rw [hbits, b]; simp⟩
  · have hi0 : i ≠ 0 := by
      rintro rfl
      simp [faultOfIndex, FaultKind.all] at hi
      exact hk hi.symm
    rw [decide_eq_false hk, if_neg Bool.false_ne_true]
    have e : (if faultIsSet s k = true then Quiet.clearFault k s else s) = Quiet.clearFault k s := by
      cases hs : faultIsSet s k
      · rw [if_neg Bool.false_ne_true, Quiet.clearFault, hs, if_neg Bool.false_ne_true]
      · rw [if_pos rfl]
    rw [e]
    refine .of_kept (by simp) (by simp) (by simpa using hi0) (clear_leavesCommanded hc k)
      fun j _ hs => ?_
    rw [Quiet.clearFault_bits] at hs
    simp at hs
    exact hs.2

/-- Every host operation, by what it does. -/
theorem hostStep_stopCase {h : Nat} {op : HostOp} {s t : State}
    (hc : s.cfg.handler = Config.referenceHandler) (k : hostStep op s = .next t) :
    StopCase (.host h op) s t := by
  have hreg := Config.regular_of_default hc
  cases op
  case reset =>
    rw [hostStep, resetBlock_regular hreg] at k
    simp only [Ran.on_atEnd, Ran.on_outcome, Host.Outcome.next.injEq] at k
    have silent := (silenced_clear s).safety (Quiet.updateSafety_safetyOnly (clearBlock s))
    have hO : Silenced ((Quiet.updateSafety (clearBlock s)).withHostResult none) := silent
    rw [k] at hO
    exact .inl ⟨.inl ⟨h, rfl⟩, hO⟩
  all_goals simp only [hostStep, onFault] at k
  case queueIsFull => exact read_stopCase k (by simp) (by simp) (by simp)
  case queueIsEmpty => exact read_stopCase k (by simp) (by simp) (by simp)
  case queueIsRunning => exact read_stopCase k (by simp) (by simp) (by simp)
  case getEngineState => exact read_stopCase k (by simp) (by simp) (by simp)
  case readGates => exact read_stopCase k (by simp) (by simp) (by simp)
  case faultIsSet i =>
    split at k
    · exact read_stopCase k (by simp) (by simp) (by simp)
    · cases k
  case faultOverridden i =>
    split at k
    · exact read_stopCase k (by simp) (by simp) (by simp)
    · cases k
  case getFaultName i =>
    split at k
    · exact read_stopCase k (by simp) (by simp) (by simp)
    · cases k
  case awaitEngineStopped =>
    refine act_stopCase (f := .on) k (by simp) fun _ u hu => ?_
    rcases hu with hu | hu <;> cases hu
    exact .of_kept (by simp) (by simp) (by simp) (.refl _) fun _ _ => id
  case enqueue c a =>
    refine act_stopCase k (by simp) fun _ u hu => ?_
    by_cases hf : (s.q.get c).count = 128
    · rw [show enqueue c a s = fatal .swUnderflow s from if_pos hf] at hu
      exact fatal_stopCase hc (by simp) (by simp) (by simp) hu
    · rw [show enqueue c a s = .on _ from if_neg hf] at hu
      rcases hu with hu | hu <;> cases hu
      refine .of_kept (by simp) (by simp) (by simp) ⟨rfl, rfl, rfl, fun d => ?_⟩ fun _ _ => id
      simp only [State.withQ_q, PerChan.get_set]
      split
      · next e =>
        subst e
        exact ⟨rfl, Nat.le_succ _⟩
      · exact ⟨rfl, le_refl _⟩
  case startEngine =>
    exact act_stopCase k (by simp) fun _ u hu =>
      start_stopCase hc (by simp) (by simp) (by simp) hu
  case maybeStartEngine =>
    refine act_stopCase k (by simp) fun _ u hu => ?_
    by_cases hf : (decide (engineState s ≠ .running) && someQueueFull s) = true
    · rw [show maybeStartEngine s = startEngine s from if_pos hf] at hu
      exact start_stopCase hc (by simp) (by simp) (by simp) hu
    · rw [show maybeStartEngine s = .on s from if_neg hf] at hu
      rcases hu with hu | hu <;> cases hu
      exact .of_kept (by simp) (by simp) (by simp) (.refl _) fun _ _ => id
  case stopEngineImmediately =>
    refine act_stopCase (f := fun t => .on (stopEngine t)) k (by simp) fun hh u hu => ?_
    rcases hu with hu | hu <;> cases hu
    exact .inl ⟨.inr (.inl ⟨h, rfl, hh⟩), silenced_stop s⟩
  case setLaserSelect v =>
    refine act_stopCase k (by simp) fun _ u hu => ?_
    rw [setLaserSelect_eq] at hu
    exact update_stopCase (v := s.withLaserSel v) hc rfl rfl (.refl _) (by simp) (by simp) (by simp) hu
  case setOverride w b =>
    refine act_stopCase k (by simp) fun _ u hu => ?_
    rw [setOverride_eq] at hu
    exact update_stopCase (v := s.withFaultOvr (s.faultOvr.set (overrideFault w).index b)) hc rfl rfl
      (.refl _) (by simp) (by simp) (by simp) hu
  case updateSafety =>
    exact act_stopCase k (by simp) fun _ u hu =>
      update_stopCase hc rfl rfl (.refl _) (by simp) (by simp) (by simp) hu
  case raiseFault i =>
    split at k
    · next j hj =>
      refine act_stopCase k (by simp) fun _ u hu => ?_
      rw [raiseFault_regular j hreg] at hu
      rcases hu with hu | hu <;> cases hu
      apply StopCase.of_raised (by simp) (by simp) (by simp)
      rcases raise_stops hc j with ⟨a, b, c⟩ | ⟨a, b⟩
      · exact .inl ⟨⟨j, a, by simp, b⟩, c⟩
      · refine .inr ⟨RaisedStop.none fun i hi hs => ?_, b⟩
        rw [Quiet.raiseFault_bits] at hs
        by_cases e : i = j
        · subst e
          exact a.resolve_left (fun h => h hi)
        · simpa [e] using hs
    · cases k
  case lowerFault i =>
    split at k
    · next j hj =>
      refine act_stopCase k (by simp) fun hh u hu => ?_
      rw [lowerFault_regular j hreg] at hu
      rcases hu with hu | hu <;> cases hu
      exact lower_stopCase hc hj hh
    · cases k

theorem endTick_stopCase {order : List Channel} {s t : State}
    (hc : s.cfg.handler = Config.referenceHandler) (k : endTick s = .next t) :
    StopCase (.tick order) s t := by
  rw [endTick_regular (Config.regular_of_default hc)] at k
  cases k
  have tick : ∀ u, Stops (.tick order) s u ↔ RaisedStop s u := fun u => by simp [Stops]
  unfold StopCase
  rw [tick]
  show (RaisedStop s (Quiet.debounceTick s) ∧ Silenced (Quiet.debounceTick s)) ∨
    (¬ RaisedStop s (Quiet.debounceTick s) ∧ LeavesCommanded s (Quiet.debounceTick s))
  have same : ∀ {u : State}, u.faultSet = s.faultSet → LeavesCommanded s u →
      (RaisedStop s u ∧ Silenced u) ∨ (¬ RaisedStop s u ∧ LeavesCommanded s u) := fun hu hk =>
    .inr ⟨RaisedStop.none fun k _ a => by rwa [faultIsSet_eq, hu, ← faultIsSet_eq] at a, hk⟩
  rcases Quiet.debounceTick_cases s with ⟨-, -, e⟩ | ⟨-, -, e⟩ | ⟨-, -, e⟩ | ⟨-, -, e⟩ <;> rw [e]
  · exact same rfl (.refl _)
  · exact same rfl (.refl _)
  · exact same rfl (.refl _)
  · exact update_stops (s := commitSwitches (s.withDbCnt 0)) hc

/-! ### The shadow -/

/-- R356: where `stopHappened` the shadow holds what the block has, and no atom is left; where it did
not, the shadow is kept and the block's step enables, modes and queued atoms are. -/
theorem Shadow.follow_block (sh : Shadow) {e : Event} {s t : State}
    (hc : s.cfg.handler = Config.referenceHandler)
    (k : (∃ h op, e = .host h op ∧ hostStep op s = .next t) ∨
      (∃ order, e = .tick order ∧ endTick s = .next t)) :
    (stopHappened e s t = true ∧
      t.stepEn = (sh.follow e s t).stepEn ∧ t.mainMode = (sh.follow e s t).mainMode ∧
      t.visMode = (sh.follow e s t).visMode ∧ (∀ c, (t.q.get c).count = 0)) ∨
    (stopHappened e s t = false ∧ sh.follow e s t = sh ∧ LeavesCommanded s t) := by
  have cases : StopCase e s t := by
    rcases k with ⟨h, op, rfl, k⟩ | ⟨order, rfl, k⟩
    · exact hostStep_stopCase hc k
    · exact endTick_stopCase hc k
  unfold StopCase at cases
  rw [← stopHappened_iff] at cases
  unfold Shadow.follow
  rcases cases with ⟨a, b⟩ | ⟨a, b⟩
  · rw [if_pos a]
    exact .inl ⟨a, b⟩
  · rw [if_neg a]
    exact .inr ⟨Bool.eq_false_iff.mpr a, rfl, b⟩

/-! ### The reference host among others -/

/-- D39: an event that makes no stop, whoever's it is, leaves what the reference host does next. -/
theorem RefHost.observe_next {r : RefHost} {e : Event} {s t : State}
    (h : stopHappened e s t = false) : (r.observe e s t).next = r.next := by
  rw [RefHost.observe, h]
  rfl

/-- R284: a host that has read `STOPPED` for its lazy start starts the engine next. -/
theorem RefHost.next_lazyStart {r : RefHost} {rest : List HostStmt}
    (h : r.run = { todo := .lazyStart :: rest, asked := .engine })
    (ha : r.answer = some (.engine .stopped)) :
    r.next = some (.startEngine, { todo := rest, asked := .nothing }) := by
  unfold RefHost.next
  rw [h, ha]
  rfl

end Sys2Proof.Machine
end

