-- ==== Sys2Proof/Laws/Unread.lean ====
section
/-! SUPPORT. The safety operations and the debouncer do not look at what only the tick and the host
use: the emitted events, the channel that fires, the phase (R248). -/

namespace Sys2Proof.Machine

/-- Other values for the emitted events, the firing channel and the phase. -/
def withTick (ev : List OutEvent) (cu : Channel) (ph : Phase) (s : State) : State :=
  ((s.withEvents ev).withCur cu).withPhase ph

variable (ev : List OutEvent) (cu : Channel) (ph : Phase)

theorem Quiet.runActions_withTick (p : HandlerProg) (s : State) :
    Quiet.runActions p (withTick ev cu ph s) = withTick ev cu ph (Quiet.runActions p s) := by
  induction p generalizing s with
  | done => rfl
  | branch => rfl
  | act a p ih =>
    cases a
    case stopEngineImmediately => exact ih (stopEngine s)
    case setGates => exact ih (setGates s)
    all_goals exact ih s

theorem Quiet.raiseFault_withTick (k : FaultKind) (s : State) :
    Quiet.raiseFault k (withTick ev cu ph s) = withTick ev cu ph (Quiet.raiseFault k s) := by
  have h : faultIsSet (withTick ev cu ph s) k = faultIsSet s k := rfl
  rcases Quiet.raiseFault_cases k s with ⟨a, b⟩ | ⟨a, b⟩ <;>
    rcases Quiet.raiseFault_cases k (withTick ev cu ph s) with ⟨c, d⟩ | ⟨c, d⟩ <;>
    rw [h, a] at c
  · rw [b, d]
  · cases c
  · cases c
  · rw [b, d, ← Quiet.runActions_withTick]
    rfl

theorem Quiet.clearFault_withTick (k : FaultKind) (s : State) :
    Quiet.clearFault k (withTick ev cu ph s) = withTick ev cu ph (Quiet.clearFault k s) := by
  have h : faultIsSet (withTick ev cu ph s) k = faultIsSet s k := rfl
  rcases Quiet.clearFault_cases k s with ⟨a, b⟩ | ⟨a, b⟩ <;>
    rcases Quiet.clearFault_cases k (withTick ev cu ph s) with ⟨c, d⟩ | ⟨c, d⟩ <;>
    rw [h, a] at c
  · rw [b, d]
  · cases c
  · cases c
  · rw [b, d, ← Quiet.runActions_withTick]
    rfl

theorem Quiet.followFault_withTick (k : FaultKind) (b : Bool) (s : State) :
    Quiet.followFault k b (withTick ev cu ph s) = withTick ev cu ph (Quiet.followFault k b s) := by
  cases b
  · exact Quiet.clearFault_withTick ev cu ph k s
  · exact Quiet.raiseFault_withTick ev cu ph k s

theorem Quiet.updateSafety_withTick (s : State) :
    Quiet.updateSafety (withTick ev cu ph s) = withTick ev cu ph (Quiet.updateSafety s) := by
  have h1 : estopStep (withTick ev cu ph s) = withTick ev cu ph (estopStep s) := by
    unfold estopStep
    rw [show (withTick ev cu ph s).stopDown = s.stopDown from rfl, Quiet.raiseFault_withTick]
    split <;> rfl
  have h2 : ∀ t, setGates (withTick ev cu ph t) = withTick ev cu ph (setGates t) := fun _ => rfl
  rw [Quiet.updateSafety, Quiet.updateSafety, Quiet.settleFaults_eq, Quiet.settleFaults_eq, h1, Quiet.followFault_withTick,
    Quiet.followFault_withTick, h2]
  rfl

theorem Quiet.debounceTick_withTick (s : State) :
    Quiet.debounceTick (withTick ev cu ph s) = withTick ev cu ph (Quiet.debounceTick s) := by
  have h1 : (withTick ev cu ph s).dbPending = s.dbPending := rfl
  have h2 : switchDiffers (withTick ev cu ph s) = switchDiffers s := rfl
  have h3 : (withTick ev cu ph s).dbCnt = s.dbCnt := rfl
  have h4 : commitSwitches ((withTick ev cu ph s).withDbCnt 0) =
      withTick ev cu ph (commitSwitches (s.withDbCnt 0)) := rfl
  rcases Quiet.debounceTick_cases s with ⟨a, b, e⟩ | ⟨a, b, e⟩ | ⟨a, b, e⟩ | ⟨a, b, e⟩ <;>
    rcases Quiet.debounceTick_cases (withTick ev cu ph s) with ⟨c, d, k⟩ | ⟨c, d, k⟩ | ⟨c, d, k⟩ |
      ⟨c, d, k⟩ <;>
    simp only [h1, h2, h3, a, b, Bool.false_eq_true, Bool.true_eq_false, ne_eq,
      not_true_eq_false] at c d <;>
    rw [e, k]
  · rfl
  · rfl
  · rw [h4, Quiet.updateSafety_withTick]

end Sys2Proof.Machine
end

