-- ==== Sys2Proof/Tests/Slice0.lean ====
section
/-! SUPPORT. Tests of the model against the spec's own examples (95_test_vectors.md) and words written
from its encoding rules (R102 to R106), and a witness for the hypotheses of every statement. -/

namespace Sys2Proof.Tests

open Sys2Proof Sys2Proof.Machine

/-! ### Well-formedness: each check refuses an ill-formed term (R106, R114) -/

theorem test_literal_below_atom_max_is_ill_formed :
    (Instr.ivl 31).wellFormed Config.reference = false := by decide
theorem test_literal_opcode_number_is_ill_formed :
    (Instr.ivl 5).wellFormed Config.reference = false := by decide
theorem test_literal_atom_max_is_well_formed :
    (Instr.ivl 32).wellFormed Config.reference = true := by decide

/-- A configuration that breaks one constraint of R6 or R7 each. -/
theorem test_slow_clock_is_refused : { Config.reference with fClkMHz := 8 }.ok = false := by decide
theorem test_opmap_above_atom_max_is_refused :
    { Config.reference with opmap := Config.referenceOpmap.set 3 0x0020 }.ok = false := by decide
theorem test_opmap_with_a_repeat_is_refused :
    { Config.reference with opmap := Config.referenceOpmap.set 3 0x0004 }.ok = false := by decide
theorem test_zero_boot_interval_is_refused :
    { Config.reference with ivlBoot := 0 }.ok = false := by decide
theorem test_zero_debounce_is_refused :
    { Config.reference with debounceTicks := 0 }.ok = false := by decide
theorem test_any_skew_is_accepted :
    { Config.reference with startSkew := 100000 }.ok = true := by decide
theorem test_nine_megahertz_is_accepted :
    { Config.reference with fClkMHz := 9 }.ok = true := by decide

/-! ### Decoding, words written bit by bit from R102, R103, R104, R106 -/

theorem test_decode_stop : decodeTableWord 16 0b0000000000000000 = some .stop := by decide
theorem test_decode_dir_positive :
    decodeTableWord 16 0b0000000000000001 = some .dirPositive := by decide
theorem test_decode_dir_negative :
    decodeTableWord 16 0b0000000000000010 = some .dirNegative := by decide
theorem test_decode_loop_until_min :
    decodeTableWord 16 0b0000000000000011 = some .loopUntilMin := by decide
theorem test_decode_loop_while_min :
    decodeTableWord 16 0b0000000000000100 = some .loopWhileMin := by decide
theorem test_decode_loop_until_max :
    decodeTableWord 16 0b0000000000000101 = some .loopUntilMax := by decide
theorem test_decode_loop_while_max :
    decodeTableWord 16 0b0000000000000110 = some .loopWhileMax := by decide
theorem test_decode_enable_pin :
    decodeTableWord 16 0b0000000000000111 = some .enablePin := by decide
theorem test_decode_disable_pin :
    decodeTableWord 16 0b0000000000001000 = some .disablePin := by decide
theorem test_decode_set_main_mode_off :
    decodeTableWord 16 0b0000000000001001 = some .setMainModeOff := by decide
theorem test_decode_set_main_mode_pulsed :
    decodeTableWord 16 0b0000000000001010 = some .setMainModePulsed := by decide
theorem test_decode_set_main_mode_continuous :
    decodeTableWord 16 0b0000000000001011 = some .setMainModeContinuous := by decide
theorem test_decode_set_visible_mode_off :
    decodeTableWord 16 0b0000000000001100 = some .setVisibleModeOff := by decide
theorem test_decode_set_visible_mode_pulsed :
    decodeTableWord 16 0b0000000000001101 = some .setVisibleModePulsed := by decide
theorem test_decode_set_visible_mode_continuous :
    decodeTableWord 16 0b0000000000001110 = some .setVisibleModeContinuous := by decide
theorem test_decode_set_main_pulse_duration :
    decodeTableWord 32 0b00000011001000000000000000001111 = some (.setMainPulseDuration 800) := by
  decide
theorem test_decode_set_visible_pulse_duration :
    decodeTableWord 32 0b00000000001100100000000000010000 = some (.setVisiblePulseDuration 50) := by
  decide
theorem test_decode_set_main_power_level :
    decodeTableWord 32 0b11111111111111110000000000010001 = some (.setMainPowerLevel 65535) := by
  decide
/-- The operand is the number 0, not `STOP` (95_test_vectors.md 2.1). -/
theorem test_decode_zero_operand :
    decodeTableWord 16 0b0000000000001111 = some (.setMainPulseDuration 0) := by decide
theorem test_decode_smallest_literal :
    decodeTableWord 16 0b0000000000100000 = some (.ivl 32) := by decide
theorem test_decode_largest_literal :
    decodeTableWord 16 0b1111111111111111 = some (.ivl 65535) := by decide
theorem test_decode_first_unassigned : decodeTableWord 16 0b0000000000010010 = none := by decide
theorem test_decode_last_unassigned : decodeTableWord 16 0b0000000000011111 = none := by decide

/-- 95_test_vectors.md 2.1: which channel takes which opcode. -/
theorem test_decode_by_channel :
    decodeAt Config.reference .x 0x0001 = .op .dirPositive ∧
    decodeAt Config.reference .l 0x0001 = .illegal ∧
    decodeAt Config.reference .y 0x0003 = .op .loopUntilMin ∧
    decodeAt Config.reference .x 0x0009 = .illegal ∧
    decodeAt Config.reference .l 0x000E = .op .setVisibleModeContinuous ∧
    decodeAt Config.reference .z 0x0011 = .illegal := by decide
theorem test_decode_without_a_switch :
    decodeAt { Config.reference with hasMin := { x := true, y := false, z := true } } .y 0x0003 =
      .illegal := by decide
/-- 95_test_vectors.md 2.1: the clock moves `ATOM_MAX`. -/
theorem test_decode_at_other_clocks :
    decodeAt { Config.reference with fClkMHz := 9 } .l 0x0011 = .op .setMainPowerLevel ∧
    decodeAt { Config.reference with fClkMHz := 9 } .l 0x0012 = .literal 18 ∧
    decodeAt { Config.reference with fClkMHz := 20 } .x 0x0020 = .illegal ∧
    decodeAt { Config.reference with fClkMHz := 20 } .x 0x0028 = .literal 40 := by decide

/-! ### Small states -/

/-- An outcome that is a next state of which `p` holds. -/
def nextAnd {σ : Type} (o : Host.Outcome σ Fault Refusal) (p : σ → Bool) : Bool :=
  match o with
  | .next t => p t
  | .fault _ => false
  | .refused _ => false

theorem exists_next {o : Host.Outcome State Fault Refusal} {p : State → Bool}
    (h : nextAnd o p = true) : ∃ t, o = .next t ∧ p t = true := by
  cases o with
  | next t => exact ⟨t, rfl, h⟩
  | fault r => cases h
  | refused r => cases h

/-- A running queue that holds `ws`, the first at slot `h`. -/
def queueOf (h : Fin 128) (ws : List Word) : Queue :=
  ws.foldl Queue.push { Queue.powerOn with head := h, running := true }

/-- All four channels running with empty queues, interval 512. -/
def runningState : State :=
  { State.reset with
    q := PerChan.ofFn fun _ => queueOf 0 []
    tmr := PerChan.ofFn fun _ => { on := true, cnt := 0, ivl := 512 } }

/-- Channel `c` in a firing, its queue holding `ws` from slot 3 on. -/
def firing (c : Channel) (ws : List Word) : State :=
  { runningState with
    q := runningState.q.set c (queueOf 3 ws), cur := c, phase := .firing }

/-- The end of a tick: the debouncer is next. -/
def tickEnd : State := { runningState with phase := .between }

/-- A queue with `n` atoms, whatever they are. -/
def filled (n : Nat) : Queue := { Queue.powerOn with count := n }

/-- A state in which the environment's next step is `e`. -/
def withEvent (e : Event) (s : State) : State := { s with script := [e] }

/-- The state an operation leaves, however it ends. -/
def after (r : Ran) : State :=
  match r with
  | .on s => s
  | .abandoned s => s
  | .endless => State.reset

/-- The block halted by an under-run. -/
def haltedState : State := after (fatal .swUnderflow runningState)

/-- The stop switch is down and `F_ESTOP` is set, gates shut. -/
def stoppedDown : State := after (updateSafety { State.reset with stopDown := true })

/-- `F_ESTOP` is set with the switch up. -/
def estopLatched : State := after (raiseFault .estop State.reset)

/-! ### The control atoms (95_test_vectors.md 2.3) -/

theorem test_literal_is_loaded :
    nextAnd (step (firing .x [0x0020])) (fun t =>
      t.tmr.x.ivl == 32 && t.q.x.count == 0 && t.q.x.head == 4 && t.phase == .between) = true := by
  decide
theorem test_largest_literal_is_loaded :
    nextAnd (step (firing .x [0xFFFF])) (fun t => t.tmr.x.ivl == 65535) = true := by decide
theorem test_stop_leaves_what_is_behind_it :
    nextAnd (step (firing .x [0x0000, 0x0384, 0x0000])) (fun t =>
      !t.tmr.x.on && !t.q.x.running && t.tmr.x.ivl == 512 && t.q.x.count == 2 &&
      engineMask t == 0b1110 && engineState t == .stopping) = true := by decide
theorem test_illegal_atom_halts :
    nextAnd (step (firing .x [0x0019])) (fun t =>
      faultIsSet t .swSyntax && t.alert && t.halted && t.q.x.count == 0 && t.q.x.running) =
      true := by decide
theorem test_empty_queue_halts :
    nextAnd (step (firing .x [])) (fun t =>
      faultIsSet t .swUnderflow && t.halted && t.q.x.head == 3) = true := by decide
theorem test_missing_operand_halts :
    nextAnd (step (firing .l [0x0011])) (fun t =>
      faultIsSet t .swUnderflow && t.halted && t.q.l.head == 4 && t.mainPower == 0) = true := by
  decide

/-! ### The motor atoms (95_test_vectors.md 2.4) -/

theorem test_dir_positive :
    nextAnd (step { firing .x [0x0001, 100] with dir := { x := .neg, y := .neg, z := .neg } })
      (fun t => t.dir.x == .pos && t.dir.y == .neg && t.phase == .firing) = true := by decide
theorem test_dir_negative :
    nextAnd (step (firing .x [0x0002, 100]))
      (fun t => t.dir.x == .neg && t.dir.z == .pos) = true := by decide
theorem test_enable_pin :
    nextAnd (step (firing .x [0x0007, 100])) (fun t => t.stepEn.x && !t.stepEn.y) = true := by decide
/-- R137: the gates are not consulted. -/
theorem test_enable_pin_with_gate_shut :
    nextAnd (step { firing .x [0x0007, 100] with moveOk := false })
      (fun t => t.stepEn.x && !(outputLevels t).stepOutEn.x) = true := by decide
theorem test_disable_pin :
    nextAnd (step { firing .y [0x0008, 0] with stepEn := { x := true, y := true, z := true } })
      (fun t => !t.stepEn.y && t.stepEn.x && t.stepEn.z) = true := by decide
theorem test_enable_pin_on_laser_halts :
    nextAnd (step (firing .l [0x0007])) (fun t => faultIsSet t .swSyntax && t.halted) = true := by
  decide

/-- The switches of X are all closed, or all open. -/
def withSwitches (b : Bool) (s : State) : State :=
  { s with inp := { s.inp with
      minReached := { s.inp.minReached with x := b }
      maxReached := { s.inp.maxReached with x := b } } }

theorem test_loop_until_min_pushes_back :
    nextAnd (step (firing .x [0x0003, 0x0008, 0x0000])) (fun t =>
      t.q.x.head == 3 && t.q.x.count == 3 && t.q.x.running && t.tmr.x.ivl == 512 &&
      t.phase == .between) = true := by decide
theorem test_loop_until_min_goes_on :
    nextAnd (step (withSwitches true (firing .x [0x0003, 0x0008, 0x0000]))) (fun t =>
      t.q.x.head == 4 && t.q.x.count == 2 && t.phase == .firing) = true := by decide
theorem test_loop_while_min_pushes_back :
    nextAnd (step (withSwitches true (firing .x [0x0004, 500]))) (fun t =>
      t.q.x.count == 2 && t.phase == .between) = true := by decide
theorem test_loop_while_min_goes_on :
    nextAnd (step (firing .x [0x0004, 500])) (fun t =>
      t.q.x.count == 1 && t.phase == .firing) = true := by decide
theorem test_loop_until_max_pushes_back :
    nextAnd (step (firing .x [0x0005, 0])) (fun t =>
      t.q.x.count == 2 && t.phase == .between) = true := by decide
theorem test_loop_until_max_goes_on :
    nextAnd (step (withSwitches true (firing .x [0x0005, 0]))) (fun t =>
      t.q.x.count == 1 && t.phase == .firing) = true := by decide
theorem test_loop_while_max_pushes_back :
    nextAnd (step (withSwitches true (firing .x [0x0006, 0]))) (fun t =>
      t.q.x.count == 2 && t.phase == .between) = true := by decide
theorem test_loop_while_max_goes_on :
    nextAnd (step (firing .x [0x0006, 0])) (fun t =>
      t.q.x.count == 1 && t.phase == .firing) = true := by decide

/-! ### The laser atoms (95_test_vectors.md 2.5) -/

theorem test_main_mode_off :
    nextAnd (step { firing .l [0x0009, 100] with mainMode := .continuous })
      (fun t => t.mainMode == .off) = true := by decide
theorem test_main_mode_pulsed :
    nextAnd (step { firing .l [0x000A, 100] with mainPulseDur := 800 })
      (fun t => t.mainMode == .pulsed && overflowEvents t .l == [.mainPulse 800]) = true := by decide
theorem test_main_mode_continuous :
    nextAnd (step (firing .l [0x000B, 100])) (fun t =>
      t.mainMode == .continuous && (outputLevels t).mainLaserOn) = true := by decide
theorem test_visible_mode_off :
    nextAnd (step { firing .l [0x000C, 100] with visMode := .pulsed, mainMode := .pulsed })
      (fun t => t.visMode == .off && t.mainMode == .pulsed) = true := by decide
theorem test_visible_mode_pulsed :
    nextAnd (step (firing .l [0x000D, 100])) (fun t => t.visMode == .pulsed) = true := by decide
theorem test_visible_mode_continuous :
    nextAnd (step (firing .l [0x000E, 100])) (fun t =>
      t.visMode == .continuous && !(outputLevels t).visLaserOn) = true := by decide
theorem test_main_pulse_duration :
    nextAnd (step (firing .l [0x000F, 0x0320, 0x0064])) (fun t =>
      t.mainPulseDur == 800 && t.q.l.count == 1) = true := by decide
theorem test_visible_pulse_duration :
    nextAnd (step (firing .l [0x0010, 0x0032, 0x0064])) (fun t =>
      t.visPulseDur == 50 && t.mainPulseDur == 0) = true := by decide
theorem test_main_power_level :
    nextAnd (step (firing .l [0x0011, 0x012C, 0x0064])) (fun t => t.mainPower == 300) = true := by
  decide
/-- The operand 0 is not `STOP`. -/
theorem test_main_power_level_zero :
    nextAnd (step { firing .l [0x0011, 0x0000, 0x0064] with mainPower := 9 })
      (fun t => t.mainPower == 0 && t.q.l.running && t.q.l.count == 1) = true := by decide
theorem test_laser_atom_on_motor_halts :
    nextAnd (step (firing .x [0x0009])) (fun t => faultIsSet t .swSyntax && t.halted) = true := by
  decide

/-! ### Queues (95_test_vectors.md 2.2) -/

theorem test_enqueue_wraps :
    nextAnd (hostStep (.enqueue .x 7) { State.reset with
      q := State.reset.q.set .x { filled 3 with head := 126 } })
      (fun t => t.q.x.head == 126 && t.q.x.count == 4 && slotRead t .x 1 == 7) = true := by decide
theorem test_enqueue_on_full_queue_halts :
    nextAnd (hostStep (.enqueue .x 7) { State.reset with q := State.reset.q.set .x (filled 128) })
      (fun t => t.halted && faultIsSet t .swUnderflow && t.q.x.count == 128) = true := by decide
theorem test_dequeue_wraps :
    ((queueOf 127 [7, 8]).front == 7 && (queueOf 127 [7, 8]).pop.head == 0 &&
      (queueOf 127 [7, 8]).pop.count == 1) = true := by decide
theorem test_undequeue_wraps :
    (((queueOf 0 [8]).unpop 3).head == 127 && ((queueOf 0 [8]).unpop 3).count == 2 &&
      ((queueOf 0 [8]).unpop 3).buf[127] == 3) = true := by decide

/-! ### The engine (95_test_vectors.md 2.6, S2, S9, S10) -/

theorem test_start_engine :
    nextAnd (hostStep .startEngine State.reset) (fun t =>
      engineState t == .running && t.tmr.x.ivl == 512 && t.tmr.l.cnt == 0 && t.tmr.y.on) = true := by
  decide
theorem test_start_while_stopping_is_fatal :
    nextAnd (hostStep .startEngine { State.reset with q := State.reset.q.set .l (queueOf 0 [0]) })
      (fun t => engineState t == .stopping && faultIsSet t .swUnderflow && t.alert && t.halted) =
      true := by decide
theorem test_maybe_start_needs_a_full_queue :
    nextAnd (hostStep .maybeStartEngine { State.reset with q := State.reset.q.set .x (filled 127) })
      (fun t => engineState t == .stopped) = true := by decide
theorem test_maybe_start_with_a_full_queue :
    nextAnd (hostStep .maybeStartEngine { State.reset with q := State.reset.q.set .x (filled 128) })
      (fun t => engineState t == .running) = true := by decide
theorem test_immediate_stop :
    nextAnd (hostStep .stopEngineImmediately { firing .x [1, 2, 3] with
      stepEn := { x := true, y := false, z := false }, mainMode := .continuous, mainPower := 300,
      dir := { x := .neg, y := .pos, z := .pos } })
      (fun t => engineState t == .stopped && t.q.x.head == 0 && t.q.x.count == 0 && !t.stepEn.x &&
        t.mainMode == .off && t.mainPower == 300 && t.dir.x == .neg) = true := by decide

/-! ### Safety (95_test_vectors.md 2.7, 2.8) -/

/-- The three gates of a state. -/
def gates (t : State) : Bool × Bool × Bool := (t.moveOk, t.mainOk, t.visOk)

theorem test_select_main_with_lid_closed :
    nextAnd (hostStep (.setLaserSelect .main) State.reset)
      (fun t => gates t == (true, true, false) && !anyFault t) = true := by decide
theorem test_select_visible_with_lid_closed :
    nextAnd (hostStep (.setLaserSelect .visible) State.reset)
      (fun t => gates t == (true, true, false) && faultIsSet t .lidClosed && t.alert) = true := by
  decide
theorem test_override_closed :
    nextAnd (hostStep (.setOverride .lidClosed true)
      (after (updateSafety { State.reset with laserSel := .visible })))
      (fun t => gates t == (true, true, true) && !faultIsSet t .lidClosed && !t.alert &&
        faultOverridden t .lidClosed) = true := by decide
theorem test_raise_estop :
    nextAnd (hostStep (.raiseFault 0) State.reset)
      (fun t => gates t == (false, false, false) && faultIsSet t .estop && t.alert) = true := by
  decide
theorem test_lower_estop_with_switch_down :
    nextAnd (hostStep (.lowerFault 0) stoppedDown)
      (fun t => gates t == (false, false, false) && faultIsSet t .estop && t.alert) = true := by
  decide
theorem test_lower_estop_with_switch_up :
    nextAnd (hostStep (.lowerFault 0) estopLatched)
      (fun t => gates t == (true, true, false) && !faultIsSet t .estop && !t.alert) = true := by
  decide
theorem test_alert_stays_while_a_fault_is_set :
    nextAnd (hostStep (.lowerFault 3) (after (raiseFault .waterTemp (after (raiseFault .waterFlow State.reset)))))
      (fun t => t.alert && faultIsSet t .waterTemp && !faultIsSet t .waterFlow) = true := by decide
theorem test_host_raise_does_not_halt :
    nextAnd (hostStep (.raiseFault 8) State.reset)
      (fun t => faultIsSet t .swLexical && t.alert && !t.halted) = true := by decide
theorem test_fault_name :
    nextAnd (hostStep (.getFaultName 10) State.reset)
      (fun t => t.hostResult == some (.name "F_SW_UNDERFLOW")) = true := by decide
theorem test_fault_index_twelve :
    nextAnd (hostStep (.raiseFault 12) State.reset) (fun _ => true) = false := by decide

/-! ### Other handlers (93_implementation_defined.md section 1, R249, R253, D33) -/

/-- A configuration in which fault `k` has the row `r`. -/
def withHandler (k : FaultKind) (r : HandlerRow) (s : State) : State :=
  { s with cfg := { s.cfg with handler := s.cfg.handler.set k.index r } }

/-- D33: a row that halts. What follows `Fatal` in the handler does not run (R305). -/
theorem test_a_handler_may_halt :
    nextAnd (hostStep (.raiseFault 3) (withHandler .waterFlow
      { raised := .act (.fatal .swMissedInt) (.act .stopEngineImmediately .done), lowered := .done }
      runningState))
      (fun t => t.halted && faultIsSet t .waterFlow && faultIsSet t .swMissedInt &&
        engineState t == .running) = true := by decide
/-- A row that asks the engine state, stops it and raises another fault, which has its own row. -/
theorem test_a_handler_may_raise_a_fault :
    nextAnd (hostStep (.raiseFault 3) (withHandler .waterFlow
      { raised := .branch (.engineIs .running) (.act (.raiseFault .estop) .done) .done
        lowered := .done } runningState))
      (fun t => faultIsSet t .estop && engineState t == .stopped && !t.moveOk && !t.halted) =
      true := by decide
/-- The rows of `F_WATER_FLOW` call each other and enqueue an atom each time, until the queue of X is
full: they end, eight calls deep. -/
theorem test_handlers_that_call_each_other_end :
    nextAnd (hostStep (.raiseFault 3) (withHandler .waterFlow
      { raised := .branch (.queueIsFull .x) .done
          (.act (.enqueue .x 0) (.act (.lowerFault .waterFlow) .done))
        lowered := .act (.raiseFault .waterFlow) .done }
      { State.reset with q := State.reset.q.set .x (filled 124) }))
      (fun t => t.q.x.count == 128 && !t.halted) = true := by decide

/-- Two rows that lower and raise each other for ever. -/
def pingPong : State :=
  withHandler .waterFlow
    { raised := .act (.lowerFault .waterFlow) .done
      lowered := .act (.raiseFault .waterFlow) .done } State.reset
theorem test_endless_handlers (n : Nat) : ∀ s : State, s.cfg = pingPong.cfg →
    (faultIsSet s .waterFlow = true →
      runHandler n (.act (.lowerFault .waterFlow) .done) s = .endless) ∧
    (faultIsSet s .waterFlow = false →
      runHandler n (.act (.raiseFault .waterFlow) .done) s = .endless) := by
  induction n with
  | zero => exact fun s _ => ⟨fun _ => rfl, fun _ => rfl⟩
  | succ n ih =>
    intro s hc
    have hl : (s.cfg.handlerOf .waterFlow).lowered = .act (.raiseFault .waterFlow) .done := by
      rw [hc]; rfl
    have hr : (s.cfg.handlerOf .waterFlow).raised = .act (.lowerFault .waterFlow) .done := by
      rw [hc]; rfl
    constructor <;> intro h
    · show (lowerWith (runHandler n) .waterFlow s).andThen _ = _
      rw [lowerWith, if_pos h, hl, (ih (settleAlert (setFaultBit .waterFlow false s)) hc).2 (by
        show faultIsSet (setFaultBit .waterFlow false s) .waterFlow = false
        exact Vector.getElem_set_self _)]
      rfl
    · show (raiseWith (runHandler n) .waterFlow s).andThen _ = _
      rw [raiseWith, if_neg (by rw [h]; exact Bool.false_ne_true), hr,
        (ih ((setFaultBit .waterFlow true s).withAlert true) hc).1 (by
          show faultIsSet (setFaultBit .waterFlow true s) .waterFlow = true
          exact Vector.getElem_set_self _)]
      rfl
theorem test_endless_handlers_are_refused :
    Ran.endless.outcome = .refused .endlessHandler := rfl

/-! ### Ticks and the debouncer (95_test_vectors.md 2.9, 2.10, P2) -/

theorem test_overflow_in_tick_v :
    nextAnd (step (withEvent (.tick [.l, .x]) { runningState with
      tmr := (runningState.tmr.set .x { on := true, cnt := 99, ivl := 100 }).set .l
        { on := true, cnt := 511, ivl := 512 } }))
      (fun t => t.pending == [.l, .x] && t.tmr.x.cnt == 0 && t.tmr.y.cnt == 1) = true := by decide
theorem test_step_event_is_emitted :
    nextAnd (step { tickEnd with
      stepEn := { x := true, y := false, z := false }, dir := { x := .neg, y := .pos, z := .pos },
      pending := [.x] })
      (fun t => t.events == [.step .x .neg] && t.cur == .x && t.phase == .firing) = true := by decide
theorem test_debouncer_freezes :
    nextAnd (step { tickEnd with inp := { State.reset.inp with stopRaw := true } })
      (fun t => t.dbPending && t.dbCnt == 1000 && !t.stopDown) = true := by decide
theorem test_debouncer_commits_the_emergency_stop :
    nextAnd (step { tickEnd with
      inp := { State.reset.inp with stopRaw := true }, dbPending := true, dbCnt := 1 })
      (fun t => t.stopDown && faultIsSet t .estop && engineState t == .stopped &&
        gates t == (false, false, false) && !t.dbPending) = true := by decide
theorem test_tick_of_a_halted_block :
    nextAnd (step haltedState) (fun t => t.tmr.x.cnt == 0 && t.halted && t.phase == .idle) =
      true := by decide

/-! ### Reset (95_test_vectors.md 2.11) -/

theorem test_reset_with_lid_open :
    nextAnd (hostStep .reset { haltedState with inp := { State.reset.inp with lidRaw := true } })
      (fun t => gates t == (true, false, true) && !t.alert && !t.halted && t.lidOpen &&
        engineState t == .stopped && t.q.x.count == 0) = true := by decide
theorem test_reset_with_stop_down :
    nextAnd (hostStep .reset { haltedState with inp := { State.reset.inp with stopRaw := true } })
      (fun t => gates t == (false, false, false) && t.alert && faultIsSet t .estop &&
        !faultIsSet t .swUnderflow) = true := by decide

/-! ### The reference host (95_test_vectors.md S3, P1) -/

theorem test_chunks_bisect :
    dwellChunks 512 65024 1500 = [1500] ∧ nextIvl 512 65024 0 65025 = 32512 ∧
    nextIvl 512 65024 0 65535 = 32767 ∧ nextIvl 512 65024 0 65536 = 65024 := by decide
/-- R286, and the bounds of 93_implementation_defined.md section 1. -/
theorem test_dwells_that_are_refused :
    dwellAccepted Config.reference 512 65024 20 = false ∧
    dwellAccepted Config.reference 512 65024 0 = false ∧
    dwellAccepted Config.reference 512 65024 100 = true ∧
    dwellAccepted Config.reference 512 65536 65536 = false ∧
    boundsOk Config.reference 512 1022 = false ∧ boundsOk Config.reference 512 1023 = true ∧
    boundsOk Config.reference 31 65024 = false ∧ boundsOk Config.reference 32 65024 = true := by
  decide

/-- A host with no laser selected, and nothing commanded yet. -/
def darkVars : DwellVars :=
  { select := .none, mode := .off, power := 0, mainPulseDur := 0, visPulseDur := 0 }
def freshShadow : Shadow :=
  { stepEn := { x := false, y := false, z := false }, mainMode := .off, visMode := .off,
    power := none, mainPulseDur := none, visPulseDur := none }

/-- P1 with the source's lazy start: the chunk to all four queues, the start, then `STOP`. -/
theorem test_dwell_of_1500_ticks :
    enqueueDwell darkVars freshShadow 512 65024 1500 State.reset =
      some
        { todo := [.append .x 0x05DC, .append .y 0x05DC, .append .z 0x05DC, .append .l 0x05DC,
            .lazyStart, .append .x 0, .append .y 0, .append .z 0, .append .l 0]
          asked := .nothing } ∧
    enqueueDwell darkVars freshShadow 512 65024 1500
      { State.reset with q := State.reset.q.set .z (filled 128) } = none := by decide

/-- R356: what a stop leaves in the shadow, and what it makes a dwell emit again. -/
theorem test_shadow_after_a_stop :
    Shadow.afterStop = freshShadow ∧
    laserDiff { darkVars with select := .main, mode := .continuous, power := 300 } .afterStop =
      [.setMainPowerLevel 300, .setMainModeContinuous] ∧
    stopHappened (.host 0 .stopEngineImmediately) runningState runningState = true ∧
    stopHappened (.host 0 .stopEngineImmediately) haltedState haltedState = false ∧
    stopHappened (.host 0 (.raiseFault 0)) State.reset estopLatched = true ∧
    stopHappened (.host 0 (.lowerFault 0)) stoppedDown stoppedDown = true ∧
    stopHappened (.host 0 (.lowerFault 0)) estopLatched State.reset = false := by decide

/-- R356 on the reference host: an immediate stop by its own emergency gives up the dwell and its shadow. -/
theorem test_host_after_a_stop :
    (RefHost.fresh.dwell { darkVars with select := .main, mode := .continuous, power := 300 }
      512 65024 1500 State.reset).map (fun r =>
        (r.shadow.mainMode, r.shadow.power, r.run.todo.length,
          r.observe (.host 0 (.raiseFault 0)) State.reset estopLatched)) =
      some (.continuous, some 300, 12, RefHost.fresh) := by decide
/-- A second dwell goes behind the first one's last `STOP` (log 19), with no diff left to emit. -/
theorem test_dwell_behind_a_dwell :
    ((RefHost.fresh.dwell darkVars 512 65024 1500 State.reset).bind fun r =>
      (r.dwell darkVars 512 65024 600 State.reset).map fun r' =>
        (r'.run.todo.take 9 == r.run.todo, (r'.run.todo.drop 9).head?)) =
      some (true, some (.append .x 600)) := by decide
theorem test_host_turn :
    (RefHost.turn { RefHost.fresh with
      run := { todo := [.append .x 7], asked := .isFull }, answer := some (.bool false) } 0
      State.reset).map (fun o =>
        nextAnd o fun p => p.1 == RefHost.fresh && p.2.q.x.count == 1) = some true := by decide
/-- R284 among several hosts (D39): the host reads `STOPPED`, another host selects a laser, which clears
the block's answer field, and the host still starts the engine. -/
theorem test_lazy_start_among_hosts :
    (RefHost.turn { RefHost.fresh with run := { todo := [.lazyStart], asked := .nothing } } 0
      State.reset).map (fun o => nextAnd o fun p =>
        nextAnd (hostStep (.setLaserSelect .none) p.2) fun t =>
          t.hostResult.isNone &&
          (((p.1.observe (.host 1 (.setLaserSelect .none)) p.2 t).turn 0 t).map fun o' =>
            nextAnd o' fun p' => engineState p'.2 == .running) == some true) = some true := by decide

/-- R284, R353: what the host does next, from what it has read. -/
theorem test_what_the_host_does_next :
    (hostNext [.lazyStart] .engine (some (.engine .stopped))).map (·.1) = some .startEngine ∧
    (hostNext [.lazyStart, .append .x 0] .engine (some (.engine .stopping))).map (·.1) =
      some (.queueIsFull .x) ∧
    (hostNext [.append .x 7] .isFull (some (.bool false))).map (·.1) = some (.enqueue .x 7) ∧
    (hostNext [.append .x 7] .isFull (some (.bool true))).map (·.1) = some .getEngineState ∧
    (hostNext [.append .x 7] .engine (some (.engine .stopped))).map (·.1) =
      some .maybeStartEngine := by decide

/-! ### Witnesses: for each statement with hypotheses, states and operands that meet them -/

/-- The invariants with every "for all channels" spread over the four. -/
abbrev InvHere (s : State) : Prop :=
  s.cfg.ok = true ∧ s.cfg.handlersRegular = true ∧
  (∀ c ∈ Channel.all, (s.q.get c).count ≤ 128) ∧
  (∀ c ∈ Channel.all, (s.tmr.get c).on = (s.q.get c).running) ∧
  s.alert = anyFault s ∧ s.moveOk = gateMove s ∧ s.mainOk = gateMain s ∧ s.visOk = gateVis s ∧
  (∀ i : Fin 16, 12 ≤ i.val → s.faultSet[i] = false) ∧
  (∀ i : Fin 16, i ≠ FaultKind.lidOpen.index → i ≠ FaultKind.lidClosed.index →
    s.faultOvr[i] = false) ∧
  (s.cfg.startSkew < s.cfg.ivlBoot.toNat →
    ∀ c ∈ Channel.all, (s.tmr.get c).on = true → (s.tmr.get c).cnt < (s.tmr.get c).ivl) ∧
  (s.halted = true → faultIsSet s .swSyntax = true ∨ faultIsSet s .swUnderflow = true) ∧
  s.dbCnt ≤ s.cfg.debounceTicks ∧ (s.dbPending = true → 1 ≤ s.dbCnt) ∧
  (s.halted = true → s.phase = .idle) ∧ (s.phase = .idle → s.pending = []) ∧
  (s.phase = .firing →
    (s.q.get s.cur).running = true ∧ (s.tmr.get s.cur).cnt = 0 ∧ s.cur ∉ s.pending) ∧
  (∀ c ∈ s.pending, (s.q.get c).running = true ∧ (s.tmr.get c).cnt = 0) ∧ s.pending.Nodup

theorem inv_of_here {s : State} (h : InvHere s) : Inv s := by
  obtain ⟨h1, h0, h2, h3, h4, h5, h6, h7, h8, h9, h10, h11, h12, h13, h14, h15, h16, h17, h18⟩ := h
  have all : ∀ c : Channel, c ∈ Channel.all := by intro c; cases c <;> decide
  exact ⟨h1, h0, fun c => h2 c (all c), fun c => h3 c (all c), h4, h5, h6, h7, h8, h9,
    fun h c => h10 h c (all c), h11, h12, h13, h14, h15, h16, h17, h18⟩

theorem inv_running : Inv runningState := inv_of_here (by decide)
theorem inv_halted : Inv haltedState := inv_of_here (by decide)
theorem inv_stopped_down : Inv stoppedDown := inv_of_here (by decide)
theorem inv_estop_latched : Inv estopLatched := inv_of_here (by decide)
theorem inv_firing : Inv (firing .x [0x0007, 100]) := inv_of_here (by decide)

/-- O1, at the smallest literal. -/
theorem witness_decode_encode :
    Config.reference.ok = true ∧ (Instr.ivl 32).wellFormed Config.reference = true := by decide

/-- O2. -/
theorem witness_encode_decode :
    decode Config.reference [0x0011, 0x0000, 7] = .ok (.setMainPowerLevel 0, [7]) := rfl

/-- O3: the hypotheses, and each clause's at the ends of its range; the ranges exclude each other. -/
theorem witness_documented_ranges :
    Config.reference.ok = true ∧ Config.reference.opmap = Config.referenceOpmap ∧
    Config.reference.atomMax = 32 ∧
    Opcode.all[1]? = some .dirPositive ∧ Opcode.all[2]? = some .dirNegative ∧
    Opcode.all[3]? = some .loopUntilMin ∧ Opcode.all[4]? = some .loopWhileMin ∧
    Opcode.all[5]? = some .loopUntilMax ∧ Opcode.all[6]? = some .loopWhileMax ∧
    Opcode.all[7]? = some .enablePin ∧ Opcode.all[8]? = some .disablePin ∧
    Opcode.all[9]? = some .setMainModeOff ∧ Opcode.all[17]? = some .setMainPowerLevel ∧
    Channel.x = Axis.channel .x := by decide

/-- O4: an illegal atom of each of the four kinds, and one that is not. -/
theorem witness_illegal_atoms :
    Config.reference.ok = true ∧ decodeAt Config.reference .x 18 = .illegal ∧
    decodeAt Config.reference .x 9 = .illegal ∧ decodeAt Config.reference .l 1 = .illegal ∧
    decodeAt { Config.reference with hasMax := { x := false, y := true, z := true } } .x 6 =
      .illegal ∧
    { Config.reference with hasMax := { x := false, y := true, z := true } }.ok = true ∧
    decodeAt Config.reference .l 17 = .op .setMainPowerLevel := by decide

/-- O6. -/
theorem witness_step_runs_decoded :
    (firing .l [0x0011, 25, 100]).cfg.ok = true ∧ (firing .l [0x0011, 25, 100]).phase = .firing ∧
    decode Config.reference ((firing .l [0x0011, 25, 100]).q.get .l).contents =
      .ok (.setMainPowerLevel 25, [100]) ∧
    takesInstr Config.reference .l (.setMainPowerLevel 25) = true := ⟨rfl, rfl, rfl, rfl⟩

/-- O7. -/
theorem witness_illegal_atom_is_fatal :
    (firing .x [31]).cfg.ok = true ∧ (firing .x [31]).phase = .firing ∧
    ((firing .x [31]).cfg.handlerOf .swSyntax).raised = .done ∧
    ((firing .x [31]).q.get .x).count ≠ 0 ∧
    decodeAt (firing .x [31]).cfg .x ((firing .x [31]).q.get .x).front = .illegal := by decide

/-- O8: both clauses. -/
theorem witness_under_run :
    (firing .x []).cfg.ok = true ∧ (firing .x []).phase = .firing ∧
    ((firing .x []).cfg.handlerOf .swUnderflow).raised = .done ∧
    ((firing .x []).q.get .x).count = 0 ∧
    hasOperand .setMainPowerLevel = true ∧ (firing .l [0x0011]).cur = .l ∧
    ((firing .l [0x0011]).q.get .l).count = 1 ∧
    ((firing .l [0x0011]).q.get .l).front = opnum Config.reference .setMainPowerLevel := by decide

/-- O11 and O17: a motor channel, and the laser channel. -/
theorem witness_motor_channel :
    (firing .y []).cur = Axis.channel .y ∧ (firing .l []).cur = .l ∧
    takesInstr Config.reference .l .enablePin = false ∧
    takesInstr Config.reference .z (.setMainPowerLevel 3) = false := by decide

/-- O12: the four exits. -/
theorem witness_loop_exits :
    (firing .x []).cur = Axis.channel .x ∧ (firing .x []).cfg.hasMin.get .x = true ∧
    (firing .x []).cfg.hasMax.get .x = true ∧
    (withSwitches true (firing .x [])).inp.minReached.get .x = true ∧
    (firing .x []).inp.minReached.get .x = false ∧
    (withSwitches true (firing .x [])).inp.maxReached.get .x = true ∧
    (firing .x []).inp.maxReached.get .x = false := by decide

/-- O13: the four holds. -/
theorem witness_loop_holds :
    (firing .x [3]).cfg.ok = true ∧ (firing .x [3]).phase = .firing ∧
    ((firing .x [3]).q.get .x).count ≠ 0 ∧ ((firing .x [3]).q.get .x).count ≤ 128 ∧
    ((firing .x [3]).q.get .x).front = opnum Config.reference .loopUntilMin ∧
    ((firing .x [4]).q.get .x).front = opnum Config.reference .loopWhileMin ∧
    ((firing .x [5]).q.get .x).front = opnum Config.reference .loopUntilMax ∧
    ((firing .x [6]).q.get .x).front = opnum Config.reference .loopWhileMax := by decide

/-- O14: a queue with one slot free, and a full one. -/
theorem witness_push_back :
    (filled 127).count < 128 ∧ 128 ≤ (filled 128).count ∧
    nextAnd (exec .loopUntilMin { firing .x [] with q := State.reset.q.set .x (filled 127) })
      (fun t => decide (t.q.x.count = 128) && decide (t.q.x.head = 127)) = true := by decide

/-- O15 and O16: each gate at 1 and at 0. -/
theorem witness_laser_channel :
    (firing .l []).cur = .l ∧ (firing .l []).mainOk = true ∧ (firing .l []).visOk = false ∧
    { firing .l [] with mainOk := false }.mainOk = false ∧
    { firing .l [] with visOk := true }.visOk = true := by decide

/-- O18, O19: a pass of a motor channel, and one of the laser channel. -/
theorem witness_firing_pass :
    (∃ t, step (firing .x [1, 100]) = .next t ∧ decide (t.phase = .firing) = true) ∧
    (∃ t, step (firing .l [11, 100]) = .next t ∧ decide (t.mainMode = .continuous) = true) ∧
    (firing .x [1, 100]).phase = .firing ∧
    ((firing .x [1, 100]).cfg.handlerOf .swSyntax).raised = .done ∧
    ((firing .x [1, 100]).cfg.handlerOf .swUnderflow).raised = .done :=
  ⟨exists_next (by decide), exists_next (by decide), rfl, rfl, rfl⟩

/-- O20: (a) at 128 atoms, (c), (d). -/
theorem witness_queue_laws :
    (queueOf 64 []).count = 0 ∧ (List.replicate 128 (7 : Word)).length ≤ 128 ∧
    (queueOf 64 [7]).count ≠ 0 ∧ (queueOf 64 [7]).count ≤ 128 ∧
    (runMoves [.enq 8, .deq, .deq] (queueOf 127 [7])).isSome = true :=
  ⟨rfl, by simp, by decide, by decide, rfl⟩

/-- O21: one slot free, and none. -/
theorem witness_enqueue :
    State.reset.halted = false ∧ (filled 127).count < 128 ∧ (filled 128).count = 128 ∧
    (State.reset.cfg.handlerOf .swUnderflow).raised = .done := by decide

/-- O22. -/
theorem witness_fatal :
    (State.reset.cfg.handlerOf .swSyntax).raised = .done ∧
    (State.reset.cfg.handlerOf .swUnderflow).raised = .done := by decide

/-- O23: a tick of a halted block, and a host operation on it. -/
theorem witness_halted_steps :
    haltedState.phase = .idle ∧ haltedState.halted = true ∧
    (∃ t, step (withEvent (.tick []) haltedState) = .next t ∧ t.halted = true) ∧
    (∃ t, step (withEvent (.host 0 (.lowerFault 9)) haltedState) = .next t ∧ t.halted = true) ∧
    (nextEvent (withEvent (.tick []) haltedState)).1 = .tick [] :=
  ⟨rfl, rfl, exists_next (by decide), exists_next (by decide), rfl⟩

/-- O24, O25, O33, O38 to O40, O42, O47, O50: the reference handlers are regular (R244, R252), in
states with the stop input at 0 and at 1. -/
theorem witness_regular_handlers :
    State.reset.inp.stopRaw = false ∧
    { State.reset.inp with stopRaw := true }.stopRaw = true ∧
    State.reset.cfg.handlersRegular = true ∧
    State.reset.cfg.handler = Config.referenceHandler := by decide

/-- O32: two states that differ in another fault, an override of `F_ESTOP` and the raw inputs. -/
theorem witness_gate_function :
    faultIsSet { State.reset with
      faultSet := State.reset.faultSet.set 3 true, faultOvr := State.reset.faultOvr.set 0 true,
      inp := { State.reset.inp with stopRaw := true, lidRaw := true } } .estop =
      faultIsSet State.reset .estop ∧
    faultOverridden { State.reset with faultOvr := State.reset.faultOvr.set 0 true } .lidOpen =
      faultOverridden State.reset .lidOpen ∧
    faultOverridden { State.reset with faultOvr := State.reset.faultOvr.set 0 true } .lidClosed =
      faultOverridden State.reset .lidClosed := by decide

/-- O24. -/
theorem witness_leaving_halted :
    Inv (withEvent (.host 0 .reset) haltedState) ∧
    (withEvent (.host 0 .reset) haltedState).halted = true ∧
    ∃ t, step (withEvent (.host 0 .reset) haltedState) = .next t ∧ (!t.halted) = true :=
  ⟨inv_of_here (by decide), rfl, exists_next (by decide)⟩

/-- O26: without skew, and with. -/
theorem witness_start_engine :
    State.reset.cfg.ok = true ∧ State.reset.halted = false ∧ engineState State.reset = .stopped ∧
    State.reset.cfg.startSkew = 0 ∧ { Config.reference with startSkew := 511 }.ok = true := by decide

/-- O27: its three clauses. -/
theorem witness_start_refusals :
    runningState.halted = false ∧ (runningState.cfg.handlerOf .swUnderflow).raised = .done ∧
    engineState runningState ≠ .stopped ∧ engineState State.reset ≠ .running ∧
    ({ State.reset with q := State.reset.q.set .x (filled 128) }.q.get .x).count = 128 ∧
    engineState runningState = .running ∧ (State.reset.q.get .x).count ≠ 128 := by decide

/-- O28, O38, O40: the block is not halted. -/
theorem witness_not_halted : runningState.halted = false := rfl

/-- O29: both clauses. -/
theorem witness_await :
    runningState.cfg.ok = true ∧ runningState.phase = .idle ∧ engineState runningState ≠ .stopped ∧
    State.reset.cfg.ok = true ∧ State.reset.phase = .idle ∧
    engineState State.reset = .stopped ∧
    (withEvent (.host 0 .awaitEngineStopped) runningState).script =
      .host 0 .awaitEngineStopped :: List.map (fun op => Event.host 0 op) [] := by decide

/-- O29: behind the wait and an operation of its host, a tick, an input, another host. -/
theorem witness_behind_a_wait :
    (∃ t, step { runningState with
        script := [.host 0 .awaitEngineStopped, .host 0 .startEngine, .tick []] } = .next t ∧
      decide (t.phase = .between) = true) ∧
    (∃ t, step { runningState with
        script := [.host 0 .awaitEngineStopped, .host 0 .startEngine, .input .lidRaw true] } =
        .next t ∧ t.inp.lidRaw = true) ∧
    (∃ t, step { runningState with
        script := [.host 0 .awaitEngineStopped, .host 0 .startEngine, .host 1 (.enqueue .x 7)] } =
        .next t ∧ decide (t.q.x.count = 1 ∧ t.script.length = 2) = true) :=
  ⟨exists_next (by decide), exists_next (by decide), exists_next (by decide)⟩

/-- O33 to O37: a fault that is set, one that is clear, an empty handler, the switch down and up. -/
theorem witness_faults :
    estopLatched.halted = false ∧ faultIsSet estopLatched .estop = true ∧
    faultIsSet State.reset .estop = false ∧ faultIsSet State.reset .lidOpen = false ∧
    faultIsSet State.reset .lidClosed = false ∧
    (State.reset.cfg.handlerOf .waterFlow).raised = .done ∧
    (State.reset.cfg.handlerOf .lidOpen).lowered = .done ∧
    (State.reset.cfg.handlerOf .lidClosed).lowered = .done ∧
    State.reset.cfg.handler = Config.referenceHandler ∧
    stoppedDown.stopDown = true ∧ faultIsSet stoppedDown .estop = true ∧
    estopLatched.stopDown = false := by decide

/-- O35: a set fault with an empty handler, in a state that meets the invariants. -/
theorem witness_lower_fault :
    Inv (after (raiseFault .lidClosed State.reset)) ∧
    faultIsSet (after (raiseFault .lidClosed State.reset)) .lidClosed = true :=
  ⟨inv_of_here (by decide), rfl⟩

/-- O36, O37: the invariants in the two states. -/
theorem witness_lower_estop :
    Inv stoppedDown ∧ Inv estopLatched ∧ stoppedDown.halted = false ∧
    stoppedDown.cfg.handler = Config.referenceHandler :=
  ⟨inv_stopped_down, inv_estop_latched, rfl, rfl⟩

/-- O38: an update that changes no fault, and one that raises a lid fault. -/
theorem witness_update_safety :
    nextAnd (hostStep .updateSafety State.reset) (fun t => t.faultSet == State.reset.faultSet) =
      true ∧
    nextAnd (hostStep .updateSafety { State.reset with laserSel := .visible })
      (fun t => faultIsSet t .lidClosed) = true := by decide

/-- O39: each of the three selections. -/
theorem witness_laser_selection :
    State.reset.halted = false ∧ State.reset.stopDown = false ∧
    faultIsSet State.reset .estop = false ∧
    (∃ t, hostStep (.setLaserSelect .main) State.reset = .next t ∧
      decide (t.laserSel = .main) = true) ∧
    (∃ t, hostStep (.setLaserSelect .visible) State.reset = .next t ∧
      decide (t.laserSel = .visible) = true) ∧
    (∃ t, hostStep (.setOverride .lidOpen true) State.reset = .next t ∧
      decide (t.laserSel = .none) = true) :=
  ⟨rfl, rfl, rfl, exists_next (by decide), exists_next (by decide), exists_next (by decide)⟩

/-- O41, at the first index that names no fault. -/
theorem witness_fault_index : 12 ≤ 12 ∧ faultOfIndex 11 = some .swMissedInt := by decide

/-- O44: a stopped timer, one that counts, one that overflows; an order of the four channels. -/
theorem witness_tick :
    State.reset.halted = false ∧ (State.reset.tmr.get .x).on = false ∧
    (runningState.tmr.get .x).on = true ∧
    (runningState.tmr.get .x).cnt + 1 ≠ (runningState.tmr.get .x).ivl ∧
    ({ runningState with tmr := runningState.tmr.set .x { on := true, cnt := 511, ivl := 512 } }.tmr.get
      .x).cnt + 1 = (512 : Word) ∧
    ([Channel.l, .z, .y, .x] : List Channel).Nodup := by decide

/-- O45: the last tick before the overflow of the longest interval. -/
theorem witness_period : 65534 < (65535 : Word).toNat := by decide

/-- O46: a motor channel with steps enabled, and the laser channel. -/
theorem witness_overflow :
    { tickEnd with pending := [.x], stepEn := { x := true, y := false, z := false } }.cfg.ok = true ∧
    tickEnd.phase = .between ∧ { tickEnd with pending := [.x] }.pending = .x :: [] ∧
    { tickEnd with pending := [.l, .x] }.pending = .l :: [.x] ∧
    Channel.x = Axis.channel .x := by decide

/-- O47: the three cases of a tick's end, and the commit. -/
theorem witness_debouncer :
    tickEnd.cfg.ok = true ∧ tickEnd.phase = .between ∧ tickEnd.pending = [] ∧
    tickEnd.dbPending = false ∧ tickEnd.inp.stopRaw = tickEnd.stopDown ∧
    tickEnd.inp.lidRaw = tickEnd.lidOpen ∧
    { tickEnd with stopDown := true }.inp.stopRaw ≠ { tickEnd with stopDown := true }.stopDown ∧
    { tickEnd with dbPending := true, dbCnt := 2 }.dbPending = true ∧
    2 ≤ { tickEnd with dbPending := true, dbCnt := 2 }.dbCnt ∧
    { tickEnd with dbPending := true, dbCnt := 1 }.dbCnt = 1 := by decide

/-- O41, at the largest clock that is refused. -/
theorem witness_slow_clock :
    { State.reset with cfg := { Config.reference with fClkMHz := 8 } }.cfg.fClkMHz < 9 := by decide

/-- The stop switch has settled down: the next tick's end commits it. -/
def committing : State :=
  { tickEnd with inp := { State.reset.inp with stopRaw := true }, dbPending := true, dbCnt := 1 }

/-- The stop switch is down when the host resets the block. -/
def resetting : State :=
  withEvent (.host 0 .reset)
    { runningState with inp := { State.reset.inp with stopRaw := true } }

/-- O48, and O47 with the stop input at 1: a commit and a reset that change the snapshot. -/
theorem witness_snapshot :
    Inv committing ∧ Inv resetting ∧
    (∃ t, step committing = .next t ∧ decide (t.stopDown ≠ committing.stopDown) = true) ∧
    (∃ t, step resetting = .next t ∧ decide (t.stopDown ≠ resetting.stopDown) = true) :=
  ⟨inv_of_here (by decide), inv_of_here (by decide), exists_next (by decide),
    exists_next (by decide)⟩

/-- O49: a step that changes an input. -/
theorem witness_input_change :
    runningState.cfg.ok = true ∧ runningState.phase = .idle ∧
    ∃ t, step (withEvent (.input (.minReached .x) true) runningState) = .next t ∧
      decide (t.inp ≠ runningState.inp) = true := ⟨by decide, rfl, exists_next (by decide)⟩

/-- O50: a step during a tick. -/
theorem witness_during_tick :
    tickEnd.phase ≠ .idle ∧ ∃ t, step tickEnd = .next t ∧ decide (t.phase = .idle) = true :=
  ⟨by decide, exists_next (by decide)⟩

/-- Both lasers lit through an override, X stepping. -/
def lit : State :=
  after (updateSafety { runningState with
    mainMode := .continuous, visMode := .pulsed,
    faultOvr := (Vector.replicate 16 false).set 2 true,
    stepEn := { x := true, y := false, z := false } })

/-- O51: every output the statement names is on, and every event it names is emitted. -/
theorem witness_outputs :
    Inv lit ∧ lit.mainOk = true ∧ lit.visOk = true ∧ lit.moveOk = true ∧
    (outputLevels lit).mainLaserOn = true ∧ (outputLevels lit).stepOutEn.get .x = true ∧
    (outputLevels { lit with visMode := .continuous }).visLaserOn = true ∧
    overflowEvents lit .x = [.step .x .pos] ∧ overflowEvents lit .l = [.visPulse 0] ∧
    overflowEvents { lit with mainMode := .pulsed } .l = [.mainPulse 0, .visPulse 0] :=
  ⟨inv_of_here (by decide), rfl, rfl, rfl, rfl, rfl, rfl, rfl, rfl, rfl⟩

/-- O52, O53, O54: a firing with atoms queued, and its step. -/
theorem witness_firing_ends :
    Inv (firing .x [0x0007, 100]) ∧ (firing .x [0x0007, 100]).phase = .firing ∧
    ∃ t, step (firing .x [0x0007, 100]) = .next t ∧ t.stepEn.x = true :=
  ⟨inv_firing, rfl, exists_next (by decide)⟩

/-- O54: the one refusal. -/
theorem witness_refused_index :
    Inv (withEvent (.host 0 (.raiseFault 12)) runningState) ∧
    step (withEvent (.host 0 (.raiseFault 12)) runningState) = .refused (.badFaultIndex 12) :=
  ⟨inv_of_here (by decide), rfl⟩

/-- O55: the emergency stop is held, and it is raised at a commit. -/
theorem witness_stop_switch :
    Inv (withEvent (.host 0 (.lowerFault 0)) stoppedDown) ∧
    (stoppedDown.cfg.handlerOf .estop).lowered.settles = true ∧
    (∃ t, step (withEvent (.host 0 (.lowerFault 0)) stoppedDown) = .next t ∧ t.stopDown = true) ∧
    (∃ t, step committing = .next t ∧ t.stopDown = true) :=
  ⟨inv_of_here (by decide), rfl, exists_next (by decide), exists_next (by decide)⟩

/-- Every channel overflows in the next tick, with a literal queued. -/
def allFire : State :=
  { runningState with
    q := PerChan.ofFn fun _ => queueOf 0 [100, 0]
    tmr := PerChan.ofFn fun _ => { on := true, cnt := 511, ivl := 512 }
    script := [.tick [.l, .x]] }

/-- O56, O57: a tick of four firings that ends unhalted. -/
theorem witness_atomic_tick :
    Inv allFire ∧ allFire.phase = .idle ∧ allFire.script = .tick [.l, .x] :: [] ∧
    ∃ t, tickAtomic [.l, .x] allFire = .next t ∧ (!t.halted && t.cur == .z) = true :=
  ⟨inv_of_here (by decide), rfl, rfl, exists_next (by decide)⟩

/-- The engine is about to start, and all ticks but the last before the first firings follow. -/
def aboutToStart : State :=
  { State.reset with
    laserSel := .main
    script := .host 0 .startEngine :: (List.replicate 511 (.tick [.z]) ++ [.tick []]) }

/-- O58, at the last tick before the first firings. -/
theorem witness_lockstep :
    Inv aboutToStart ∧ aboutToStart.phase = .idle ∧ aboutToStart.halted = false ∧
    engineState aboutToStart = .stopped ∧ aboutToStart.cfg.startSkew = 0 ∧
    aboutToStart.dbPending = false ∧ aboutToStart.inp.stopRaw = aboutToStart.stopDown ∧
    aboutToStart.inp.lidRaw = aboutToStart.lidOpen ∧ 511 < aboutToStart.cfg.ivlBoot.toNat ∧
    aboutToStart.script =
      .host 0 .startEngine :: (List.replicate 511 (.tick [.z]) ++ [.tick []]) :=
  ⟨inv_of_here (by decide), rfl, rfl, rfl, rfl, rfl, rfl, rfl, by decide, rfl⟩

/-- `handle_of_ends` and `action_endless_iff`: a handler that ends, in a state where handlers call each other; one that never does. -/
theorem witness_endless_handlers :
    runHandler 1 (.act .setGates .done) pingPong ≠ .endless ∧
    actionWith handle (.raiseFault .waterFlow) pingPong = .endless := by
  refine ⟨by decide, ?_⟩
  show raiseWith handle .waterFlow pingPong = .endless
  rw [raiseWith, if_neg (by decide)]
  exact (test_endless_handlers _ ((setFaultBit .waterFlow true pingPong).withAlert true) rfl).1
    (by decide)

/-- `Shadow.follow_block`: an immediate stop, a commit that stops, and an operation that does not. -/
theorem witness_shadow :
    runningState.cfg.handler = Config.referenceHandler ∧
    nextAnd (hostStep .stopEngineImmediately runningState) (fun t =>
      stopHappened (.host 0 .stopEngineImmediately) runningState t) = true ∧
    nextAnd (endTick committing) (fun t => stopHappened (.tick []) committing t) = true ∧
    nextAnd (hostStep (.enqueue .x 7) runningState) (fun t =>
      !stopHappened (.host 0 (.enqueue .x 7)) runningState t) = true := by decide

/-- The states of a tick of `runningState`, from no tick in progress to none again. -/
def oneTick : Nat → State
  | 0 => withEvent (.tick []) runningState
  | 1 => beginTick [] runningState
  | _ => { beginTick [] runningState with phase := .idle }

/-- O59: over one whole tick. -/
theorem witness_equal_intervals :
    Inv (oneTick 0) ∧ (oneTick 0).phase = .idle ∧ (oneTick 2).phase = .idle ∧
    (∀ k, k < 2 → step (oneTick k) = .next (oneTick (k + 1))) ∧
    ((oneTick 0).tmr.get .x).cnt = ((oneTick 0).tmr.get .l).cnt ∧
    (∀ k, k ≤ 2 →
      ((oneTick k).tmr.get .x).on = true ∧ ((oneTick k).tmr.get .l).on = true ∧
      ((oneTick k).tmr.get .x).ivl = ((oneTick k).tmr.get .l).ivl) := by
  refine ⟨inv_of_here (by decide), rfl, rfl, fun k hk => ?_, rfl, by decide⟩
  match k, hk with
  | 0, _ => rfl
  | 1, _ => rfl

/-- O60: the source's bounds, and the distances at the ends of the bisected range. -/
theorem witness_chunks :
    (1 : Nat) ≤ 512 ∧ 2 * 512 ≤ 65024 + 1 ∧ (0 : Nat) ≤ 65025 ∧ (512 : Nat) ≤ 65025 - 0 ∧
    (0 : Nat) < 100 - 0 ∧ 100 - 0 < 512 := by decide

end Sys2Proof.Tests
end

section
/-! PROOFS. The queue's laws (43_queue_ops.md R196): what one move of a run of queue operations
does, what filling and draining a queue give, and first in, first out along every run. -/

namespace Sys2Proof.Proofs

open Sys2Proof Sys2Proof.Machine

/-! ### One move of a run -/

theorem runMoves_enq_iff (a : Word) (ms : List QueueMove) (u v : Queue) (ins outs : List Word) :
    runMoves (.enq a :: ms) u = some (ins, outs, v) ↔
      u.count < 128 ∧ ∃ es, ins = a :: es ∧ runMoves ms (u.push a) = some (es, outs, v) := by
  rw [runMoves]
  by_cases hroom : u.count < 128
  · cases runMoves ms (u.push a) <;> simp [hroom, Prod.ext_iff, eq_comm]
  · simp [hroom]

theorem runMoves_deq_iff (ms : List QueueMove) (u v : Queue) (ins outs : List Word) :
    runMoves (.deq :: ms) u = some (ins, outs, v) ↔
      0 < u.count ∧ ∃ ds, outs = u.front :: ds ∧ runMoves ms u.pop = some (ins, ds, v) := by
  rw [runMoves]
  by_cases hatom : 0 < u.count
  · cases runMoves ms u.pop <;> simp [hatom, Prod.ext_iff, eq_comm, and_left_comm]
  · simp [hatom]

/-! ### Filling and draining -/

/-- Appending `ws` and going on with `ms`: the queue that `ms` starts from holds `ws` behind what
was queued, at the same head. -/
theorem runMoves_fill (ms : List QueueMove) (ws : List Word) (u : Queue)
    (hroom : u.count + ws.length ≤ 128) :
    ∃ w : Queue, w.contents = u.contents ++ ws ∧ w.head = u.head ∧
      ∀ ins outs v, runMoves ms w = some (ins, outs, v) →
        runMoves (ws.map .enq ++ ms) u = some (ws ++ ins, outs, v) := by
  induction ws generalizing u with
  | nil => exact ⟨u, by simp, rfl, fun _ _ _ h => h⟩
  | cons a ws ih =>
    rw [List.length_cons] at hroom
    have hlt : u.count < 128 := by omega
    obtain ⟨w, hcontents, hhead, hrun⟩ := ih (u.push a) (by rw [Queue.push_count]; omega)
    refine ⟨w, ?_, hhead, fun ins outs v h => ?_⟩
    · rw [hcontents, u.contents_push a hlt, List.append_assoc, List.singleton_append]
    · exact (runMoves_enq_iff ..).2 ⟨hlt, ws ++ ins, rfl, hrun ins outs v h⟩

/-- As many takes as atoms are queued give the contents and leave the queue empty. -/
theorem runMoves_drain (n : Nat) (u : Queue) (hn : u.count = n) :
    ∃ v, runMoves (List.replicate n .deq) u = some ([], u.contents, v) ∧
      v.count = 0 ∧ v.head = u.head + Fin.ofNat 128 n := by
  induction n generalizing u with
  | zero => exact ⟨u, by rw [u.contents_empty hn]; rfl, hn, by simp⟩
  | succ n ih =>
    have hatom : 0 < u.count := by omega
    obtain ⟨v, hrun, hcount, hhead⟩ := ih u.pop (by rw [Queue.pop_count]; omega)
    refine ⟨v, ?_, hcount, ?_⟩
    · exact (runMoves_deq_iff ..).2 ⟨hatom, u.pop.contents, u.contents_pop hatom.ne', hrun⟩
    · calc v.head = u.head + 1 + Fin.ofNat 128 n := hhead
        _ = u.head + (Fin.ofNat 128 n + 1) := by rw [add_assoc, add_comm 1]
        _ = u.head + Fin.ofNat 128 (n + 1) := by rw [Fin.ofNat_add, Fin.val_one]

/-! ### The four laws -/

/-- R196 (a). -/
theorem runMoves_fill_drain (u : Queue) (ws : List Word) (hempty : u.count = 0)
    (hfits : ws.length ≤ 128) :
    ∃ v, runMoves (ws.map .enq ++ List.replicate ws.length .deq) u = some (ws, ws, v) ∧
      v.count = 0 ∧ v.head = u.head + Fin.ofNat 128 ws.length := by
  obtain ⟨w, hcontents, hheadFill, hfill⟩ :=
    runMoves_fill (List.replicate ws.length .deq) ws u (by omega)
  rw [u.contents_empty hempty, List.nil_append] at hcontents
  obtain ⟨v, hdrain, hcount, hhead⟩ :=
    runMoves_drain ws.length w (by rw [← hcontents, Queue.contents_length])
  refine ⟨v, ?_, hcount, hheadFill ▸ hhead⟩
  simpa [hcontents] using hfill _ _ _ hdrain

/-- R196 (b): what a dequeue leaves of the head and the count an un-dequeue changed. -/
theorem pop_unpop_head_count (u : Queue) (a : Word) :
    (u.unpop a).pop.head = u.head ∧ (u.unpop a).pop.count = u.count := by
  simp [Queue.backSlot]

/-- R196 (d), by induction on the moves. -/
theorem runMoves_fifo (ms : List QueueMove) (u v : Queue) (ins outs : List Word)
    (hrun : runMoves ms u = some (ins, outs, v)) :
    u.contents ++ ins = outs ++ v.contents := by
  induction ms generalizing u ins outs with
  | nil =>
    obtain ⟨rfl, rfl, rfl⟩ : [] = ins ∧ [] = outs ∧ u = v := by simpa [runMoves] using hrun
    simp
  | cons m ms ih =>
    cases m with
    | enq a =>
      obtain ⟨hroom, es, rfl, hrest⟩ := (runMoves_enq_iff ..).1 hrun
      calc u.contents ++ a :: es
          = (u.push a).contents ++ es := by rw [u.contents_push a hroom, List.append_cons]
        _ = outs ++ v.contents := ih _ _ _ hrest
    | deq =>
      obtain ⟨hatom, ds, rfl, hrest⟩ := (runMoves_deq_iff ..).1 hrun
      calc u.contents ++ ins
          = u.front :: (u.pop.contents ++ ins) := by rw [u.contents_pop hatom.ne', List.cons_append]
        _ = u.front :: ds ++ v.contents := by rw [ih _ _ _ hrest, List.cons_append]

/-- Settles O20: (a) by filling and draining, (b) and (c) by the laws of un-dequeue, (d) by
induction on the moves. -/
theorem queueIsFirstInFirstOut : Obligations.QueueIsFirstInFirstOut :=
  ⟨runMoves_fill_drain, fun u a => ⟨u.unpop_front a, pop_unpop_head_count u a⟩, Queue.unpop_pop,
    fun ms u v ins outs _ hrun => runMoves_fifo ms u v ins outs hrun⟩

end Sys2Proof.Proofs
end

section
/-! PROOFS. The fault queries (45_safety_fault_ops.md R254) and the gate function (R242). -/

namespace Sys2Proof.Proofs

open Sys2Proof Sys2Proof.Machine

/-! ### Host operations on a fault index -/

/-- On the index of a kind, an operation on a fault index acts on that kind (R255). -/
@[simp] theorem onFault_index (k : FaultKind) (f : FaultKind → Host.Outcome State Fault Refusal) :
    onFault k.index.val f = f k := by
  rw [onFault, faultOfIndex_index]

/-- A read writes the answer field and nothing else (R77). -/
theorem hostRead_eq (r : State → HostResult) (s : State) :
    hostRead r s = .next { s with hostResult := some (r s) } := rfl

theorem hostStep_faultIsSet (k : FaultKind) (s : State) :
    hostStep (.faultIsSet k.index.val) s =
      .next { s with hostResult := some (.bool s.faultSet[k.index]) } := by
  rw [hostStep, onFault_index, hostRead_eq, faultIsSet_eq]

theorem hostStep_faultOverridden (k : FaultKind) (s : State) :
    hostStep (.faultOverridden k.index.val) s =
      .next { s with hostResult := some (.bool s.faultOvr[k.index]) } := by
  rw [hostStep, onFault_index, hostRead_eq, faultOverridden_eq]

/-- Settles O31: the index names its kind, and a read writes the answer field only. -/
theorem faultQueriesReturnTheirBits : Obligations.FaultQueriesReturnTheirBits :=
  fun s k => ⟨hostStep_faultIsSet k s, hostStep_faultOverridden k s⟩

/-! ### The gate function -/

/-- Of the overrides, the gate functions depend on those of the two lid faults only (R242). -/
theorem gates_congr_of_lid_overrides {s t : State}
    (hestop : faultIsSet t .estop = faultIsSet s .estop) (hlid : t.lidOpen = s.lidOpen)
    (hopen : faultOverridden t .lidOpen = faultOverridden s .lidOpen)
    (hclosed : faultOverridden t .lidClosed = faultOverridden s .lidClosed) :
    gateMove t = gateMove s ∧ gateMain t = gateMain s ∧ gateVis t = gateVis s := by
  refine ⟨?_, ?_, ?_⟩
  · rw [gateMove, gateMove, hestop]
  · rw [gateMain, gateMain, hestop, hlid, hopen]
  · rw [gateVis, gateVis, hestop, hlid, hclosed]

/-- Settles O32: `set_gates` writes the three gate functions, and these read `F_ESTOP`, the
debounced lid and the two lid overrides only. -/
theorem setGatesFollowsTheGateFunction : Obligations.SetGatesFollowsTheGateFunction := by
  refine ⟨setGates_eq, fun s t hestop hlid hopen hclosed => ?_⟩
  simp only [setGates_eq]
  exact gates_congr_of_lid_overrides hestop hlid hopen hclosed

end Sys2Proof.Proofs
end

section
/-! PROOFS. Encoding and decoding (30_encoding.md): the round trips, the decode function at the
default numbering, and which atoms are illegal. -/

namespace Sys2Proof.Proofs

open Sys2Proof Sys2Proof.Machine

/-! ### The round trips -/

/-- An opcode's instruction is read back from its atoms, in either format (R102, R103). -/
theorem decode_encode_instrOf {cfg : Config} (hmap : cfg.opmapOk = true) (n : Word) (o : Opcode)
    (rest : List Word) :
    decode cfg (encode cfg (instrOf n o) ++ rest) = .ok (instrOf n o, rest) := by
  rw [encode_instrOf]
  cases ho : hasOperand o
  · rw [if_neg Bool.false_ne_true, List.singleton_append, decode_opnum_plain hmap ho,
      instrOf_noOperand ho 0 n]
  · rw [if_pos rfl]
    exact decode_opnum_operand hmap ho n rest

/-- A literal is read back from its atom (R106). -/
theorem decode_literal {cfg : Config} {v : Word} (hv : cfg.atomMax ≤ v.toNat) (rest : List Word) :
    decode cfg (v :: rest) = .ok (.ivl v, rest) := by
  rw [decode, classify_literal hv]

/-- Settles O1: an instruction is a literal or an opcode's, and each is read back from its atoms. -/
theorem decodeEncodeRoundTrip : Obligations.DecodeEncodeRoundTrip := by
  intro cfg i rest hok hwf
  obtain ⟨v, rfl⟩ | ⟨n, o, rfl⟩ := instr_cases i
  · exact decode_literal (by simpa [Instr.wellFormed] using hwf) rest
  · exact decode_encode_instrOf (ok_opmap hok) n o rest

/-- Settles O2: by the three answers the decoder can give. -/
theorem encodeDecodeRoundTrip : Obligations.EncodeDecodeRoundTrip := by
  intro cfg ws i rest h
  obtain ⟨v, rfl, hv, rfl⟩ | ⟨o, n, rfl, -, ho, rfl, -⟩ | ⟨o, rfl, -, ho, rfl, -⟩ := decode_eq_ok h
  · exact ⟨rfl, by simpa [Instr.wellFormed] using hv⟩
  · exact ⟨by simp [encode_instrOf, ho], wellFormed_instrOf ..⟩
  · exact ⟨by simp [encode_instrOf, ho], wellFormed_instrOf ..⟩

/-! ### Which channel takes which opcode -/

/-- The four kinds of opcodes that some channel does not take, and where (R105). -/
theorem takes_eq_false_iff (cfg : Config) (c : Channel) (o : Opcode) :
    takes cfg c o = false ↔
      (o ∈ [Opcode.setMainModeOff, .setMainModePulsed, .setMainModeContinuous,
          .setVisibleModeOff, .setVisibleModePulsed, .setVisibleModeContinuous,
          .setMainPulseDuration, .setVisiblePulseDuration, .setMainPowerLevel] ∧ c ≠ .l) ∨
      (o ∈ [Opcode.dirPositive, .dirNegative, .enablePin, .disablePin,
          .loopUntilMin, .loopWhileMin, .loopUntilMax, .loopWhileMax] ∧ c = .l) ∨
      (∃ b, c = Axis.channel b ∧
        ((o ∈ [Opcode.loopUntilMin, .loopWhileMin] ∧ cfg.hasMin.get b = false) ∨
         (o ∈ [Opcode.loopUntilMax, .loopWhileMax] ∧ cfg.hasMax.get b = false))) := by
  cases hc : c.axis? with
  | none =>
    obtain rfl := Channel.axis_eq_none.mp hc
    have hno : ∀ b : Axis, Channel.l ≠ b.channel := fun b => (Axis.channel_ne_laser b).symm
    cases o <;> simp [takes, hno, Channel.axis?]
  | some a =>
    obtain rfl := Channel.axis_eq_some.mp hc
    have hl := Axis.channel_ne_laser a
    have hinj : ∀ b : Axis, a.channel = b.channel ↔ a = b :=
      fun b => ⟨Axis.channel_injective, fun e => e ▸ rfl⟩
    cases o <;> simp [takes, hl, hinj]

/-- An atom is illegal when it is below `ATOM_MAX` and no opcode's number, or the number of an opcode
the channel does not take (R108, R110). -/
theorem decodeAt_eq_illegal_iff {cfg : Config} (hmap : cfg.opmapOk = true) (c : Channel) (a : Word) :
    decodeAt cfg c a = .illegal ↔
      a.toNat < cfg.atomMax ∧
        ((∀ o, opnum cfg o ≠ a) ∨ ∃ o, opnum cfg o = a ∧ takes cfg c o = false) := by
  obtain ⟨ha, -⟩ | ⟨ha, o, rfl, -⟩ | ⟨ha, hno, -⟩ := classify_cases cfg a
  · simp [decodeAt_literal c ha, Nat.not_lt.mpr ha]
  · rw [decodeAt_opnum hmap]
    have huniq : ∀ p, opnum cfg p = opnum cfg o ↔ p = o :=
      fun p => ⟨opnum_injective hmap, fun e => e ▸ rfl⟩
    simp [ha, huniq]
  · simp [decodeAt_unassigned c ha hno, ha, hno]

/-- Settles O4: the illegal atoms, with the opcodes a channel does not take spelled out. -/
theorem illegalAtomsAreExactlyTheReserved : Obligations.IllegalAtomsAreExactlyTheReserved := by
  intro cfg c a hok
  rw [decodeAt_eq_illegal_iff (ok_opmap hok)]
  refine and_congr_right fun _ => or_congr_right ?_
  simp only [takes_eq_false_iff]
  constructor
  · rintro ⟨o, ho, ⟨hk, hc⟩ | ⟨hk, hc⟩ | ⟨b, hc, ⟨hk, hs⟩ | ⟨hk, hs⟩⟩⟩
    · exact .inl ⟨o, hk, ho, hc⟩
    · exact .inr (.inl ⟨o, hk, ho, hc⟩)
    · exact .inr (.inr ⟨b, hc, .inl ⟨o, hk, ho, hs⟩⟩)
    · exact .inr (.inr ⟨b, hc, .inr ⟨o, hk, ho, hs⟩⟩)
  · rintro (⟨o, hk, ho, hc⟩ | ⟨o, hk, ho, hc⟩ | ⟨b, hc, ⟨o, hk, ho, hs⟩ | ⟨o, hk, ho, hs⟩⟩)
    · exact ⟨o, ho, .inl ⟨hk, hc⟩⟩
    · exact ⟨o, ho, .inr (.inl ⟨hk, hc⟩)⟩
    · exact ⟨o, ho, .inr (.inr ⟨b, hc, .inl ⟨hk, hs⟩⟩)⟩
    · exact ⟨o, ho, .inr (.inr ⟨b, hc, .inr ⟨hk, hs⟩⟩)⟩

/-! ### The default numbering -/

/-- The default numbers are the places in the listing of R104 (D2). -/
theorem opnum_toNat_of_reference {cfg : Config} (hdef : cfg.opmap = Config.referenceOpmap)
    (o : Opcode) : (opnum cfg o).toNat = o.index.val := by
  rw [opnum, hdef]
  cases o <;> rfl

/-- The opcode listed at a place has the number of the place. -/
theorem eq_opnum_of_listed {cfg : Config} (hdef : cfg.opmap = Config.referenceOpmap) {a : Word}
    {o : Opcode} (h : Opcode.all[a.toNat]? = some o) : a = opnum cfg o := by
  have hlisted : ∀ (p : Opcode) (n : Fin 18), Opcode.all[n.val]? = some p → p.index = n := by
    intro p
    cases p <;> decide
  have hlt : a.toNat < 18 := (List.getElem?_eq_some_iff.mp h).1
  apply BitVec.eq_of_toNat_eq
  rw [opnum_toNat_of_reference hdef, hlisted o ⟨a.toNat, hlt⟩ h]

/-- The decode function on a listed atom is a look at which channels take its opcode (R108). -/
theorem decodeAt_of_listed {cfg : Config} (hmap : cfg.opmapOk = true)
    (hdef : cfg.opmap = Config.referenceOpmap) (c : Channel) {a : Word} {o : Opcode}
    (h : Opcode.all[a.toNat]? = some o) :
    a.toNat = o.index.val ∧ decodeAt cfg c a = if takes cfg c o then .op o else .illegal := by
  obtain rfl := eq_opnum_of_listed hdef h
  exact ⟨opnum_toNat_of_reference hdef o, decodeAt_opnum hmap c o⟩

/-- The places 1, 2, 7 and 8 are opcodes of every motor channel. -/
theorem takes_motor (cfg : Config) (c : Channel) {o : Opcode}
    (h : (1 ≤ o.index.val ∧ o.index.val ≤ 2) ∨ (7 ≤ o.index.val ∧ o.index.val ≤ 8)) :
    takes cfg c o = !decide (c = .l) := by
  cases c <;> cases o <;> simp [takes, Channel.axis?, Opcode.index] at h ⊢

/-- The places 3 and 4 are the loop atoms on the minimum switch. -/
theorem takes_loopMin (cfg : Config) (c : Channel) {o : Opcode}
    (h : 3 ≤ o.index.val ∧ o.index.val ≤ 4) : takes cfg c o = takes cfg c .loopUntilMin := by
  cases o <;> simp [takes, Opcode.index] at h ⊢

/-- The places 5 and 6 are the loop atoms on the maximum switch. -/
theorem takes_loopMax (cfg : Config) (c : Channel) {o : Opcode}
    (h : 5 ≤ o.index.val ∧ o.index.val ≤ 6) : takes cfg c o = takes cfg c .loopUntilMax := by
  cases o <;> simp [takes, Opcode.index] at h ⊢

/-- The places 9 to 17 are the opcodes of the laser channel. -/
theorem takes_laser (cfg : Config) (c : Channel) {o : Opcode}
    (h : 9 ≤ o.index.val ∧ o.index.val ≤ 17) : takes cfg c o = decide (c = .l) := by
  cases c <;> cases o <;> simp [takes, Channel.axis?, Opcode.index] at h ⊢

/-- Settles O3: in each range the atom is the listed opcode's number, or no opcode's. -/
theorem decodeFollowsDocumentedRanges : Obligations.DecodeFollowsDocumentedRanges := by
  intro cfg c a hok hdef
  have hmap := ok_opmap hok
  refine ⟨decodeAt_literal c, fun h0 => ?_, fun o hr h => ?_, fun o hr h => ?_, fun o hr h => ?_,
    fun o hr h => ?_, fun h18 hlt => ?_⟩
  · have h : Opcode.all[a.toNat]? = some .stop := by rw [h0]; rfl
    rw [(decodeAt_of_listed hmap hdef c h).2]
    rfl
  · obtain ⟨hn, e⟩ := decodeAt_of_listed hmap hdef c h
    rw [hn] at hr
    rw [e, takes_motor cfg c hr]
    by_cases hc : c = .l <;> simp [hc]
  · obtain ⟨hn, e⟩ := decodeAt_of_listed hmap hdef c h
    rw [hn] at hr
    rw [e, takes_loopMin cfg c hr]
    refine ⟨?_, ?_⟩
    · rintro b rfl
      simp [takes]
    · rintro rfl
      rfl
  · obtain ⟨hn, e⟩ := decodeAt_of_listed hmap hdef c h
    rw [hn] at hr
    rw [e, takes_loopMax cfg c hr]
    refine ⟨?_, ?_⟩
    · rintro b rfl
      simp [takes]
    · rintro rfl
      rfl
  · obtain ⟨hn, e⟩ := decodeAt_of_listed hmap hdef c h
    rw [hn] at hr
    rw [e, takes_laser cfg c hr]
    by_cases hc : c = .l <;> simp [hc]
  · refine decodeAt_unassigned c hlt fun o ho => ?_
    have hn := opnum_toNat_of_reference hdef o
    have hlt := o.index.isLt
    rw [ho] at hn
    omega

/-- Settles O5: each word is read by running the decoder at the reference configuration. -/
theorem tableWordsDecode : Obligations.TableWordsDecode := by
  refine ⟨?_, ?_, ?_, ?_, ?_, ?_, ?_, ?_, ?_, ?_, ?_⟩ <;> rfl

end Sys2Proof.Proofs
end

section
/-! PROOFS. Every step keeps the invariants (10_state.md R63): the shared facts about what lies outside
the block, then the operations of the host, the parts of a tick and the interpreter's pass. -/

namespace Sys2Proof.Proofs

open Sys2Proof Sys2Proof.Machine

/-! ### Outside the block -/

/-- The invariants do not speak of what lies outside the block: the inputs, the script, the answer to
the host and the count of draws. -/
theorem inv_outside {s : State} (h : Inv s) (inp : Inputs) (script : List Event)
    (result : Option HostResult) (draws : Nat) :
    Inv { s with inp := inp, script := script, hostResult := result, draws := draws } :=
  ⟨h.config, h.handlers, h.countLe, h.onRunning, h.alertIff, h.moveGate, h.mainGate, h.visGate,
    h.noHighFault, h.noOtherOverride, h.cntBelow, h.haltedFatal, h.dbBound, h.dbLeft, h.haltedIdle,
    h.idleDone, h.firingChannel, h.pendingChannels, h.pendingOnce⟩

/-- A tick is in progress only on a block that is not halted (R305). -/
theorem halted_of_busy {s : State} (h : Inv s) (hp : s.phase ≠ .idle) : s.halted = false := by
  cases hh : s.halted
  · rfl
  · exact absurd (h.haltedIdle hh) hp

/-! ### Host operations -/

/-- The counter of a start is at most the skew (R215, R222). -/
theorem startCnt_le (s : State) (c : Channel) : (startCnt s c).toNat ≤ s.cfg.startSkew := by
  unfold startCnt
  split
  · exact Nat.zero_le _
  · rw [BitVec.toNat_ofNat]
    calc _ ≤ Config.freeNat s.draws c.index % (min s.cfg.startSkew 65535 + 1) := Nat.mod_le _ _
      _ ≤ min s.cfg.startSkew 65535 := Nat.lt_succ_iff.mp (Nat.mod_lt _ (Nat.succ_pos _))
      _ ≤ s.cfg.startSkew := Nat.min_le_left _ _

/-- A started channel meets its invariants (R215, R222). -/
theorem startChannels_core {s : State} (h : CoreInv s) : CoreInv (startChannels s) := by
  refine h.withChannels (fun c => ?_) rfl rfl rfl rfl rfl rfl rfl rfl rfl rfl
  rw [startChannels]
  simp only [State.withDraws_q, State.withDraws_tmr, State.withTmr_q, State.withTmr_tmr,
    State.withQ_q, PerChan.get_ofFn]
  refine ⟨(h.channel c).1, rfl, fun hskew _ => ?_⟩
  exact BitVec.lt_def.mpr ((startCnt_le s c).trans_lt hskew)

/-- An append to a queue with room keeps the core invariants (R191). -/
theorem push_core {s : State} (h : CoreInv s) (c : Channel) (a : Word)
    (hc : (s.q.get c).count ≠ 128) :
    CoreInv (s.withQ (s.q.set c ((s.q.get c).push a))) := by
  refine h.withChannels (fun d => ?_) rfl rfl rfl rfl rfl rfl rfl rfl rfl rfl
  simp only [State.withQ_q, State.withQ_tmr, PerChan.get_set]
  split
  · next e =>
    subst e
    obtain ⟨hle, hon, hcnt⟩ := h.channel d
    exact ⟨by rw [Queue.push_count]; omega, by rw [Queue.push_running, hon], hcnt⟩
  · exact h.channel d

/-- What `reset` has written before its last statement meets what `update_safety` needs (R341). -/
theorem resetBlock_core {s : State} (h : CoreInv s) :
    CoreInv (Quiet.updateSafety (clearBlock s)) := by
  have hcfg := (clearBlock_envKept s).cfg
  refine CoreInv.updateSafety (by rw [hcfg]; exact h.config) (by rw [hcfg]; exact h.handlers)
    (fun c => ?_) ⟨?_, ?_⟩ ⟨?_, ?_, ?_⟩
  · simp only [clearBlock, PerChan.get_ofFn]
    exact ⟨Nat.zero_le _, rfl, fun _ hon => nomatch hon⟩
  · simp [clearBlock, anyFault]
  · simp [clearBlock]
  · simp [clearBlock]
  · simp only [clearBlock]
    exact Nat.lt_succ_iff.mp (Nat.mod_lt _ (Nat.succ_pos _))
  · simp [clearBlock]

/-- An override bit of a lid fault is one that may be set (R52, R54). -/
theorem override_switchesOk {s : State} (h : SwitchesOk s) (w : Override) (b : Bool) :
    SwitchesOk (s.withFaultOvr (s.faultOvr.set (overrideFault w).index b)) := by
  refine ⟨fun i ho hc => ?_, h.2⟩
  rw [State.withFaultOvr_faultOvr, bit_after_set, if_neg (by cases w <;> assumption)]
  exact h.1 i ho hc

/-- A host operation on an idle block keeps the invariants, but for its answer (R12). -/
theorem hostDoes_inv {op : HostOp} {s t : State} (hd : HostDoes op s t) (h : Inv s)
    (hp : s.phase = .idle) : Inv t := by
  have hcore := h.core
  have hdone := h.idleDone hp
  have live : ∀ {u : State}, s.halted = false → SafetyOnly s u → CoreInv u → Inv u :=
    fun hh k hu => hu.idle (by rw [k.phase, hp]) (by rw [k.pending, hdone])
      fun e => by rw [k.halted, hh] at e; cases e
  have settle : ∀ {u : State}, s.halted = false → u.halted = s.halted → u.phase = s.phase →
      u.pending = s.pending → CoreInv (Quiet.updateSafety u) → Inv (Quiet.updateSafety u) :=
    fun hh eh ep ed hu => hu.idle (by simp [ep, hp]) (by simp [ed, hdone])
      fun e => by rw [Quiet.updateSafety_halted, eh, hh] at e; cases e
  cases hd with
  | same => exact h
  | raised k hh =>
    exact live hh (Quiet.raiseFault_safetyOnly k s) (hcore.safetyOnly (Quiet.raiseFault_safetyOnly k s)
      (hcore.faults.raiseFault k) (Quiet.raiseFault_gatesOk k hcore.gates hcore.handlers))
  | lowered k hh =>
    exact live hh (Quiet.lowerFault_safetyOnly k s) (hcore.safetyOnly (Quiet.lowerFault_safetyOnly k s)
      (hcore.faults.lowerFault k) (Quiet.lowerFault_gatesOk k hcore.gates hcore.handlers))
  | halts hh => exact hcore.fatal (.inr rfl)
  | queued c a hh hc =>
    exact (push_core hcore c a hc).idle hp hdone fun e => absurd (hh.symm.trans e) Bool.false_ne_true
  | started hh he =>
    exact (startChannels_core hcore).idle hp hdone fun e =>
      absurd (hh.symm.trans e) Bool.false_ne_true
  | stopped hh =>
    exact live hh (stopEngine_safetyOnly s) (hcore.safetyOnly (stopEngine_safetyOnly s)
      (hcore.faults.congr rfl rfl) (hcore.gates.congr rfl rfl rfl rfl rfl rfl))
  | settled hh =>
    exact settle hh rfl rfl rfl (.updateSafety hcore.config hcore.handlers hcore.channel hcore.faults
      hcore.switches)
  | selected v hh =>
    exact settle hh rfl rfl rfl (.updateSafety hcore.config hcore.handlers hcore.channel
      (hcore.faults.congr rfl rfl) hcore.switches)
  | overridden w b hh =>
    exact settle hh rfl rfl rfl (.updateSafety hcore.config hcore.handlers hcore.channel
      (hcore.faults.congr rfl rfl) (override_switchesOk hcore.switches w b))
  | reset =>
    refine (resetBlock_core hcore).idle ?_ ?_ fun e => ?_
    · rw [Quiet.updateSafety_phase]; rfl
    · rw [Quiet.updateSafety_pending]; rfl
    · rw [Quiet.updateSafety_halted] at e; cases e

theorem hostStep_inv {op : HostOp} {s t : State} (h : Inv s) (hp : s.phase = .idle)
    (he : hostStep op s = .next t) : Inv t := by
  obtain ⟨u, r, hd, e⟩ | ⟨i, -, e⟩ := hostStep_cases h.handlers op
  · cases e.symm.trans he
    exact inv_outside (hostDoes_inv hd h hp) u.inp u.script r u.draws
  · cases e.symm.trans he

/-! ### The parts of a tick -/

/-- The beginning of a tick keeps the invariants (R211). -/
theorem beginTick_inv {s : State} (h : Inv s) (order : List Channel) :
    Inv (beginTick order s) := by
  cases hh : s.halted
  · rw [beginTick_eq hh]
    have hcore : CoreInv (s.withTmr (PerChan.ofFn fun c => advanceTimer (s.tmr.get c))) := by
      refine h.core.withChannels (fun c => ?_) rfl rfl rfl rfl rfl rfl rfl rfl rfl rfl
      rw [State.withTmr_tmr, PerChan.get_ofFn]
      exact advanceTimer_ok (h.core.channel c)
    have hperm := arrange_perm order (overflowed s)
    refine CoreInv.busy (hcore.congr rfl rfl rfl rfl rfl rfl rfl rfl rfl rfl rfl rfl)
      (fun e => nomatch e) hh (fun e => nomatch e) (fun c hc => ?_)
      (hperm.nodup_iff.mpr (overflowed_nodup s))
    have hov := mem_overflowed.mp (hperm.mem_iff.mp hc)
    refine ⟨(h.onRunning c).symm.trans ((overflows_iff _).mp hov).1, ?_⟩
    simp only [State.withPhase_tmr, State.withPending_tmr, State.withTmr_tmr, PerChan.get_ofFn]
    exact advanceTimer_overflow hov
  · rw [beginTick_halted hh]
    exact h

/-- The end of a tick keeps the invariants (R211, R257). -/
theorem endTick_inv {s : State} (h : Inv s) (hp : s.phase = .between) (hd : s.pending = []) :
    Inv ((Quiet.debounceTick s).withPhase .idle) := by
  have hlive := halted_of_busy h (by rw [hp]; exact fun e => nomatch e)
  obtain ⟨-, hhalted, hpending, -⟩ := Quiet.debounceTick_keeps s
  have hcore := (Quiet.debounceTick_core h.core).congr (t := (Quiet.debounceTick s).withPhase .idle)
    rfl rfl rfl rfl rfl rfl rfl rfl rfl rfl rfl rfl
  refine hcore.idle rfl (hpending.trans hd) fun e => ?_
  rw [State.withPhase_halted, hhalted, hlive] at e
  cases e

/-- The start of a firing, field by field (R212). -/
theorem enterFiring_eq (s : State) (c : Channel) (rest : List Channel) :
    enterFiring c (s.withPending rest) =
      { s with
        events := s.events ++ overflowEvents s c, pending := rest, cur := c, phase := .firing } :=
  rfl

/-- The start of a firing keeps the invariants (R212). -/
theorem enterFiring_inv {s : State} (h : Inv s) {c : Channel} {rest : List Channel}
    (hp : s.phase = .between) (hd : s.pending = c :: rest) :
    Inv (enterFiring c (s.withPending rest)) := by
  have hlive := halted_of_busy h (by rw [hp]; exact fun e => nomatch e)
  have hin : ∀ d, d = c ∨ d ∈ rest → (s.q.get d).running = true ∧ (s.tmr.get d).cnt = 0 :=
    fun d hd' => h.pendingChannels d (by rw [hd]; exact List.mem_cons.mpr hd')
  obtain ⟨hnot, honce⟩ := List.nodup_cons.mp (hd ▸ h.pendingOnce)
  obtain ⟨hrun, hcnt⟩ := hin c (.inl rfl)
  rw [enterFiring_eq]
  refine CoreInv.busy ?_ Phase.noConfusion hlive (fun _ => ⟨hrun, hcnt, hnot⟩)
    (fun d hd' => hin d (.inr hd')) honce
  exact h.core.congr rfl rfl rfl rfl rfl rfl rfl rfl rfl rfl rfl rfl

theorem nextFiring_inv {s t : State} (h : Inv s) (hp : s.phase = .between)
    (he : nextFiring s = .next t) : Inv t := by
  cases hd : s.pending with
  | nil =>
    rw [nextFiring_done hd, endTick_regular h.handlers] at he
    cases he
    exact endTick_inv h hp hd
  | cons c rest =>
    rw [nextFiring_more hd] at he
    cases he
    exact enterFiring_inv h hp hd

/-! ### The interpreter's pass -/

/-- Taking the atoms of an instruction keeps the invariants (R193). -/
theorem taken_inv {s t : State} (hT : Taken s.cur s t) (h : Inv s) (hp : s.phase = .firing) :
    Inv t := by
  have hcore := hT.core h.core
  obtain ⟨hrun, hcnt, hnot⟩ := h.firingChannel hp
  have hbusy : s.phase ≠ .idle := by rw [hp]; exact fun e => nomatch e
  have hlive := halted_of_busy h hbusy
  obtain ⟨u, rfl, -, hrunning, -⟩ := hT.eq
  refine hcore.busy hbusy hlive (fun _ => ⟨?_, hcnt, hnot⟩) (fun c hc => ?_)
    h.pendingOnce
  · rw [State.withQ_q, State.withQ_cur, PerChan.get_set_same, hrunning, hrun]
  · have hne : c ≠ s.cur := fun e => hnot (e ▸ hc)
    rw [State.withQ_q, PerChan.get_set_other _ _ hne]
    exact h.pendingChannels c hc

/-- A literal is above every counter that has just gone back to 0 (R106, R130). -/
theorem zero_lt_literal {cfg : Config} (hok : cfg.ok = true) {v : Word}
    (hv : (Instr.ivl v).wellFormed cfg = true) : (0 : Word) < v := by
  have hclock := ok_clock hok
  rw [Instr.wellFormed, decide_eq_true_eq, Config.atomMax] at hv
  rw [BitVec.lt_def]
  show 0 < v.toNat
  omega

/-- What an instruction writes of its own channel is right if it was before (R133, R134, R156): the
other channels keep their queue and their timer. -/
theorem exec_core {i : Instr} {s t : State} (h : Inv s) (hp : s.phase = .firing)
    (ht : takesInstr s.cfg s.cur i = true) (hw : i.wellFormed s.cfg = true)
    (he : exec i s = .next t) :
    ChannelOk (SkewBelow s.cfg) (t.q.get s.cur) (t.tmr.get s.cur) ∧
      (t.phase = .between ∨ t.phase = .firing ∧ t.q = s.q ∧ t.tmr = s.tmr) := by
  have hch := h.core.channel s.cur
  obtain ⟨hle, hon, hbelow⟩ := hch
  obtain ⟨-, hcnt, -⟩ := h.firingChannel hp
  rcases exec_cases ht with ⟨-, e⟩ | ⟨v, rfl, e⟩ | ⟨o, -, -, e⟩ | e | ⟨u, hu, e⟩
  · cases e.symm.trans he
    refine ⟨?_, .inl rfl⟩
    simp only [endFiring, stopChannel, State.withPhase_q, State.withPhase_tmr, State.withQ_q,
      State.withQ_tmr, State.withTmr_tmr, PerChan.get_set_same]
    exact ⟨hle, rfl, fun _ hoff => nomatch hoff⟩
  · cases e.symm.trans he
    refine ⟨?_, .inl rfl⟩
    simp only [endFiring, State.withPhase_q, State.withPhase_tmr, State.withTmr_q,
      State.withTmr_tmr, PerChan.get_set_same]
    refine ⟨hle, hon, fun _ _ => ?_⟩
    rw [hcnt]
    exact zero_lt_literal h.config hw
  · rw [e, pushBack] at he
    split at he
    · cases he
    · cases he
      refine ⟨?_, .inl rfl⟩
      simp only [endFiring, State.withPhase_q, State.withPhase_tmr, State.withQ_q,
        State.withQ_tmr, PerChan.get_set_same]
      exact ⟨by rw [Queue.unpop_count]; omega, hon, hbelow⟩
  · cases e.symm.trans he
    exact ⟨⟨hle, hon, hbelow⟩, .inr ⟨hp, rfl, rfl⟩⟩
  · cases e.symm.trans he
    have hsame : t.q = s.q ∧ t.tmr = s.tmr ∧ t.phase = s.phase := by
      unfold outputWrite at hu
      split at hu <;> cases hu <;> exact ⟨rfl, rfl, rfl⟩
    obtain ⟨hq, htm, hph⟩ := hsame
    rw [hq, htm]
    exact ⟨⟨hle, hon, hbelow⟩, .inr ⟨hph.trans hp, rfl, rfl⟩⟩

/-- An instruction on a channel that takes it keeps the invariants (R137). -/
theorem exec_inv {i : Instr} {s t : State} (h : Inv s) (hp : s.phase = .firing)
    (ht : takesInstr s.cfg s.cur i = true) (hw : i.wellFormed s.cfg = true)
    (he : exec i s = .next t) : Inv t := by
  obtain ⟨hown, hphase⟩ := exec_core h hp ht hw he
  obtain ⟨hframe, hmove, hmain, hvis, hfaults, halert, hhalted, hpending, hothers, -, -⟩ :=
    exec_keeps ht he
  obtain ⟨hrun, hcnt, hnot⟩ := h.firingChannel hp
  have hbusy : s.phase ≠ .idle := by rw [hp]; exact fun e => nomatch e
  have hcore : CoreInv t := by
    refine h.core.withChannels (fun c => ?_) hframe.cfg hfaults halert hmove hmain hvis
      hframe.lidOpen hframe.faultOvr hframe.dbCnt hframe.dbPending
    by_cases hc : c = s.cur
    · rw [hc]
      exact hown
    · rw [(hothers c hc).1, (hothers c hc).2]
      exact h.core.channel c
  refine hcore.busy ?_ (hhalted.trans (halted_of_busy h hbusy)) (fun hf => ?_) (fun c hc => ?_)
    (hpending ▸ h.pendingOnce)
  · rcases hphase with hph | ⟨hph, -⟩ <;> rw [hph] <;> exact fun e => nomatch e
  · obtain hph | ⟨-, hq, htm⟩ := hphase
    · cases hph.symm.trans hf
    · rw [hframe.cur, hpending, hq, htm]
      exact ⟨hrun, hcnt, hnot⟩
  · rw [hpending] at hc
    have hne : c ≠ s.cur := fun e => hnot (e ▸ hc)
    rw [(hothers c hne).1, (hothers c hne).2]
    exact h.pendingChannels c hc

/-- A pass of the interpreter keeps the invariants (R131). -/
theorem firingPass_inv {s t : State} (h : Inv s) (hp : s.phase = .firing)
    (he : firingPass s = .next t) : Inv t := by
  have fatal_inv : ∀ {u : State} {k : FaultKind}, CoreInv u → (k = .swSyntax ∨ k = .swUnderflow) →
      (fatal k u).outcome = .next t → Inv t := fun hu hk e => by
    rw [fatal_outcome (Config.regular_raised hu.handlers _)] at e
    cases e
    exact hu.fatal hk
  have popped : (s.q.get s.cur).count ≠ 0 → CoreInv (popState s.cur s) :=
    fun hc => Taken.core (.inl ⟨hc, rfl⟩) h.core
  rcases firingPass_cases s with ⟨-, e⟩ | ⟨hc, e⟩ | ⟨hc, e⟩ | ⟨i, u, hT, ht, hw, e⟩ <;> rw [e] at he
  · exact fatal_inv h.core (.inr rfl) he
  · exact fatal_inv (popped (by omega)) (.inr rfl) he
  · exact fatal_inv (popped hc) (.inl rfl) he
  · have hkeep := hT.firingOnly
    have hu := taken_inv hT h hp
    have hpu : u.phase = .firing := by
      obtain ⟨w, rfl, -⟩ := hT.eq
      exact hp
    exact exec_inv hu hpu (by rw [hkeep.cfg, hkeep.cur]; exact ht) (by rw [hkeep.cfg]; exact hw) he

/-! ### Every step -/

/-- Choosing the next event keeps the invariants and leaves the block (R10). -/
theorem nextEvent_inv {s : State} (h : Inv s) : Inv (nextEvent s).2 := by
  rw [nextEvent_eq]
  exact inv_outside h s.inp (nextEvent s).2.script s.hostResult (nextEvent s).2.draws

theorem nextEvent_phase (s : State) : (nextEvent s).2.phase = s.phase := by
  rw [nextEvent_eq]
  rfl

theorem stepEvent_inv {s t : State} (h : Inv s) (hp : s.phase = .idle)
    (he : stepEvent s = .next t) : Inv t := by
  have h' := nextEvent_inv h
  have hp' := (nextEvent_phase s).trans hp
  rw [stepEvent] at he
  cases hev : (nextEvent s).1 with
  | tick order =>
    rw [hev, runEvent] at he
    cases he
    exact beginTick_inv h' order
  | host g op =>
    rw [hev, runEvent] at he
    exact hostStep_inv h' hp' he
  | input sig v =>
    rw [hev, runEvent] at he
    cases he
    exact inv_outside h' _ (nextEvent s).2.script (nextEvent s).2.hostResult (nextEvent s).2.draws

/-- Settles O53: by the three arms of the step. -/
theorem stepKeepsInvariants : Obligations.StepKeepsInvariants := by
  intro s t h he
  cases hp : s.phase with
  | idle =>
    rw [step_idle h.config hp] at he
    exact stepEvent_inv h hp he
  | between =>
    rw [step_between h.config hp] at he
    exact nextFiring_inv h hp he
  | firing =>
    rw [step_firing h.config hp] at he
    exact firingPass_inv h hp he

end Sys2Proof.Proofs
end

section
/-! PROOFS. Rules of the whole machine: what a step leaves, the emergency stop, the permissions of the
outputs, and that steps complete and firings end. -/

namespace Sys2Proof.Proofs

open Sys2Proof Sys2Proof.Machine

/-! ### What a step of the environment leaves -/

/-- What choosing the next event leaves (R10): the block, the configuration and the inputs. -/
theorem nextEvent_block (s : State) :
    (nextEvent s).2 = { s with
      script := (nextEvent s).2.script, draws := (nextEvent s).2.draws } := nextEvent_eq s

theorem beginTick_switches (order : List Channel) (s : State) :
    (beginTick order s).stopDown = s.stopDown ∧ (beginTick order s).lidOpen = s.lidOpen ∧
      (beginTick order s).faultSet = s.faultSet := by
  unfold beginTick
  split <;> exact ⟨rfl, rfl, rfl⟩

theorem beginTick_external (order : List Channel) (s : State) :
    (beginTick order s).cfg = s.cfg ∧ (beginTick order s).inp = s.inp := by
  unfold beginTick
  split <;> exact ⟨rfl, rfl⟩

/-- A host operation other than `reset` leaves the switch snapshot (R259). -/
theorem hostDoes_snapshot {op : HostOp} {s t : State} (hd : HostDoes op s t) (hop : op ≠ .reset) :
    t.stopDown = s.stopDown ∧ t.lidOpen = s.lidOpen := by
  have safe : ∀ {u v : State}, SafetyOnly u v → v.stopDown = u.stopDown ∧ v.lidOpen = u.lidOpen :=
    fun k => ⟨k.stopDown, k.lidOpen⟩
  cases hd with
  | same => exact ⟨rfl, rfl⟩
  | raised k => exact safe (Quiet.raiseFault_safetyOnly k s)
  | lowered k => exact safe (Quiet.lowerFault_safetyOnly k s)
  | halts => exact ⟨Quiet.fatal_stopDown .., Quiet.fatal_lidOpen ..⟩
  | queued => exact ⟨rfl, rfl⟩
  | started => exact ⟨rfl, rfl⟩
  | stopped => exact safe (stopEngine_safetyOnly s)
  | settled => exact safe (Quiet.updateSafety_safetyOnly s)
  | selected v => exact ⟨Quiet.updateSafety_stopDown _, Quiet.updateSafety_lidOpen _⟩
  | overridden w b => exact ⟨Quiet.updateSafety_stopDown _, Quiet.updateSafety_lidOpen _⟩
  | reset h => exact absurd h hop

/-- What the machine does with an idle state that meets the invariants: a tick begins, a host
operation ends in a state of `HostDoes` or is refused, or an input changes (R10). -/
theorem step_idle_cases {s : State} (h : Inv s) (hp : s.phase = .idle) :
    (∃ order, (nextEvent s).1 = .tick order ∧ step s = .next (beginTick order (nextEvent s).2)) ∨
    (∃ g op t r, (nextEvent s).1 = .host g op ∧ HostDoes op (nextEvent s).2 t ∧
      step s = .next (t.withHostResult r)) ∨
    (∃ sig v, (nextEvent s).1 = .input sig v ∧
      step s = .next ((nextEvent s).2.withInp (s.inp.change sig v))) ∨
    (∃ i, 12 ≤ i ∧ step s = .refused (.badFaultIndex i)) := by
  rw [step_idle h.config hp, stepEvent]
  cases hev : (nextEvent s).1 with
  | tick order => exact .inl ⟨order, rfl, rfl⟩
  | host g op =>
    obtain ⟨t, r, hd, e⟩ | ⟨i, hi, e⟩ := hostStep_cases (nextEvent_inv h).handlers op
    · exact .inr (.inl ⟨g, op, t, r, rfl, hd, e⟩)
    · exact .inr (.inr (.inr ⟨i, hi, e⟩))
  | input sig v =>
    refine .inr (.inr (.inl ⟨sig, v, rfl, ?_⟩))
    rw [runEvent, show (nextEvent s).2.inp = s.inp by rw [nextEvent_block s]]

/-- What the tick does between firings with regular handlers: the next channel fires, or the debouncer
runs and the tick is over (R211). -/
theorem nextFiring_cases {s : State} (hr : s.cfg.handlersRegular = true) :
    (s.pending = [] ∧ nextFiring s = .next ((Quiet.debounceTick s).withPhase .idle)) ∨
    (∃ c rest, s.pending = c :: rest ∧
      nextFiring s = .next (enterFiring c (s.withPending rest))) := by
  cases hd : s.pending with
  | nil => exact .inl ⟨rfl, (nextFiring_done hd).trans (endTick_regular hr)⟩
  | cons c rest => exact .inr ⟨c, rest, rfl, nextFiring_more hd⟩

/-- Settles O48: host operations other than `reset`, ticks and firings leave the snapshot, and of the
debouncer's cases only the commit writes it. -/
theorem onlyTheCommitWritesTheSnapshot : Obligations.OnlyTheCommitWritesTheSnapshot := by
  intro s t h he hchange
  have kept : ¬ (t.stopDown = s.stopDown ∧ t.lidOpen = s.lidOpen) := fun ⟨h1, h2⟩ =>
    hchange.elim (absurd h1) (absurd h2)
  have hstop : (nextEvent s).2.stopDown = s.stopDown := by rw [nextEvent_block s]
  have hlid : (nextEvent s).2.lidOpen = s.lidOpen := by rw [nextEvent_block s]
  cases hp : s.phase with
  | idle =>
    obtain ⟨order, -, e⟩ | ⟨g, op, u, r, hev, hd, e⟩ | ⟨sig, v, -, e⟩ | ⟨i, -, e⟩ :=
      step_idle_cases h hp
    · cases e.symm.trans he
      obtain ⟨e1, e2, -⟩ := beginTick_switches order (nextEvent s).2
      exact absurd ⟨e1.trans hstop, e2.trans hlid⟩ kept
    · cases e.symm.trans he
      by_cases hop : op = .reset
      · exact .inl ⟨rfl, g, hop ▸ hev⟩
      · obtain ⟨e1, e2⟩ := hostDoes_snapshot hd hop
        exact absurd ⟨e1.trans hstop, e2.trans hlid⟩ kept
    · cases e.symm.trans he
      exact absurd ⟨hstop, hlid⟩ kept
    · cases e.symm.trans he
  | between =>
    rw [step_between h.config hp] at he
    obtain ⟨hd, e⟩ | ⟨c, rest, -, e⟩ := nextFiring_cases h.handlers
    · cases e.symm.trans he
      rcases Quiet.debounceTick_cases s with ⟨-, -, e⟩ | ⟨-, -, e⟩ | ⟨-, -, e⟩ | ⟨hpend, hcnt, e⟩
      · rw [e] at kept; exact absurd ⟨rfl, rfl⟩ kept
      · rw [e] at kept; exact absurd ⟨rfl, rfl⟩ kept
      · rw [e] at kept; exact absurd ⟨rfl, rfl⟩ kept
      · have hleft := h.dbLeft hpend
        exact .inr ⟨rfl, hd, hpend, by omega⟩
    · cases e.symm.trans he
      rw [enterFiring_eq] at kept
      exact absurd ⟨rfl, rfl⟩ kept
  | firing =>
    rw [step_firing h.config hp] at he
    have hk := firingPass_keeps (Config.regular_raised h.handlers _)
      (Config.regular_raised h.handlers _) he
    exact absurd ⟨hk.stopDown, hk.lidOpen⟩ kept

/-! ### The configuration and the inputs -/

/-- What a step of the environment writes of the inputs and the configuration, whatever the handlers
do (R6, R60). -/
theorem stepEvent_external {s t : State} (he : stepEvent s = .next t) :
    t.cfg = s.cfg ∧
      (t.inp = s.inp ∨
        ∃ sig v, (nextEvent s).1 = .input sig v ∧ t.inp = s.inp.change sig v) := by
  have hcfg : (nextEvent s).2.cfg = s.cfg := by rw [nextEvent_block s]
  have hinp : (nextEvent s).2.inp = s.inp := by rw [nextEvent_block s]
  rw [stepEvent] at he
  cases hev : (nextEvent s).1 with
  | tick order =>
    rw [hev, runEvent] at he
    cases he
    obtain ⟨e1, e2⟩ := beginTick_external order (nextEvent s).2
    exact ⟨e1.trans hcfg, .inl (e2.trans hinp)⟩
  | host g op =>
    rw [hev, runEvent] at he
    obtain ⟨e1, e2, -⟩ := hostStep_keeps he
    exact ⟨e1.trans hcfg, .inl (e2.trans hinp)⟩
  | input sig v =>
    rw [hev, runEvent] at he
    cases he
    exact ⟨hcfg, .inr ⟨sig, v, rfl, congrArg (Inputs.change · sig v) hinp⟩⟩

/-- The next event of a script that begins with a tick or an input is that one (R220). -/
theorem nextEvent_input {s : State} {sig : InputSignal} {v : Bool} {es : List Event}
    (hs : s.script = .input sig v :: es) : nextEvent s = (.input sig v, s.withScript es) := by
  rw [nextEvent, hs, takeEvent_input]

/-- Settles O49: by the three arms of the step, none of which writes them but an input change. -/
theorem configurationAndInputsAreExternal : Obligations.ConfigurationAndInputsAreExternal := by
  refine ⟨fun s t he => ?_, fun s sig v es hok hp hs => ?_, fun i a v => ⟨rfl, rfl, rfl, rfl⟩⟩
  · have hok := ok_of_step he
    cases hp : s.phase with
    | idle =>
      rw [step_idle hok hp] at he
      obtain ⟨hcfg, hinp | hev⟩ := stepEvent_external he
      · exact ⟨hcfg, fun hne => absurd hinp hne⟩
      · exact ⟨hcfg, fun _ => ⟨rfl, hev⟩⟩
    | between =>
      rw [step_between hok hp] at he
      obtain ⟨hcfg, hinp, -⟩ := nextFiring_keeps he
      exact ⟨hcfg, fun hne => absurd hinp hne⟩
    | firing =>
      rw [step_firing hok hp] at he
      exact ⟨(firingPass_env he).cfg, fun hne => absurd (firingPass_env he).inp hne⟩
  · rw [step_idle hok hp, stepEvent, nextEvent_input hs]
    rfl

/-! ### During a tick -/

/-- Settles O50: between firings and in a firing the environment's fields are not written. -/
theorem tickIsAtomicForTheEnvironment : Obligations.TickIsAtomicForTheEnvironment := by
  intro s t hp he
  have hok := ok_of_step he
  cases hph : s.phase with
  | idle => exact absurd hph hp
  | between =>
    rw [step_between hok hph] at he
    obtain ⟨-, hinp, hscript, hresult⟩ := nextFiring_keeps he
    refine ⟨hscript, hresult, hinp, fun hr => ?_⟩
    obtain ⟨-, e⟩ | ⟨c, rest, -, e⟩ := nextFiring_cases hr
    · cases e.symm.trans he
      obtain ⟨-, -, -, -, -, -, hdraws, -⟩ := Quiet.debounceTick_keeps s
      exact hdraws
    · cases e.symm.trans he
      rw [enterFiring_eq]
  | firing =>
    rw [step_firing hok hph] at he
    have henv := firingPass_env he
    refine ⟨henv.script, henv.hostResult, henv.inp, fun hr => ?_⟩
    exact (firingPass_keeps (Config.regular_raised hr _) (Config.regular_raised hr _) he).draws

/-! ### The permissions of the outputs -/

/-- A step event is of the overflowing channel's own axis, with its steps enabled (R62). -/
theorem step_mem_overflowEvents {s : State} {c : Channel} {b : Axis} {d : Dir}
    (h : .step b d ∈ overflowEvents s c) : c = b.channel ∧ s.moveOk = true := by
  unfold overflowEvents at h
  split at h
  · next a ha =>
    obtain rfl := Channel.axis_eq_some.mp ha
    split at h <;> simp_all
  · split at h <;> split at h <;> simp_all

/-- A main pulse event is of the laser channel, with its gate 1 (R62). -/
theorem mainPulse_mem_overflowEvents {s : State} {c : Channel} {n : Word}
    (h : .mainPulse n ∈ overflowEvents s c) : c = .l ∧ s.mainOk = true := by
  unfold overflowEvents at h
  split at h
  · split at h <;> simp_all
  · next ha =>
    obtain rfl := Channel.axis_eq_none.mp ha
    split at h <;> split at h <;> simp_all

/-- A visible pulse event is of the laser channel, with its gate 1 (R62). -/
theorem visPulse_mem_overflowEvents {s : State} {c : Channel} {n : Word}
    (h : .visPulse n ∈ overflowEvents s c) : c = .l ∧ s.visOk = true := by
  unfold overflowEvents at h
  split at h
  · split at h <;> simp_all
  · next ha =>
    obtain rfl := Channel.axis_eq_none.mp ha
    split at h <;> split at h <;> simp_all

/-- Settles O51: a gate is its permission (R63 (d)), and the outputs and events ask for the gate. -/
theorem outputsNeedTheirPermission : Obligations.OutputsNeedTheirPermission := by
  intro s h
  have hmain : s.mainOk = mainPermitted s := h.mainGate
  have hvis : s.visOk = visPermitted s := h.visGate
  have hmove : s.moveOk = movePermitted s := h.moveGate
  refine ⟨fun e => hmain ▸ e, fun e => hvis ▸ e, by rw [hmove], fun e => ?_, fun e => ?_,
    fun b e => ?_, fun c b d e => ?_, fun c n e => ?_, fun c n e => ?_⟩
  · rw [outputLevels, Bool.and_eq_true] at e
    exact hmain ▸ e.2
  · rw [outputLevels, Bool.and_eq_true] at e
    exact hvis ▸ e.2
  · rw [outputLevels, PerAxis.get_ofFn, Bool.and_eq_true] at e
    exact hmove ▸ e.2
  · exact ⟨hmove ▸ (step_mem_overflowEvents e).2, (step_mem_overflowEvents e).1⟩
  · exact ⟨hmain ▸ (mainPulse_mem_overflowEvents e).2, (mainPulse_mem_overflowEvents e).1⟩
  · exact ⟨hvis ▸ (visPulse_mem_overflowEvents e).2, (visPulse_mem_overflowEvents e).1⟩

end Sys2Proof.Proofs
end

section
/-! PROOFS. The interpreter's pass: that it completes, that a firing ends, what it leaves; and the
emergency stop of a switch that is down. -/

namespace Sys2Proof.Proofs

open Sys2Proof Sys2Proof.Machine

/-! ### A pass completes -/

/-- On a queue with room for a push-back an instruction its channel takes answers a next state. -/
theorem exec_completes {i : Instr} {s : State} (ht : takesInstr s.cfg s.cur i = true)
    (hroom : (s.q.get s.cur).count < 128) : ∃ t, exec i s = .next t := by
  rcases exec_cases ht with ⟨-, e⟩ | ⟨v, -, e⟩ | ⟨o, -, -, e⟩ | e | ⟨u, -, e⟩
  · exact ⟨_, e⟩
  · exact ⟨_, e⟩
  · exact ⟨_, e.trans (pushBack_eq hroom)⟩
  · exact ⟨_, e⟩
  · exact ⟨_, e⟩

/-- A pass of the interpreter completes: it halts the block, or the tick goes on with the channels that
wait as they were, and a firing that goes on has fewer atoms queued (R131, R132). -/
theorem firingPass_progress {s : State} (h : Inv s) (hp : s.phase = .firing) :
    ∃ t, firingPass s = .next t ∧ Inv t ∧
      (t.halted = true ∨ t.phase ≠ .idle ∧ t.pending = s.pending ∧
        (t.phase = .firing → t.cur = s.cur ∧ (t.q.get t.cur).count < (s.q.get s.cur).count)) := by
  have fatal_halts : ∀ (u : State) (k : FaultKind), u.cfg = s.cfg →
      firingPass s = (fatal k u).outcome →
      ∃ t, firingPass s = .next t ∧ Inv t ∧ t.halted = true := fun u k hcfg e => by
    rw [fatal_outcome (by rw [hcfg]; exact Config.regular_raised h.handlers _)] at e
    exact ⟨_, e, firingPass_inv h hp e, Quiet.fatal_halted ..⟩
  rcases firingPass_cases s with ⟨-, e⟩ | ⟨-, e⟩ | ⟨-, e⟩ | ⟨i, u, hT, ht, hw, e⟩
  · obtain ⟨t, e, hinv, hh⟩ := fatal_halts s _ rfl e
    exact ⟨t, e, hinv, .inl hh⟩
  · obtain ⟨t, e, hinv, hh⟩ := fatal_halts (popState s.cur s) _ rfl e
    exact ⟨t, e, hinv, .inl hh⟩
  · obtain ⟨t, e, hinv, hh⟩ := fatal_halts (popState s.cur s) _ rfl e
    exact ⟨t, e, hinv, .inl hh⟩
  · have hu := taken_inv hT h hp
    have hkeep := hT.firingOnly
    rw [← hkeep.cfg, ← hkeep.cur] at ht
    rw [← hkeep.cfg] at hw
    obtain ⟨w, rfl, -, -, hfewer⟩ := hT.eq
    have hcount := h.countLe s.cur
    have hq : ((s.withQ (s.q.set s.cur w)).q.get s.cur).count = w.count := by simp
    obtain ⟨t, ex⟩ := exec_completes ht (by simp only [State.withQ_cur, hq]; omega)
    obtain ⟨hframe, -, -, -, -, -, -, hpending, -⟩ := exec_keeps ht ex
    obtain ⟨-, hphase⟩ := exec_core hu hp ht hw ex
    refine ⟨t, e.trans ex, exec_inv hu hp ht hw ex, .inr ⟨?_, hpending, fun hf => ?_⟩⟩
    · rcases hphase with hph | ⟨hph, -⟩ <;> rw [hph] <;> exact Phase.noConfusion
    · obtain hph | ⟨-, htq, -⟩ := hphase
      · cases hph.symm.trans hf
      · have hcur : t.cur = s.cur := hframe.cur
        exact ⟨hcur, by rw [hcur, htq, hq]; exact hfewer⟩

/-! ### A firing ends -/

/-- The machine's run, from its first step. -/
theorem run_succ (k : Nat) {s t : State} (h : step s = .next t) :
    Sys2Proof.core.run (k + 1) s = Sys2Proof.core.run k t := by
  have hcore : Sys2Proof.core.step s = .next t := h
  simp only [Host.Core.run, hcore]

/-- `k` steps lead from `s` to `t`, and a tick is in progress in every state before `t`. -/
def BusyRun (k : Nat) (s t : State) : Prop :=
  Sys2Proof.core.run k s = .next t ∧
    ∀ j, j < k → ∃ u, Sys2Proof.core.run j s = .next u ∧ u.phase ≠ .idle

theorem BusyRun.refl (s : State) : BusyRun 0 s s := ⟨rfl, fun j hj => absurd hj (Nat.not_lt_zero j)⟩

/-- One more step in front of a run. -/
theorem BusyRun.cons {k : Nat} {s t u : State} (hp : s.phase ≠ .idle) (hstep : step s = .next t)
    (h : BusyRun k t u) : BusyRun (k + 1) s u := by
  refine ⟨(run_succ k hstep).trans h.1, fun j hj => ?_⟩
  cases j with
  | zero => exact ⟨s, rfl, hp⟩
  | succ j =>
    obtain ⟨w, hw, hph⟩ := h.2 j (Nat.lt_of_succ_lt_succ hj)
    exact ⟨w, (run_succ j hstep).trans hw, hph⟩

/-- A firing ends (R132): in as many passes as atoms are queued and one more, and the bounded loop
with so much fuel ends in the same state. -/
theorem firing_ends {s : State} (n : Nat) (h : Inv s) (hp : s.phase = .firing)
    (hn : (s.q.get s.cur).count < n) :
    ∃ k t, k < n ∧ fireLoop n s = .next t ∧ Inv t ∧ t.phase ≠ .firing ∧
      (t.halted = true ∨ t.phase = .between ∧ t.pending = s.pending) ∧
      ∀ m u, BusyRun m t u → BusyRun (k + 1 + m) s u := by
  have hbusy : s.phase ≠ .idle := by rw [hp]; exact Phase.noConfusion
  induction n generalizing s with
  | zero => exact absurd hn (Nat.not_lt_zero _)
  | succ n ih =>
    obtain ⟨t, hpass, hinv, hwhere⟩ := firingPass_progress h hp
    have hstep : step s = .next t := (step_firing h.config hp).trans hpass
    by_cases hon : t.phase = .firing
    · obtain hh | ⟨hbusy', hpend, hgoes⟩ := hwhere
      · exact absurd (hon.symm.trans (hinv.haltedIdle hh)) Phase.noConfusion
      obtain ⟨hcur, hfewer⟩ := hgoes hon
      obtain ⟨k, u, hk, hloop, hu, hover, hends, hmore⟩ := ih hinv hon (by omega) hbusy'
      refine ⟨k + 1, u, Nat.succ_lt_succ hk, ?_, hu, hover, ?_, fun m w hw => ?_⟩
      · rw [fireLoop, hpass]
        exact (if_pos hon).trans hloop
      · rw [← hpend]
        exact hends
      · rw [Nat.add_right_comm]
        exact .cons hbusy hstep (hmore m w hw)
    · refine ⟨0, t, Nat.succ_pos n, ?_, hinv, hon, ?_, fun m w hw => ?_⟩
      · rw [fireLoop, hpass]
        exact if_neg hon
      · refine hwhere.imp id fun ⟨hidle, hpend, _⟩ => ⟨?_, hpend⟩
        cases hph : t.phase with
        | idle => exact absurd hph hidle
        | between => rfl
        | firing => exact absurd hph hon
      · rw [Nat.add_comm]
        exact .cons hbusy hstep hw

/-- Settles O52: each pass that goes on takes an atom. -/
theorem firingAlwaysEnds : Obligations.FiringAlwaysEnds := by
  intro s h hp
  obtain ⟨k, t, hk, -, -, hover, -, hmore⟩ := firing_ends _ h hp (Nat.lt_succ_self _)
  exact ⟨k + 1, t, Nat.succ_pos k, hk, (hmore 0 t (.refl t)).1, hover⟩

/-- Settles O54: by the three arms of the step. -/
theorem stepFaultsNowhereReachable : Obligations.StepFaultsNowhereReachable := by
  intro s h
  cases hp : s.phase with
  | idle =>
    obtain ⟨order, -, e⟩ | ⟨g, op, u, r, -, -, e⟩ | ⟨sig, v, -, e⟩ | hrefused := step_idle_cases h hp
    · exact .inl ⟨_, e⟩
    · exact .inl ⟨_, e⟩
    · exact .inl ⟨_, e⟩
    · exact .inr ⟨rfl, hrefused⟩
  | between =>
    rw [step_between h.config hp]
    obtain ⟨-, e⟩ | ⟨c, rest, -, e⟩ := nextFiring_cases h.handlers
    · exact .inl ⟨_, e⟩
    · exact .inl ⟨_, e⟩
  | firing =>
    rw [step_firing h.config hp]
    obtain ⟨t, e, -⟩ := firingPass_progress h hp
    exact .inl ⟨t, e⟩

/-! ### What a pass leaves -/

/-- How a pass ends when the two fatal faults have plain handlers: with one of them, the opcode taken
or not, or with an instruction its channel takes (R131). -/
theorem firingPass_ends {s t : State} (h1 : (s.cfg.handlerOf .swSyntax).raised.plain = true)
    (h2 : (s.cfg.handlerOf .swUnderflow).raised.plain = true) (he : firingPass s = .next t) :
    (∃ k u, (k = .swSyntax ∨ k = .swUnderflow) ∧ (u = s ∨ u = popState s.cur s) ∧
      t = Quiet.fatal k u) ∨
    (∃ i u, Taken s.cur s u ∧ takesInstr u.cfg u.cur i = true ∧ exec i u = .next t) := by
  rcases firingPass_cases s with ⟨-, e⟩ | ⟨-, e⟩ | ⟨-, e⟩ | ⟨i, u, hT, ht, -, e⟩ <;> rw [e] at he
  · rw [fatal_outcome h2] at he
    exact .inl ⟨_, _, .inr rfl, .inl rfl, by cases he; rfl⟩
  · rw [fatal_outcome (s := popState s.cur s) h2] at he
    exact .inl ⟨_, _, .inr rfl, .inr rfl, by cases he; rfl⟩
  · rw [fatal_outcome (s := popState s.cur s) h1] at he
    exact .inl ⟨_, _, .inl rfl, .inr rfl, by cases he; rfl⟩
  · have hkeep := hT.firingOnly
    exact .inr ⟨i, u, hT, by rw [hkeep.cfg, hkeep.cur]; exact ht, he⟩

/-- Taking atoms leaves the other channels. -/
theorem taken_others {s u : State} (hT : Taken s.cur s u) :
    ∃ w, u = s.withQ (s.q.set s.cur w) := by
  obtain ⟨w, rfl, -⟩ := hT.eq
  exact ⟨w, rfl⟩

/-- A pass lowers no fault, and raises none but the two fatal ones (R135, R136, R180). -/
theorem firingPass_faults {s t : State} (h1 : (s.cfg.handlerOf .swSyntax).raised.plain = true)
    (h2 : (s.cfg.handlerOf .swUnderflow).raised.plain = true) (he : firingPass s = .next t) :
    (∀ k, faultIsSet s k = true → faultIsSet t k = true) ∧
      ∀ k, isFatalKind k = false → faultIsSet t k = faultIsSet s k := by
  obtain ⟨k, u, hk, hu, rfl⟩ | ⟨i, u, hT, ht, ex⟩ := firingPass_ends h1 h2 he
  · have hbits : ∀ j, faultIsSet u j = faultIsSet s j := by
      rcases hu with rfl | rfl <;> exact fun j => rfl
    have hfatal : isFatalKind k = true := by rcases hk with rfl | rfl <;> rfl
    refine ⟨fun j hj => ?_, fun j hj => ?_⟩
    · rw [Quiet.fatal_bits, hbits, hj, Bool.or_true]
    · have hne : j ≠ k := fun e => by rw [e, hfatal] at hj; cases hj
      simp [hbits, hne]
  · obtain ⟨w, rfl⟩ := taken_others hT
    obtain ⟨-, -, -, -, hfaults, -⟩ := exec_keeps ht ex
    have hbits : ∀ j, faultIsSet t j = faultIsSet s j := fun j => by
      rw [faultIsSet_eq, hfaults]
      rfl
    exact ⟨fun j hj => (hbits j).trans hj, fun j _ => hbits j⟩

/-- Settles O18: a fatal pass writes none of these, and an instruction writes its own channel. -/
theorem firingTouchesOnlyItsChannel : Obligations.FiringTouchesOnlyItsChannel := by
  intro s t hp h1 h2 he
  rw [step_firing (ok_of_step he) hp] at he
  obtain ⟨k, u, hk, hu, rfl⟩ | ⟨i, u, hT, ht, ex⟩ :=
    firingPass_ends (by rw [h1]; rfl) (by rw [h2]; rfl) he
  · have hdone : (u.cfg.handlerOf k).raised = .done := by
      have hcfg : u.cfg = s.cfg := by rcases hu with rfl | rfl <;> rfl
      rw [hcfg]
      rcases hk with rfl | rfl <;> assumption
    rw [Quiet.fatal_frame hdone]
    rcases hu with rfl | rfl
    · exact ⟨fun _ _ => ⟨rfl, rfl⟩, fun _ _ => ⟨rfl, rfl⟩, fun _ => ⟨rfl, rfl, rfl, rfl, rfl⟩⟩
    · exact ⟨fun c hc => ⟨PerChan.get_set_other _ _ hc, rfl⟩, fun _ _ => ⟨rfl, rfl⟩,
        fun _ => ⟨rfl, rfl, rfl, rfl, rfl⟩⟩
  · obtain ⟨w, rfl⟩ := taken_others hT
    obtain ⟨-, -, -, -, -, -, -, -, hothers, haxes, hlaser⟩ := exec_keeps ht ex
    refine ⟨fun c hc => ?_, haxes, hlaser⟩
    obtain ⟨hq, htm⟩ := hothers c hc
    exact ⟨hq.trans (PerChan.get_set_other _ _ hc), htm⟩

/-- Settles O19: a fatal pass writes its fault bit alone, and an instruction none of these. -/
theorem firingLeavesTheSafetyLayer : Obligations.FiringLeavesTheSafetyLayer := by
  intro s t hp h1 h2 he
  rw [step_firing (ok_of_step he) hp] at he
  have hplain1 : (s.cfg.handlerOf .swSyntax).raised.plain = true := by rw [h1]; rfl
  have hplain2 : (s.cfg.handlerOf .swUnderflow).raised.plain = true := by rw [h2]; rfl
  have hgates : t.moveOk = s.moveOk ∧ t.mainOk = s.mainOk ∧ t.visOk = s.visOk := by
    obtain ⟨k, u, hk, hu, rfl⟩ | ⟨i, u, hT, ht, ex⟩ := firingPass_ends hplain1 hplain2 he
    · have hdone : (u.cfg.handlerOf k).raised = .done := by
        have hcfg : u.cfg = s.cfg := by rcases hu with rfl | rfl <;> rfl
        rw [hcfg]
        rcases hk with rfl | rfl <;> assumption
      rw [Quiet.fatal_frame hdone]
      rcases hu with rfl | rfl <;> exact ⟨rfl, rfl, rfl⟩
    · obtain ⟨w, rfl⟩ := taken_others hT
      obtain ⟨-, hmove, hmain, hvis, -⟩ := exec_keeps ht ex
      exact ⟨hmove, hmain, hvis⟩
  have hkeep := firingPass_keeps hplain1 hplain2 he
  obtain ⟨hset, hothers⟩ := firingPass_faults hplain1 hplain2 he
  exact ⟨hkeep.stopDown, hkeep.lidOpen, hgates.1, hgates.2.1, hgates.2.2, hkeep.laserSel,
    hkeep.faultOvr, hkeep.dbPending, hkeep.dbCnt, hset, hothers⟩

/-! ### The emergency stop of a switch that is down -/

/-- A stop switch that is down has its fault set (R246). -/
def StopHeld (s : State) : Prop := s.stopDown = true → faultIsSet s .estop = true

theorem StopHeld.congr {s t : State} (h : StopHeld s) (hd : t.stopDown = s.stopDown)
    (hf : faultIsSet s .estop = true → faultIsSet t .estop = true) : StopHeld t :=
  fun e => hf (h (hd.symm.trans e))

/-- After `update_safety` the stop switch has its fault set (R245). -/
theorem stopHeld_updateSafety (s : State) : StopHeld (Quiet.updateSafety s) := by
  intro hd
  rw [Quiet.updateSafety_stopDown] at hd
  simp [hd]

/-- Lowering `F_ESTOP` looks at the switch again, and lowering another fault leaves `F_ESTOP` (R253). -/
theorem stopHeld_lowerFault {s : State} (hset : (s.cfg.handlerOf .estop).lowered.settles = true)
    (h : StopHeld s) (k : FaultKind) : StopHeld (Quiet.lowerFault k s) := by
  unfold Quiet.lowerFault
  split
  · split
    · exact stopHeld_updateSafety _
    · next hns =>
      have hne : FaultKind.estop ≠ k := fun e => hns (e ▸ hset)
      exact h.congr (Quiet.clearFault_stopDown ..) fun e => by simp [e, hne]
  · exact h

/-- A host operation keeps the stop switch's fault set (R246, R253). -/
theorem stopHeld_hostDoes {op : HostOp} {s t : State} (hd : HostDoes op s t)
    (hset : (s.cfg.handlerOf .estop).lowered.settles = true) (h : StopHeld s) : StopHeld t := by
  cases hd with
  | same => exact h
  | raised k => exact h.congr (Quiet.raiseFault_stopDown ..) fun e => by simp [e]
  | lowered k => exact stopHeld_lowerFault hset h k
  | halts => exact h.congr (Quiet.fatal_stopDown ..) fun e => by simp [e]
  | queued => exact h
  | started => exact h
  | stopped => exact h
  | settled => exact stopHeld_updateSafety _
  | selected => exact stopHeld_updateSafety _
  | overridden => exact stopHeld_updateSafety _
  | reset => exact stopHeld_updateSafety _

/-- The debouncer commits a switch and looks at it in the same tick (R257). -/
theorem stopHeld_debounceTick {s : State} (h : StopHeld s) : StopHeld (Quiet.debounceTick s) := by
  rcases Quiet.debounceTick_cases s with ⟨-, -, e⟩ | ⟨-, -, e⟩ | ⟨-, -, e⟩ | ⟨-, -, e⟩ <;> rw [e]
  · exact h
  · exact h
  · exact h
  · exact stopHeld_updateSafety _

theorem stopHeld_step {s t : State} (h : Inv s)
    (hset : (s.cfg.handlerOf .estop).lowered.settles = true) (hs : StopHeld s)
    (he : step s = .next t) : StopHeld t := by
  have hnext : StopHeld (nextEvent s).2 := by rw [nextEvent_block s]; exact hs
  have hset' : ((nextEvent s).2.cfg.handlerOf .estop).lowered.settles = true := by
    rw [nextEvent_block s]; exact hset
  cases hp : s.phase with
  | idle =>
    obtain ⟨order, -, e⟩ | ⟨g, op, u, r, hev, hd, e⟩ | ⟨sig, v, -, e⟩ | ⟨i, -, e⟩ :=
      step_idle_cases h hp
    · cases e.symm.trans he
      obtain ⟨hstop, -, hfaults⟩ := beginTick_switches order (nextEvent s).2
      exact hnext.congr hstop fun hf => by rw [faultIsSet_eq, hfaults]; exact hf
    · cases e.symm.trans he
      exact (stopHeld_hostDoes hd hset' hnext).congr rfl id
    · cases e.symm.trans he
      exact hnext
    · cases e.symm.trans he
  | between =>
    rw [step_between h.config hp] at he
    obtain ⟨-, e⟩ | ⟨c, rest, -, e⟩ := nextFiring_cases h.handlers
    · cases e.symm.trans he
      exact stopHeld_debounceTick hs
    · cases e.symm.trans he
      rw [enterFiring_eq]
      exact hs
  | firing =>
    rw [step_firing h.config hp] at he
    have hr := Config.regular_raised h.handlers
    exact hs.congr (firingPass_keeps (hr _) (hr _) he).stopDown
      ((firingPass_faults (hr _) (hr _) he).1 .estop)

/-- With `F_ESTOP` set every gate is shut (R242, R244). -/
theorem gates_shut {s : State} (h : GatesOk s) (he : faultIsSet s .estop = true) :
    s.moveOk = false ∧ s.mainOk = false ∧ s.visOk = false := by
  obtain ⟨hmove, hmain, hvis⟩ := h
  rw [hmove, hmain, hvis, gateMove, gateMain, gateVis, he]
  exact ⟨rfl, rfl, rfl⟩

/-- Settles O55: the step keeps the fault of the switch, and the invariants give the gates. -/
theorem stopSwitchHoldsTheEmergencyStop : Obligations.StopSwitchHoldsTheEmergencyStop := by
  intro s t h hset hs he hdown
  have hestop := stopHeld_step h hset hs he hdown
  exact ⟨hestop, gates_shut (stepKeepsInvariants s t h he).core.gates hestop⟩

end Sys2Proof.Proofs
end

section
/-! PROOFS. Time: the three parts of a tick (44_engine_ops.md R211), the period of a timer, the
debouncer (45_safety_fault_ops.md R257), and that the machine's passes make up the one-function tick. -/

namespace Sys2Proof.Proofs

open Sys2Proof Sys2Proof.Machine

/-! ### The beginning of a tick -/

/-- Part 1 of a tick, field by field (R211). -/
theorem beginTick_frame {s : State} (hlive : s.halted = false) (order : List Channel) :
    beginTick order s =
      { s with
        tmr := PerChan.ofFn fun c => advanceTimer (s.tmr.get c),
        pending := arrange order (overflowed s), phase := .between } := beginTick_eq hlive order

theorem beginTick_tmr {s : State} (hlive : s.halted = false) (order : List Channel) (c : Channel) :
    (beginTick order s).tmr.get c = advanceTimer (s.tmr.get c) := by
  rw [beginTick_frame hlive]
  exact PerChan.get_ofFn ..

theorem mem_beginTick_pending {s : State} (hlive : s.halted = false) (order : List Channel)
    (c : Channel) :
    c ∈ (beginTick order s).pending ↔
      (s.tmr.get c).on = true ∧ (s.tmr.get c).cnt + 1 = (s.tmr.get c).ivl := by
  rw [beginTick_frame hlive]
  exact (arrange_perm order _).mem_iff.trans (mem_overflowed.trans (overflows_iff _))

theorem advanceTimer_off {t : Timer} (hoff : t.on = false) : advanceTimer t = t :=
  if_neg (by rw [hoff]; exact Bool.false_ne_true)

theorem advanceTimer_counts {t : Timer} (hon : t.on = true) (hne : t.cnt + 1 ≠ t.ivl) :
    advanceTimer t = { t with cnt := t.cnt + 1 } := by
  rw [advanceTimer, if_pos hon, if_neg hne]

theorem advanceTimer_wraps {t : Timer} (hon : t.on = true) (he : t.cnt + 1 = t.ivl) :
    advanceTimer t = { t with cnt := 0 } := by
  rw [advanceTimer, if_pos hon, if_pos he]

/-- A list of four different channels names them all. -/
theorem mem_of_four {order : List Channel} (hn : order.Nodup) (hlen : order.length = 4)
    (c : Channel) : c ∈ order := by
  have hsub : order.Subperm Channel.all := hn.subperm fun d _ => Channel.mem_all d
  have hperm : order.Perm Channel.all := hsub.perm_of_length_le (by rw [hlen]; decide)
  exact hperm.mem_iff.mpr (Channel.mem_all c)

/-- Settles O44: by what a tick does to one timer, and the order as a filter. -/
theorem tickCountsEveryRunningTimer : Obligations.TickCountsEveryRunningTimer := by
  intro s order hlive
  have hmem := mem_beginTick_pending hlive order
  refine ⟨fun c hoff => ?_, fun c hon hne => ?_, fun c hon he => ?_, hmem, ?_, fun hn hlen => ?_, ?_⟩
  · rw [beginTick_tmr hlive, advanceTimer_off hoff]
  · rw [beginTick_tmr hlive, advanceTimer_counts hon hne]
  · rw [beginTick_tmr hlive, advanceTimer_wraps hon he]
  · rw [beginTick_frame hlive]
    exact (arrange_perm order _).nodup_iff.mpr (overflowed_nodup s)
  · have hfilter := pickOrder_filter order (overflowed s) (overflowed_nodup s) hn
      fun c _ => mem_of_four hn hlen c
    rw [beginTick_frame hlive]
    show arrange order (overflowed s) = _
    rw [arrange_eq, hfilter]
    exact List.filter_congr fun c _ =>
      decide_eq_decide.mpr (mem_overflowed.trans (overflows_iff _))
  · rw [beginTick_frame hlive]

/-! ### The period of a timer -/

/-- After `n` ticks below its interval a timer that has just overflowed stands at `n` (R211). -/
theorem iterate_advanceTimer (v : Word) (n : Nat) (hn : n < v.toNat) :
    advanceTimer^[n] { on := true, cnt := 0, ivl := v } =
      { on := true, cnt := BitVec.ofNat 16 n, ivl := v } := by
  induction n with
  | zero => rfl
  | succ n ih =>
    have hne : BitVec.ofNat 16 n + 1 ≠ v := fun e => by
      have := congrArg BitVec.toNat e
      rw [BitVec.toNat_add, BitVec.toNat_ofNat] at this
      have := v.isLt
      simp at *
      omega
    rw [Function.iterate_succ_apply', ih (by omega), advanceTimer_counts rfl hne, BitVec.ofNat_add]
    rfl

/-- Settles O45: by the counter after `n` ticks. -/
theorem periodIsTheInterval : Obligations.PeriodIsTheInterval := by
  intro v n hn
  have hv := v.isLt
  rw [iterate_advanceTimer v n hn, overflows_iff]
  refine ⟨?_, ?_⟩
  · rw [BitVec.toNat_ofNat]
    omega
  · rw [← BitVec.toNat_inj, BitVec.toNat_add, BitVec.toNat_ofNat]
    simp
    omega

/-! ### The overflow of one channel -/

/-- Settles O46: the events are those of the state before the firing. -/
theorem overflowEmitsBeforeTheFiring : Obligations.OverflowEmitsBeforeTheFiring := by
  intro s c rest hok hp hd
  refine ⟨overflowEvents s c, ?_, ?_, ?_⟩
  · rw [step_between hok hp, nextFiring_more hd, enterFiring_eq]
  · rintro b rfl
    simp [overflowEvents]
  · rintro rfl
    simp [overflowEvents, Channel.axis?]

/-! ### The debouncer -/

/-- The end of a tick, when no channel is left to fire, is the debouncer's. -/
theorem step_endTick {s : State} (hok : s.cfg.ok = true) (hp : s.phase = .between)
    (hd : s.pending = []) :
    step s = ((debounceTick s).atEnd fun t => t.withPhase .idle).outcome := by
  rw [step_between hok hp, nextFiring_done hd, endTick]

theorem switchDiffers_iff (s : State) :
    switchDiffers s = true ↔ s.inp.stopRaw ≠ s.stopDown ∨ s.inp.lidRaw ≠ s.lidOpen := by
  simp [switchDiffers]

/-- The armed debouncer does nothing, or freezes (R257). -/
theorem debounceTick_armed {s : State} (hpend : s.dbPending = false) :
    debounceTick s = .on (if switchDiffers s then freezeSwitches s else s) := by
  rw [debounceTick, hpend, if_neg Bool.false_ne_true]
  split <;> rfl

/-- The frozen debouncer counts until its count reaches 0 (R257). -/
theorem debounceTick_counts {s : State} (hpend : s.dbPending = true) (hcnt : 2 ≤ s.dbCnt) :
    debounceTick s = .on (s.withDbCnt (s.dbCnt - 1)) := by
  rw [debounceTick, hpend, if_pos rfl]
  exact if_neg (by rw [State.withDbCnt_dbCnt]; omega)

/-- At a count of 1 the debouncer commits and settles the safety layer (R257). -/
theorem debounceTick_commits {s : State} (hpend : s.dbPending = true) (hcnt : s.dbCnt = 1) :
    debounceTick s = updateSafety (commitSwitches (s.withDbCnt 0)) := by
  rw [debounceTick, hpend, hcnt, if_pos rfl]
  rfl

/-- What a commit leaves (R257): the raw values in the snapshot, the debouncer armed, and with the stop
switch down the emergency stop in force (R246). -/
theorem commit_leaves (s : State) :
    ∃ t, Quiet.updateSafety (commitSwitches (s.withDbCnt 0)) = t ∧ t.stopDown = s.inp.stopRaw ∧
      t.lidOpen = s.inp.lidRaw ∧ t.dbPending = false ∧ StopHeld t ∧ GatesOk t :=
  ⟨_, rfl, Quiet.updateSafety_stopDown _, Quiet.updateSafety_lidOpen _,
    Quiet.updateSafety_dbPending _, stopHeld_updateSafety _, Quiet.updateSafety_gatesOk _⟩

/-- Settles O47: by the cases of the debouncer. -/
theorem debouncerFollowsItsRule : Obligations.DebouncerFollowsItsRule := by
  refine ⟨fun s hok hp hd => ⟨fun hpend h1 h2 => ?_, fun hpend hne => ?_, fun hpend hcnt => ?_⟩,
    fun s hok hp hd hpend hcnt => ⟨?_, fun hr => ?_⟩⟩
  · have hsame : ¬ switchDiffers s = true := by simp [switchDiffers_iff, h1, h2]
    rw [step_endTick hok hp hd, debounceTick_armed hpend, if_neg hsame]
    rfl
  · rw [step_endTick hok hp hd, debounceTick_armed hpend, if_pos ((switchDiffers_iff s).mpr hne)]
    rfl
  · rw [step_endTick hok hp hd, debounceTick_counts hpend hcnt]
    rfl
  · rw [step_endTick hok hp hd, debounceTick_commits hpend hcnt]
    rfl
  · obtain ⟨t, e, hstop, hlid, harmed, hheld, hgates⟩ := commit_leaves s
    rw [step_endTick hok hp hd, debounceTick_commits hpend hcnt,
      updateSafety_regular (s := commitSwitches (s.withDbCnt 0)) hr, e]
    refine ⟨t.withPhase .idle, rfl, hstop, hlid, harmed, rfl, fun hdown => ?_⟩
    have hestop := hheld (hstop.trans hdown)
    exact ⟨hestop, gates_shut hgates hestop⟩

/-! ### The passes make up the tick -/

/-- Parts 2 and 3 of the one-function tick, from the state in which the channels of the list wait. -/
def restOfTick (l : List Channel) (s : State) : Host.Outcome State Fault Refusal :=
  match fireAll l s with
  | .next t => if t.halted then .next t else endTick t
  | .fault r => .fault r
  | .refused r => .refused r

theorem tickAtomic_live {s : State} (hlive : s.halted = false) (order : List Channel) :
    tickAtomic order s = restOfTick (beginTick order s).pending (beginTick order s) := by
  rw [tickAtomic, hlive]
  rfl

theorem tickAtomic_halted {s : State} (hh : s.halted = true) (order : List Channel) :
    tickAtomic order s = .next s := by
  rw [tickAtomic, hh]
  rfl

theorem restOfTick_nil (s : State) :
    restOfTick [] s = if s.halted then .next s else endTick s := rfl

/-- The one-function tick after a channel's firing: over if it halted the block, else it goes on. -/
theorem restOfTick_cons {c : Channel} {rest : List Channel} {s t : State}
    (h : fireLoop 129 (enterFiring c (s.withPending rest)) = .next t) :
    restOfTick (c :: rest) s = if t.halted then .next t else restOfTick rest t := by
  cases ht : t.halted <;> simp [restOfTick, fireAll, h, ht]

/-- From a state between firings the machine's passes lead to where the one-function tick ends, a tick
being in progress until then (R211). -/
theorem restOfTick_run (l : List Channel) {s : State} (h : Inv s) (hp : s.phase = .between)
    (hd : s.pending = l) :
    ∃ k t, restOfTick l s = .next t ∧ t.phase = .idle ∧ BusyRun k s t := by
  have hbusy : s.phase ≠ .idle := by rw [hp]; exact Phase.noConfusion
  induction l generalizing s with
  | nil =>
    have hend : endTick s = .next ((Quiet.debounceTick s).withPhase .idle) :=
      endTick_regular h.handlers
    refine ⟨1, (Quiet.debounceTick s).withPhase .idle, ?_, rfl, .cons hbusy ?_ (.refl _)⟩
    · rw [restOfTick_nil, halted_of_busy h hbusy]
      exact hend
    · rw [step_between h.config hp, nextFiring_done hd, hend]
  | cons c rest ih =>
    have hinv := enterFiring_inv h hp hd
    obtain ⟨k, t, -, hloop, ht, -, hwhere, hmore⟩ := firing_ends 129 hinv rfl
      (Nat.lt_succ_of_le (hinv.countLe _))
    have hstep : step s = .next (enterFiring c (s.withPending rest)) :=
      (step_between h.config hp).trans (nextFiring_more hd)
    cases hh : t.halted
    · obtain ⟨hbetween, hpend⟩ := hwhere.resolve_left (by rw [hh]; exact Bool.false_ne_true)
      obtain ⟨m, u, hrest, hidle, hrun⟩ := ih ht hbetween hpend
        (by rw [hbetween]; exact Phase.noConfusion)
      refine ⟨_, u, ?_, hidle, .cons hbusy hstep (hmore m u hrun)⟩
      rw [restOfTick_cons hloop, hh]
      exact hrest
    · refine ⟨_, t, ?_, ht.haltedIdle hh, .cons hbusy hstep (hmore 0 t (.refl t))⟩
      rw [restOfTick_cons hloop, hh]
      rfl

/-- The steps after the one that begins a tick lead to the state the one-function tick gives, a tick
being in progress until then (R211). -/
theorem tickAtomic_run {s : State} (h : Inv s) (hp : s.phase = .idle) (order : List Channel) :
    ∃ k t, tickAtomic order s = .next t ∧ t.phase = .idle ∧ BusyRun k (beginTick order s) t := by
  cases hh : s.halted
  · rw [tickAtomic_live hh]
    exact restOfTick_run _ (beginTick_inv h order) (by rw [beginTick_frame hh]) rfl
  · rw [tickAtomic_halted hh, beginTick_halted hh]
    exact ⟨0, s, rfl, hp, .refl s⟩

/-- A tick in the script is taken when no tick is in progress. -/
theorem step_tick {s : State} {order : List Channel} {es : List Event} (hok : s.cfg.ok = true)
    (hp : s.phase = .idle) (hs : s.script = .tick order :: es) :
    step s = .next (beginTick order { s with script := es }) := by
  rw [step_idle hok hp, stepEvent, nextEvent, hs, takeEvent_tick]
  rfl

/-- Settles O56: the step that begins the tick, and the passes that make up the rest. -/
theorem stepsRefineTheAtomicTick : Obligations.StepsRefineTheAtomicTick := by
  intro s order es h hp hs
  have hstep := step_tick h.config hp hs
  obtain ⟨k, t, htick, hidle, hrun, hbefore⟩ :=
    tickAtomic_run (inv_outside h s.inp es s.hostResult s.draws) hp order
  refine ⟨k, t, htick, hidle, (run_succ k hstep).trans hrun, fun j hj hjk => ?_⟩
  obtain ⟨i, rfl⟩ := Nat.exists_eq_add_of_le' hj
  obtain ⟨u, hu, hph⟩ := hbefore i (by omega)
  exact ⟨u, (run_succ i hstep).trans hu, hph⟩

end Sys2Proof.Proofs
end

section
/-! PROOFS. Lockstep (44_engine_ops.md R221): the ticks after a start, and two channels with equal
intervals. -/

namespace Sys2Proof.Proofs

open Sys2Proof Sys2Proof.Machine

/-! ### The ticks after a start -/

/-- All four channels run with the counter at `m` and the interval `boot`, none waits to fire, and the
switches are quiet; the tick in progress, if any, is at `ph`. -/
structure Counting (boot : Word) (m : Nat) (ph : Phase) (s : State) : Prop where
  config : s.cfg.ok = true
  phase : s.phase = ph
  nonePending : s.pending = []
  live : s.halted = false
  armed : s.dbPending = false
  quiet : switchDiffers s = false
  running : ∀ c, (s.q.get c).running = true
  timer : ∀ c, s.tmr.get c = { on := true, cnt := BitVec.ofNat 16 m, ivl := boot }

/-- Another script changes nothing of this. -/
theorem Counting.withScript {boot : Word} {m : Nat} {ph : Phase} {s : State}
    (h : Counting boot m ph s) (es : List Event) : Counting boot m ph { s with script := es } :=
  ⟨h.config, h.phase, h.nonePending, h.live, h.armed, h.quiet, h.running, h.timer⟩

/-- Below the interval a tick makes no channel overflow and counts all four (R211). -/
theorem Counting.beginTick {boot : Word} {m : Nat} {s : State} (h : Counting boot m .idle s)
    (hm : m + 1 < boot.toNat) (order : List Channel) :
    Counting boot (m + 1) .between (beginTick order s) ∧
      (beginTick order s).script = s.script := by
  have hne : BitVec.ofNat 16 m + 1 ≠ boot := fun e => by
    have hlt := boot.isLt
    rw [← BitVec.toNat_inj, BitVec.toNat_add, BitVec.toNat_ofNat] at e
    simp at e
    omega
  have hnone : (Machine.beginTick order s).pending = [] := by
    refine List.eq_nil_iff_forall_not_mem.mpr fun c hc => ?_
    have hreached := ((mem_beginTick_pending h.live order c).mp hc).2
    rw [h.timer c] at hreached
    exact hne hreached
  have htimer : ∀ c, (Machine.beginTick order s).tmr.get c =
      { on := true, cnt := BitVec.ofNat 16 (m + 1), ivl := boot } := fun c => by
    rw [beginTick_tmr h.live, h.timer c, advanceTimer_counts rfl hne, BitVec.ofNat_add]
    rfl
  rw [beginTick_frame h.live] at hnone htimer ⊢
  exact ⟨⟨h.config, rfl, hnone, h.live, h.armed, h.quiet, h.running, htimer⟩, rfl⟩

/-- With no channel to fire and the switches quiet a tick ends at once (R257). -/
theorem Counting.endTick {boot : Word} {m : Nat} {s : State} (h : Counting boot m .between s) :
    ∃ t, step s = .next t ∧ Counting boot m .idle t ∧ t.script = s.script := by
  have hquiet : ¬ switchDiffers s = true := by rw [h.quiet]; exact Bool.false_ne_true
  refine ⟨s.withPhase .idle, ?_, ?_, rfl⟩
  · rw [step_endTick h.config h.phase h.nonePending, debounceTick_armed h.armed, if_neg hquiet]
    rfl
  · exact ⟨h.config, rfl, h.nonePending, h.live, h.armed, h.quiet, h.running, h.timer⟩

/-- As many ticks as fit below the interval leave all four counters at their number (R221). -/
theorem Counting.ticks {boot : Word} (order : List Channel) (es : List Event) (n m : Nat) {s : State}
    (h : Counting boot m .idle s) (hn : m + n < boot.toNat)
    (hs : s.script = List.replicate n (.tick order) ++ es) :
    ∃ t, Sys2Proof.core.run (2 * n) s = .next t ∧ Counting boot (m + n) .idle t ∧
      t.script = es := by
  induction n generalizing m s with
  | zero => exact ⟨s, rfl, h, hs⟩
  | succ n ih =>
    have hstep := step_tick h.config h.phase (hs.trans (by rw [List.replicate_succ, List.cons_append]))
    obtain ⟨hbegun, hscript⟩ := (h.withScript (List.replicate n (.tick order) ++ es)).beginTick
      (by omega) order
    obtain ⟨u, hend, hcount, hscript'⟩ := hbegun.endTick
    obtain ⟨t, hrun, hcounts, hes⟩ := ih (m + 1) hcount (by omega) (hscript'.trans hscript)
    refine ⟨t, ?_, by rwa [Nat.add_assoc, Nat.add_comm 1] at hcounts, hes⟩
    calc Sys2Proof.core.run (2 * n + 1 + 1) s = Sys2Proof.core.run (2 * n + 1) _ := run_succ _ hstep
      _ = Sys2Proof.core.run (2 * n) u := run_succ _ hend
      _ = .next t := hrun

/-- `start_engine` on a stopped engine, as a step of the script (R215). -/
theorem step_startEngine {s : State} {h : Nat} {es : List Event} (hok : s.cfg.ok = true)
    (hp : s.phase = .idle) (hlive : s.halted = false) (hstop : engineState s = .stopped)
    (hs : s.script = .host h .startEngine :: es) :
    step s = .next ((startChannels (s.withScript es)).withHostResult none) := by
  rw [step_idle hok hp, stepEvent, nextEvent, hs, takeEvent_host es (.inl (by decide))]
  exact hostAct_on (s := s.withScript es) hlive (if_pos hstop)

/-- A start without skew sets all four counters to 0 (R215). -/
theorem counting_startChannels {s : State} (hok : s.cfg.ok = true) (hp : s.phase = .idle)
    (hd : s.pending = []) (hlive : s.halted = false) (harmed : s.dbPending = false)
    (hquiet : switchDiffers s = false) (hskew : s.cfg.startSkew = 0) :
    Counting s.cfg.ivlBoot 0 .idle (startChannels s) := by
  refine ⟨hok, hp, hd, hlive, harmed, hquiet, fun c => ?_, fun c => ?_⟩
  · simp [startChannels]
  · simp [startChannels, startCnt, hskew]

/-- Settles O58: the start sets the counters to 0, and each tick counts all four. -/
theorem channelsCountInLockstep : Obligations.ChannelsCountInLockstep := by
  intro s n order es h hp hlive hstop hskew harmed h1 h2 hn hs
  have hquiet : switchDiffers s = false := by
    rw [Bool.eq_false_iff, Ne, switchDiffers_iff]
    simp [h1, h2]
  have hstart := counting_startChannels (s := s.withScript (List.replicate n (.tick order) ++ es))
    h.config hp (h.idleDone hp) hlive harmed hquiet hskew
  have hcount : Counting s.cfg.ivlBoot 0 .idle ((startChannels
      (s.withScript (List.replicate n (.tick order) ++ es))).withHostResult none) :=
    ⟨hstart.config, hstart.phase, hstart.nonePending, hstart.live, hstart.armed, hstart.quiet,
      hstart.running, hstart.timer⟩
  obtain ⟨t, hrun, hend, hes⟩ := hcount.ticks order es n 0 (by omega) rfl
  refine ⟨t, ?_, (engineState_eq_running t).mpr hend.running, hend.phase, hes, fun c => ?_⟩
  · rw [Nat.add_comm]
    exact (run_succ _ (step_startEngine h.config hp hlive hstop hs)).trans hrun
  · have hlt := s.cfg.ivlBoot.isLt
    rw [hend.timer c]
    refine ⟨?_, rfl⟩
    rw [BitVec.toNat_ofNat]
    omega

/-! ### What keeps the counters -/

/-- Every counter is as it was. -/
def CountersKept (s t : State) : Prop := ∀ c, (t.tmr.get c).cnt = (s.tmr.get c).cnt

/-- A safety operation writes no counter (R218). -/
theorem safetyOnly_countersKept {s t : State} (h : SafetyOnly s t) : CountersKept s t := by
  intro c
  obtain ⟨-, e⟩ | ⟨-, e⟩ := h.channels c <;> rw [e]

/-- `update_safety` writes no counter, whatever else was written before it. -/
theorem updateSafety_countersKept {s u : State} (h : u.tmr = s.tmr) :
    CountersKept s (Quiet.updateSafety u) := fun c =>
  (safetyOnly_countersKept (Quiet.updateSafety_safetyOnly u) c).trans (by rw [h])

theorem fatal_countersKept (k : FaultKind) (s : State) : CountersKept s (Quiet.fatal k s) := by
  intro c
  rw [Quiet.fatal_tmr]
  exact (safetyOnly_countersKept (Quiet.raiseFault_safetyOnly k s)) c

/-- No instruction writes a counter (R133, R134). -/
theorem exec_countersKept {i : Instr} {s t : State} (ht : takesInstr s.cfg s.cur i = true)
    (he : exec i s = .next t) : CountersKept s t := by
  obtain ⟨-, -, -, -, -, -, -, -, hothers, -⟩ := exec_keeps ht he
  intro c
  by_cases hc : c = s.cur
  · subst hc
    rcases exec_cases ht with ⟨-, e⟩ | ⟨v, -, e⟩ | ⟨o, -, -, e⟩ | e | ⟨u, hu, e⟩
    · cases e.symm.trans he
      simp [endFiring, stopChannel]
    · cases e.symm.trans he
      simp [endFiring]
    · rw [e, pushBack] at he
      split at he
      · cases he
      · cases he
        rfl
    · cases e.symm.trans he
      rfl
    · cases e.symm.trans he
      unfold outputWrite at hu
      split at hu <;> cases hu <;> rfl
  · rw [(hothers c hc).2]

/-- During a tick no counter is written, once part 1 has counted (R211). -/
theorem busy_countersKept {s t : State} (h : Inv s) (hp : s.phase ≠ .idle)
    (he : step s = .next t) : CountersKept s t := by
  cases hph : s.phase with
  | idle => exact absurd hph hp
  | between =>
    rw [step_between h.config hph] at he
    obtain ⟨-, e⟩ | ⟨c, rest, -, e⟩ := nextFiring_cases h.handlers
    · cases e.symm.trans he
      show CountersKept s (Quiet.debounceTick s)
      rcases Quiet.debounceTick_cases s with ⟨-, -, e⟩ | ⟨-, -, e⟩ | ⟨-, -, e⟩ | ⟨-, -, e⟩ <;> rw [e]
      · exact fun _ => rfl
      · exact fun _ => rfl
      · exact fun _ => rfl
      · exact updateSafety_countersKept rfl
    · cases e.symm.trans he
      rw [enterFiring_eq]
      exact fun _ => rfl
  | firing =>
    rw [step_firing h.config hph] at he
    have hr := Config.regular_raised h.handlers
    obtain ⟨k, u, -, hu, rfl⟩ | ⟨i, u, hT, ht, ex⟩ := firingPass_ends (hr _) (hr _) he
    · have hfatal := fatal_countersKept k u
      rcases hu with rfl | rfl <;> exact hfatal
    · obtain ⟨w, rfl⟩ := taken_others hT
      exact exec_countersKept (s := s.withQ (s.q.set s.cur w)) ht ex

/-- A host operation on an engine that is not stopped writes no counter, but for `reset`, which stops
every timer (R216, R341). -/
theorem hostDoes_counters {op : HostOp} {s t : State} (hd : HostDoes op s t)
    (hrun : engineState s ≠ .stopped) :
    CountersKept s t ∨ t.phase = .idle ∧ ∀ c, (t.tmr.get c).on = false := by
  cases hd with
  | same => exact .inl fun _ => rfl
  | raised k => exact .inl (safetyOnly_countersKept (Quiet.raiseFault_safetyOnly k s))
  | lowered k => exact .inl (safetyOnly_countersKept (Quiet.lowerFault_safetyOnly k s))
  | halts => exact .inl (fatal_countersKept _ s)
  | queued => exact .inl fun _ => rfl
  | started hh he => exact absurd he hrun
  | stopped => exact .inl (safetyOnly_countersKept (stopEngine_safetyOnly s))
  | settled => exact .inl (updateSafety_countersKept rfl)
  | selected v => exact .inl (updateSafety_countersKept rfl)
  | overridden w b => exact .inl (updateSafety_countersKept rfl)
  | reset =>
    refine .inr ⟨Quiet.updateSafety_phase _, fun c => ?_⟩
    obtain ⟨-, e⟩ | ⟨-, e⟩ := (Quiet.updateSafety_safetyOnly (clearBlock s)).channels c <;> rw [e]
    simp [clearBlock, resetTimer]

/-! ### Two channels with equal intervals -/

/-- Two timers that run with equal counters and intervals count alike (R211). -/
theorem advanceTimer_cnt_eq {t u : Timer} (ht : t.on = true) (hu : u.on = true)
    (hcnt : t.cnt = u.cnt) (hivl : t.ivl = u.ivl) :
    (advanceTimer t).cnt = (advanceTimer u).cnt := by
  have hall : t = u := by
    cases t
    cases u
    simp_all
  rw [hall]

/-- A step keeps two counters equal, when their channels run with equal intervals at the start of a
tick, and are not stopped by a `reset` (R221). -/
theorem step_keeps_equal_counters {s t : State} {c d : Channel} (h : Inv s)
    (hcnt : (s.tmr.get c).cnt = (s.tmr.get d).cnt)
    (hruns : s.phase = .idle → (s.tmr.get c).on = true ∧ (s.tmr.get d).on = true ∧
      (s.tmr.get c).ivl = (s.tmr.get d).ivl)
    (hstays : t.phase = .idle → (t.tmr.get c).on = true) (he : step s = .next t) :
    (t.tmr.get c).cnt = (t.tmr.get d).cnt := by
  by_cases hp : s.phase = .idle
  · obtain ⟨hc, hd, hivl⟩ := hruns hp
    have htmr : (nextEvent s).2.tmr = s.tmr := by rw [nextEvent_block s]
    obtain ⟨order, -, e⟩ | ⟨g, op, u, r, -, hdoes, e⟩ | ⟨sig, v, -, e⟩ | ⟨i, -, e⟩ :=
      step_idle_cases h hp
    · cases e.symm.trans he
      cases hh : (nextEvent s).2.halted
      · rw [beginTick_tmr hh, beginTick_tmr hh, htmr]
        exact advanceTimer_cnt_eq hc hd hcnt hivl
      · rw [beginTick_halted hh, htmr]
        exact hcnt
    · cases e.symm.trans he
      have hrun : engineState (nextEvent s).2 ≠ .stopped := fun hstop => by
        have hidle := (engineState_eq_stopped _).mp hstop c
        rw [show (nextEvent s).2.q = s.q by rw [nextEvent_block s], ← h.onRunning, hc] at hidle
        cases hidle
      obtain hkept | ⟨hph, hoff⟩ := hostDoes_counters hdoes hrun
      · have hboth : (u.tmr.get c).cnt = (u.tmr.get d).cnt := by
          rw [hkept, hkept, htmr]
          exact hcnt
        exact hboth
      · exact absurd ((hoff c).symm.trans (hstays hph)) Bool.false_ne_true
    · cases e.symm.trans he
      show ((nextEvent s).2.tmr.get c).cnt = ((nextEvent s).2.tmr.get d).cnt
      rw [htmr]
      exact hcnt
    · cases e.symm.trans he
  · have hkept := busy_countersKept h hp he
    rw [hkept, hkept]
    exact hcnt

/-- Settles O59: by induction on the steps, the invariants beside the equal counters. -/
theorem equalIntervalsKeepLockstep : Obligations.EqualIntervalsKeepLockstep := by
  intro u n c d h0 hp0 hstep hcnt hruns
  have hall : ∀ k, k ≤ n → Inv (u k) ∧ ((u k).tmr.get c).cnt = ((u k).tmr.get d).cnt := by
    intro k
    induction k with
    | zero => exact fun _ => ⟨h0, hcnt⟩
    | succ k ih =>
      intro hk
      obtain ⟨hinv, heq⟩ := ih (by omega)
      have he := hstep k hk
      exact ⟨stepKeepsInvariants _ _ hinv he, step_keeps_equal_counters hinv heq
        (hruns k (by omega)) (fun hph => (hruns (k + 1) hk hph).1) he⟩
  intro k hk hp
  obtain ⟨hinv, heq⟩ := hall k hk
  obtain ⟨hc, hd, hivl⟩ := hruns k hk hp
  refine ⟨heq, fun order => ?_⟩
  cases hh : (u k).halted
  · rw [mem_beginTick_pending hh, mem_beginTick_pending hh, hc, hd, heq, hivl]
  · rw [beginTick_halted hh, hinv.idleDone hp]
    simp

end Sys2Proof.Proofs
end

section
/-! PROOFS. The order of the firings in a tick (44_engine_ops.md R213): a firing reads and writes what is
its channel's own and reads what the channels share, so firings of different channels commute but for
the order of their events. -/

namespace Sys2Proof.Proofs

open Sys2Proof Sys2Proof.Machine

/-! ### What is a channel's own, and what the channels share -/

/-- What is channel `c`'s own is the same in both states: its queue and timer, and the registers of its
axis or those of the lasers (R78, R315). -/
structure OwnEq (c : Channel) (s t : State) : Prop where
  q : t.q.get c = s.q.get c
  tmr : t.tmr.get c = s.tmr.get c
  dir : ∀ a, c = Axis.channel a → t.dir.get a = s.dir.get a
  stepEn : ∀ a, c = Axis.channel a → t.stepEn.get a = s.stepEn.get a
  laser : c = .l → t.mainMode = s.mainMode ∧ t.visMode = s.visMode ∧
    t.mainPulseDur = s.mainPulseDur ∧ t.visPulseDur = s.visPulseDur ∧ t.mainPower = s.mainPower

theorem OwnEq.refl (c : Channel) (s : State) : OwnEq c s s :=
  ⟨rfl, rfl, fun _ _ => rfl, fun _ _ => rfl, fun _ => ⟨rfl, rfl, rfl, rfl, rfl⟩⟩

theorem OwnEq.symm {c : Channel} {s t : State} (h : OwnEq c s t) : OwnEq c t s := by
  refine ⟨h.q.symm, h.tmr.symm, fun a e => (h.dir a e).symm, fun a e => (h.stepEn a e).symm,
    fun e => ?_⟩
  obtain ⟨h1, h2, h3, h4, h5⟩ := h.laser e
  exact ⟨h1.symm, h2.symm, h3.symm, h4.symm, h5.symm⟩

theorem OwnEq.trans {c : Channel} {s t u : State} (h : OwnEq c s t) (k : OwnEq c t u) :
    OwnEq c s u := by
  refine ⟨k.q.trans h.q, k.tmr.trans h.tmr, fun a e => (k.dir a e).trans (h.dir a e),
    fun a e => (k.stepEn a e).trans (h.stepEn a e), fun e => ?_⟩
  obtain ⟨h1, h2, h3, h4, h5⟩ := h.laser e
  obtain ⟨k1, k2, k3, k4, k5⟩ := k.laser e
  exact ⟨k1.trans h1, k2.trans h2, k3.trans h3, k4.trans h4, k5.trans h5⟩

/-- What the channels share (R315), with what is some channel's own, the emitted events and the
progress of the tick put to fixed values. -/
def shared (s : State) : State :=
  { s with
    q := State.reset.q, tmr := State.reset.tmr, dir := State.reset.dir, stepEn := State.reset.stepEn,
    mainMode := .off, visMode := .off, mainPulseDur := 0, visPulseDur := 0, mainPower := 0,
    phase := .idle, cur := .x, pending := [], events := [] }

theorem shared_cfg {s t : State} (h : shared t = shared s) : t.cfg = s.cfg := by
  show (shared t).cfg = (shared s).cfg
  rw [h]

theorem shared_inp {s t : State} (h : shared t = shared s) : t.inp = s.inp := by
  show (shared t).inp = (shared s).inp
  rw [h]

theorem shared_halted {s t : State} (h : shared t = shared s) : t.halted = s.halted := by
  show (shared t).halted = (shared s).halted
  rw [h]


/-- A state is what its channels share and what is each channel's own. -/
theorem eq_of_own_of_shared {s t : State} (hown : ∀ c, OwnEq c s t) (hshared : shared t = shared s) :
    t = { s with phase := t.phase, cur := t.cur, pending := t.pending, events := t.events } := by
  have hq : t.q = s.q := PerChan.ext_get fun c => (hown c).q
  have htmr : t.tmr = s.tmr := PerChan.ext_get fun c => (hown c).tmr
  have hdir : t.dir = s.dir := PerAxis.ext_get fun a => (hown a.channel).dir a rfl
  have hstep : t.stepEn = s.stepEn := PerAxis.ext_get fun a => (hown a.channel).stepEn a rfl
  obtain ⟨h1, h2, h3, h4, h5⟩ := (hown .l).laser rfl
  cases s
  cases t
  simp_all [shared]

/-! ### A pass stays within its channel -/

/-- A pass of the running channel that is not fatal writes what is that channel's own, and the progress
of the tick (R78, R137). -/
structure Confined (s t : State) : Prop where
  shared : shared t = shared s
  cur : t.cur = s.cur
  pending : t.pending = s.pending
  events : t.events = s.events
  others : ∀ d, d ≠ s.cur → OwnEq d s t

theorem Confined.trans {s t u : State} (h : Confined s t) (k : Confined t u) : Confined s u :=
  ⟨k.shared.trans h.shared, k.cur.trans h.cur, k.pending.trans h.pending, k.events.trans h.events,
    fun d hd => (h.others d hd).trans (k.others d (h.cur ▸ hd))⟩

theorem exec_confined {i : Instr} {s t : State} (ht : takesInstr s.cfg s.cur i = true)
    (he : exec i s = .next t) : Confined s t := by
  obtain ⟨hframe, hmove, hmain, hvis, hfaults, halert, hhalted, hpending, hothers, haxes, hlaser⟩ :=
    exec_keeps ht he
  refine ⟨?_, hframe.cur, hpending, hframe.events, fun d hd => ?_⟩
  · simp only [Proofs.shared, hframe.cfg, hframe.stopDown, hframe.lidOpen, hmove, hmain, hvis,
      hframe.laserSel, hframe.dbPending, hframe.dbCnt, hfaults, hframe.faultOvr, halert, hhalted,
      hframe.inp, hframe.script, hframe.hostResult, hframe.draws]
  · exact ⟨(hothers d hd).1, (hothers d hd).2, fun a e => (haxes a (e ▸ hd)).1,
      fun a e => (haxes a (e ▸ hd)).2, fun e => hlaser fun hcur => hd (e.trans hcur.symm)⟩

theorem taken_confined {s t : State} (hT : Taken s.cur s t) : Confined s t := by
  obtain ⟨w, rfl⟩ := taken_others hT
  exact ⟨rfl, rfl, rfl, rfl, fun d hd => ⟨PerChan.get_set_other _ _ hd, rfl, fun _ _ => rfl,
    fun _ _ => rfl, fun _ => ⟨rfl, rfl, rfl, rfl, rfl⟩⟩⟩

/-- A pass was not fatal: the firing goes on or the block is not halted. -/
def NotFatal (t : State) : Prop := t.phase = .firing ∨ t.halted = false

theorem not_notFatal_fatal (k : FaultKind) (u : State) : ¬ NotFatal (Quiet.fatal k u) := by
  simp [NotFatal]

theorem firingPass_confined {s t : State} (hr : s.cfg.handlersRegular = true)
    (he : firingPass s = .next t) (hlive : NotFatal t) : Confined s t := by
  have hplain := Config.regular_raised hr
  obtain ⟨k, u, -, -, rfl⟩ | ⟨i, u, hT, ht, ex⟩ := firingPass_ends (hplain _) (hplain _) he
  · exact absurd hlive (not_notFatal_fatal k u)
  · exact (taken_confined hT).trans (exec_confined ht ex)

/-- What the bounded loop of a firing does first (R131). -/
theorem fireLoop_succ {n : Nat} {s t : State} (he : fireLoop (n + 1) s = .next t) :
    ∃ u, firingPass s = .next u ∧
      (u.phase = .firing ∧ fireLoop n u = .next t ∨ u.phase ≠ .firing ∧ t = u) := by
  rw [fireLoop] at he
  cases hp : firingPass s with
  | next u =>
    rw [hp] at he
    by_cases hf : u.phase = .firing
    · exact ⟨u, rfl, .inl ⟨hf, (if_pos hf).symm.trans he⟩⟩
    · cases (if_neg hf).symm.trans he
      exact ⟨_, rfl, .inr ⟨hf, rfl⟩⟩
  | fault r => rw [hp] at he; cases he
  | refused r => rw [hp] at he; cases he

theorem fireLoop_confined (n : Nat) {s t : State} (hr : s.cfg.handlersRegular = true)
    (he : fireLoop n s = .next t) (hlive : t.halted = false) : Confined s t := by
  induction n generalizing s with
  | zero =>
    cases he
    exact ⟨rfl, rfl, rfl, rfl, fun d _ => .refl d _⟩
  | succ n ih =>
    obtain ⟨u, hpass, ⟨hf, hloop⟩ | ⟨-, rfl⟩⟩ := fireLoop_succ he
    · have hu := firingPass_confined hr hpass (.inl hf)
      exact hu.trans (ih (by rw [shared_cfg hu.shared]; exact hr) hloop)
    · exact firingPass_confined hr hpass (.inr hlive)

/-! ### A pass looks at its channel only -/

/-- Two states in a firing of channel `c` that agree on all that the firing looks at. -/
structure SamePass (c : Channel) (s t : State) : Prop where
  own : OwnEq c s t
  shared : shared t = shared s
  curLeft : s.cur = c
  curRight : t.cur = c
  phase : t.phase = s.phase

theorem onAxis_axis {s : State} {a : Axis} (h : s.cur = a.channel)
    (f : Axis → Host.Outcome State Fault Refusal) : onAxis f s = f a := by
  rw [onAxis, h, Axis.axis_channel]

theorem onLaser_laser {s : State} (h : s.cur = .l) (f : State → State) :
    onLaser f s = .next (f s) := by
  rw [onLaser, h]
  rfl

/-- An instruction that reads or writes an axis is taken on its motor channel. -/
theorem axis_of_takes {cfg : Config} {c : Channel} {i : Instr} (ht : takesInstr cfg c i = true)
    (hl : takesInstr cfg .l i = false) : ∃ a, c = Axis.channel a := by
  cases h : c.axis? with
  | some a => exact ⟨a, Channel.axis_eq_some.mp h⟩
  | none =>
    rw [Channel.axis_eq_none.mp h, hl] at ht
    cases ht

theorem SamePass.withDir {a : Axis} {s t : State} (h : SamePass a.channel s t) (v : Dir) :
    SamePass a.channel (s.withDir (s.dir.set a v)) (t.withDir (t.dir.set a v)) := by
  refine ⟨⟨h.own.q, h.own.tmr, fun b e => ?_, h.own.stepEn, h.own.laser⟩, h.shared, h.curLeft,
    h.curRight, h.phase⟩
  obtain rfl := Axis.channel_injective e
  simp

theorem SamePass.withStepEn {a : Axis} {s t : State} (h : SamePass a.channel s t) (v : Bool) :
    SamePass a.channel (s.withStepEn (s.stepEn.set a v)) (t.withStepEn (t.stepEn.set a v)) := by
  refine ⟨⟨h.own.q, h.own.tmr, h.own.dir, fun b e => ?_, h.own.laser⟩, h.shared, h.curLeft,
    h.curRight, h.phase⟩
  obtain rfl := Axis.channel_injective e
  simp

theorem SamePass.withQueue {c : Channel} {s t : State} (h : SamePass c s t) (u : Queue) :
    SamePass c (s.withQ (s.q.set c u)) (t.withQ (t.q.set c u)) :=
  ⟨⟨by simp, h.own.tmr, h.own.dir, h.own.stepEn, h.own.laser⟩, h.shared, h.curLeft, h.curRight,
    h.phase⟩

theorem SamePass.withTimer {c : Channel} {s t : State} (h : SamePass c s t) (u : Timer) :
    SamePass c (s.withTmr (s.tmr.set c u)) (t.withTmr (t.tmr.set c u)) :=
  ⟨⟨h.own.q, by simp, h.own.dir, h.own.stepEn, h.own.laser⟩, h.shared, h.curLeft, h.curRight,
    h.phase⟩

theorem SamePass.endFiring {c : Channel} {s t : State} (h : SamePass c s t) :
    SamePass c (endFiring s) (endFiring t) :=
  ⟨⟨h.own.q, h.own.tmr, h.own.dir, h.own.stepEn, h.own.laser⟩, h.shared, h.curLeft, h.curRight, rfl⟩

/-- A push-back on two states alike ends alike (R156, R195). -/
theorem pushBack_samePass {c : Channel} {a : Word} {s s' t : State} (h : SamePass c s s')
    (he : pushBack c a s = .next t) : ∃ t', pushBack c a s' = .next t' ∧ SamePass c t t' := by
  unfold pushBack at he ⊢
  rw [h.own.q]
  split at he
  · cases he
  · next hroom =>
    cases he
    exact ⟨_, if_neg hroom, (h.withQueue _).endFiring⟩

/-- A loop atom on two states alike does the same (R156). -/
theorem pollAtom_samePass {o : Opcode} {has : PerAxis Bool} {ex ex' : Axis → Bool} {a : Axis}
    {s s' t : State} (h : SamePass a.channel s s') (hex : ex' = ex) (hhas : has.get a = true)
    (he : pollAtom o has ex s = .next t) :
    ∃ t', pollAtom o has ex' s' = .next t' ∧ SamePass a.channel t t' := by
  unfold pollAtom at he ⊢
  rw [onAxis_axis h.curLeft, hhas, if_pos rfl] at he
  rw [onAxis_axis h.curRight, hhas, if_pos rfl, hex]
  split at he
  · next hexit =>
    cases he
    exact ⟨s', if_pos hexit, h⟩
  · next hexit =>
    rw [h.curLeft, ← shared_cfg h.shared] at he
    rw [if_neg hexit, h.curRight]
    exact pushBack_samePass h he

/-- An instruction on two states alike does the same (R137). -/
theorem exec_samePass {c : Channel} {i : Instr} {s s' t : State} (h : SamePass c s s')
    (ht : takesInstr s.cfg c i = true) (he : exec i s = .next t) :
    ∃ t', exec i s' = .next t' ∧ SamePass c t t' := by
  have hcfg := shared_cfg h.shared
  have hinp := shared_inp h.shared
  cases i
  case stop =>
    cases he
    refine ⟨_, rfl, ?_⟩
    have hstop := ((h.withTimer { s.tmr.get c with on := false }).withQueue
      { s.q.get c with running := false }).endFiring
    rw [stopChannel, stopChannel, h.curLeft, h.curRight, h.own.tmr, h.own.q]
    exact hstop
  case ivl v =>
    cases he
    refine ⟨_, rfl, ?_⟩
    rw [h.curLeft, h.curRight, h.own.tmr]
    exact (h.withTimer _).endFiring
  case dirPositive =>
    obtain ⟨a, rfl⟩ := axis_of_takes ht rfl
    cases (onAxis_axis h.curLeft _).symm.trans he
    exact ⟨_, onAxis_axis h.curRight _, h.withDir _⟩
  case dirNegative =>
    obtain ⟨a, rfl⟩ := axis_of_takes ht rfl
    cases (onAxis_axis h.curLeft _).symm.trans he
    exact ⟨_, onAxis_axis h.curRight _, h.withDir _⟩
  case enablePin =>
    obtain ⟨a, rfl⟩ := axis_of_takes ht rfl
    cases (onAxis_axis h.curLeft _).symm.trans he
    exact ⟨_, onAxis_axis h.curRight _, h.withStepEn _⟩
  case disablePin =>
    obtain ⟨a, rfl⟩ := axis_of_takes ht rfl
    cases (onAxis_axis h.curLeft _).symm.trans he
    exact ⟨_, onAxis_axis h.curRight _, h.withStepEn _⟩
  case loopUntilMin =>
    obtain ⟨a, rfl⟩ := axis_of_takes ht rfl
    have hhas : s.cfg.hasMin.get a = true := by simpa [takesInstr, opcodeOfInstr, takes] using ht
    simp only [exec, execLoopUntilMin, hcfg, hinp] at he ⊢
    exact pollAtom_samePass h rfl hhas he
  case loopWhileMin =>
    obtain ⟨a, rfl⟩ := axis_of_takes ht rfl
    have hhas : s.cfg.hasMin.get a = true := by simpa [takesInstr, opcodeOfInstr, takes] using ht
    simp only [exec, execLoopWhileMin, hcfg, hinp] at he ⊢
    exact pollAtom_samePass h rfl hhas he
  case loopUntilMax =>
    obtain ⟨a, rfl⟩ := axis_of_takes ht rfl
    have hhas : s.cfg.hasMax.get a = true := by simpa [takesInstr, opcodeOfInstr, takes] using ht
    simp only [exec, execLoopUntilMax, hcfg, hinp] at he ⊢
    exact pollAtom_samePass h rfl hhas he
  case loopWhileMax =>
    obtain ⟨a, rfl⟩ := axis_of_takes ht rfl
    have hhas : s.cfg.hasMax.get a = true := by simpa [takesInstr, opcodeOfInstr, takes] using ht
    simp only [exec, execLoopWhileMax, hcfg, hinp] at he ⊢
    exact pollAtom_samePass h rfl hhas he
  all_goals
    have hc : c = .l := by
      cases hax : c.axis? with
      | none => exact Channel.axis_eq_none.mp hax
      | some a => simp [takesInstr, opcodeOfInstr, takes, hax] at ht
    subst hc
    obtain ⟨h1, h2, h3, h4, h5⟩ := h.own.laser rfl
    simp only [exec, execSetMainModeOff, execSetMainModePulsed, execSetMainModeContinuous,
      execSetVisibleModeOff, execSetVisibleModePulsed, execSetVisibleModeContinuous,
      execSetMainPulseDuration, execSetVisiblePulseDuration, execSetMainPowerLevel,
      onLaser_laser h.curLeft, onLaser_laser h.curRight, Host.Outcome.next.injEq] at he ⊢
    subst he
    refine ⟨_, rfl, ?_⟩
    exact ⟨⟨h.own.q, h.own.tmr, h.own.dir, h.own.stepEn, fun _ => by simp [*]⟩, h.shared, h.curLeft,
      h.curRight, h.phase⟩

end Sys2Proof.Proofs
end

section
/-! PROOFS. The firings of a tick (44_engine_ops.md R213): each is the firing its channel would have
alone, so that the order shows in the events and in a fatal fault only. -/

namespace Sys2Proof.Proofs

open Sys2Proof Sys2Proof.Machine

/-! ### A firing looks at its channel only -/

/-- A dequeue on two states alike gives the same atom (R193). -/
theorem dequeue_samePass {c : Channel} {a : Word} {s s' u : State} (h : SamePass c s s')
    (he : dequeue c s = some (a, u)) : ∃ u', dequeue c s' = some (a, u') ∧ SamePass c u u' := by
  obtain ⟨hc, rfl, rfl⟩ := dequeue_eq_some he
  rw [← h.own.q] at hc ⊢
  exact ⟨_, dequeue_some hc, h.withQueue _⟩

/-- A fetch on two states alike gives the same instruction (R131, R179). -/
theorem fetchInstr_samePass {c : Channel} {i : Instr} {s s' u : State} (h : SamePass c s s')
    (he : fetchInstr c s = .instr i u) :
    ∃ u', fetchInstr c s' = .instr i u' ∧ SamePass c u u' := by
  unfold fetchInstr at he ⊢
  cases hd : dequeue c s with
  | none => rw [hd] at he; cases he
  | some p =>
    obtain ⟨a, v⟩ := p
    obtain ⟨v', hd', hv⟩ := dequeue_samePass h hd
    simp only [hd, hd', shared_cfg hv.shared] at he ⊢
    cases hdec : decodeAt v.cfg c a with
    | illegal => simp only [hdec] at he; cases he
    | literal w =>
      simp only [hdec] at he ⊢
      cases he
      exact ⟨v', rfl, hv⟩
    | op o =>
      simp only [hdec, fetchOperand] at he ⊢
      cases ho : hasOperand o
      · simp only [ho, Bool.false_eq_true, if_false] at he ⊢
        cases he
        exact ⟨v', rfl, hv⟩
      · simp only [ho, if_true] at he ⊢
        cases hn : dequeue c v with
        | none => rw [hn] at he; cases he
        | some p =>
          obtain ⟨n, w⟩ := p
          obtain ⟨w', hn', hw⟩ := dequeue_samePass hv hn
          simp only [hn, hn'] at he ⊢
          cases he
          exact ⟨w', rfl, hw⟩

/-- What is fetched is an instruction the channel takes (R105). -/
theorem takes_of_fetchInstr {c : Channel} {i : Instr} {s u : State}
    (he : fetchInstr c s = .instr i u) : takesInstr u.cfg c i = true := by
  obtain ⟨-, e⟩ | ⟨-, e⟩ | ⟨-, e⟩ | ⟨j, -, ht, -, e⟩ | ⟨j, -, ht, -, e⟩ := fetchInstr_cases c s <;>
    cases e.symm.trans he <;> exact ht

/-- A pass on two states alike does the same, unless it is fatal (R131). -/
theorem firingPass_samePass {c : Channel} {s s' t : State} (h : SamePass c s s')
    (hr : s.cfg.handlersRegular = true) (he : firingPass s = .next t) (hlive : NotFatal t) :
    ∃ t', firingPass s' = .next t' ∧ SamePass c t t' := by
  have hplain := Config.regular_raised hr
  unfold firingPass at he ⊢
  rw [h.curLeft] at he
  rw [h.curRight]
  have not_fatal : ∀ {u : State} {k : FaultKind}, u.cfg = s.cfg →
      (fatal k u).outcome = .next t → False := fun hcfg e => by
    rw [fatal_outcome (by rw [hcfg]; exact hplain _)] at e
    cases e
    exact not_notFatal_fatal _ _ hlive
  cases hf : fetchInstr c s with
  | underRun u =>
    rw [hf] at he
    refine (not_fatal ?_ he).elim
    obtain ⟨-, e⟩ | ⟨-, e⟩ | ⟨-, e⟩ | ⟨j, -, -, -, e⟩ | ⟨j, -, -, -, e⟩ := fetchInstr_cases c s <;>
      cases e.symm.trans hf <;> rfl
  | illegal u =>
    rw [hf] at he
    refine (not_fatal ?_ he).elim
    obtain ⟨-, e⟩ | ⟨-, e⟩ | ⟨-, e⟩ | ⟨j, -, -, -, e⟩ | ⟨j, -, -, -, e⟩ := fetchInstr_cases c s <;>
      cases e.symm.trans hf
    rfl
  | instr i u =>
    obtain ⟨u', hf', hu⟩ := fetchInstr_samePass h hf
    rw [hf] at he
    rw [hf']
    exact exec_samePass hu (takes_of_fetchInstr hf) he

/-- A firing on two states alike does the same, unless it halts the block (R131). -/
theorem fireLoop_samePass {c : Channel} (n : Nat) {s s' t : State} (h : SamePass c s s')
    (hr : s.cfg.handlersRegular = true) (he : fireLoop n s = .next t) (hlive : t.halted = false) :
    ∃ t', fireLoop n s' = .next t' ∧ SamePass c t t' := by
  induction n generalizing s s' with
  | zero =>
    cases he
    exact ⟨s', rfl, h⟩
  | succ n ih =>
    obtain ⟨u, hpass, ⟨hf, hloop⟩ | ⟨hf, rfl⟩⟩ := fireLoop_succ he
    · obtain ⟨u', hpass', hu⟩ := firingPass_samePass h hr hpass (.inl hf)
      have hcfg := shared_cfg (firingPass_confined hr hpass (.inl hf)).shared
      obtain ⟨t', hloop', ht⟩ := ih hu (by rw [hcfg]; exact hr) hloop
      refine ⟨t', ?_, ht⟩
      rw [fireLoop, hpass']
      exact (if_pos (hu.phase.trans hf)).trans hloop'
    · obtain ⟨t', hpass', ht⟩ := firingPass_samePass h hr hpass (.inr hlive)
      refine ⟨t', ?_, ht⟩
      rw [fireLoop, hpass']
      exact if_neg fun e => hf (ht.phase.symm.trans e)

/-! ### The firing of one channel alone -/

/-- The firing of channel `c` from the state `s`, its output events first. -/
def fireAlone (c : Channel) (s : State) : Host.Outcome State Fault Refusal :=
  fireLoop 129 (enterFiring c (s.withPending []))

/-- The events of an overflow depend on what the channel's firing looks at (R62). -/
theorem overflowEvents_congr {c : Channel} {s t : State} (hown : OwnEq c s t)
    (hshared : shared t = shared s) : overflowEvents t c = overflowEvents s c := by
  have hmove : t.moveOk = s.moveOk := by show (shared t).moveOk = (shared s).moveOk; rw [hshared]
  have hmain : t.mainOk = s.mainOk := by show (shared t).mainOk = (shared s).mainOk; rw [hshared]
  have hvis : t.visOk = s.visOk := by show (shared t).visOk = (shared s).visOk; rw [hshared]
  unfold overflowEvents
  cases hax : c.axis? with
  | some a =>
    have ha := Channel.axis_eq_some.mp hax
    simp only [hown.dir a ha, hown.stepEn a ha, hmove]
  | none =>
    obtain ⟨h1, h2, h3, h4, -⟩ := hown.laser (Channel.axis_eq_none.mp hax)
    simp only [h1, h2, h3, h4, hmain, hvis]

/-- Two states that agree on a channel's own and on what is shared enter its firing alike. -/
theorem enterFiring_samePass {c : Channel} {s t : State} (hown : OwnEq c s t)
    (hshared : shared t = shared s) (l m : List Channel) :
    SamePass c (enterFiring c (s.withPending l)) (enterFiring c (t.withPending m)) := by
  rw [enterFiring_eq, enterFiring_eq]
  exact ⟨⟨hown.q, hown.tmr, hown.dir, hown.stepEn, hown.laser⟩, hshared, rfl, rfl, rfl⟩

/-- A firing with other channels waiting, or after the firings of other channels, is the firing of its
channel alone. -/
theorem fireAlone_of_fires {c : Channel} {s t u : State} {l : List Channel}
    (hr : s.cfg.handlersRegular = true) (hown : OwnEq c s t) (hshared : shared t = shared s)
    (he : fireLoop 129 (enterFiring c (s.withPending l)) = .next u) (hlive : u.halted = false)
    (m : List Channel) :
    ∃ v, fireLoop 129 (enterFiring c (t.withPending m)) = .next v ∧ v.halted = false ∧
      OwnEq c u v := by
  obtain ⟨v, hv, hsame⟩ := fireLoop_samePass 129 (enterFiring_samePass hown hshared l m) hr he hlive
  exact ⟨v, hv, (shared_halted hsame.shared).trans hlive, hsame.own⟩

/-! ### All the firings of a tick -/

/-- The channels of the list have fired from `s` and the block is at `t`: each channel is where its
firing alone brings it, the others and what is shared are as they were, and the events are those of the
overflows in the order of the list. -/
structure Fired (l : List Channel) (s t : State) : Prop where
  live : t.halted = false
  shared : shared t = shared s
  events : t.events = s.events ++ l.flatMap (overflowEvents s)
  pending : s.pending = l → t.pending = []
  fired : ∀ c ∈ l, ∃ u, fireAlone c s = .next u ∧ u.halted = false ∧ OwnEq c u t
  others : ∀ c, c ∉ l → OwnEq c s t

/-- The first firing of a list leaves what is shared and every other channel, and emits its events. -/
theorem firstFiring_confined {c : Channel} {rest : List Channel} {s u : State}
    (hr : s.cfg.handlersRegular = true)
    (he : fireLoop 129 (enterFiring c (s.withPending rest)) = .next u) (hlive : u.halted = false) :
    Proofs.shared u = Proofs.shared s ∧ u.events = s.events ++ overflowEvents s c ∧ u.pending = rest ∧
      ∀ d, d ≠ c → OwnEq d s u := by
  have hr' : (enterFiring c (s.withPending rest)).cfg.handlersRegular = true := by
    rw [enterFiring_eq]
    exact hr
  have h := fireLoop_confined 129 hr' he hlive
  rw [enterFiring_eq] at h
  refine ⟨h.shared, h.events, h.pending, fun d hd => ?_⟩
  obtain ⟨h1, h2, h3, h4, h5⟩ := h.others d hd
  exact ⟨h1, h2, h3, h4, h5⟩

theorem fireAll_cons {c : Channel} {rest : List Channel} {s u : State}
    (h : fireLoop 129 (enterFiring c (s.withPending rest)) = .next u) :
    fireAll (c :: rest) s = if u.halted then .next u else fireAll rest u := by
  simp only [fireAll, h]

/-- The firings that end on a block that is not halted are the firings alone (R213). -/
theorem fired_of_fireAll (l : List Channel) {s t : State} (hn : l.Nodup)
    (hr : s.cfg.handlersRegular = true) (hlive : s.halted = false) (he : fireAll l s = .next t)
    (hend : t.halted = false) : Fired l s t := by
  induction l generalizing s with
  | nil =>
    cases he
    exact ⟨hlive, rfl, by simp, id, by simp, fun c _ => .refl c _⟩
  | cons c rest ih =>
    obtain ⟨hc, hrest⟩ := List.nodup_cons.mp hn
    cases hfire : fireLoop 129 (enterFiring c (s.withPending rest)) with
    | fault r => simp only [fireAll, hfire] at he; cases he
    | refused r => simp only [fireAll, hfire] at he; cases he
    | next u =>
      rw [fireAll_cons hfire] at he
      cases hu : u.halted
      · rw [hu, if_neg Bool.false_ne_true] at he
        obtain ⟨hshared, hevents, hpending, hothers⟩ := firstFiring_confined hr hfire hu
        have hcfg := shared_cfg hshared
        have h := ih hrest (by rw [hcfg]; exact hr) hu he
        refine ⟨hend, h.shared.trans hshared, ?_, fun _ => h.pending hpending, fun d hd => ?_,
          fun d hd => ?_⟩
        · have hmap : rest.flatMap (overflowEvents u) = rest.flatMap (overflowEvents s) :=
            List.flatMap_congr fun d hd => overflowEvents_congr
              (hothers d fun e => hc (e ▸ hd)) hshared
          rw [h.events, hevents, hmap, List.flatMap_cons, List.append_assoc]
        · by_cases hdc : d = c
          · subst hdc
            obtain ⟨v, hv, hvlive, hown⟩ := fireAlone_of_fires hr (.refl d s) rfl hfire hu []
            exact ⟨v, hv, hvlive, hown.symm.trans (h.others d hc)⟩
          · have hd' := (List.mem_cons.mp hd).resolve_left hdc
            obtain ⟨v, hv, hvlive, hown⟩ := h.fired d hd'
            obtain ⟨w, hw, hwlive, hown'⟩ := fireAlone_of_fires (by rw [hcfg]; exact hr)
              (hothers d hdc).symm hshared.symm hv hvlive []
            exact ⟨w, hw, hwlive, hown'.symm.trans hown⟩
        · obtain ⟨hdc, hdr⟩ := not_or.mp (List.mem_cons.not.mp hd)
          exact (hothers d hdc).trans (h.others d hdr)
      · rw [hu, if_pos rfl] at he
        cases he
        exact absurd (hend.symm.trans hu) Bool.false_ne_true

/-- Channels whose firings alone do not halt the block all fire, in any order (R213). -/
theorem fireAll_of_fireAlone (l : List Channel) {s : State} (hn : l.Nodup)
    (hr : s.cfg.handlersRegular = true) (hlive : s.halted = false)
    (hall : ∀ c ∈ l, ∃ u, fireAlone c s = .next u ∧ u.halted = false) :
    ∃ t, fireAll l s = .next t ∧ t.halted = false := by
  induction l generalizing s with
  | nil => exact ⟨s, rfl, hlive⟩
  | cons c rest ih =>
    obtain ⟨hc, hrest⟩ := List.nodup_cons.mp hn
    obtain ⟨v, hv, hvlive⟩ := hall c List.mem_cons_self
    obtain ⟨u, hfire, hu, -⟩ := fireAlone_of_fires hr (.refl c s) rfl hv hvlive rest
    obtain ⟨hshared, -, -, hothers⟩ := firstFiring_confined hr hfire hu
    obtain ⟨t, ht, hend⟩ := ih hrest (by rw [shared_cfg hshared]; exact hr) hu fun d hd => by
      obtain ⟨w, hw, hwlive⟩ := hall d (List.mem_cons_of_mem c hd)
      obtain ⟨w', hw', hwlive', -⟩ := fireAlone_of_fires hr (hothers d fun e => hc (e ▸ hd)) hshared
        hw hwlive []
      exact ⟨w', hw', hwlive'⟩
    exact ⟨t, by rw [fireAll_cons hfire, hu]; exact ht, hend⟩

/-- After the same channels have fired in two orders the states are the same, but for the events, which
are rearranged, and the progress of the tick (R213). -/
theorem fired_order {l m k : List Channel} {s t u : State} (hperm : m.Perm l) (ht : Fired l s t)
    (hu : Fired m (s.withPending k) u) :
    u = { t with phase := u.phase, cur := u.cur, pending := u.pending, events := u.events } ∧
      u.events.Perm t.events := by
  have hshared : shared (s.withPending k) = shared s := rfl
  refine ⟨eq_of_own_of_shared (fun c => ?_) ((hu.shared.trans hshared).trans ht.shared.symm), ?_⟩
  · by_cases hc : c ∈ l
    · obtain ⟨v, hv, -, hown⟩ := ht.fired c hc
      obtain ⟨w, hw, -, hown'⟩ := hu.fired c (hperm.mem_iff.mpr hc)
      have halone : fireAlone c (s.withPending k) = fireAlone c s := rfl
      cases hv.symm.trans (halone.symm.trans hw)
      exact hown.symm.trans hown'
    · have hown := hu.others c fun e => hc (hperm.mem_iff.mp e)
      exact (ht.others c hc).symm.trans ⟨hown.q, hown.tmr, hown.dir, hown.stepEn, hown.laser⟩
  · have hevents : overflowEvents (s.withPending k) = overflowEvents s := rfl
    rw [ht.events, hu.events, hevents]
    exact (hperm.flatMap_right _).append_left _

/-! ### The tick -/

/-- After part 1 of a tick of a block that is not halted (R211): the invariants hold, and the order is in
the list of the channels that wait only. -/
theorem beginTick_order {s : State} (hlive : s.halted = false) (o1 o2 : List Channel) :
    beginTick o2 s = (beginTick o1 s).withPending (beginTick o2 s).pending ∧
      (beginTick o2 s).pending.Perm (beginTick o1 s).pending := by
  rw [beginTick_frame hlive, beginTick_frame hlive]
  exact ⟨rfl, (arrange_perm o2 _).trans (arrange_perm o1 _).symm⟩

theorem beginTick_live {s : State} (hlive : s.halted = false) (order : List Channel) :
    (beginTick order s).halted = false := by
  rw [beginTick_frame hlive]
  exact hlive

/-- The firings of a tick that end on a block that is not halted, as firings alone. -/
theorem beginTick_fired {s v : State} {order : List Channel} (h : Inv s) (hlive : s.halted = false)
    (he : fireAll (beginTick order s).pending (beginTick order s) = .next v)
    (hv : v.halted = false) : Fired (beginTick order s).pending (beginTick order s) v :=
  fired_of_fireAll _ (beginTick_inv h order).pendingOnce (beginTick_inv h order).handlers
    (beginTick_live hlive order) he hv

/-- A tick whose firings end on a block that is not halted goes on with its debouncer (R211). -/
theorem tickAtomic_of_fireAll {s v : State} {order : List Channel} (h : Inv s)
    (hlive : s.halted = false)
    (he : fireAll (beginTick order s).pending (beginTick order s) = .next v)
    (hv : v.halted = false) :
    tickAtomic order s = .next ((Quiet.debounceTick v).withPhase .idle) := by
  have hcfg := shared_cfg (beginTick_fired h hlive he hv).shared
  rw [tickAtomic_live hlive, restOfTick]
  simp only [he, hv, Bool.false_eq_true, if_false]
  exact endTick_regular (by rw [hcfg]; exact (beginTick_inv h order).handlers)

/-- A tick that ends on a block that is not halted: its firings ended so. -/
theorem fireAll_of_tickAtomic {s t : State} {order : List Channel}
    (he : tickAtomic order s = .next t) (hend : t.halted = false) :
    s.halted = false ∧ ∃ v, v.halted = false ∧
      fireAll (beginTick order s).pending (beginTick order s) = .next v := by
  cases hh : s.halted
  · refine ⟨rfl, ?_⟩
    rw [tickAtomic_live hh, restOfTick] at he
    cases hfire : fireAll (beginTick order s).pending (beginTick order s) with
    | fault r => rw [hfire] at he; cases he
    | refused r => rw [hfire] at he; cases he
    | next v =>
      simp only [hfire] at he
      cases hv : v.halted
      · exact ⟨v, hv, rfl⟩
      · rw [hv, if_pos rfl] at he
        cases he
        exact absurd (hend.symm.trans hv) Bool.false_ne_true
  · rw [tickAtomic_halted hh] at he
    cases he
    exact absurd (hend.symm.trans hh) Bool.false_ne_true

/-- Settles O57: each channel's firing is the one it would have alone, so all fire in the other order
too, to the same state but for the events, and the debouncer looks at none of what differs. -/
theorem firingOrderShowsOnlyInEventsAndFaults :
    Obligations.FiringOrderShowsOnlyInEventsAndFaults := by
  intro s t o1 o2 h hp he hend
  obtain ⟨hlive, v, hv, hfire⟩ := fireAll_of_tickAtomic he hend
  have hfired := beginTick_fired h hlive hfire hv
  obtain ⟨hbegin, hperm⟩ := beginTick_order hlive o1 o2
  have h2 := beginTick_inv h o2
  obtain ⟨w, hfire', hw⟩ := fireAll_of_fireAlone _ h2.pendingOnce h2.handlers
    (beginTick_live hlive o2) fun c hc => by
      obtain ⟨u, hu, hulive, -⟩ := hfired.fired c (hperm.mem_iff.mp hc)
      exact ⟨u, by rw [hbegin]; exact hu, hulive⟩
  have hfired' := beginTick_fired h hlive hfire' hw
  have hpend := hfired.pending rfl
  have hpend' := hfired'.pending rfl
  rw [hbegin] at hfired'
  obtain ⟨heq, hevents⟩ := fired_order hperm hfired hfired'
  have htick : w = withTick w.events w.cur w.phase v := by
    rw [hpend', ← hpend] at heq
    exact heq
  cases he.symm.trans (tickAtomic_of_fireAll h hlive hfire hv)
  refine ⟨_, tickAtomic_of_fireAll h hlive hfire' hw, ?_, ?_⟩
  · rw [htick, Quiet.debounceTick_withTick]
    rfl
  · obtain ⟨-, -, -, -, -, -, -, hv', -⟩ := Quiet.debounceTick_keeps v
    obtain ⟨-, -, -, -, -, -, -, hw', -⟩ := Quiet.debounceTick_keeps w
    rw [State.withPhase_events, State.withPhase_events, hv', hw']
    exact hevents

end Sys2Proof.Proofs
end

section
/-! PROOFS. The interpreter's pass and the atoms (40_atoms_control.md, 41_atoms_motor.md,
42_atoms_laser.md): what a step of a firing runs, and what each meaning writes. -/

namespace Sys2Proof.Proofs

open Sys2Proof Sys2Proof.Machine

/-! ### What leaves the slots -/

/-- Where the queues are as they were, so are the slots. -/
theorem slotsKept_of_q {s t : State} (h : t.q = s.q) : SlotsKept s t := fun c i => by
  rw [slotRead, slotRead, h]

/-- Writing one queue with the same slots leaves all slots. -/
theorem slotsKept_of_buf {s t : State} {c : Channel} {u : Queue} (h : t.q = s.q.set c u)
    (hbuf : u.buf = (s.q.get c).buf) : SlotsKept s t := fun d i => by
  rw [slotRead, slotRead, h, PerChan.get_set]
  by_cases e : d = c
  · subst e
    simp [hbuf]
  · simp [e]

/-! ### The pass -/

/-- A pass runs what the fetch gives (R131). -/
theorem step_of_fetch {s t : State} {i : Instr} (hok : s.cfg.ok = true) (hp : s.phase = .firing)
    (hf : fetchInstr s.cur s = .instr i t) : step s = exec i t := by
  rw [step_firing hok hp, firingPass, hf]

/-- A queue that holds an atom begins with its front one. -/
theorem front_of_contents {u : Queue} {a : Word} {ws : List Word} (h : u.contents = a :: ws) :
    u.count ≠ 0 ∧ u.front = a ∧ u.pop.contents = ws := by
  have hc : u.count ≠ 0 := fun e => by rw [u.contents_empty e] at h; cases h
  rw [u.contents_pop hc] at h
  obtain ⟨h1, h2⟩ := List.cons.inj h
  exact ⟨hc, h1, h2⟩

/-- What is left of a queue `u` after the first `n` atoms have been taken (R193). -/
structure TakenFrom (u : Queue) (n : Nat) (v : Queue) : Prop where
  head : v.head = u.head + Fin.ofNat 128 n
  count : v.count + n = u.count
  buf : v.buf = u.buf
  running : v.running = u.running

theorem takenFrom_pop {u : Queue} (hc : u.count ≠ 0) : TakenFrom u 1 u.pop :=
  ⟨rfl, by rw [Queue.pop_count]; omega, rfl, rfl⟩

theorem takenFrom_pop_pop {u : Queue} (hc : 2 ≤ u.count) : TakenFrom u 2 u.pop.pop := by
  refine ⟨?_, by rw [Queue.pop_count, Queue.pop_count]; omega, rfl, rfl⟩
  rw [Queue.pop_head, Queue.pop_head, add_assoc]
  rfl

/-- Where the atoms at the head of its queue decode to an instruction a channel takes, the fetch gives
that instruction, with its atoms taken (R109, R131, R179). -/
theorem fetchInstr_of_decode {s : State} {c : Channel} {i : Instr} {rest : List Word}
    (hmap : s.cfg.opmapOk = true) (hdec : decode s.cfg (s.q.get c).contents = .ok (i, rest))
    (ht : takesInstr s.cfg c i = true) :
    ∃ v, fetchInstr c s = .instr i (s.withQ (s.q.set c v)) ∧ v.contents = rest ∧
      TakenFrom (s.q.get c) (encode s.cfg i).length v := by
  obtain ⟨v, hws, hv, rfl⟩ | ⟨o, n, hws, -, ho, rfl, -⟩ | ⟨o, hws, -, ho, rfl, -⟩ := decode_eq_ok hdec
  · obtain ⟨hc, hfront, hrest⟩ := front_of_contents hws
    have hd : decodeAt s.cfg c (s.q.get c).front = .literal v := by
      rw [hfront, decodeAt_literal c hv]
    exact ⟨_, fetchInstr_literal hc hd, hrest, takenFrom_pop hc⟩
  · obtain ⟨hc, hfront, hrest⟩ := front_of_contents hws
    obtain ⟨hc2, hoperand, hrest2⟩ := front_of_contents hrest
    rw [takesInstr_instrOf] at ht
    have hd : decodeAt s.cfg c (s.q.get c).front = .op o := by
      rw [hfront, decodeAt_opnum hmap, if_pos ht]
    rw [Queue.pop_count] at hc2
    have hf := fetchInstr_operand (by omega) hd ho
    rw [hoperand, popState_popState] at hf
    refine ⟨_, hf, hrest2, ?_⟩
    rw [encode_instrOf, if_pos ho]
    exact takenFrom_pop_pop (by omega)
  · obtain ⟨hc, hfront, hrest⟩ := front_of_contents hws
    rw [takesInstr_instrOf] at ht
    have hd : decodeAt s.cfg c (s.q.get c).front = .op o := by
      rw [hfront, decodeAt_opnum hmap, if_pos ht]
    refine ⟨_, fetchInstr_plain hc hd ho, hrest, ?_⟩
    rw [encode_instrOf, ho]
    exact takenFrom_pop hc

/-- Settles O6: the fetch gives the decoded instruction, with its one or two atoms taken. -/
theorem stepRunsDecodedInstruction : Obligations.StepRunsDecodedInstruction := by
  intro s i rest hok hp hdec ht
  obtain ⟨v, hf, hrest, htaken⟩ := fetchInstr_of_decode (ok_opmap hok) hdec ht
  refine ⟨_, step_of_fetch hok hp hf, ?_⟩
  simp only [State.withQ_q, PerChan.get_set_same]
  exact ⟨htaken.head, htaken.count, hrest, htaken.buf, htaken.running, rfl⟩

/-- Settles O7: the atom is dequeued, and `Fatal` records the fault and halts. -/
theorem illegalAtomIsFatal : Obligations.IllegalAtomIsFatal := by
  intro s hok hp hdone hc hd
  have hstep : step s = (fatal .swSyntax (popState s.cur s)).outcome := by
    rw [step_firing hok hp, firingPass, fetchInstr_illegal hc hd]
  rw [fatal_done (s := popState s.cur s) _ hdone] at hstep
  exact ⟨_, hstep, engineState_congr fun c => by
      rw [show ((popState s.cur s).q = s.q.set s.cur (s.q.get s.cur).pop) from rfl, PerChan.get_set]
      split <;> simp_all, slotsKept_of_buf rfl rfl, rfl⟩

/-- Settles O8: the fetch under-runs, with the opcode taken or nothing, and `Fatal` records the fault
and halts. -/
theorem underRunIsFatal : Obligations.UnderRunIsFatal := by
  intro s hok hp hdone
  refine ⟨fun hc => ?_, fun o ho hl hc hfront => ?_⟩
  · rw [step_firing hok hp, firingPass, fetchInstr_empty hc]
    exact congrArg Ran.outcome (fatal_done _ hdone)
  · have htakes : takes s.cfg s.cur o = true := by
      rw [hl]
      cases o <;> simp [hasOperand] at ho <;> rfl
    have hd : decodeAt s.cfg s.cur (s.q.get s.cur).front = .op o := by
      rw [hfront, decodeAt_opnum (ok_opmap hok), if_pos htakes]
    have hstep : step s = (fatal .swUnderflow (popState s.cur s)).outcome := by
      rw [step_firing hok hp, firingPass, fetchInstr_noOperand hc hd ho]
    rw [fatal_done (s := popState s.cur s) _ hdone] at hstep
    refine ⟨_, hstep, slotsKept_of_buf rfl rfl, ?_⟩
    have hpop : (s.q.get s.cur).pop =
        { s.q.get s.cur with head := (s.q.get s.cur).head + 1, count := 0 } := by
      rw [Queue.pop, hc]
    rw [popState, hpop]
    rfl

/-! ### The control atoms -/

/-- Settles O9: `IVL v` is one write to the channel's timer. -/
theorem literalLoadsTheInterval : Obligations.LiteralLoadsTheInterval := by
  intro s v
  obtain ⟨t, ht⟩ : ∃ t, t = endFiring (s.withTmr (s.tmr.set s.cur { s.tmr.get s.cur with ivl := v })) :=
    ⟨_, rfl⟩
  have htmr : t.tmr.get s.cur = { s.tmr.get s.cur with ivl := v } := by simp [ht, endFiring]
  have hothers : ∀ c, c ≠ s.cur → t.tmr.get c = s.tmr.get c := fun c hc => by
    simp [ht, endFiring, PerChan.get_set_other _ _ hc]
  refine ⟨t, by rw [ht]; rfl, by rw [htmr], by rw [htmr], by rw [htmr], hothers, ?_, by rw [ht]; rfl⟩
  exact slotsKept_of_q (by rw [ht]; rfl)

/-- Settles O10: `STOP` writes the channel's timer and queue, and the engine state is that of the flags
it leaves. -/
theorem stopIdlesTheChannel : Obligations.StopIdlesTheChannel := by
  intro s
  obtain ⟨t, ht⟩ : ∃ t, t = endFiring (stopChannel s.cur s) := ⟨_, rfl⟩
  have htmr : t.tmr.get s.cur = { s.tmr.get s.cur with on := false } := by
    simp [ht, endFiring, stopChannel]
  have hq : t.q.get s.cur = { s.q.get s.cur with running := false } := by
    simp [ht, endFiring, stopChannel]
  have hothers : ∀ c, c ≠ s.cur → t.tmr.get c = s.tmr.get c ∧ t.q.get c = s.q.get c := fun c hc => by
    simp [ht, endFiring, stopChannel, PerChan.get_set_other _ _ hc]
  have hoff : (t.q.get s.cur).running = false := by rw [hq]
  refine ⟨t, by rw [ht]; rfl, by rw [htmr], hoff, by rw [htmr], by rw [htmr], by rw [hq], by rw [hq],
    fun hrun => ?_, fun hlast => ?_, hothers, ?_, by rw [ht]; rfl⟩
  · have hall := (engineState_eq_running s).mp hrun
    obtain ⟨c, hc⟩ : ∃ c, c ≠ s.cur := by
      by_cases h : Channel.x = s.cur
      · exact ⟨.l, fun e => by cases h.trans e.symm⟩
      · exact ⟨.x, h⟩
    exact (engineState_eq_stopping t).mpr ⟨⟨c, by rw [(hothers c hc).2]; exact hall c⟩, s.cur, hoff⟩
  · refine (engineState_eq_stopped t).mpr fun c => ?_
    by_cases hc : c = s.cur
    · rw [hc, hoff]
    · rw [(hothers c hc).2]
      exact hlast c hc
  · rw [ht]
    exact slotsKept_of_buf rfl rfl

/-- Settles O17: on a channel that does not take it no arm gets past its first test. -/
theorem wrongChannelIsFatal : Obligations.WrongChannelIsFatal := fun _ _ => exec_wrong_channel

/-! ### The motor atoms -/

/-- What a motor channel emits at an overflow (R62). -/
theorem overflowEvents_axis (s : State) (a : Axis) :
    overflowEvents s a.channel = if s.stepEn.get a && s.moveOk then [.step a (s.dir.get a)] else [] := by
  rw [overflowEvents, Axis.axis_channel]

/-- Settles O11: each atom is one write to the register of its axis. -/
theorem motorRegisterAtomsWriteTheirRegister : Obligations.MotorRegisterAtomsWriteTheirRegister := by
  refine ⟨fun s b hb => ⟨?_, ?_, ?_, ?_⟩, fun s i hl hi => exec_wrong_channel ?_⟩
  · exact ⟨_, onAxis_axis hb _, PerAxis.get_set_same .., fun d hd => PerAxis.get_set_other _ _ hd,
      slotsKept_of_q rfl, rfl⟩
  · exact ⟨_, onAxis_axis hb _, PerAxis.get_set_same .., fun d hd => PerAxis.get_set_other _ _ hd,
      slotsKept_of_q rfl, rfl⟩
  · refine ⟨_, onAxis_axis hb _, PerAxis.get_set_same .., ?_, ?_,
      fun d hd => PerAxis.get_set_other _ _ hd, slotsKept_of_q rfl, rfl⟩
    · simp [outputLevels]
    · rw [hb, overflowEvents_axis]
      simp
  · refine ⟨_, onAxis_axis hb _, PerAxis.get_set_same .., ?_, ?_,
      fun d hd => PerAxis.get_set_other _ _ hd, slotsKept_of_q rfl, rfl⟩
    · simp [outputLevels]
    · rw [hb, overflowEvents_axis]
      simp
  · simp only [List.mem_cons, List.not_mem_nil, or_false] at hi
    rw [hl]
    obtain rfl | rfl | rfl | rfl := hi <;> rfl

/-- A loop atom whose exit condition holds goes on with the state as it was (R156). -/
theorem pollAtom_exits {o : Opcode} {has : PerAxis Bool} {ex : Axis → Bool} {a : Axis} {s : State}
    (hcur : s.cur = a.channel) (hhas : has.get a = true) (hex : ex a = true) :
    pollAtom o has ex s = .next s := by
  rw [pollAtom, onAxis_axis hcur, if_pos hhas, if_pos hex]

/-- A loop atom whose exit condition does not hold pushes itself back (R156). -/
theorem pollAtom_holds {o : Opcode} {has : PerAxis Bool} {ex : Axis → Bool} {a : Axis} {s : State}
    (hcur : s.cur = a.channel) (hhas : has.get a = true) (hex : ex a = false) :
    pollAtom o has ex s = pushBack s.cur (opnum s.cfg o) s := by
  rw [pollAtom, onAxis_axis hcur, if_pos hhas, hex, if_neg Bool.false_ne_true]

/-- Settles O12: each of the four polls the switch its name says, at its polarity. -/
theorem loopAtomsGoOnAtTheirExit : Obligations.LoopAtomsGoOnAtTheirExit := fun s b hb =>
  ⟨fun hhas hx => pollAtom_exits (ex := fun a => s.inp.minReached.get a) hb hhas hx,
    fun hhas hx => pollAtom_exits (ex := fun a => !s.inp.minReached.get a) hb hhas (by rw [hx]; rfl),
    fun hhas hx => pollAtom_exits (ex := fun a => s.inp.maxReached.get a) hb hhas hx,
    fun hhas hx => pollAtom_exits (ex := fun a => !s.inp.maxReached.get a) hb hhas (by rw [hx]; rfl)⟩

/-- The loop atom `o` polls a switch that axis `b` has, and its exit condition does not hold (R157 to
R160). -/
def Holds (o : Opcode) (b : Axis) (s : State) : Prop :=
  (o = .loopUntilMin ∧ s.cfg.hasMin.get b = true ∧ s.inp.minReached.get b = false) ∨
  (o = .loopWhileMin ∧ s.cfg.hasMin.get b = true ∧ s.inp.minReached.get b = true) ∨
  (o = .loopUntilMax ∧ s.cfg.hasMax.get b = true ∧ s.inp.maxReached.get b = false) ∨
  (o = .loopWhileMax ∧ s.cfg.hasMax.get b = true ∧ s.inp.maxReached.get b = true)

theorem Holds.exec {o : Opcode} {b : Axis} {s : State} (h : Holds o b s) (hcur : s.cur = b.channel) :
    exec (instrOf 0 o) s = pushBack s.cur (opnum s.cfg o) s := by
  obtain ⟨rfl, hhas, hx⟩ | ⟨rfl, hhas, hx⟩ | ⟨rfl, hhas, hx⟩ | ⟨rfl, hhas, hx⟩ := h
  · exact pollAtom_holds (ex := fun a => s.inp.minReached.get a) hcur hhas hx
  · exact pollAtom_holds (ex := fun a => !s.inp.minReached.get a) hcur hhas (by rw [hx]; rfl)
  · exact pollAtom_holds (ex := fun a => s.inp.maxReached.get a) hcur hhas hx
  · exact pollAtom_holds (ex := fun a => !s.inp.maxReached.get a) hcur hhas (by rw [hx]; rfl)

theorem Holds.takes {o : Opcode} {b : Axis} {s : State} (h : Holds o b s) (hcur : s.cur = b.channel) :
    takes s.cfg s.cur o = true ∧ hasOperand o = false := by
  obtain ⟨rfl, hhas, -⟩ | ⟨rfl, hhas, -⟩ | ⟨rfl, hhas, -⟩ | ⟨rfl, hhas, -⟩ := h <;>
    exact ⟨by simpa [Sys2Proof.takes, hcur] using hhas, rfl⟩

/-- Settles O13: the pass takes the atom and pushes it back, which restores the queue. -/
theorem loopAtomsHoldTheirChannel : Obligations.LoopAtomsHoldTheirChannel := by
  intro s b o hok hp hb hc hle hfront hholds
  obtain ⟨htakes, ho⟩ := Holds.takes hholds hb
  have hd : decodeAt s.cfg s.cur (s.q.get s.cur).front = .op o := by
    rw [hfront, decodeAt_opnum (ok_opmap hok), if_pos htakes]
  have hexec : exec (instrOf 0 o) (popState s.cur s) =
      pushBack s.cur (opnum s.cfg o) (popState s.cur s) :=
    Holds.exec (s := popState s.cur s) hholds hb
  have hq : (popState s.cur s).q = s.q.set s.cur (s.q.get s.cur).pop := rfl
  have hroom : ((popState s.cur s).q.get s.cur).count < 128 := by
    rw [hq, PerChan.get_set_same, Queue.pop_count]
    omega
  rw [step_of_fetch hok hp (fetchInstr_plain hc hd ho), hexec, pushBack_eq hroom, hq,
    PerChan.get_set_same, PerChan.set_set_same, ← hfront, Queue.unpop_pop _ hc, PerChan.set_get_same]
  rfl

/-- Settles O14: the push back writes one queue, and one slot of it. -/
theorem loopAtomsPushThemselvesBack : Obligations.LoopAtomsPushThemselvesBack := by
  intro s b i o hb hheld
  have hexec : exec i s = pushBack s.cur (opnum s.cfg o) s := by
    obtain ⟨rfl, rfl, h⟩ | ⟨rfl, rfl, h⟩ | ⟨rfl, rfl, h⟩ | ⟨rfl, rfl, h⟩ := hheld
    · exact Holds.exec (b := b) (.inl ⟨rfl, h⟩) hb
    · exact Holds.exec (b := b) (.inr (.inl ⟨rfl, h⟩)) hb
    · exact Holds.exec (b := b) (.inr (.inr (.inl ⟨rfl, h⟩))) hb
    · exact Holds.exec (b := b) (.inr (.inr (.inr ⟨rfl, h⟩))) hb
  rw [hexec]
  refine ⟨fun hroom => ⟨_, pushBack_eq hroom, ?_⟩, fun hfull => if_pos hfull⟩
  have hslot : ∀ c j, slotRead (s.withQ (s.q.set s.cur ((s.q.get s.cur).unpop (opnum s.cfg o)))) c j =
      if c = s.cur then (if j = (s.q.get s.cur).backSlot then opnum s.cfg o else slotRead s s.cur j)
      else slotRead s c j := fun c j => by
    rw [slotRead_set_queue, Queue.unpop_slot]
    rfl
  have hq : (endFiring (s.withQ (s.q.set s.cur ((s.q.get s.cur).unpop (opnum s.cfg o))))).q =
      s.q.set s.cur ((s.q.get s.cur).unpop (opnum s.cfg o)) := rfl
  refine ⟨by rw [hq, PerChan.get_set_same]; rfl, by rw [hq, PerChan.get_set_same]; rfl,
    by rw [hq, PerChan.get_set_same]; rfl, (hslot s.cur _).trans (by rw [if_pos rfl, if_pos rfl]),
    fun c j hne => (hslot c j).trans ?_, fun c hc => by rw [hq, PerChan.get_set_other _ _ hc], rfl⟩
  by_cases hc : c = s.cur
  · rw [if_pos hc, if_neg (hne.resolve_left (not_not_intro hc)), hc]
  · rw [if_neg hc]

/-! ### The laser atoms -/

/-- How often an overflow of the laser channel emits one main pulse (R62). -/
theorem count_mainPulse (s : State) (n : Word) :
    (overflowEvents s .l).count (.mainPulse n) =
      if s.mainMode = .pulsed ∧ s.mainOk = true ∧ n = s.mainPulseDur then 1 else 0 := by
  have hvis : List.count (OutEvent.mainPulse n)
      (if decide (s.visMode = .pulsed) && s.visOk then [.visPulse s.visPulseDur] else []) = 0 := by
    split <;> simp
  simp only [overflowEvents, Channel.axis?, List.count_append, hvis]
  by_cases hn : n = s.mainPulseDur
  · simp only [hn, and_true]
    split <;> simp_all
  · have hne : s.mainPulseDur ≠ n := fun e => hn e.symm
    split <;> simp [hn, hne]

/-- How often it emits one visible pulse (R62). -/
theorem count_visPulse (s : State) (n : Word) :
    (overflowEvents s .l).count (.visPulse n) =
      if s.visMode = .pulsed ∧ s.visOk = true ∧ n = s.visPulseDur then 1 else 0 := by
  have hmain : List.count (OutEvent.visPulse n)
      (if decide (s.mainMode = .pulsed) && s.mainOk then [.mainPulse s.mainPulseDur] else []) = 0 := by
    split <;> simp
  simp only [overflowEvents, Channel.axis?, List.count_append, hmain, Nat.zero_add]
  by_cases hn : n = s.visPulseDur
  · simp only [hn, and_true]
    split <;> simp_all
  · have hne : s.visPulseDur ≠ n := fun e => hn e.symm
    split <;> simp [hn, hne]

theorem no_mainPulse {s : State} (h : s.mainMode ≠ .pulsed) (n : Word) :
    .mainPulse n ∉ overflowEvents s .l :=
  List.count_eq_zero.mp ((count_mainPulse s n).trans (if_neg fun e => h e.1))

theorem no_visPulse {s : State} (h : s.visMode ≠ .pulsed) (n : Word) :
    .visPulse n ∉ overflowEvents s .l :=
  List.count_eq_zero.mp ((count_visPulse s n).trans (if_neg fun e => h e.1))

/-- Settles O15: each atom is one write to a mode, which the levels and the pulses follow. -/
theorem laserModeAtomsWriteTheirMode : Obligations.LaserModeAtomsWriteTheirMode := by
  intro s hl
  have hmain : ∀ m, onLaser (fun t => t.withMainMode m) s = .next (s.withMainMode m) :=
    fun m => onLaser_laser hl _
  have hvis : ∀ m, onLaser (fun t => t.withVisMode m) s = .next (s.withVisMode m) :=
    fun m => onLaser_laser hl _
  refine ⟨⟨_, hmain .off, rfl, rfl, ?_, slotsKept_of_q rfl, rfl⟩,
    ⟨_, hmain .pulsed, rfl, rfl, fun n => ?_, slotsKept_of_q rfl, rfl⟩,
    ⟨_, hmain .continuous, rfl, rfl, ?_, slotsKept_of_q rfl, rfl⟩,
    ⟨_, hvis .off, rfl, rfl, ?_, slotsKept_of_q rfl, rfl⟩,
    ⟨_, hvis .pulsed, rfl, rfl, fun n => ?_, slotsKept_of_q rfl, rfl⟩,
    ⟨_, hvis .continuous, rfl, rfl, ?_, slotsKept_of_q rfl, rfl⟩⟩
  · exact no_mainPulse (by simp)
  · rw [count_mainPulse]
    simp
  · exact no_mainPulse (by simp)
  · exact no_visPulse (by simp)
  · rw [count_visPulse]
    simp
  · exact no_visPulse (by simp)

/-- Settles O16: each atom is one write to its register. -/
theorem laserOperandAtomsWriteTheirRegister : Obligations.LaserOperandAtomsWriteTheirRegister := by
  intro s n hl
  have hdur : onLaser (fun t => t.withMainPulseDur n) s = .next (s.withMainPulseDur n) :=
    onLaser_laser hl _
  have hvis : onLaser (fun t => t.withVisPulseDur n) s = .next (s.withVisPulseDur n) :=
    onLaser_laser hl _
  have hpower : onLaser (fun t => t.withMainPower n) s = .next (s.withMainPower n) :=
    onLaser_laser hl _
  exact ⟨⟨_, hdur, rfl, slotsKept_of_q rfl, rfl⟩, ⟨_, hvis, rfl, slotsKept_of_q rfl, rfl⟩,
    ⟨_, hpower, rfl, slotsKept_of_q rfl, rfl, rfl⟩⟩

end Sys2Proof.Proofs
end

section
/-! PROOFS. The host's operations: the reads and the refusals, the queues' `enqueue` (43_queue_ops.md), the
engine (44_engine_ops.md), the wait (R220), the trap and the halted block (60_exceptions.md). -/

namespace Sys2Proof.Proofs

open Sys2Proof Sys2Proof.Machine

/-! ### Reads and refusals -/

/-- The documented names are those of the model, by index (R301). -/
theorem listed_faultNames :
    [(0, "F_ESTOP"), (1, "F_LID_OPEN"), (2, "F_LID_CLOSED"), (3, "F_WATER_FLOW"),
      (4, "F_WATER_TEMP"), (5, "F_SERIAL_FRAME"), (6, "F_SERIAL_OVERRUN"),
      (7, "F_SERIAL_PARITY"), (8, "F_SW_LEXICAL"), (9, "F_SW_SYNTAX"),
      (10, "F_SW_UNDERFLOW"), (11, "F_SW_MISSED_INT")] =
      FaultKind.all.map fun k => (k.index.val, faultName k) := rfl

/-- Settles O30: a read writes the answer field only, and an index below 12 names its kind. -/
theorem hostReadsHaveNoSideEffect : Obligations.HostReadsHaveNoSideEffect := by
  intro s c
  refine ⟨rfl, rfl, rfl, rfl, rfl, fun i hi => ?_, fun i name hmem => ?_⟩
  · obtain ⟨k, rfl⟩ := FaultKind.exists_index hi
    exact ⟨hostStep_faultIsSet k s, hostStep_faultOverridden k s⟩
  · rw [listed_faultNames, List.mem_map] at hmem
    obtain ⟨k, -, e⟩ := hmem
    cases e
    rw [hostStep, onFault_index, hostRead_eq]

/-- Settles O41: `ok` asks for 9 MHz, and an index from 12 up names no kind. -/
theorem slowClockAndUnknownFaultAreRefused : Obligations.SlowClockAndUnknownFaultAreRefused := by
  refine ⟨fun s hslow => ?_, fun s i hi => ?_⟩
  · have hok : s.cfg.ok = false := by
      rw [Config.ok, decide_eq_false (Nat.not_le.mpr hslow), Bool.false_and, Bool.false_and,
        Bool.false_and]
    rw [step, hok, if_neg Bool.false_ne_true]
  · have refuse : ∀ f, onFault i f = .refused (.badFaultIndex i) := fun f => by
      rw [onFault, faultOfIndex_high hi]
    exact ⟨refuse _, refuse _, refuse _, refuse _, refuse _⟩

/-! ### The trap -/

/-- Settles O22: with no handler `Fatal` writes one bit, the alert and the end of the step. -/
theorem fatalOnlyRecordsAndHalts : Obligations.FatalOnlyRecordsAndHalts := by
  intro s k hdone
  refine ⟨_, fatal_done k hdone, ?_, fun j hj => ?_, engineState_congr fun _ => rfl, rfl, rfl, rfl,
    slotsKept_of_q rfl, rfl⟩
  · exact (bit_after_set ..).trans (if_pos rfl)
  · exact (bit_after_set ..).trans (if_neg fun e => hj (FaultKind.index_injective e))

/-- A host operation that is `Fatal(F_SW_UNDERFLOW)`, where that fault has no handler (R305). -/
theorem hostAct_fatal {f : State → Ran} {s : State} (hlive : s.halted = false)
    (hf : f s = fatal .swUnderflow s) (hdone : (s.cfg.handlerOf .swUnderflow).raised = .done) :
    hostAct f s = .next { s with
      faultSet := s.faultSet.set 10 true
      alert := s.alert || !s.faultSet[10]
      halted := true
      phase := .idle
      pending := []
      hostResult := none } :=
  hostAct_abandoned hlive (hf.trans (fatal_done _ hdone))

/-! ### Appending -/

/-- Settles O21: with room the append writes one queue, and one slot of it; without, `Fatal`. -/
theorem enqueueAppendsOrFaults : Obligations.EnqueueAppendsOrFaults := by
  intro s c a hlive
  refine ⟨fun hroom => ?_, fun hfull hdone => hostAct_fatal hlive (if_pos hfull) hdone⟩
  have hpush : enqueue c a s = .on (s.withQ (s.q.set c ((s.q.get c).push a))) := if_neg hroom.ne
  obtain ⟨t, ht⟩ :
      ∃ t, t = (s.withQ (s.q.set c ((s.q.get c).push a))).withHostResult none := ⟨_, rfl⟩
  have hq : t.q = s.q.set c ((s.q.get c).push a) := by rw [ht]; rfl
  have hslot : ∀ d j, slotRead t d j =
      if d = c then (if j = (s.q.get c).tail then a else slotRead s c j) else slotRead s d j :=
    fun d j => by
      rw [slotRead, hq, ← State.withQ_q s (s.q.set c ((s.q.get c).push a))]
      exact (slotRead_set_queue s c d _ j).trans (by rw [Queue.push_slot]; rfl)
  refine ⟨t, by rw [ht]; exact hostAct_on hlive hpush, by rw [hq, PerChan.get_set_same]; rfl,
    by rw [hq, PerChan.get_set_same]; rfl, by rw [hq, PerChan.get_set_same]; rfl,
    by rw [hslot, if_pos rfl, if_pos rfl], fun d j hne => ?_,
    fun d hd => by rw [hq, PerChan.get_set_other _ _ hd], by rw [ht]; rfl⟩
  rw [hslot]
  by_cases hd : d = c
  · rw [if_pos hd, if_neg (hne.resolve_left (not_not_intro hd)), hd]
  · rw [if_neg hd]

/-! ### The halted block -/

/-- On a halted block a host operation other than `reset` writes its answer only (R306). -/
theorem hostStep_halted {op : HostOp} {s t : State} (hh : s.halted = true) (hop : op ≠ .reset)
    (h : hostStep op s = .next t) : t = { s with hostResult := t.hostResult } := by
  have act : ∀ {f}, hostAct f s = .next t → t = { s with hostResult := t.hostResult } := fun e => by
    cases (hostAct_halted hh _).symm.trans e
    rfl
  have read : ∀ {r}, hostRead r s = .next t → t = { s with hostResult := t.hostResult } := fun e => by
    cases e
    rfl
  have onIndex : ∀ {i f}, (∀ k, f k = .next t → t = { s with hostResult := t.hostResult }) →
      onFault i f = .next t → t = { s with hostResult := t.hostResult } := fun {i f} hf e => by
    unfold onFault at e
    split at e
    · exact hf _ e
    · cases e
  cases op
  case raiseFault i => exact onIndex (fun k => act) h
  case lowerFault i => exact onIndex (fun k => act) h
  case faultIsSet i => exact onIndex (fun k => read) h
  case faultOverridden i => exact onIndex (fun k => read) h
  case getFaultName i => exact onIndex (fun k => read) h
  case queueIsFull => exact read (r := fun t => .bool (queueIsFull t _)) h
  case queueIsEmpty => exact read (r := fun t => .bool (queueIsEmpty t _)) h
  case queueIsRunning => exact read (r := fun t => .bool (t.q.get _).running) h
  case getEngineState => exact read (r := fun t => .engine (engineState t)) h
  case readGates => exact read (r := fun t => .gates t.moveOk t.mainOk t.visOk) h
  case reset => exact absurd rfl hop
  case stopEngineImmediately => exact act (f := fun t => .on (stopEngine t)) h
  all_goals exact act h

/-- On a halted block an event other than `reset` writes the inputs and the host's answer only (R306). -/
theorem runEvent_halted {e : Event} {s t : State} (hh : s.halted = true)
    (he : ∀ h, e ≠ .host h .reset) (h : runEvent e s = .next t) :
    t = { s with inp := t.inp, hostResult := t.hostResult } := by
  cases e with
  | tick order =>
    cases h
    rw [beginTick_halted hh]
  | host g op =>
    have e := hostStep_halted hh (fun e => he g (by rw [e])) h
    rw [e]
  | input sig v =>
    cases h
    rfl

/-- Settles O23: the next event leaves the block, and so does running it. -/
theorem haltedBlockIsFrozen : Obligations.HaltedBlockIsFrozen := by
  intro s t hp hh he hnot
  rw [step_idle (ok_of_step he) hp, stepEvent] at he
  have hblock := nextEvent_block s
  have hh' : (nextEvent s).2.halted = true := by rw [hblock]; exact hh
  have e := runEvent_halted hh' hnot he
  rw [hblock] at e
  rw [e]

theorem clearBlock_stopped (s : State) : engineState (clearBlock s) = .stopped :=
  (engineState_eq_stopped _).mpr fun c => by simp [clearBlock, resetQueue]

/-- What a `reset` that ends leaves (R340). -/
theorem hostStep_reset {s : State} (h : s.inp.stopRaw = true → s.cfg.handlersRegular = true) :
    hostStep .reset s = .next ((Quiet.updateSafety (clearBlock s)).withHostResult none) := by
  rw [hostStep, resetBlock_ends h]
  rfl

/-- Settles O24: any other step leaves a halted block as it is, and `reset` clears `halted`. -/
theorem onlyResetLeavesHalted : Obligations.OnlyResetLeavesHalted := by
  refine ⟨fun s t h hh he hlive => ?_, fun s hs => ⟨_, hostStep_reset hs, ?_, ?_⟩⟩
  · by_contra hnot
    have e := haltedBlockIsFrozen s t (h.haltedIdle hh) hh he (not_exists.mp hnot)
    have : t.halted = s.halted := by rw [e]
    rw [this, hh] at hlive
    cases hlive
  · rw [State.withHostResult_halted, Quiet.updateSafety_halted]
    rfl
  · rw [State.withHostResult_phase, Quiet.updateSafety_phase]
    rfl

/-! ### The engine -/

/-- The bits of the engine mask (R36). -/
theorem engineMask_bit (s : State) (c : Channel) :
    (engineMask s).getLsbD c.index = (s.q.get c).running := by
  have key : ∀ x y z l : Bool,
      let m := BitVec.ofBool l ++ BitVec.ofBool z ++ BitVec.ofBool y ++ BitVec.ofBool x
      m.getLsbD 0 = x ∧ m.getLsbD 1 = y ∧ m.getLsbD 2 = z ∧ m.getLsbD 3 = l := by decide
  obtain ⟨hx, hy, hz, hl⟩ := key s.q.x.running s.q.y.running s.q.z.running s.q.l.running
  cases c
  · exact hx
  · exact hy
  · exact hz
  · exact hl

/-- Settles O25: the mask by its bits, and `reset` stops the engine before its `update_safety`. -/
theorem engineStateFromRunningFlags : Obligations.EngineStateFromRunningFlags := by
  refine ⟨fun s => ⟨engineMask_bit s, engineState_eq_stopped s, engineState_eq_running s,
    engineState_eq_stopping s⟩, fun s hs => ?_⟩
  refine ⟨_, hostStep_reset fun h => Config.regular_of_default (hs h), ?_⟩
  exact (Quiet.updateSafety_safetyOnly (clearBlock s)).stopped (clearBlock_stopped s)

/-- Settles O26: `start_engine` writes every queue's flag and every timer at once. -/
theorem startEngineStartsAllChannels : Obligations.StartEngineStartsAllChannels := by
  intro s hok hlive hstop
  have hq : ∀ c, (startChannels s).q.get c = { s.q.get c with running := true } := fun c => by
    simp [startChannels]
  have htmr : ∀ c, (startChannels s).tmr.get c =
      { on := true, cnt := startCnt s c, ivl := s.cfg.ivlBoot } := fun c => by simp [startChannels]
  refine ⟨(startChannels s).withHostResult none, hostAct_on hlive (if_pos hstop), ?_, fun c => ?_,
    fun c i => ?_, rfl⟩
  · exact (engineState_eq_running _).mpr fun c => congrArg Queue.running (hq c)
  · rw [State.withHostResult_q, State.withHostResult_tmr, hq, htmr]
    exact ⟨rfl, rfl, rfl, rfl, rfl, startCnt_le s c, fun hskew => if_pos hskew⟩
  · rw [slotRead, State.withHostResult_q, hq]
    rfl

theorem someQueueFull_iff (s : State) : someQueueFull s = true ↔ ∃ c, (s.q.get c).count = 128 := by
  simp only [someQueueFull, queueIsFull, Bool.or_eq_true, decide_eq_true_eq]
  constructor
  · rintro (((h | h) | h) | h)
    · exact ⟨_, h⟩
    · exact ⟨_, h⟩
    · exact ⟨_, h⟩
    · exact ⟨_, h⟩
  · rintro ⟨c, h⟩
    cases c <;> simp [h]

/-- Settles O27: by the tests of the two operations. -/
theorem startWhileNotStoppedIsFatal : Obligations.StartWhileNotStoppedIsFatal := by
  intro s hlive hdone
  refine ⟨fun hne => ⟨_, hostAct_fatal hlive (if_neg hne) hdone, engineState_congr fun _ => rfl, rfl⟩,
    fun ⟨hrun, hfull⟩ => ?_, fun hnot => hostAct_on hlive (if_neg ?_)⟩
  · have htest : (decide (engineState s ≠ .running) && someQueueFull s) = true := by
      rw [(someQueueFull_iff s).mpr hfull, decide_eq_true hrun, Bool.and_true]
    have e : maybeStartEngine s = startEngine s := if_pos htest
    show hostAct maybeStartEngine s = hostAct startEngine s
    rw [hostAct_live hlive, hostAct_live hlive, e]
  · rw [Bool.and_eq_true, decide_eq_true_eq, someQueueFull_iff]
    rintro ⟨hrun, c, hc⟩
    obtain h | h := hnot
    · exact hrun h
    · exact h c hc

/-- With the steps disabled and the modes off no channel emits an event (R62). -/
theorem overflowEvents_silent {s : State} (hstep : ∀ b, s.stepEn.get b = false)
    (hmain : s.mainMode = .off) (hvis : s.visMode = .off) (c : Channel) :
    overflowEvents s c = [] := by
  unfold overflowEvents
  split
  · rw [hstep]
    rfl
  · rw [hmain, hvis]
    rfl

/-- Settles O28: the immediate stop, field by field. -/
theorem immediateStopSilencesTheOutputs : Obligations.ImmediateStopSilencesTheOutputs := by
  intro s hlive
  have hstep : ∀ b, (stopEngine s).stepEn.get b = false := fun b => PerAxis.get_ofFn _ b
  have hq : ∀ c, (stopEngine s).q.get c = (s.q.get c).flush := fun c => PerChan.get_ofFn _ c
  have htmr : ∀ c, (stopEngine s).tmr.get c = { s.tmr.get c with on := false } :=
    fun c => PerChan.get_ofFn _ c
  have hstop : hostStep .stopEngineImmediately s = .next ((stopEngine s).withHostResult none) :=
    hostAct_on (f := fun t => .on (stopEngine t)) hlive rfl
  refine ⟨_, hstop, stopEngine_stopped s, fun c => ?_, fun b => ⟨hstep b, ?_⟩, rfl, rfl, rfl, rfl, overflowEvents_silent hstep rfl rfl, fun c i => ?_, rfl⟩
  · rw [State.withHostResult_q, State.withHostResult_tmr, hq, htmr]
    exact ⟨rfl, rfl, rfl, rfl, rfl, rfl⟩
  · exact (PerAxis.get_ofFn _ b).trans (by rw [State.withHostResult_stepEn, hstep, Bool.false_and])
  · rw [slotRead, State.withHostResult_q, hq]
    rfl

/-! ### The wait -/

/-- Only host `h` waits. -/
def OnlyWaits (h : Nat) (w : List Nat) : Prop := ∀ g, g ∈ w ↔ g = h

theorem onlyWaits_single (h : Nat) : OnlyWaits h [h] := fun _ => List.mem_singleton

theorem OnlyWaits.again {h : Nat} {w : List Nat} (hw : OnlyWaits h w) : OnlyWaits h (h :: w) :=
  fun g => by rw [List.mem_cons, hw g, or_self]

theorem mustWait_waiting {b : Bool} {h : Nat} {w : List Nat} (hw : OnlyWaits h w) (op : HostOp) :
    mustWait b w (.host h op) = some h := by
  have : w.contains h = true := List.contains_iff_mem.mpr ((hw h).mpr rfl)
  rw [mustWait, this, Bool.true_or, if_pos rfl]

theorem mustWait_other {b : Bool} {g h : Nat} {w : List Nat} {op : HostOp} (hw : OnlyWaits h w)
    (hg : g ≠ h) (hop : op ≠ .awaitEngineStopped) : mustWait b w (.host g op) = none := by
  have : w.contains g = false := by
    rw [Bool.eq_false_iff, Ne, List.contains_iff_mem, hw g]
    exact hg
  rw [mustWait, this, decide_eq_false hop, Bool.false_and, Bool.or_false, if_neg Bool.false_ne_true]

/-- The first event behind the operations of a waiting host that need not wait is taken (R220). -/
theorem takeEvent_behind {b : Bool} {h : Nat} {e : Event}
    (he : ∀ w, OnlyWaits h w → mustWait b w e = none) (later : List HostOp) (es : List Event)
    {w : List Nat} (hw : OnlyWaits h w) :
    takeEvent b w (later.map (fun op => .host h op) ++ e :: es) =
      some (e, later.map (fun op => .host h op) ++ es) := by
  induction later generalizing w with
  | nil => simp only [List.map_nil, List.nil_append, takeEvent, he w hw]
  | cons op later ih =>
    simp only [List.map_cons, List.cons_append, takeEvent, mustWait_waiting hw, ih hw.again]

/-- With nothing behind them, no event is taken (R220). -/
theorem takeEvent_none {b : Bool} {h : Nat} (later : List HostOp) {w : List Nat}
    (hw : OnlyWaits h w) : takeEvent b w (later.map fun op => .host h op) = none := by
  induction later generalizing w with
  | nil => rfl
  | cons op later ih => simp only [List.map_cons, takeEvent, mustWait_waiting hw, ih hw.again]

theorem mustWait_await (h : Nat) : mustWait false [] (.host h .awaitEngineStopped) = some h := rfl

/-- Where a wait is held, the next event is the one taken behind it (R220). -/
theorem nextEvent_behind {s : State} {h : Nat} {rest es : List Event} {e : Event}
    (hne : engineState s ≠ .stopped) (hs : s.script = .host h .awaitEngineStopped :: rest)
    (htake : takeEvent false [h] rest = some (e, es)) :
    nextEvent s = (e, s.withScript (.host h .awaitEngineStopped :: es)) := by
  simp only [nextEvent, hs, decide_eq_false hne, takeEvent, mustWait_await, htake]

/-- Where nothing is taken behind it, the next event is a tick (log 5). -/
theorem nextEvent_held {s : State} {h : Nat} {rest : List Event}
    (hne : engineState s ≠ .stopped) (hs : s.script = .host h .awaitEngineStopped :: rest)
    (htake : takeEvent false [h] rest = none) :
    nextEvent s = (.tick (Config.freeOrder s.draws), s.withDraws (s.draws + 1)) := by
  simp only [nextEvent, hs, decide_eq_false hne, takeEvent, mustWait_await, htake]

/-- Behind a wait, an event that need not wait is the step (R220). -/
theorem step_behind {s : State} {h : Nat} {later : List HostOp} {e : Event} {es : List Event}
    (hok : s.cfg.ok = true) (hp : s.phase = .idle) (hne : engineState s ≠ .stopped)
    (he : ∀ w, OnlyWaits h w → mustWait false w e = none)
    (hs : s.script = .host h .awaitEngineStopped :: (later.map (fun op => .host h op) ++ e :: es)) :
    step s = runEvent e { s with
      script := .host h .awaitEngineStopped :: (later.map (fun op => .host h op) ++ es) } := by
  rw [step_idle hok hp, stepEvent, nextEvent_behind hne hs
    (takeEvent_behind he later es (onlyWaits_single h))]
  rfl

/-- The wait that returns changes nothing (R220). -/
theorem hostStep_await (s : State) :
    hostStep .awaitEngineStopped s = .next (s.withHostResult none) := by
  show hostAct .on s = _
  cases hh : s.halted
  · exact hostAct_on hh rfl
  · exact hostAct_halted hh _

/-- Settles O29: what is taken behind a waiting host and its operations. -/
theorem awaitHoldsItsHostOnly : Obligations.AwaitHoldsItsHostOnly := by
  intro s h later es hok hp
  refine ⟨fun hne => ⟨fun hs => ?_, fun order hs => ?_, fun sig v hs => ?_, fun g op hg hop hs => ?_⟩,
    fun hstop hs => ?_⟩
  · rw [step_idle hok hp, stepEvent, nextEvent_held hne hs
      (takeEvent_none later (onlyWaits_single h))]
    rfl
  · exact step_behind hok hp hne (fun _ _ => rfl) hs
  · exact step_behind hok hp hne (fun _ _ => rfl) hs
  · exact step_behind hok hp hne (fun w hw => mustWait_other hw hg hop) hs
  · rw [step_idle hok hp, stepEvent, nextEvent, hs, takeEvent_host es (.inr (decide_eq_true hstop))]
    exact hostStep_await (s.withScript es)

end Sys2Proof.Proofs
end

section
/-! PROOFS. Faults and gates (45_safety_fault_ops.md): raising and lowering, `update_safety`, the two
configuration writes; and what `reset` leaves (70_reset_and_hazards.md). -/

namespace Sys2Proof.Proofs

open Sys2Proof Sys2Proof.Machine

/-! ### Raising a fault -/

theorem hostStep_raiseFault (k : FaultKind) (s : State) :
    hostStep (.raiseFault k.index.val) s = hostAct (raiseFault k) s := onFault_index k _

theorem hostStep_lowerFault (k : FaultKind) (s : State) :
    hostStep (.lowerFault k.index.val) s = hostAct (lowerFault k) s := onFault_index k _

/-- The bit and the alert of a raise, with an empty handler (R249). -/
theorem raiseFault_done {k : FaultKind} {s : State} (hclear : faultIsSet s k = false)
    (hdone : (s.cfg.handlerOf k).raised = .done) :
    raiseFault k s = .on { s with faultSet := s.faultSet.set k.index true, alert := true } := by
  rw [raiseFault_plain k (by rw [hdone]; rfl), Quiet.raiseFault,
    if_neg (by rw [hclear]; exact Bool.false_ne_true), hdone]
  rfl

/-- Settles O33: by the test of `raise_fault`, and for regular handlers by the state it ends in. -/
theorem raiseFaultOnTheTransitionOnly : Obligations.RaiseFaultOnTheTransitionOnly := by
  intro s k hlive
  rw [hostStep_raiseFault]
  refine ⟨fun hset => hostAct_on hlive (if_pos hset), fun hclear => ?_,
    fun hclear hdone => hostAct_on hlive (raiseFault_done hclear hdone), fun hclear hr => ?_⟩
  · have e : raiseFault k s = handle (s.cfg.handlerOf k).raised
        { s with faultSet := s.faultSet.set k.index true, alert := true } :=
      if_neg (by rw [hclear]; exact Bool.false_ne_true)
    rw [hostAct_live hlive, e]
    exact (hostAct_live (by exact hlive) _).symm
  · refine ⟨_, hostAct_on hlive (raiseFault_regular k hr), ?_, ?_, ?_, fun j hj => ?_⟩
    · exact (Quiet.raiseFault_bits k k s).trans (by simp)
    · exact (Quiet.raiseFault_alert k s).trans (by simp [hclear])
    · exact (Quiet.raiseFault_halted k s).trans hlive
    · exact (Quiet.raiseFault_bits k j s).trans (by simp [hj])

/-- Raising a fault whose handler has an immediate stop leaves the engine stopped (R252). -/
theorem raiseFault_stopped {k : FaultKind} {s : State} (hclear : faultIsSet s k = false)
    (hstop : (s.cfg.handlerOf k).raised.has .stopEngineImmediately = true) :
    engineState (Quiet.raiseFault k s) = .stopped := by
  rw [Quiet.raiseFault, if_neg (by rw [hclear]; exact Bool.false_ne_true)]
  exact Quiet.runActions_stopped hstop _

/-- By default the three faults of R356 have an immediate stop (R252). -/
theorem default_stops {s : State} (hc : s.cfg.handler = Config.referenceHandler) {k : FaultKind}
    (hk : k ∈ stopFaults) : (s.cfg.handlerOf k).raised.has .stopEngineImmediately = true := by
  rw [default_rows hc]
  revert k
  decide

/-- Settles O34: the handler of each of the three stops the engine. -/
theorem safetyFaultsStopTheEngine : Obligations.SafetyFaultsStopTheEngine := by
  intro s k hlive hc hk hclear
  rw [hostStep_raiseFault]
  obtain ⟨-, -, hstep, hmain, hvis, hempty⟩ | ⟨hno, -⟩ := raise_stops hc k
  · refine ⟨_, hostAct_on hlive (raiseFault_regular k (Config.regular_of_default hc)),
      raiseFault_stopped hclear (default_stops hc hk), hempty, fun b => ?_, hmain, hvis,
      Quiet.raiseFault_dir k s, Quiet.raiseFault_mainPower k s⟩
    rw [State.withHostResult_stepEn, hstep, PerAxis.get_ofFn]
  · obtain hno | hset := hno
    · exact absurd hk hno
    · rw [hclear] at hset
      cases hset

/-- With the gates shut no step output is enabled and no laser level on (R61). -/
theorem outputs_off {s : State}
    (h : s.moveOk = false ∧ s.mainOk = false ∧ s.visOk = false) :
    (∀ b, (outputLevels s).stepOutEn.get b = false) ∧ (outputLevels s).mainLaserOn = false ∧
      (outputLevels s).visLaserOn = false := by
  obtain ⟨hmove, hmain, hvis⟩ := h
  simp [outputLevels, hmove, hmain, hvis]

/-- Settles O37: the raise keeps the gates their functions of a state that has `F_ESTOP` set. -/
theorem estopShutsEveryGate : Obligations.EstopShutsEveryGate := by
  intro s h hlive
  have hestop : faultIsSet (Quiet.raiseFault .estop s) .estop = true := by simp
  have hgates := gates_shut (Quiet.raiseFault_gatesOk .estop h.core.gates h.handlers) hestop
  refine ⟨_, (hostStep_raiseFault .estop s).trans (hostAct_on hlive (raiseFault_regular _ h.handlers)),
    hgates.1, hgates.2.1, hgates.2.2, ?_⟩
  exact outputs_off (s := (Quiet.raiseFault .estop s).withHostResult none) hgates

/-! ### `update_safety` -/

/-- What `update_safety` makes of `s` (R245): the faults by their conditions, the gates by R242 on the
faults it leaves. -/
structure Settled (s t : State) : Prop where
  safety : SafetyOnly s t
  lidOpenFault : faultIsSet t .lidOpen = lidOpenConflict s
  lidClosedFault : faultIsSet t .lidClosed = lidClosedConflict s
  estopFault : faultIsSet t .estop = (faultIsSet s .estop || s.stopDown)
  otherFaults : ∀ k, k ≠ .estop → k ≠ .lidOpen → k ≠ .lidClosed → faultIsSet t k = faultIsSet s k
  moveGate : t.moveOk = !faultIsSet t .estop
  mainGate : t.mainOk = (!faultIsSet t .estop && (!s.lidOpen || s.faultOvr[FaultKind.lidOpen.index]))
  visGate : t.visOk = (!faultIsSet t .estop && (s.lidOpen || s.faultOvr[FaultKind.lidClosed.index]))

theorem settled_updateSafety (s : State) : Settled s (Quiet.updateSafety s) := by
  have hsafe := Quiet.updateSafety_safetyOnly s
  have hbits := Quiet.updateSafety_bits s
  obtain ⟨hmove, hmain, hvis⟩ := Quiet.updateSafety_gates s
  generalize Quiet.updateSafety s = t at hsafe hbits hmove hmain hvis
  refine ⟨hsafe, ?_, ?_, ?_, fun k he ho hc => ?_, hmove, ?_, ?_⟩
  · rw [hbits, if_neg (by decide), if_pos rfl]
  · rw [hbits, if_pos rfl]
  · rw [hbits, if_neg (by decide), if_neg (by decide), Bool.or_comm]
    rfl
  · rw [hbits, if_neg hc, if_neg ho, decide_eq_false he, Bool.false_and, Bool.false_or]
  · rw [hmain, gateMain, faultOverridden_eq, hsafe.lidOpen, hsafe.faultOvr]
  · rw [hvis, gateVis, faultOverridden_eq, hsafe.lidOpen, hsafe.faultOvr]

theorem lidOpenConflict_iff (s : State) :
    lidOpenConflict s = true ↔
      s.laserSel = .main ∧ s.lidOpen = true ∧ s.faultOvr[FaultKind.lidOpen.index] = false := by
  simp [lidOpenConflict, faultOverridden_eq, and_assoc]

theorem lidClosedConflict_iff (s : State) :
    lidClosedConflict s = true ↔
      s.laserSel = .visible ∧ s.lidOpen = false ∧ s.faultOvr[FaultKind.lidClosed.index] = false := by
  simp [lidClosedConflict, faultOverridden_eq, and_assoc]

/-- A lid fault that is as its condition has it is left so (R246). -/
theorem followFault_same {k : FaultKind} {b : Bool} {s : State} (h : faultIsSet s k = b) :
    Quiet.followFault k b s = s := by
  cases b
  · show Quiet.clearFault k s = s
    exact if_neg (by rw [h]; exact Bool.false_ne_true)
  · show Quiet.raiseFault k s = s
    exact if_pos h

/-- Where `update_safety` changes no fault, it raises and lowers none (R245). -/
theorem settleFaults_same {s : State}
    (h : ∀ k, faultIsSet (Quiet.updateSafety s) k = faultIsSet s k) : Quiet.settleFaults s = s := by
  have hset := settled_updateSafety s
  have hestop : estopStep s = s := by
    unfold estopStep
    split
    · next hd =>
      refine if_pos ?_
      rw [← h, hset.estopFault, hd, Bool.or_true]
    · rfl
  rw [Quiet.settleFaults_eq, hestop, followFault_same ((h _).symm.trans hset.lidOpenFault),
    followFault_same ((h _).symm.trans hset.lidClosedFault)]

/-- A safety operation leaves every timer's counter and interval (R218). -/
theorem safetyOnly_timers {s t : State} (h : SafetyOnly s t) (c : Channel) :
    (t.tmr.get c).cnt = (s.tmr.get c).cnt ∧ (t.tmr.get c).ivl = (s.tmr.get c).ivl := by
  obtain ⟨-, e⟩ | ⟨-, e⟩ := h.channels c <;> rw [e]
  · exact ⟨rfl, rfl⟩
  · exact ⟨rfl, rfl⟩

/-- Settles O38: by what `update_safety` makes of a state, and by its three decisions where no fault
changes. -/
theorem updateSafetyFollowsItsConditions : Obligations.UpdateSafetyFollowsItsConditions := by
  intro s hlive hr
  have hset := settled_updateSafety s
  have hsame : (∀ k, faultIsSet (Quiet.updateSafety s) k = faultIsSet s k) →
      Quiet.updateSafety s = setGates s := fun h => by
    rw [Quiet.updateSafety, settleFaults_same h]
  have hstep : hostStep .updateSafety s = .next ((Quiet.updateSafety s).withHostResult none) :=
    hostAct_on hlive (updateSafety_regular hr)
  generalize Quiet.updateSafety s = t at hset hsame hstep
  refine ⟨_, hstep, ?_, ?_, hset.estopFault, hset.otherFaults, hset.moveGate, hset.mainGate,
    hset.visGate, hset.safety.slots, fun c => safetyOnly_timers hset.safety c, ?_, fun h => ?_⟩
  · exact (Bool.eq_iff_iff.mp hset.lidOpenFault).trans (lidOpenConflict_iff s)
  · exact (Bool.eq_iff_iff.mp hset.lidClosedFault).trans (lidClosedConflict_iff s)
  · exact congrArg (fun u => u.withHostResult none) hset.safety.eq
  · rw [hsame h]
    rfl

/-! ### The configuration writes -/

/-- What the two configuration writes run `update_safety` on (R262, R263). -/
def configured : HostOp → State → State
  | .setLaserSelect v, s => s.withLaserSel v
  | .setOverride w b, s => s.withFaultOvr (s.faultOvr.set (overrideFault w).index b)
  | _, s => s

/-- A configuration write is `update_safety` on the state with its value (R262, R263). -/
theorem hostStep_configures {s : State} {op : HostOp} (hlive : s.halted = false)
    (hop : (∃ v, op = .setLaserSelect v) ∨ (∃ w b, op = .setOverride w b)) :
    hostStep op s = hostStep .updateSafety (configured op s) := by
  obtain ⟨v, rfl⟩ | ⟨w, b, rfl⟩ := hop
  · show hostAct (setLaserSelect v) s = hostAct updateSafety (s.withLaserSel v)
    rw [hostAct_live hlive, setLaserSelect_eq]
    exact (hostAct_live (by exact hlive) _).symm
  · show hostAct (setOverride w b) s = hostAct updateSafety (s.withFaultOvr _)
    rw [hostAct_live hlive, setOverride_eq]
    exact (hostAct_live (by exact hlive) _).symm

/-- For regular handlers `update_safety` as a host operation settles the state (R245). -/
theorem hostStep_updateSafety {s : State} (hlive : s.halted = false)
    (hr : s.cfg.handlersRegular = true) :
    ∃ t, hostStep .updateSafety s = .next (t.withHostResult none) ∧ Settled s t :=
  ⟨_, hostAct_on hlive (updateSafety_regular hr), settled_updateSafety s⟩

/-- With the emergency stop clear, the selected laser's gate is 0 exactly when its fault is set (R247). -/
theorem selected_gate {s t : State} (h : Settled s t) (hestop : faultIsSet t .estop = false) :
    (t.laserSel = .main → (t.mainOk = false ↔ faultIsSet t .lidOpen = true)) ∧
    (t.laserSel = .visible → (t.visOk = false ↔ faultIsSet t .lidClosed = true)) ∧
    (t.laserSel = .none → faultIsSet t .lidOpen = false ∧ faultIsSet t .lidClosed = false) := by
  rw [h.mainGate, h.visGate, hestop, h.lidOpenFault, h.lidClosedFault, h.safety.laserSel]
  refine ⟨fun hsel => ?_, fun hsel => ?_, fun hsel => ?_⟩
  · simp [lidOpenConflict, faultOverridden_eq, hsel]
  · simp [lidClosedConflict, faultOverridden_eq, hsel]
  · simp [lidOpenConflict, lidClosedConflict, hsel]

/-- Settles O39: the write changes neither the switch nor `F_ESTOP`, and `update_safety` settles. -/
theorem selectedLaserGateMatchesItsLidFault : Obligations.SelectedLaserGateMatchesItsLidFault := by
  intro s op hlive hup hclear hr hop
  have hkept : (configured op s).halted = s.halted ∧ (configured op s).cfg = s.cfg ∧
      (configured op s).stopDown = s.stopDown ∧
      faultIsSet (configured op s) .estop = faultIsSet s .estop := by
    obtain ⟨v, rfl⟩ | ⟨w, b, rfl⟩ := hop
    · exact ⟨rfl, rfl, rfl, rfl⟩
    · exact ⟨rfl, rfl, rfl, rfl⟩
  obtain ⟨hhalted, hcfg, hstop, hestop⟩ := hkept
  obtain ⟨t, e, hset⟩ := hostStep_updateSafety (hhalted.trans hlive) (by rw [hcfg]; exact hr)
  have hno : faultIsSet t .estop = false := by
    rw [hset.estopFault, hestop, hstop, hclear, hup]
    rfl
  exact ⟨_, (hostStep_configures hlive hop).trans e, (selected_gate hset hno :)⟩

/-- An override bit, written and kept by `update_safety` (R263). -/
theorem override_kept {s : State} {w : Override} {b : Bool} (hlive : s.halted = false)
    (hr : s.cfg.handlersRegular = true) :
    ∃ t, hostStep (.setOverride w b) s = .next t ∧ faultOverridden t (overrideFault w) = b ∧
      t.laserSel = s.laserSel ∧
      ∀ i : Fin 16, i ≠ (overrideFault w).index → t.faultOvr[i] = s.faultOvr[i] := by
  obtain ⟨t, e, hset⟩ :=
    hostStep_updateSafety (s := configured (.setOverride w b) s) hlive hr
  have hovr : t.faultOvr = s.faultOvr.set (overrideFault w).index b := hset.safety.faultOvr
  refine ⟨_, (hostStep_configures hlive (.inr ⟨w, b, rfl⟩)).trans e, ?_, hset.safety.laserSel,
    fun i hi => ?_⟩
  · rw [faultOverridden_eq, State.withHostResult_faultOvr, hovr, bit_after_set, if_pos rfl]
  · rw [State.withHostResult_faultOvr, hovr, bit_after_set, if_neg hi]

/-- Settles O40: each write is `update_safety` on the written state, which keeps the value. -/
theorem configurationWritesSettleSafety : Obligations.ConfigurationWritesSettleSafety := by
  intro s v b hlive
  refine ⟨hostStep_configures hlive (.inl ⟨v, rfl⟩), hostStep_configures hlive (.inr ⟨_, b, rfl⟩),
    hostStep_configures hlive (.inr ⟨_, b, rfl⟩), fun hr => ⟨?_, override_kept hlive hr,
      override_kept hlive hr⟩⟩
  obtain ⟨t, e, hset⟩ := hostStep_updateSafety (s := s.withLaserSel v) hlive hr
  exact ⟨_, (hostStep_configures hlive (.inl ⟨v, rfl⟩)).trans e, hset.safety.laserSel,
    hset.safety.faultOvr⟩

/-! ### Lowering a fault -/

/-- With no bit from `NFAULT` up, some fault is set exactly when some kind is (R55). -/
theorem anyFault_iff_kind {s : State} (h : ∀ i : Fin 16, 12 ≤ i.val → s.faultSet[i] = false) :
    anyFault s = true ↔ ∃ k, faultIsSet s k = true := by
  refine ⟨fun hany => ?_, fun ⟨k, hk⟩ => anyFault_of_set hk⟩
  obtain ⟨i, hi⟩ := (anyFault_iff s).mp hany
  by_cases hlt : i.val < 12
  · obtain ⟨k, rfl⟩ := FaultKind.exists_index hlt
    exact ⟨k, hi⟩
  · rw [h i (Nat.not_lt.mp hlt)] at hi
    cases hi

/-- The bit and the alert of a lowering, with an empty handler (R250). -/
theorem clearFault_done {k : FaultKind} {s : State} (hset : faultIsSet s k = true)
    (hdone : (s.cfg.handlerOf k).lowered = .done) :
    Quiet.clearFault k s = settleAlert (setFaultBit k false s) := by
  rw [Quiet.clearFault, if_pos hset, hdone]
  rfl

/-- Settles O35: one bit is cleared, and the alert is that of the faults left. -/
theorem lowerFaultClearsAlertWhenEmpty : Obligations.LowerFaultClearsAlertWhenEmpty := by
  intro s k h hlive
  rw [hostStep_lowerFault]
  refine ⟨fun hclear => hostAct_on hlive (if_neg (by rw [hclear]; exact Bool.false_ne_true)),
    fun hset hdone => ?_⟩
  have hlower : lowerFault k s = .on (settleAlert (setFaultBit k false s)) := by
    rw [lowerFault_plain k (by rw [hdone]; rfl), clearFault_done hset hdone]
  have hbit : ∀ j, faultIsSet (setFaultBit k false s) j = (!decide (j = k) && faultIsSet s j) :=
    fun j => by
      rw [← Quiet.clearFault_bits, clearFault_done hset hdone]
      rfl
  have hhigh : ∀ i : Fin 16, 12 ≤ i.val → (setFaultBit k false s).faultSet[i] = false := fun i hi => by
    rw [setFaultBit_faultSet, bit_after_set, h.noHighFault i hi, ite_self]
  have halert : s.alert = true := h.alertIff.trans (anyFault_of_set hset)
  refine ⟨_, hostAct_on hlive hlower, (hbit k).trans (by simp), fun j hj => (hbit j).trans (by simp [hj]),
    ?_, rfl⟩
  show (s.alert && anyFault (setFaultBit k false s)) = true ↔ _
  rw [halert, Bool.true_and, anyFault_iff_kind hhigh]
  simp only [hbit, Bool.and_eq_true, Bool.not_eq_true', decide_eq_false_iff_not]

/-- By default the lowering of `F_ESTOP` is its bit and then `update_safety` (R252). -/
theorem lower_estop_default {s : State} (hc : s.cfg.handler = Config.referenceHandler)
    (hset : faultIsSet s .estop = true) :
    Quiet.lowerFault .estop s = Quiet.updateSafety (Quiet.clearFault .estop s) := by
  have hsettles : (s.cfg.handlerOf .estop).lowered.settles = true := by
    rw [default_rows hc]
    decide
  rw [Quiet.lowerFault, if_pos hset, if_pos hsettles]

/-- By default `update_safety` with the stop switch down and `F_ESTOP` clear stops the engine (R252). -/
theorem updateSafety_stops {s : State} (hc : s.cfg.handler = Config.referenceHandler)
    (hdown : s.stopDown = true) (hclear : faultIsSet s .estop = false) :
    engineState (Quiet.updateSafety s) = .stopped := by
  have hestop : engineState (estopStep s) = .stopped := by
    rw [estopStep, if_pos hdown]
    exact raiseFault_stopped hclear (default_stops hc (by decide))
  rw [Quiet.updateSafety, Quiet.settleFaults_eq]
  exact ((Quiet.followFault_safetyOnly ..).trans ((Quiet.followFault_safetyOnly ..).trans
    (setGates_safetyOnly _))).stopped hestop

/-- Settles O36: the lowering ends in `update_safety`, which looks at the switch again. -/
theorem loweringEstopRechecksTheSwitch : Obligations.LoweringEstopRechecksTheSwitch := by
  intro s h hlive hc hset
  have hstep : hostStep (.lowerFault 0) s =
      .next ((Quiet.lowerFault .estop s).withHostResult none) :=
    (hostStep_lowerFault .estop s).trans (hostAct_on hlive (lowerFault_regular _ h.handlers))
  have hfaults : FaultsOk (Quiet.lowerFault .estop s) := h.core.faults.lowerFault .estop
  have hclear : faultIsSet (Quiet.clearFault .estop s) .estop = false := by simp
  have hlower := lower_estop_default hc hset
  have hsettled := settled_updateSafety (Quiet.clearFault .estop s)
  have hkept := Quiet.clearFault_safetyOnly .estop s
  have hstopped := updateSafety_stops (s := Quiet.clearFault .estop s) (by rw [hkept.cfg]; exact hc)
  generalize Quiet.clearFault .estop s = u at hclear hlower hsettled hkept hstopped
  rw [← hlower] at hsettled hstopped
  generalize Quiet.lowerFault .estop s = t at hstep hfaults hsettled hstopped
  have hestop : faultIsSet t .estop = s.stopDown := by
    rw [hsettled.estopFault, hclear, Bool.false_or, hkept.stopDown]
  refine ⟨fun hdown => ⟨_, hstep, hestop.trans hdown, ?_, ?_, ?_, ?_,
    hstopped (hkept.stopDown.trans hdown) hclear⟩, fun hup => ⟨_, hstep, hestop.trans hup, ?_, ?_, ?_⟩⟩
  · exact hfaults.1.trans (anyFault_of_set (hestop.trans hdown))
  · rw [State.withHostResult_moveOk, hsettled.moveGate, hestop, hdown]
    rfl
  · rw [State.withHostResult_mainOk, hsettled.mainGate, hestop, hdown]
    rfl
  · rw [State.withHostResult_visOk, hsettled.visGate, hestop, hdown]
    rfl
  · rw [State.withHostResult_moveOk, hsettled.moveGate, hestop, hup]
    rfl
  · rw [State.withHostResult_mainOk, hsettled.mainGate, hestop, hup, hkept.lidOpen, hkept.faultOvr]
    rfl
  · rw [State.withHostResult_visOk, hsettled.visGate, hestop, hup, hkept.lidOpen, hkept.faultOvr]
    rfl

/-! ### Reset -/

/-- A cleared block has no fault (R341). -/
theorem clearBlock_bit (s : State) (i : Fin 16) : (clearBlock s).faultSet[i] = false := by
  simp [clearBlock]

/-- The queues and timers after `reset` (R341). -/
theorem clearBlock_channels {s t : State} (h : SafetyOnly (clearBlock s) t) (c : Channel) :
    (t.q.get c).head = 0 ∧ (t.q.get c).count = 0 ∧ (t.q.get c).running = false ∧
      (t.tmr.get c).on = false := by
  obtain ⟨e1, e2⟩ | ⟨e1, e2⟩ := h.channels c <;> rw [e1, e2]
  · simp [clearBlock, resetQueue, resetTimer]
  · exact ⟨rfl, rfl, rfl, rfl⟩

/-- The step enables and modes after `reset` (R341). -/
theorem clearBlock_outputs {s t : State} (h : SafetyOnly (clearBlock s) t) :
    (∀ b, t.stepEn.get b = false) ∧ t.mainMode = .off ∧ t.visMode = .off := by
  obtain ⟨e1, e2, e3⟩ | ⟨e1, e2, e3⟩ := h.outputs <;> rw [e1, e2, e3]
  · simp [clearBlock]
  · exact ⟨fun b => PerAxis.get_ofFn _ b, rfl, rfl⟩

/-- The faults and the alert after `reset` (R341): `F_ESTOP` by the stop input, and no other. -/
theorem clearBlock_faults (s : State) :
    (∀ i : Fin 16,
      (Quiet.updateSafety (clearBlock s)).faultSet[i] = (decide (i = 0) && s.inp.stopRaw)) ∧
    (Quiet.updateSafety (clearBlock s)).alert = s.inp.stopRaw := by
  have hbit : ∀ i : Fin 16,
      (Quiet.updateSafety (clearBlock s)).faultSet[i] = (decide (i = 0) && s.inp.stopRaw) := fun i => by
    have hopen : lidOpenConflict (clearBlock s) = false := by simp [lidOpenConflict, clearBlock]
    have hclosed : lidClosedConflict (clearBlock s) = false := by simp [lidClosedConflict, clearBlock]
    have hdown : (clearBlock s).stopDown = s.inp.stopRaw := by simp [clearBlock]
    rw [Quiet.updateSafety_faultSet, Quiet.settleFaults_bit, hopen, hclosed, clearBlock_bit, hdown,
      Bool.or_false]
    split
    · next e => rw [e]; rfl
    · split
      · next e => rw [e]; rfl
      · rfl
  have hok : FaultsOk (clearBlock s) := ⟨by simp [clearBlock, anyFault], fun i _ => clearBlock_bit s i⟩
  refine ⟨hbit, hok.updateSafety.1.trans (Bool.eq_iff_iff.mpr ?_)⟩
  rw [anyFault_iff]
  simp only [hbit, Bool.and_eq_true, decide_eq_true_eq, exists_eq_left]

/-- Settles O42: `update_safety` on the cleared block. -/
theorem resetLeavesTheDocumentedValues : Obligations.ResetLeavesTheDocumentedValues := by
  intro s hs
  have hstep := hostStep_reset hs
  have hsettled := settled_updateSafety (clearBlock s)
  obtain ⟨hbits, halert⟩ := clearBlock_faults s
  have henv := clearBlock_envKept s
  have hregs : (clearBlock s).stopDown = s.inp.stopRaw ∧ (clearBlock s).lidOpen = s.inp.lidRaw ∧
      (clearBlock s).laserSel = .none ∧ (∀ i : Fin 16, (clearBlock s).faultOvr[i] = false) ∧
      (clearBlock s).dbPending = false ∧ (clearBlock s).halted = false := by
    simp [clearBlock]
  obtain ⟨hdown, hlid, hsel, hovr, harmed, hlive⟩ := hregs
  generalize Quiet.updateSafety (clearBlock s) = t at hstep hsettled hbits halert
  have hsafe := hsettled.safety
  have hestop : faultIsSet t .estop = s.inp.stopRaw := hbits 0
  obtain ⟨hsteps, hmain, hvis⟩ := clearBlock_outputs hsafe
  refine ⟨_, hstep, fun c => clearBlock_channels hsafe c, hsteps, hmain, hvis, hsafe.stopDown.trans hdown,
    hsafe.lidOpen.trans hlid, hsafe.laserSel.trans hsel, fun i => ?_, hbits, halert,
    hsafe.dbPending.trans harmed, hsafe.halted.trans hlive, hsafe.stopped (clearBlock_stopped s),
    ?_, ?_, ?_, hsafe.inp.trans henv.inp, hsafe.cfg.trans henv.cfg, hsafe.script.trans henv.script,
    hsafe.events.trans henv.events⟩
  · rw [State.withHostResult_faultOvr, hsafe.faultOvr]
    exact hovr i
  · exact hsettled.moveGate.trans (by rw [hestop])
  · exact hsettled.mainGate.trans (by rw [hestop, hlid, hovr, Bool.or_false])
  · exact hsettled.visGate.trans (by rw [hestop, hlid, hovr, Bool.or_false])

/-- After power-on every queue and timer is as R341 has it. -/
theorem reset_channel (c : Channel) :
    State.reset.q.get c = Queue.powerOn ∧ State.reset.tmr.get c = Timer.powerOn := by
  cases c <;> exact ⟨rfl, rfl⟩

/-- The state after power-on meets the invariants (R63). -/
theorem reset_inv : Inv State.reset where
  config := by decide
  handlers := by decide
  countLe c := by rw [(reset_channel c).1]; exact Nat.zero_le _
  onRunning c := by rw [(reset_channel c).1, (reset_channel c).2]; rfl
  alertIff := by decide
  moveGate := by decide
  mainGate := by decide
  visGate := by decide
  noHighFault := by decide
  noOtherOverride := by decide
  cntBelow _ c hon := by rw [(reset_channel c).2] at hon; cases hon
  haltedFatal h := nomatch h
  dbBound := Nat.zero_le _
  dbLeft h := nomatch h
  haltedIdle h := nomatch h
  idleDone _ := rfl
  firingChannel h := nomatch h
  pendingChannels _ h := nomatch h
  pendingOnce := List.nodup_nil

/-- Settles O43: each part by evaluation on the one state. -/
theorem powerOnStateMeetsInvariants : Obligations.PowerOnStateMeetsInvariants := by
  refine ⟨reset_inv, rfl, fun c => ?_, rfl, fun b => ?_, rfl, rfl, rfl, by decide, rfl, rfl,
    rfl, rfl, rfl, rfl, rfl, rfl, rfl, rfl⟩
  · rw [(reset_channel c).1, (reset_channel c).2]
    exact ⟨rfl, rfl, rfl, rfl⟩
  · exact PerAxis.get_ofFn (fun _ => false) b

end Sys2Proof.Proofs
end

section
/-! PROOFS. The reference host's chunks (46_host_scheduler_reference.md R282, R283). -/

namespace Sys2Proof.Proofs

open Sys2Proof Sys2Proof.Machine

/-- One interval of the host (R282): it goes no further than the end and is at most `hi`; with at least
`lo` to go it is at least `lo`, and leaves nothing or again at least `lo`. -/
theorem nextIvl_spec {lo hi now fin : Nat} (hlo : 1 ≤ lo) (hhi : 2 * lo ≤ hi + 1) (hnow : now < fin) :
    1 ≤ nextIvl lo hi now fin ∧ now + nextIvl lo hi now fin ≤ fin ∧ nextIvl lo hi now fin ≤ hi ∧
      (lo ≤ fin - now → lo ≤ nextIvl lo hi now fin ∧
        (now + nextIvl lo hi now fin = fin ∨ lo ≤ fin - (now + nextIvl lo hi now fin))) ∧
      (fin - now < lo → nextIvl lo hi now fin = fin - now) := by
  unfold nextIvl
  split
  · omega
  · split <;> omega

theorem chunks_at_end {lo hi now fin : Nat} (n : Nat) (h : fin ≤ now) : chunks lo hi fin n now = [] := by
  cases n with
  | zero => rfl
  | succ n => exact if_pos h

theorem chunks_succ {lo hi now fin : Nat} (n : Nat) (h : now < fin) :
    chunks lo hi fin (n + 1) now =
      nextIvl lo hi now fin :: chunks lo hi fin n (now + nextIvl lo hi now fin) :=
  if_neg (Nat.not_le.mpr h)

/-- With as many steps as there are ticks to go, the chunks sum to the distance, none is above `hi`, and
with at least `lo` to go none is below `lo` (R283). -/
theorem chunks_spec {lo hi fin : Nat} (hlo : 1 ≤ lo) (hhi : 2 * lo ≤ hi + 1) (n : Nat) :
    ∀ now, fin - now ≤ n →
      (chunks lo hi fin n now).sum = fin - now ∧ (∀ k ∈ chunks lo hi fin n now, k ≤ hi) ∧
        (lo ≤ fin - now → ∀ k ∈ chunks lo hi fin n now, lo ≤ k) := by
  induction n with
  | zero =>
    intro now hn
    exact ⟨(Nat.le_zero.mp hn).symm, fun k hk => (List.not_mem_nil hk).elim,
      fun _ k hk => (List.not_mem_nil hk).elim⟩
  | succ n ih =>
    intro now hn
    obtain hend | hnow := (Nat.lt_or_ge now fin).symm
    · rw [chunks_at_end _ hend]
      exact ⟨(Nat.sub_eq_zero_of_le hend).symm, fun k hk => (List.not_mem_nil hk).elim,
        fun _ k hk => (List.not_mem_nil hk).elim⟩
    · obtain ⟨hpos, hfin, hmax, hmin, -⟩ := nextIvl_spec hlo hhi hnow
      obtain ⟨hsum, hle, hge⟩ := ih (now + nextIvl lo hi now fin) (by omega)
      rw [chunks_succ n hnow]
      refine ⟨by rw [List.sum_cons, hsum]; omega, List.forall_mem_cons.mpr ⟨hmax, hle⟩, fun hlong => ?_⟩
      obtain ⟨hthis, hdone | hmore⟩ := hmin hlong
      · rw [chunks_at_end n hdone.ge]
        exact List.forall_mem_cons.mpr ⟨hthis, fun k hk => (List.not_mem_nil hk).elim⟩
      · exact List.forall_mem_cons.mpr ⟨hthis, hge hmore⟩

/-- Settles O60: by induction on the ticks to go; a distance below `lo` is one interval. -/
theorem chunksSumAndStayInBounds : Obligations.ChunksSumAndStayInBounds := by
  intro lo hi now fin hlo hhi hnow
  obtain ⟨hsum, hle, hge⟩ := chunks_spec hlo hhi (fin - now) now (le_refl _)
  refine ⟨hsum, hle, hge, fun hpos hshort => ?_⟩
  have hlt : now < fin := Nat.lt_of_sub_pos hpos
  obtain ⟨n, hn⟩ := Nat.exists_eq_succ_of_ne_zero hpos.ne'
  obtain ⟨-, -, -, -, hone⟩ := nextIvl_spec hlo hhi hlt
  rw [hn, chunks_succ n hlt, hone hshort, chunks_at_end n (by omega), ← hn]

end Sys2Proof.Proofs
end
